-- ==== Sys2Proof/Word.lean ====
section
/-!
DEFINITION. The widths the Nethris N32-16 manual gives its values (spec/00_scope.md, Conventions).
-/
namespace Sys2Proof

/-- A character of the Cue Line, of the Panel Port or of the flash: 8 bits. -/
abbrev Byte := BitVec 8

/-- A station clock value, a fire order, a walk count or an identity: 32 bits (R2, R53, R118, R154). -/
abbrev Word := BitVec 32

/-- A 24-bit field of three characters (R134): a capture, a clock value. -/
abbrev Triple := BitVec 24

/-- A 16-bit signed audio sample (R52, R67). -/
abbrev Sample := BitVec 16

end Sys2Proof
end

