-- ==== Sys2Proof/Syntax.lean ====
section
/-!
DEFINITION. The commands: one constructor of `Instr` for each row of spec/opcode_table.json, in the table's order,
with the operands that the outside brings to the event (entry 4).
-/
namespace Sys2Proof

/-- A character as the Panel Port's receiver samples it (R173): for each of its 11 bits, bit 0 the start bit and bit 10 the
stop bit, the levels read at samples 7, 8 and 9 of that bit. A set bit is a high level. -/
structure RawChar where
  s7 : BitVec 11
  s8 : BitVec 11
  s9 : BitVec 11
  deriving DecidableEq, Repr

/-- The Cue Line as a receiver samples it (R116): the levels of successive samples, oldest first, set for high. The last
is the sample at which the command comes; the first follows the last sample of the line command before (entry 4). -/
abbrev Samples := List Bool

/-- Cue Line rates of the LRATE strap (Table 0-1, R114). -/
inductive LineRate where
  | kbit125 | kbit250 | kbit500 | kbit1000
  deriving DecidableEq, Repr

/-- Panel Port rates of the PRATE strap (Table 0-1, R173). -/
inductive PanelRate where
  | bit115200 | bit230400 | bit460800 | bit921600
  deriving DecidableEq, Repr

/-- Word-clock sources of the WSRC strap (Table 0-1). -/
inductive ClockSource where
  | intern | extern
  deriving DecidableEq, Repr

/-- The five strap groups (Table 0-1). -/
structure Straps where
  stn : BitVec 5
  lrate : LineRate
  prate : PanelRate
  wsrc : ClockSource
  listen : Bool
  deriving DecidableEq, Repr

/-- The commands of the block, one for each row of the table. -/
inductive Instr where
  /-- RESET (R163): the strap pins as they are at the end of the reset. -/
  | reset (straps : Straps)
  /-- IMAGE_LOAD (R155): what the flash holds when the loader reads it (entry 13). -/
  | imageLoad (flash : List Host.Cell)
  /-- SYNC_IDLE (R119). -/
  | syncIdle (line : Samples)
  /-- BREAK_DETECT (R117). -/
  | breakDetect (line : Samples)
  /-- GAP_ERROR (R120). -/
  | gapError (line : Samples)
  /-- LINE_STUCK (R121). -/
  | lineStuck (line : Samples)
  /-- STUCK_RECOVERY (R121). -/
  | stuckRecovery (line : Samples)
  /-- ATTEMPT_START (R122). -/
  | attemptStart (line : Samples)
  /-- ARBITRATION_LOST (R124). -/
  | arbitrationLost (line : Samples)
  /-- BIT_ERROR (R125). -/
  | bitError (line : Samples)
  /-- JAM (R126). -/
  | jam (line : Samples)
  /-- VETO_SLOT_START (R127). -/
  | vetoSlotStart (line : Samples)
  /-- FRAME_ACCEPTED (R128). -/
  | frameAccepted (line : Samples)
  /-- FRAME_VETOED (R128). -/
  | frameVetoed (line : Samples)
  /-- FRAME_DROPPED (R130). -/
  | frameDropped (line : Samples)
  /-- TAKE_FIRE (R4). -/
  | takeFire
  /-- TAKE_RELEASE (R17). -/
  | takeRelease
  /-- TAKE_HUSH (R19). -/
  | takeHush
  /-- TAKE_CLOCK_FIRE (R109). -/
  | takeClockFire
  /-- TAKE_CLOCK (R104). -/
  | takeClock
  /-- TAKE_ARM (R82). -/
  | takeArm
  /-- TAKE_CLAIM (R89). -/
  | takeClaim
  /-- TAKE_CLOSE (R93). -/
  | takeClose
  /-- TAKE_JOIN (R158). -/
  | takeJoin
  /-- REMOVE_WITHOUT_EFFECT (R146). -/
  | removeWithoutEffect
  /-- LAST_ACCEPTED_EXPIRY (R3): the cue whose record has grown old. -/
  | lastAcceptedExpiry (cue : BitVec 10)
  /-- FRAME_CLOCK (R30). -/
  | frameClock
  /-- RAMP_END (R42): the slot whose ramp ends. -/
  | rampEnd (slot : Fin 16)
  /-- FADE_END (R38): the slot whose fade ends. -/
  | fadeEnd (slot : Fin 16)
  /-- BLOCK_COMPLETION (R57). -/
  | blockCompletion
  /-- DISCARDED_COMPLETION (R58). -/
  | discardedCompletion
  /-- WORD_CLOCK_EDGE (R72). -/
  | wordClockEdge
  /-- SUBSTITUTE_FRAME_CLOCK (R72). -/
  | substituteFrameClock
  /-- WCLK_LOST (R73). -/
  | wclkLost
  /-- WCLK_RELOCK (R75). -/
  | wclkRelock
  /-- BUZZER_SAMPLE (R77): the levels of the eight inputs, bit n for input n, set for high. -/
  | buzzerSample (levels : Byte)
  /-- PRESS (R78): the input whose press is taken, and the levels of the sample that completes its run. -/
  | press (input : Fin 8) (levels : Byte)
  /-- HOLDOFF_EXPIRY (R84). -/
  | holdoffExpiry
  /-- WINDOW_EXPIRY (R84). -/
  | windowExpiry
  /-- SETTLE_EXPIRY (R85). -/
  | settleExpiry
  /-- CLOCK_DECREMENT (R103). -/
  | clockDecrement (clock : Fin 4)
  /-- CLOCK_EXPIRY (R103). -/
  | clockExpiry (clock : Fin 4)
  /-- FIRE (R182), a panel command: like every row of the Panel Port's commands it carries the command frame's characters as
  sampled, command code through check (R174). -/
  | fire (frame : List RawChar)
  /-- RELEASE (R183), a panel command. -/
  | release (frame : List RawChar)
  /-- HUSH (R184), a panel command. -/
  | hush (frame : List RawChar)
  /-- ARM (R185), a panel command. -/
  | arm (frame : List RawChar)
  /-- CLOCK (R186), a panel command. -/
  | clock (frame : List RawChar)
  /-- STATUS (R181). -/
  | status (frame : List RawChar)
  /-- READ_VOICE (R187). -/
  | readVoice (frame : List RawChar)
  /-- READ_STACK (R187). -/
  | readStack (frame : List RawChar)
  /-- READ_ROUND (R187). -/
  | readRound (frame : List RawChar)
  /-- READ_CLAIM (R187). -/
  | readClaim (frame : List RawChar)
  /-- READ_PEER (R187). -/
  | readPeer (frame : List RawChar)
  /-- READ_CLOCK (R187). -/
  | readClock (frame : List RawChar)
  /-- READ_OUTPUT (R187). -/
  | readOutput (frame : List RawChar)
  /-- READ_FAULTS (R188). -/
  | readFaults (frame : List RawChar)
  /-- CLEAR_FAULTS (R189). -/
  | clearFaults (frame : List RawChar)
  /-- REPORTS (R190). -/
  | reports (frame : List RawChar)
  /-- RELOAD (R191). -/
  | reload (frame : List RawChar)
  /-- BAD_COMMAND (R174): the command code as sampled. -/
  | badCommand (code : RawChar)
  /-- BAD_CHECK (R174): the command's characters as sampled; the code alone where the code has the error. -/
  | badCheck (chars : List RawChar)
  /-- ANSWER_SENT (R175): with the strap pins, which are sampled if the answer was a RELOAD's (R191). -/
  | answerSent (straps : Straps)
  /-- REPORT_FAULT (R178). -/
  | reportFault
  /-- REPORT_VERDICT (R178). -/
  | reportVerdict
  /-- REPORT_CUE (R178). -/
  | reportCue
  /-- PANEL_BREAK (R174). -/
  | panelBreak
  /-- HEADER_UNUSABLE (R126). -/
  | headerUnusable (line : Samples)
  /-- REPORT_SENT (R175). -/
  | reportSent
  /-- STRAY_START_BIT (R119). -/
  | strayStartBit (line : Samples)
  deriving DecidableEq, Repr

end Sys2Proof
end

