-- ==== Sys2Proof/Config.lean ====
section
/-!
DEFINITION. The free values: what the manual leaves open and the machine goes on from. None has a body, so nothing
can be proved of a value of one; each is applied to a counter of State or to the operands it depends on.
-/
namespace Sys2Proof.Config

/-- A free choice of an order ("in either order": R78, R98, R103, R112, R149). The first argument is State's
`freeCount`, the second the place in the list being ordered (entry 8). -/
opaque freeIndex : Nat → Nat → Nat

/-- The ramp increment after the start of a ramp of 0 frames, for the gain before it and the target (R42 gives the
division by the length and states no increment for a length of 0; entry 9). -/
opaque zeroRampIncrement : Nat → Nat → Int

/-- A character of an answer whose value the manual does not state (entry 10). The first argument is State's
`freeCount`, the second the character's place. -/
opaque unstatedCharacter : Nat → Nat → Byte

end Sys2Proof.Config
end

