-- ==== Sys2Proof/Machine/State.lean ====
section
/-!
DEFINITION. The state of one N32-16 station, block by block (spec/00_scope.md, Block overview), the machine after
reset, and the reasons a step can stop (none: entry 29). INVENTORY.md names the rule and the reset value of each field.
-/
namespace Sys2Proof.Machine

/-! ## Membership (chapter 9) -/

/-- Station states, in the order of their codes (Table 9-1). -/
inductive StationState where
  | loading | imageFault | joining | active | listening | duplicate
  deriving DecidableEq, Repr

/-- Fault reasons of a load, in the order of their codes (Table 9-2, Table 12-5). -/
inductive FaultReason where
  | noReason | unitBlock | header | signature | limit | reference
  deriving DecidableEq, Repr

/-- States of a peer table entry, in the order of their codes (Table 9-3). -/
inductive PeerState where
  | absent | present | foreign | self
  deriving DecidableEq, Repr

/-- A peer table entry (Table 9-3). -/
structure Peer where
  state : PeerState
  identity : Word
  signature : Word
  lastHeard : Option Word
  deriving DecidableEq, Repr

/-- What Membership owns (R154). `heldJoin` is a JOIN held for want of room, with its REPLY flag (R149). -/
structure Membership where
  state : StationState
  identity : Word
  signature : Word
  faultReason : FaultReason
  peers : Vector Peer 32
  heldJoin : Option Bool
  deriving DecidableEq, Repr

/-! ## Line Interface (chapter 7) -/

/-- Receiver states (Table 7-2). -/
inductive RxState where
  | off | sync | outside | inBreak | headerWait | character | between | endMark | slot | stuck
  deriving DecidableEq, Repr

/-- What the station's driver does to the line until the next sample: nothing, or a low for one of the three purposes of
R114. -/
inductive Driver where
  | released | attempt | veto | jam
  deriving DecidableEq, Repr

/-- A character as the receiver hands it to the frame in assembly (R116). -/
structure ReadChar where
  value : Byte
  parityError : Bool
  framingError : Bool
  deriving DecidableEq, Repr

/-- The receiver's search for start bits and its reading of a character (R116): hunting for a low; reading, with the index
of the next sample in the character, the highs among samples 7 to 9 of the present bit, and the bits read so far; or
waiting for the line to be high. -/
inductive Hunt where
  | hunting
  | reading (sample highs : Nat) (bits : BitVec 11)
  | waitHigh
  deriving DecidableEq, Repr

/-- The parts of an attempt (R123). In the break: the samples driven. Waiting for the line to go high after the break. In the
mark: the high samples counted. In the characters: the index of the next sample in the frame, and the highs among samples 7
to 9 of the present bit. After the check character: the samples passed, and the highs that the transmitter reads at samples
7 to 9 of each bit time of the slot. -/
inductive AttemptPhase where
  | breaking (driven : Nat)
  | waiting
  | mark (counted : Nat)
  | sending (sample highs : Nat)
  | slot (passed first second : Nat)
  deriving DecidableEq, Repr

/-- An attempt in progress (section 7.3): the transmit queue entry it sends, by its sequence, its phase, the break-edge
timestamp of its own break once that has been recognised (R117), and whether its header and station characters have read
back as sent so far (R124). -/
structure Attempt where
  entry : Nat
  phase : AttemptPhase
  edge : Option Word
  clean : Bool
  deriving DecidableEq, Repr

/-- What the Line Interface owns, the station clock apart. The receiver: its state; the idle count (R119), the samples the
line has been low and high without a break, and the clock value at the first sample of the low, all in samples of 1/16 tb;
the search for characters; the samples left until a gap error (R120); the frame in assembly with its break edge; the samples
passed of END_MARK or SLOT (R126), and the highs of each bit time of the slot (R128). Of the driver: the wait to jam, whether
the station character has been read in it, and the samples left of a jam (R126); whether this station vetoes the slot (R127);
the veto owed after a bit error in a check character, as the index of the last sample in that character's time (R125). -/
structure LineInterface where
  rx : RxState
  idleCount : Nat
  lows : Nat
  highs : Nat
  lowEdge : Word
  hunt : Hunt
  gapLeft : Nat
  breakEdge : Word
  assembling : Bool
  frame : List ReadChar
  passed : Nat
  slotFirst : Nat
  slotSecond : Nat
  jamWait : Bool
  jamReady : Bool
  jamLeft : Nat
  slotVeto : Bool
  vetoOwed : Option Nat
  driver : Driver
  attempt : Option Attempt
  deriving DecidableEq, Repr

/-! ## Frame Queues (chapter 8) -/

/-- Frame kinds (Table 8-1). -/
inductive FrameKind where
  | hush | join | close | claim | arm | fire | release | clock
  deriving DecidableEq, Repr

/-- A receive queue entry (Table 8-2). -/
structure RxEntry where
  frame : List Byte
  edge : Word
  joining : Bool
  deriving DecidableEq, Repr

/-- The receive queue, oldest entry first (R144), and the moment its head became the head (R145). -/
structure RxQueue where
  entries : List RxEntry
  headSince : Nat
  deriving DecidableEq, Repr

/-- The blocks that place frames (Table 8-3). -/
inductive Producer where
  | panelPort | membership | lockoutUnit | clockUnit
  deriving DecidableEq, Repr

/-- A transmit queue entry (Table 8-3). `placedAt` is the moment of its placing, from which a sample of the line finds it in
the queue (entry 4). -/
structure TxEntry where
  frame : List Byte
  producer : Producer
  cls : Nat
  seq : Nat
  fails : Nat
  withdrawn : Bool
  placedAt : Nat
  deriving DecidableEq, Repr

/-- The transmit queue, in the order of placing (R147), and the next entry sequence. -/
structure TxQueue where
  entries : List TxEntry
  nextSeq : Nat
  deriving DecidableEq, Repr

/-! ## Show tables (chapter 10) -/

/-- Cue kinds, in the order of their codes (Table 12-9). -/
inductive CueKind where
  | noCue | sting | jingle | bed | applause
  deriving DecidableEq, Repr

/-- Release modes of a cue (Table 10-4). -/
inductive ReleaseMode where
  | tail | fade
  deriving DecidableEq, Repr

/-- Play policies (Table 10-4). -/
inductive PlayPolicy where
  | restart | layer | ignore
  deriving DecidableEq, Repr

/-- A cue record (Table 10-4). Times are in ms. -/
structure CueRecord where
  kind : CueKind
  level : Nat
  choke : Nat
  duckMask : BitVec 16
  duckDepth : Nat
  duckRamp : Nat
  zoneMask : Byte
  firstStep : Nat
  stepCount : Nat
  loopFirst : Nat
  loopLast : Nat
  loopCount : Nat
  releaseMode : ReleaseMode
  releaseTime : Nat
  attack : Nat
  policy : PlayPolicy
  refire : Nat
  deriving DecidableEq, Repr

/-- A step pool record (R171). -/
structure StepRecord where
  clip : Nat
  start : Nat
  length : Nat
  gain : Nat
  deriving DecidableEq, Repr

/-- A clip directory record (R171). -/
structure ClipRecord where
  address : Nat
  length : Nat
  deriving DecidableEq, Repr

/-- A station table record (R169): four zones and the polarity mask, a set bit active-high. -/
structure StationRecord where
  zones : List Byte
  polarity : Byte
  deriving DecidableEq, Repr

/-- A round profile (R172). Times are in ms; cues are a number or none. -/
structure ProfileRecord where
  holdoff : Nat
  window : Nat
  settle : Nat
  falseCue : Option Nat
  noClaimCue : Option Nat
  eligible : List (Nat × Nat)
  deriving DecidableEq, Repr

/-- A compare point (R172). -/
structure ComparePoint where
  enabled : Bool
  value : Triple
  cue : BitVec 16
  deriving DecidableEq, Repr

/-- The show tables (chapter 10). A list shorter than its table stands for a table whose missing records hold the
values of R168 for "no image". -/
structure ShowTables where
  stations : List StationRecord
  cues : List CueRecord
  steps : List StepRecord
  clips : List ClipRecord
  inputMap : List (Option Nat)
  profiles : List ProfileRecord
  compare : List ComparePoint
  deriving DecidableEq, Repr

/-! ## Cue Dispatcher (chapter 1) -/

/-- What the dispatcher owns: the fire order counter (R2) and the last-accepted records (R3), as (cue, value) pairs in
rising order of cue; a cue not listed has the record "none". -/
structure Dispatcher where
  fireOrder : Word
  lastAccepted : List (Nat × Word)
  deriving DecidableEq, Repr

/-! ## Voice Pool (chapter 2) -/

/-- Voice states, in the order of their codes (Table 2-2, Table 12-6). -/
inductive VoiceState where
  | idle | priming | playing | releasing | resuming
  deriving DecidableEq, Repr

/-- Release paths, in the order of their codes (Table 2-1). -/
inductive ReleasePath where
  | noPath | tail | fade
  deriving DecidableEq, Repr

/-- A block buffer (R53): a run of consecutive frames of the walk, beginning at walk count `first`. Its fill level is
the number of frames it holds. -/
structure Buffer where
  first : Word
  frames : List Sample
  deriving DecidableEq, Repr

/-- A place in a cue's walk (R32): step offset, frame position, loop passes remaining. -/
structure Cursor where
  step : Nat
  pos : Nat
  passes : Nat
  deriving DecidableEq, Repr

/-- A voice context (Table 2-1), with the walk counts of R53. Gain now is in 1/65,536, and so is the increment. `tailGlide`
says that the step glide to the first tail step is still to start, at the first frame played (R36). -/
structure Voice where
  state : VoiceState
  cue : Nat
  level : Nat
  fireOrder : Word
  trim : Byte
  step : Nat
  pos : Nat
  passes : Nat
  path : ReleasePath
  primed : Bool
  gainNow : Nat
  gainTarget : Nat
  rampIncrement : Int
  rampLeft : Nat
  ducked : Bool
  tailGlide : Bool
  buffer0 : Buffer
  buffer1 : Buffer
  cursor : Option Cursor
  playCount : Word
  cursorCount : Word
  deriving DecidableEq, Repr

/-- A suspend stack entry (R46). -/
structure StackEntry where
  cue : Nat
  level : Nat
  fireOrder : Word
  trim : Byte
  step : Nat
  pos : Nat
  passes : Nat
  gainTarget : Nat
  deriving DecidableEq, Repr

/-- The voice pool: 16 slots, the suspend stack (top first) and the counts of groups 1 to 15 (R27, R44, R46). -/
structure VoicePool where
  voices : Vector Voice 16
  stack : List StackEntry
  duck : Vector Nat 15
  deriving DecidableEq, Repr

/-! ## Clip Fetch Unit (chapter 3) -/

/-- A segment of a block (R52): a clip, its first frame and a frame count. -/
structure Segment where
  clip : Nat
  first : Nat
  count : Nat
  deriving DecidableEq, Repr

/-- A block request (R54). `second` says that it names buffer 1. -/
structure Request where
  slot : Fin 16
  second : Bool
  first : Word
  length : Nat
  segments : List Segment
  seq : Nat
  deriving DecidableEq, Repr

/-- The read in flight: its request, whether its voice still owns it (R56), and the moment of its completion (R52). -/
structure Flight where
  request : Request
  owned : Bool
  doneAt : Nat
  deriving DecidableEq, Repr

/-- The fetch arbiter's list and read (R54, R55). `portFree` is the end of the 0.2 µs for which chip select stays high
after the last transfer (R52). -/
structure FetchUnit where
  requests : List Request
  flight : Option Flight
  nextSeq : Nat
  portFree : Nat
  deriving DecidableEq, Repr

/-! ## Mixer and Word Clock Monitor (chapter 4) -/

/-- Output state (Table 4-1). -/
structure Output where
  zone : Byte
  sum : Int
  presented : Int
  clip : Bool
  deriving DecidableEq, Repr

/-- Word Clock Monitor states (Table 4-4). -/
inductive ClockMode where
  | intern | locked | lost
  deriving DecidableEq, Repr

/-- Word Clock Monitor state (section 4.3). Moments are in 1/240 µs since the end of reset. -/
structure WordClock where
  mode : ClockMode
  reference : Nat
  miss : Nat
  recovery : Nat
  lastEdge : Option Nat
  deriving DecidableEq, Repr

/-! ## Lockout Unit (chapter 5) -/

/-- Debounce state of an input (R77). `level` is the debounced level, `none` for unset; `last` is the sample before. -/
structure Debounce where
  level : Option Bool
  run : Nat
  runStart : Word
  last : Option Bool
  deriving DecidableEq, Repr

/-- Round states, in the order of their codes (Table 5-2, Table 12-6). -/
inductive RoundState where
  | idle | holdoff | isOpen | settling | closed
  deriving DecidableEq, Repr

/-- A claim list entry, and a verdict's winner (Table 5-1): station, input and capture in µs of round time. -/
structure Claim where
  station : Nat
  input : Nat
  capture : Nat
  deriving DecidableEq, Repr

/-- Verdict sources (Table 5-1). -/
inductive VerdictSource where
  | own | line
  deriving DecidableEq, Repr

/-- Press states of an own input, in the order of their codes (Table 5-1). -/
inductive PressState where
  | noPress | claimed | falseStart
  deriving DecidableEq, Repr

/-- The own claim of an input (Table 5-1): none, held with what its frame will carry, or queued as an entry. -/
inductive OwnClaim where
  | absent
  | held (falseStart : Bool) (capture : Nat)
  | queued (entry : Nat)
  deriving DecidableEq, Repr

/-- The own CLOSE (Table 5-1). -/
inductive OwnClose where
  | absent
  | held
  | queued (entry : Nat)
  deriving DecidableEq, Repr

/-- The round record (Table 5-1), with the latch of R80 (`timeHeld`) and the once-per-round settle expiry of R85
(`settled`). -/
structure Round where
  state : RoundState
  identity : Option (Byte × Byte)
  profile : Nat
  reference : Word
  timeHeld : Bool
  settled : Bool
  excluded : List (Nat × Nat)
  claims : List Claim
  verdict : Option Claim
  source : VerdictSource
  differed : Bool
  press : Vector PressState 8
  late : Vector Nat 8
  ownClaim : Vector OwnClaim 8
  ownClose : OwnClose
  deriving DecidableEq, Repr

/-- What the Lockout Unit owns (chapter 5). `sampleDue` is the earliest moment of the next sample (R77). -/
structure Lockout where
  debounce : Vector Debounce 8
  sampleDue : Nat
  round : Round
  roundCounter : Byte
  deriving DecidableEq, Repr

/-! ## Segment Clock Unit (chapter 6) -/

/-- Clock states, in the order of their codes (R102, Table 12-5). -/
inductive ClockState where
  | unset | stopped | running | expired
  deriving DecidableEq, Repr

/-- The own copy of a compare point (Table 6-1): none; held, with its epoch, the moment it was held and the order of
its match (R108); or queued, with its epoch and entry. -/
inductive OwnCopy where
  | absent
  | held (epoch : Byte) (since order : Nat)
  | queued (epoch : Byte) (entry : Nat)
  deriving DecidableEq, Repr

/-- A clock record (Table 6-1). -/
structure ClockRecord where
  state : ClockState
  value : Triple
  epoch : Byte
  fired : Vector Bool 4
  phase : Option Word
  copies : Vector OwnCopy 4
  deriving DecidableEq, Repr

/-- The four clock records and the count that orders matches (R108). -/
structure SegmentClocks where
  records : Vector ClockRecord 4
  matchSeq : Nat
  deriving DecidableEq, Repr

/-! ## Panel Port (chapter 11) -/

/-- A completed command, as the buffer keeps it (R175): a well-formed one with its arguments, or one complete with
BAD_COMMAND or BAD_CHECK, with the kind character its answer echoes. -/
inductive PanelCommand where
  | status
  | fire (cue : BitVec 16) (trim : Byte)
  | release (cue : BitVec 16) (mode : Byte)
  | hush (mask : Byte)
  | arm (profile : Byte)
  | clock (clock op : Byte) (value : Triple)
  | readVoice (slot : Byte)
  | readStack (index : Byte)
  | readRound
  | readClaim (index : Byte)
  | readPeer (station : Byte)
  | readClock (clock : Byte)
  | readOutput (output : Byte)
  | readFaults
  | clearFaults
  | reports (mask : Byte)
  | reload
  | badCommand (kind : Byte)
  | badCheck (kind : Byte)
  deriving DecidableEq, Repr

/-- The command receiver: waiting for a break, or taking a command's characters (R173, R174). -/
inductive PanelReceiver where
  | hunting | assembling
  deriving DecidableEq, Repr

/-- A formed answer: its kind character, its body (the answer code first), and whether it answers a RELOAD (R191). -/
structure Answer where
  kind : Byte
  body : List Byte
  reload : Bool
  deriving DecidableEq, Repr

/-- The transmitter: idle, or sending the characters of an answer or of a report, check included. -/
inductive PanelTx where
  | idle
  | answering (chars : List Byte)
  | reporting (chars : List Byte)
  deriving DecidableEq, Repr

/-- Outcomes, in the order of their codes (Table 1-2, section 12.3). -/
inductive FireOutcome where
  | played | layered | restarted | ignoredBusy | noVoice | notHere | unknownCue | released | notPlaying | hushed
  | dropped
  deriving DecidableEq, Repr

/-- An outcome record (R24, R179). -/
structure OutcomeRecord where
  tag : BitVec 16
  cue : BitVec 16
  kind : FrameKind
  outcome : FireOutcome
  edge : Word
  deriving DecidableEq, Repr

/-- The last verdict copy (R178): the round identity, the verdict and whether it differed. -/
structure VerdictCopy where
  station : Byte
  number : Byte
  verdict : Option Claim
  differed : Bool
  deriving DecidableEq, Repr

/-- What the Panel Port owns (Table 11-1). -/
structure PanelPort where
  rx : PanelReceiver
  buffer : Option PanelCommand
  answer : Option Answer
  tx : PanelTx
  faults : BitVec 16
  faultPending : Bool
  verdictPending : Bool
  outcomes : List OutcomeRecord
  mask : BitVec 3
  lastVerdict : Option VerdictCopy
  fireCounter : BitVec 16
  resetSeen : Bool
  overrun : Bool
  deriving DecidableEq, Repr

/-! ## The station -/

/-- One N32-16 station and the queue of commands waiting for it. -/
structure State where
  straps : Straps
  stationClock : Word
  now : Nat
  line : LineInterface
  rxq : RxQueue
  txq : TxQueue
  member : Membership
  tables : ShowTables
  flash : List Host.Cell
  dispatch : Dispatcher
  pool : VoicePool
  fetch : FetchUnit
  outputs : Vector Output 4
  wclk : WordClock
  lockout : Lockout
  clocks : SegmentClocks
  panel : PanelPort
  freeCount : Nat
  pending : List Instr
  deriving DecidableEq, Repr

/-- The faults of the machine. There is none: every row of the table has an effect the manual gives in every state,
or names an event that does not happen there (entries 2 and 29). -/
inductive Fault where
  deriving DecidableEq, Repr

/-- The refusals of the machine. -/
inductive Refusal where
  /-- Raised by `exec` for a row without a meaning; no arm raises it in this model. Safe: the machine stops. -/
  | notModelled (mnemonic : String)
  deriving DecidableEq, Repr

/-! ## Reset values -/

/-- A peer entry after reset (Table 9-3). -/
def Peer.reset : Peer := { state := .absent, identity := 0, signature := 0, lastHeard := none }

/-- The peer table after reset: ABSENT, and SELF for the own number (R154). -/
def Membership.resetPeers (stn : BitVec 5) : Vector Peer 32 :=
  (Vector.replicate 32 Peer.reset).set stn.toNat { Peer.reset with state := .self } stn.isLt

/-- Membership after reset (R154). -/
def Membership.reset (stn : BitVec 5) : Membership :=
  { state := .loading, identity := 0, signature := 0, faultReason := .noReason, peers := Membership.resetPeers stn,
    heldJoin := none }

/-- The Line Interface after reset (R119, R132; entry 25). -/
def LineInterface.reset : LineInterface :=
  { rx := .off, idleCount := 0, lows := 0, highs := 0, lowEdge := 0, hunt := .hunting, gapLeft := 0, breakEdge := 0,
    assembling := false, frame := [], passed := 0, slotFirst := 0, slotSecond := 0, jamWait := false, jamReady := false,
    jamLeft := 0, slotVeto := false, vetoOwed := none, driver := .released, attempt := none }

/-- The show tables when no image is held (R168): every lookup gives the values of R168. -/
def ShowTables.reset : ShowTables :=
  { stations := [], cues := [], steps := [], clips := [], inputMap := [], profiles := [], compare := [] }

/-- An empty block buffer. -/
def Buffer.empty : Buffer := { first := 0, frames := [] }

/-- A voice slot after reset (R27, R51). -/
def Voice.reset : Voice :=
  { state := .idle, cue := 0, level := 0, fireOrder := 0, trim := 0, step := 0, pos := 0, passes := 0,
    path := .noPath, primed := false, gainNow := 0, gainTarget := 0, rampIncrement := 0, rampLeft := 0,
    ducked := false, tailGlide := false, buffer0 := Buffer.empty, buffer1 := Buffer.empty, cursor := none, playCount := 0,
    cursorCount := 0 }

/-- The voice pool after reset (R49). -/
def VoicePool.reset : VoicePool :=
  { voices := Vector.replicate 16 Voice.reset, stack := [], duck := Vector.replicate 15 0 }

/-- The Clip Fetch Unit after reset (R51). -/
def FetchUnit.reset : FetchUnit := { requests := [], flight := none, nextSeq := 0, portFree := 0 }

/-- An output after reset (Table 4-1). -/
def Output.reset : Output := { zone := 255, sum := 0, presented := 0, clip := false }

/-- The Word Clock Monitor after reset (R71, R76). R76 gives the two counts for an external word clock alone; the counts of an
INTERNAL monitor are 0 and the reference is the end of reset, from which the first frame clock comes T later (entry 25). -/
def WordClock.reset (wsrc : ClockSource) : WordClock :=
  { mode := match wsrc with | .intern => .intern | .extern => .lost
    reference := 0, miss := 0, recovery := 0, lastEdge := none }

/-- The debounce state of an input after reset (R77; entry 25). -/
def Debounce.reset : Debounce := { level := none, run := 0, runStart := 0, last := none }

/-- The round record after reset (Table 5-1; entry 25 for `timeHeld` and `settled`). -/
def Round.reset : Round :=
  { state := .idle, identity := none, profile := 0, reference := 0, timeHeld := false, settled := false,
    excluded := [], claims := [], verdict := none, source := .own, differed := false,
    press := Vector.replicate 8 .noPress, late := Vector.replicate 8 0, ownClaim := Vector.replicate 8 .absent,
    ownClose := .absent }

/-- The Lockout Unit after reset (R77, R79; section 5.2). -/
def Lockout.reset : Lockout :=
  { debounce := Vector.replicate 8 Debounce.reset, sampleDue := 0, round := Round.reset, roundCounter := 0 }

/-- A clock record after reset (Table 6-1). -/
def ClockRecord.reset : ClockRecord :=
  { state := .unset, value := 0, epoch := 0, fired := Vector.replicate 4 false, phase := none,
    copies := Vector.replicate 4 .absent }

/-- The Segment Clock Unit after reset (R102). -/
def SegmentClocks.reset : SegmentClocks := { records := Vector.replicate 4 ClockRecord.reset, matchSeq := 0 }

/-- The Panel Port after reset (Table 11-1). -/
def PanelPort.reset : PanelPort :=
  { rx := .hunting, buffer := none, answer := none, tx := .idle, faults := 0, faultPending := false,
    verdictPending := false, outcomes := [], mask := 7, lastVerdict := none, fireCounter := 0, resetSeen := true,
    overrun := false }

/-- The strap pins of `State.reset` (entry 12). -/
def Straps.reset : Straps :=
  { stn := 0, lrate := .kbit125, prate := .bit115200, wsrc := .intern, listen := false }

/-- Every block at the values it takes at a reset, with the straps sampled at its end (R163). The entry sequence begins
afresh (R152), at 0 (entry 25). What is outside the
station (the flash) and what is the model's own (the free values' counter, the queue) is given. -/
def State.afterReset (straps : Straps) (flash : List Host.Cell) (freeCount : Nat) (pending : List Instr) : State :=
  { straps := straps, stationClock := 0, now := 0, line := LineInterface.reset,
    rxq := { entries := [], headSince := 0 }, txq := { entries := [], nextSeq := 0 },
    member := Membership.reset straps.stn, tables := ShowTables.reset, flash := flash,
    dispatch := { fireOrder := 0, lastAccepted := [] }, pool := VoicePool.reset, fetch := FetchUnit.reset,
    outputs := Vector.replicate 4 Output.reset, wclk := WordClock.reset straps.wsrc, lockout := Lockout.reset,
    clocks := SegmentClocks.reset, panel := PanelPort.reset, freeCount := freeCount, pending := pending }

/-- The machine right after reset. -/
def State.reset : State := State.afterReset Straps.reset [] 0 []

end Sys2Proof.Machine
end

