-- ==== Sys2Proof/Machine/Operands.lean ====
section
/-!
DEFINITION. Characters, fields, line frames and flash bytes: how the values that commands carry and queues hold are
coded (chapter 7 section 7.1, chapter 8 section 8.1, chapter 12).
-/
namespace Sys2Proof.Machine

/-! ## Fields of several characters: most significant first (R134, R192) -/

/-- A 16-bit field as its two characters. -/
def bytes2 (v : BitVec 16) : List Byte := [v.extractLsb' 8 8, v.extractLsb' 0 8]

/-- A 24-bit field as its three characters. -/
def bytes3 (v : Triple) : List Byte := [v.extractLsb' 16 8, v.extractLsb' 8 8, v.extractLsb' 0 8]

/-- A 32-bit field as its four characters. -/
def bytes4 (v : Word) : List Byte :=
  [v.extractLsb' 24 8, v.extractLsb' 16 8, v.extractLsb' 8 8, v.extractLsb' 0 8]

/-- The 16-bit field that two characters carry. -/
def field2 (a b : Byte) : BitVec 16 := a ++ b

/-- The 24-bit field that three characters carry. -/
def field3 (a b c : Byte) : Triple := a ++ b ++ c

/-- The 32-bit field that four characters carry. -/
def field4 (a b c d : Byte) : Word := a ++ b ++ c ++ d

/-- The number that a run of characters carries. -/
def numberOf (l : List Byte) : Nat := l.foldl (fun n b => n * 256 + b.toNat) 0

/-! ## Checks (R135, R193) -/

/-- The modulo-256 sum of a run of characters. -/
def charSum (l : List Byte) : Byte := l.foldl (· + ·) 0

/-- A frame's characters with the check that brings their sum to `fixed`. -/
def withCheck (fixed : Byte) (l : List Byte) : List Byte := l ++ [fixed - charSum l]

/-- The fixed value of the Cue Line (R135). -/
def lineCheck : Byte := 0x5A

/-- The fixed value of the Panel Port (R193). -/
def panelCheck : Byte := 0xA5

/-! ## Characters (R115, R116, R173) -/

/-- The level of each bit by the majority of its samples 7, 8 and 9 (R173). -/
def majority (c : RawChar) : BitVec 11 := (c.s7 &&& c.s8) ||| (c.s7 &&& c.s9) ||| (c.s8 &&& c.s9)

/-- Whether the count of high bits among the data bits and the parity bit, bits 1 to 9, is odd. -/
def oddHighs (b : BitVec 11) : Bool := [1, 2, 3, 4, 5, 6, 7, 8, 9].foldl (fun p k => p ^^ b.getLsbD k) false

/-- A sampled character passes the noise test when its start bit reads low (R173). -/
def startBitLow (c : RawChar) : Bool := !(majority c).getLsbD 0

/-- A Cue Line character from the levels of its bits: data most significant bit first, odd parity, high stop bit (R115,
R116). -/
def readLineBits (b : BitVec 11) : ReadChar :=
  { value := (b.extractLsb' 1 8).reverse, parityError := !oddHighs b, framingError := !b.getLsbD 10 }

/-- A Panel Port character as received: data least significant bit first, even parity, high stop bit (R173). -/
def readPanelChar (c : RawChar) : ReadChar :=
  { value := (majority c).extractLsb' 1 8
    parityError := oddHighs (majority c)
    framingError := !(majority c).getLsbD 10 }

/-- Whether a received character has a parity error or a framing error. -/
def ReadChar.bad (c : ReadChar) : Bool := c.parityError || c.framingError

/-- The levels of a character as a transmitter sends it on the Cue Line (R115): low start bit, data most significant
bit first, the parity bit that makes the count of highs odd, high stop bit. -/
def lineBits (v : Byte) : BitVec 11 :=
  let data : BitVec 11 := (v.reverse.setWidth 11) <<< 1
  let parity : BitVec 11 := if oddHighs data then 0 else 1 <<< 9
  data ||| parity ||| (1 <<< 10)

/-- The levels of a character as the Panel Port sends it (R173): low start bit, data least significant bit first, the
parity bit that makes the count of highs even, high stop bit. -/
def panelBits (v : Byte) : BitVec 11 :=
  let data : BitVec 11 := (v.setWidth 11) <<< 1
  let parity : BitVec 11 := if oddHighs data then 1 <<< 9 else 0
  data ||| parity ||| (1 <<< 10)

/-- The levels of a character's bits in the order sent, start bit first. -/
def bitLevels (b : BitVec 11) : List Bool := [0, 1, 2, 3, 4, 5, 6, 7, 8, 9, 10].map b.getLsbD

/-- A Panel Port frame as its line carries it, one level for each bit time: a break of 12, 2 of mark, the characters back to
back, and the 2 of mark before the next break (R173). -/
def panelLevels (frame : List Byte) : List Bool :=
  List.replicate 12 false ++ [true, true] ++ frame.flatMap (fun v => bitLevels (panelBits v)) ++ [true, true]

/-- A character sampled without disturbance. -/
def cleanChar (bits : BitVec 11) : RawChar := { s7 := bits, s8 := bits, s9 := bits }

/-! ## Frame kinds (Table 7-3, Table 8-1) -/

/-- The header character of a kind. -/
def FrameKind.header : FrameKind → Byte
  | .hush => 7
  | .join => 79
  | .close => 87
  | .claim => 159
  | .arm => 167
  | .fire => 239
  | .release => 247
  | .clock => 255

/-- The number of characters of a kind's frames, header and check included. -/
def FrameKind.length : FrameKind → Nat
  | .hush => 4
  | .join => 12
  | .close => 10
  | .claim => 10
  | .arm => 5
  | .fire => 9
  | .release => 6
  | .clock => 9

/-- The class of a kind: bits 7 and 6 of its header (Table 12-1). -/
def FrameKind.cls (k : FrameKind) : Nat := k.header.toNat / 64

/-- Every frame kind, in the order of urgency of R124. -/
def frameKinds : List FrameKind := [.hush, .join, .close, .claim, .arm, .fire, .release, .clock]

/-- The kind that a header value names, if it is one of Table 7-3 (R126). -/
def kindOfHeader (h : Byte) : Option FrameKind := frameKinds.find? (fun k => k.header == h)

/-- The kind of a frame held as characters. -/
def kindOf : List Byte → Option FrameKind
  | [] => none
  | h :: _ => kindOfHeader h

/-- The station character of a frame: character 1. -/
def senderOf (frame : List Byte) : Byte := frame.getD 1 0

/-- The kind of a header character that the receiver finds usable (R126): no error, and a value of Table 7-3. -/
def usableHeader (c : ReadChar) : Option FrameKind := if c.bad then none else kindOfHeader c.value

/-! ## Line frames (Table 12-2) -/

/-- A line frame by its kind and body fields (section 8.2). -/
inductive LineFrame where
  | hush (mask : Byte)
  | join (flags : Byte) (identity signature : Word)
  | close (roundStation roundNumber winnerStation winnerInput : Byte) (capture : Triple)
  | claim (roundStation roundNumber input flags : Byte) (capture : Triple)
  | arm (roundNumber profile : Byte)
  | fire (cue : BitVec 16) (origin : Byte) (tag : BitVec 16) (trim : Byte)
  | release (cue : BitVec 16) (mode : Byte)
  | clock (clock op epoch : Byte) (value : Triple)
  deriving DecidableEq, Repr

/-- The kind of a line frame. -/
def LineFrame.kind : LineFrame → FrameKind
  | .hush _ => .hush
  | .join _ _ _ => .join
  | .close _ _ _ _ _ => .close
  | .claim _ _ _ _ _ => .claim
  | .arm _ _ => .arm
  | .fire _ _ _ _ => .fire
  | .release _ _ => .release
  | .clock _ _ _ _ => .clock

/-- The body characters of a line frame (Table 12-2). -/
def LineFrame.body : LineFrame → List Byte
  | .hush mask => [mask]
  | .join flags identity signature => flags :: (bytes4 identity ++ bytes4 signature)
  | .close rs rn ws wi capture => [rs, rn, ws, wi] ++ bytes3 capture
  | .claim rs rn input flags capture => [rs, rn, input, flags] ++ bytes3 capture
  | .arm rn profile => [rn, profile]
  | .fire cue origin tag trim => bytes2 cue ++ [origin] ++ bytes2 tag ++ [trim]
  | .release cue mode => bytes2 cue ++ [mode]
  | .clock clk op epoch value => [clk, op, epoch] ++ bytes3 value

/-- A line frame formed whole: header, station character, body, check (R134, R135). -/
def encodeFrame (station : Byte) (f : LineFrame) : List Byte :=
  withCheck lineCheck (f.kind.header :: station :: f.body)

/-- The fields of a frame, whose kind its header names (R134): every field as the number it carries. -/
def parseFrame : List Byte → Option LineFrame
  | [h, _, m, _] => if h = 7 then some (.hush m) else none
  | [h, _, n, p, _] => if h = 167 then some (.arm n p) else none
  | [h, _, c1, c0, m, _] => if h = 247 then some (.release (field2 c1 c0) m) else none
  | [h, _, a, b, c, d, e, f, _] =>
    if h = 239 then some (.fire (field2 a b) c (field2 d e) f)
    else if h = 255 then some (.clock a b c (field3 d e f))
    else none
  | [h, _, a, b, c, d, e, f, g, _] =>
    if h = 87 then some (.close a b c d (field3 e f g))
    else if h = 159 then some (.claim a b c d (field3 e f g))
    else none
  | [h, _, fl, i3, i2, i1, i0, s3, s2, s1, s0, _] =>
    if h = 79 then some (.join fl (field4 i3 i2 i1 i0) (field4 s3 s2 s1 s0)) else none
  | _ => none

/-- A one-bit flag of a flags character is bit 0 (R192): REPLY of a JOIN, FALSE_START of a CLAIM. -/
def flagSet (flags : Byte) : Bool := flags.getLsbD 0

/-- The flags character that carries a one-bit flag, the other bits 0 (R137, R192). -/
def flagByte (b : Bool) : Byte := if b then 1 else 0

/-! ## Wrapping counts -/

/-- `a` is behind `b` by 1 to 2,147,483,647 counts, modulo 2^32 (R2, R53, R80). -/
def behind (a b : Word) : Bool := 0 < (b - a).toNat && (b - a).toNat < 2147483648

/-- An epoch is behind another when it is below it by 1 to 127, modulo 256 (R104). -/
def epochBehind (a b : Byte) : Bool := 0 < (b - a).toNat && (b - a).toNat < 128

/-! ## The flash (R51, R52; entry 13) -/

/-- The addresses of the flash: those a three-character address reaches (R52, R171). -/
def flashSize : Nat := 16777216

/-- What an unlisted byte of the flash reads: an erased flash reads all ones (R155, R164; entry 13). -/
def Memory.unlisted : Byte := 0xFF

/-- The byte at an address. -/
def Memory.read : List Host.Cell → Nat → Byte
  | [], _ => Memory.unlisted
  | (k, v) :: m, a => if k = a then v else Memory.read m a

/-- Set the byte at an address, keeping the canonical form. -/
def Memory.write : List Host.Cell → Nat → Byte → List Host.Cell
  | [], a, v => if v = Memory.unlisted then [] else [(a, v)]
  | (k, w) :: m, a, v =>
    if a < k then (if v = Memory.unlisted then (k, w) :: m else (a, v) :: (k, w) :: m)
    else if a = k then (if v = Memory.unlisted then m else (a, v) :: m)
    else (k, w) :: Memory.write m a v

/-- Addresses strictly rising from `lo`, inside the flash, and no byte listed that equals an unlisted one. -/
def Memory.wfFrom : Nat → List Host.Cell → Bool
  | _, [] => true
  | lo, (k, v) :: m => decide (lo ≤ k) && decide (k < flashSize) && decide (v ≠ Memory.unlisted) && Memory.wfFrom (k + 1) m

/-- The canonical form. -/
def Memory.wf (m : List Host.Cell) : Bool := Memory.wfFrom 0 m

/-- The canonical memory of a list of cells: of two cells of one address the first counts, and a cell outside the flash
does not exist. -/
def Memory.ofCells (cells : List Host.Cell) : List Host.Cell :=
  cells.foldr (fun c m => if c.1 < flashSize then Memory.write m c.1 c.2 else m) []

/-- `n` bytes from address `a` on, from a memory whose listed addresses are all at or above `a`. -/
def Memory.run : List Host.Cell → Nat → Nat → List Byte
  | _, _, 0 => []
  | [], a, n + 1 => Memory.unlisted :: Memory.run [] (a + 1) n
  | (k, v) :: m, a, n + 1 =>
    if k = a then v :: Memory.run m (a + 1) n else Memory.unlisted :: Memory.run ((k, v) :: m) (a + 1) n

/-- `n` bytes from address `a` on. -/
def Memory.readRange (m : List Host.Cell) (a n : Nat) : List Byte :=
  Memory.run (m.dropWhile (fun c => decide (c.1 < a))) a n

/-- Pairs of bytes as 16-bit signed samples, most significant byte first (R52). -/
def samplesOf : List Byte → List Sample
  | hi :: lo :: rest => field2 hi lo :: samplesOf rest
  | _ => []

/-! ## Free orders -/

/-- A list in an order of which nothing is known but that it is an order of the list: each element goes to a free
place among those after it (entry 8). -/
def freeOrder {α : Type} (n : Nat) : List α → List α
  | [] => []
  | x :: rest =>
    match freeOrder n rest with
    | [] => [x]
    | y :: ys =>
      let i := Config.freeIndex n (ys.length + 1) % (ys.length + 2)
      (y :: ys).take i ++ x :: (y :: ys).drop i

/-- Slots 0 to 15 in ascending order. -/
def slots : List (Fin 16) := [0, 1, 2, 3, 4, 5, 6, 7, 8, 9, 10, 11, 12, 13, 14, 15]

/-- Inputs 0 to 7 in ascending order. -/
def inputs : List (Fin 8) := [0, 1, 2, 3, 4, 5, 6, 7]

/-- The groups 1 to 15, each by its number less one. -/
def groups : List (Fin 15) := [0, 1, 2, 3, 4, 5, 6, 7, 8, 9, 10, 11, 12, 13, 14]

/-- Four numbered things in ascending order: outputs, clocks, compare points. -/
def four : List (Fin 4) := [0, 1, 2, 3]

end Sys2Proof.Machine
end

