-- ==== Sys2Proof/Machine/Flags.lean ====
section
/-!
DEFINITION. The fault flags (Table 11-3, R180), the status character (R176, Table 12-3) and the codes of Table 12-4 and
of section 12.3.
-/
namespace Sys2Proof.Machine

/-- The ten fault flags, in the order of Table 11-3, which is the order of their bits (section 12.3). -/
inductive FaultFlag where
  | imageFault | duplicateStation | lineStuck | txDropped | rxOverrun | underrun | clip | wclkLost | stackDrop
  | verdictDiffers
  deriving DecidableEq, Repr

/-- The bit of a flag in the 16-bit field of fault flags. -/
def FaultFlag.bit : FaultFlag → Nat
  | .imageFault => 0
  | .duplicateStation => 1
  | .lineStuck => 2
  | .txDropped => 3
  | .rxOverrun => 4
  | .underrun => 5
  | .clip => 6
  | .wclkLost => 7
  | .stackDrop => 8
  | .verdictDiffers => 9

/-- The field with one flag set. -/
def FaultFlag.mask (f : FaultFlag) : BitVec 16 := 1 <<< f.bit

/-- Whether a flag is set. -/
def PanelPort.faultSet (p : PanelPort) (f : FaultFlag) : Bool := p.faults.getLsbD f.bit

/-- A fault flag set by its event: a FAULT report becomes pending when the flag goes from clear to set (R180). -/
def PanelPort.raise (p : PanelPort) (f : FaultFlag) : PanelPort :=
  if p.faultSet f then p else { p with faults := p.faults ||| f.mask, faultPending := true }

/-- A fault flag set by its event, in the station. -/
def setFault (f : FaultFlag) (s : State) : State := { s with panel := s.panel.raise f }

/-- The flags that CLEAR_FAULTS leaves set (Table 11-3, R189): each row's last column. -/
def keptFaults (s : State) : BitVec 16 :=
  (if s.member.state = .imageFault then FaultFlag.imageFault.mask else 0)
    ||| (if s.member.state = .duplicate then FaultFlag.duplicateStation.mask else 0)
    ||| (if s.line.rx = .stuck then FaultFlag.lineStuck.mask else 0)
    ||| (if s.wclk.mode = .lost then FaultFlag.wclkLost.mask else 0)

/-- A station state's code (Table 9-1). -/
def StationState.code : StationState → Byte
  | .loading => 0
  | .imageFault => 1
  | .joining => 2
  | .active => 3
  | .listening => 4
  | .duplicate => 5

/-- A fault reason's code (Table 12-5). -/
def FaultReason.code : FaultReason → Byte
  | .noReason => 0
  | .unitBlock => 1
  | .header => 2
  | .signature => 3
  | .limit => 4
  | .reference => 5

/-- One bit of a character. -/
def bitIf (b : Bool) (n : Nat) : Byte := if b then 1 <<< n else 0

/-- The status character at the start of a frame the station sends (R176, Table 12-3). RESET_SEEN is carried by answers
alone. -/
def statusCharacter (s : State) (answer : Bool) : Byte :=
  bitIf (answer && s.panel.resetSeen) 7 ||| bitIf s.panel.faultPending 6 ||| bitIf s.panel.verdictPending 5
    ||| bitIf (!s.panel.outcomes.isEmpty) 4 ||| bitIf s.panel.overrun 3 ||| s.member.state.code

/-- Answer codes (Table 12-4). -/
inductive AnswerCode where
  | ok | badCommand | badCheck | badArgument | notActive | queueFull | tooSoon | unknownCue | notSet
  deriving DecidableEq, Repr

/-- The character of an answer code (Table 12-4). -/
def AnswerCode.code : AnswerCode → Byte
  | .ok => 0
  | .badCommand => 1
  | .badCheck => 2
  | .badArgument => 3
  | .notActive => 4
  | .queueFull => 5
  | .tooSoon => 6
  | .unknownCue => 7
  | .notSet => 8

/-- The character of an outcome (section 12.3). -/
def FireOutcome.code : FireOutcome → Byte
  | .played => 1
  | .layered => 2
  | .restarted => 3
  | .ignoredBusy => 4
  | .noVoice => 5
  | .notHere => 6
  | .unknownCue => 7
  | .released => 8
  | .notPlaying => 9
  | .hushed => 10
  | .dropped => 11

end Sys2Proof.Machine
end

