-- ==== Sys2Proof/Machine/Ops.lean ====
section
/-!
DEFINITION. The named operations over the station's registers, tables, queues and records that the blocks share:
lookups of the show tables (chapter 10), the receive and transmit queues (chapter 8), held frames and their offers
(R148, R149), withdrawals (R151), outcome records (R179), last-accepted and last-heard records (R3, R158).
-/
namespace Sys2Proof.Machine

/-! ## Lengths of time, in ticks of 1/240 µs (entry 1) -/

/-- Ticks in 1 µs. -/
def ticksPerMicro : Nat := 240

/-- T, the nominal frame period of 1/48,000 s (section 4.3). -/
def framePeriod : Nat := 5000

/-- Ticks in one line sample, 1/16 tb, at the strapped rate (R114, R116). -/
def sampleTicks : LineRate → Nat
  | .kbit125 => 120
  | .kbit250 => 60
  | .kbit500 => 30
  | .kbit1000 => 15

/-! ## The station and its show tables -/

/-- A bank with a function applied to each of its elements. -/
def mapVec {α β : Type} {n : Nat} (f : α → β) (v : Vector α n) : Vector β n := Vector.ofFn fun i => f v[i]

/-- The station's own number as a station character (R134). -/
def ownNumber (s : State) : Byte := s.straps.stn.setWidth 8

/-- The record of a cue number that the table does not hold: kind NONE (R168, R170). -/
def CueRecord.noCue : CueRecord :=
  { kind := .noCue, level := 0, choke := 0, duckMask := 0, duckDepth := 128, duckRamp := 0, zoneMask := 0,
    firstStep := 0, stepCount := 0, loopFirst := 0, loopLast := 0, loopCount := 0, releaseMode := .tail,
    releaseTime := 0, attack := 0, policy := .restart, refire := 0 }

/-- The cue record of a cue number (R170). -/
def cueRecord (s : State) (cue : Nat) : CueRecord := s.tables.cues.getD cue CueRecord.noCue

/-- A cue number is known when it is below 1024 and its entry has a kind other than NONE (R5). -/
def knownCue (s : State) (cue : Nat) : Bool := decide (cue < 1024) && decide ((cueRecord s cue).kind ≠ .noCue)

/-- The step at an offset of a cue (R29). -/
def stepRecord (s : State) (c : CueRecord) (offset : Nat) : StepRecord :=
  s.tables.steps.getD (c.firstStep + offset) { clip := 0, start := 0, length := 0, gain := 0 }

/-- The clip of a clip number (R171). -/
def clipRecord (s : State) (clip : Nat) : ClipRecord := s.tables.clips.getD clip { address := 0, length := 0 }

/-- The station table record of a station number (R169). -/
def stationRecord (s : State) (n : Nat) : StationRecord :=
  s.tables.stations.getD n { zones := [255, 255, 255, 255], polarity := 0 }

/-- A round profile (R172). -/
def profileRecord (s : State) (p : Nat) : ProfileRecord :=
  s.tables.profiles.getD p { holdoff := 0, window := 0, settle := 0, falseCue := none, noClaimCue := none, eligible := [] }

/-- The input-map cue of a pair: none for a pair outside the map (R93, R172). -/
def inputMapCue (s : State) (station input : Nat) : Option Nat :=
  if station < 32 ∧ input < 8 then s.tables.inputMap.getD (station * 8 + input) none else none

/-- A compare point of a clock (R172). -/
def comparePoint (s : State) (clock point : Fin 4) : ComparePoint :=
  s.tables.compare.getD (clock.val * 4 + point.val) { enabled := false, value := 0, cue := 0 }

/-- The zone given to an output (R65). -/
def outputZone (s : State) (o : Fin 4) : Byte := s.outputs[o].zone

/-- Whether a zone mask includes a zone value; 255, an unused output, is in no mask (R8, R66). -/
def maskHasZone (mask zone : Byte) : Bool := decide (zone.toNat < 8) && mask.getLsbD zone.toNat

/-- The zone test (R8): a zone of the mask is given to one of the station's outputs. -/
def zoneTest (s : State) (mask : Byte) : Bool := four.any fun o => maskHasZone mask (outputZone s o)

/-- The station receives: its receiver is running (Table 7-2). -/
def receiving (s : State) : Bool :=
  decide (s.member.state = .joining) || decide (s.member.state = .active) || decide (s.member.state = .listening)

/-- The station takes frames of every kind (R1, R162). -/
def takesFrames (s : State) : Bool := decide (s.member.state = .active) || decide (s.member.state = .listening)

/-! ## Last-accepted records (R3) -/

/-- The last-accepted record of a cue, none where it is not listed. -/
def lastAccepted (s : State) (cue : Nat) : Option Word :=
  (s.dispatch.lastAccepted.find? fun r => r.1 == cue).map (·.2)

/-- The records with one written, in rising order of cue. -/
def putRecord (cue : Nat) (w : Word) : List (Nat × Word) → List (Nat × Word)
  | [] => [(cue, w)]
  | (c, v) :: rest =>
    if cue < c then (cue, w) :: (c, v) :: rest
    else if cue = c then (cue, w) :: rest
    else (c, v) :: putRecord cue w rest

/-- Write the last-accepted record of a cue. -/
def setLastAccepted (cue : Nat) (w : Word) (s : State) : State :=
  { s with dispatch := { s.dispatch with lastAccepted := putRecord cue w s.dispatch.lastAccepted } }

/-- Return the last-accepted record of a cue to none. -/
def clearLastAccepted (cue : Nat) (s : State) : State :=
  { s with dispatch := { s.dispatch with lastAccepted := s.dispatch.lastAccepted.filter fun r => r.1 != cue } }

/-- A record has grown old when the station clock has advanced 2,147,483,648 µs past it (R3). -/
def recordOld (s : State) (w : Word) : Bool := decide (2147483648 ≤ (s.stationClock - w).toNat)

/-! ## Outcome records (R24, R25, R179) -/

/-- Post an outcome record: a full FIFO first discards its oldest (R179). -/
def postOutcome (r : OutcomeRecord) (s : State) : State :=
  let kept := if s.panel.outcomes.length < 8 then s.panel.outcomes else s.panel.outcomes.drop 1
  { s with panel := { s.panel with outcomes := kept ++ [r] } }

/-- The tag and the cue that an outcome record takes from a frame (R24, R25). -/
def recordFields : LineFrame → BitVec 16 × BitVec 16
  | .fire cue _ tag _ => (tag, cue)
  | .release cue _ => (0, cue)
  | .hush _ => (0, 0)
  | .join _ _ _ => (0, 0)
  | .close _ _ _ _ _ => (0, 0)
  | .claim _ _ _ _ _ => (0, 0)
  | .arm _ _ => (0, 0)
  | .clock _ _ _ _ => (0, 0)

/-! ## The receive queue (section 8.3) -/

/-- Add an accepted frame at the end of the queue (R144); an entry added to an empty queue becomes the head (R145). -/
def pushRx (e : RxEntry) (s : State) : State :=
  let since := if s.rxq.entries.isEmpty then s.now else s.rxq.headSince
  { s with rxq := { entries := s.rxq.entries ++ [e], headSince := since } }

/-- The head of the receive queue. -/
def rxHead (s : State) : Option RxEntry := s.rxq.entries.head?

/-- A peer table entry, by a station character of 0 to 31. -/
def peerOf (s : State) (n : Byte) : Option Peer := if h : n.toNat < 32 then some s.member.peers[n.toNat] else none

/-- Change a peer table entry; a station character above 31 has none. -/
def updatePeer (n : Byte) (f : Peer → Peer) (s : State) : State :=
  if h : n.toNat < 32 then
    { s with member := { s.member with peers := s.member.peers.set n.toNat (f s.member.peers[n.toNat]) } }
  else s

/-- The head leaves the queue: the fire order counter is raised (R2), the sender's last-heard record takes the entry's
timestamp (R146, R158) and the next entry becomes the head (R145). -/
def leaveHead (e : RxEntry) (s : State) : State :=
  updatePeer (senderOf e.frame) (fun p => { p with lastHeard := some e.edge })
    { s with
      rxq := { entries := s.rxq.entries.tail, headSince := s.now }
      dispatch := { s.dispatch with fireOrder := s.dispatch.fireOrder + 1 } }

/-- An entry that is removed without effect in place of being taken (R146). -/
def removedEntry (s : State) (e : RxEntry) : Bool :=
  let sender := senderOf e.frame
  let foreign := match peerOf s sender with
    | some p => decide (p.state = .foreign)
    | none => false
  (e.joining && decide (kindOf e.frame ≠ some .join)) || (foreign && decide (kindOf e.frame ≠ some .join))
    || decide (31 < sender.toNat)

/-- The taking comes no earlier than 2 µs after the entry became the head (R145; entry 21). -/
def headReady (s : State) : Bool := decide (s.rxq.headSince + 2 * ticksPerMicro ≤ s.now)

/-- The head entry and its fields, when it is to be taken now by the owner of its kind: FIRE, RELEASE, HUSH, CLOCK,
ARM, CLAIM and CLOSE at an ACTIVE or LISTENING station, JOIN at a JOINING one as well (R1, R146, R158). -/
def takable (s : State) : Option (RxEntry × LineFrame) :=
  match rxHead s with
  | none => none
  | some e =>
    match parseFrame e.frame with
    | none => none
    | some f =>
      if headReady s && !removedEntry s e && (takesFrames s || (receiving s && decide (f.kind = .join)))
      then some (e, f) else none

/-! ## The transmit queue (section 8.4) -/

/-- The queue has room for a frame: it holds fewer than 4 entries (R148). -/
def txRoom (s : State) : Bool := decide (s.txq.entries.length < 4)

/-- The head of the transmit queue: the lowest class, and in it the earliest sequence (R147). -/
def txHead (q : List TxEntry) : Option TxEntry :=
  q.foldl (fun best e =>
    match best with
    | none => some e
    | some b => if e.cls < b.cls || (decide (e.cls = b.cls) && decide (e.seq < b.seq)) then some e else some b) none

/-- An entry by its sequence. -/
def txEntry (s : State) (seq : Nat) : Option TxEntry := s.txq.entries.find? fun e => e.seq == seq

/-- Place a frame, formed whole (R134, R148). The caller has found room. -/
def placeFrame (p : Producer) (f : LineFrame) (s : State) : State :=
  let e : TxEntry :=
    { frame := encodeFrame (ownNumber s) f, producer := p, cls := f.kind.cls, seq := s.txq.nextSeq, fails := 0,
      withdrawn := false, placedAt := s.now }
  { s with txq := { entries := s.txq.entries ++ [e], nextSeq := s.txq.nextSeq + 1 } }

/-- The FIRE frames of the queue are asked for a cue (R150): from any producer, withdrawn or not. -/
def txHoldsFire (s : State) (cue : BitVec 16) : Bool :=
  s.txq.entries.any fun e =>
    match parseFrame e.frame with
    | some (.fire c _ _ _) => c == cue
    | _ => false

/-- The queue holds a JOIN frame (R122, R159). -/
def txHoldsJoin (s : State) : Bool := s.txq.entries.any fun e => decide (kindOf e.frame = some .join)

/-- Take an entry out of the queue. -/
def removeTx (seq : Nat) (s : State) : State :=
  { s with txq := { s.txq with entries := s.txq.entries.filter fun e => e.seq != seq } }

/-- Change the round record. -/
def withRound (f : Round → Round) (s : State) : State :=
  { s with lockout := { s.lockout with round := f s.lockout.round } }

/-- Change a clock record. -/
def withClock (c : Fin 4) (f : ClockRecord → ClockRecord) (s : State) : State :=
  { s with clocks := { s.clocks with records := s.clocks.records.set c (f s.clocks.records[c]) } }

/-- Set the own copy of a compare point. -/
def setCopy (c p : Fin 4) (o : OwnCopy) (s : State) : State :=
  withClock c (fun r => { r with copies := r.copies.set p o }) s

/-- An own claim after the leaving of an entry: none if it names that entry (R129). -/
def OwnClaim.forget (seq : Nat) : OwnClaim → OwnClaim
  | .queued n => if n = seq then .absent else .queued n
  | .held fs capture => .held fs capture
  | .absent => .absent

/-- The own CLOSE after the leaving of an entry (R129). -/
def OwnClose.forget (seq : Nat) : OwnClose → OwnClose
  | .queued n => if n = seq then .absent else .queued n
  | .held => .held
  | .absent => .absent

/-- An own copy after the leaving of an entry (R129). -/
def OwnCopy.forget (seq : Nat) : OwnCopy → OwnCopy
  | .queued epoch n => if n = seq then .absent else .queued epoch n
  | .held epoch since order => .held epoch since order
  | .absent => .absent

/-- The Lockout Unit's and the Segment Clock Unit's records that name an entry become none (R129, R130). -/
def forgetEntry (seq : Nat) (s : State) : State :=
  let s := withRound (fun r =>
    { r with ownClaim := mapVec (OwnClaim.forget seq) r.ownClaim, ownClose := r.ownClose.forget seq }) s
  { s with clocks := { s.clocks with
      records := mapVec (fun r => { r with copies := mapVec (OwnCopy.forget seq) r.copies }) s.clocks.records } }

/-! ## Frames held for want of room, and their offers (R149) -/

/-- A better held CLAIM: the least capture, and among equal captures the lowest input (R87). -/
def bestClaim (r : Round) : Option (Fin 8 × Bool × Nat) :=
  inputs.foldl (fun best i =>
    match r.ownClaim[i] with
    | .held fs capture =>
      match best with
      | some (_, _, b) => if capture < b then some (i, fs, capture) else best
      | none => some (i, fs, capture)
    | .queued _ => best
    | .absent => best) none

/-- The identity that the round's own frames carry; a record without one has no own frames. -/
def Round.carried (r : Round) : Byte × Byte := r.identity.getD (0, 0)

/-- The CLAIM frame of a press (R87, R139). -/
def claimFrame (r : Round) (input : Fin 8) (falseStart : Bool) (capture : Nat) : LineFrame :=
  .claim r.carried.1 r.carried.2 (BitVec.ofNat 8 input.val) (flagByte falseStart) (BitVec.ofNat 24 capture)

/-- The CLOSE frame of the verdict that the record holds (R85, R138). -/
def closeFrame (r : Round) : LineFrame :=
  match r.verdict with
  | some w =>
    .close r.carried.1 r.carried.2 (BitVec.ofNat 8 w.station) (BitVec.ofNat 8 w.input) (BitVec.ofNat 24 w.capture)
  | none => .close r.carried.1 r.carried.2 255 0 0

/-- The Lockout Unit offers a CLAIM: placed, or held for want of room (R87). -/
def offerClaim (input : Fin 8) (falseStart : Bool) (capture : Nat) (s : State) : State :=
  if txRoom s then
    withRound (fun r => { r with ownClaim := r.ownClaim.set input (.queued s.txq.nextSeq) })
      (placeFrame .lockoutUnit (claimFrame s.lockout.round input falseStart capture) s)
  else withRound (fun r => { r with ownClaim := r.ownClaim.set input (.held falseStart capture) }) s

/-- The Lockout Unit offers its CLOSE, its body formed at the offer that succeeds: placed, or held (R85). -/
def offerClose (s : State) : State :=
  if txRoom s then
    withRound (fun r => { r with ownClose := .queued s.txq.nextSeq })
      (placeFrame .lockoutUnit (closeFrame s.lockout.round) s)
  else withRound (fun r => { r with ownClose := .held }) s

/-- The Lockout Unit's offer at a freeing: a held CLAIM, or its held CLOSE when it holds no CLAIM (R87). -/
def offerHeldLockout (s : State) : State :=
  match bestClaim s.lockout.round with
  | some (i, fs, capture) => if txRoom s then offerClaim i fs capture s else s
  | none => if s.lockout.round.ownClose = .held && txRoom s then offerClose s else s

/-- The tag of a clock-origin FIRE: clock × 16 + point, then the epoch (R108). -/
def clockTag (c p : Fin 4) (epoch : Byte) : BitVec 16 := field2 (BitVec.ofNat 8 (c.val * 16 + p.val)) epoch

/-- The clock-origin FIRE of a compare point (R108). -/
def clockFire (s : State) (c p : Fin 4) : LineFrame :=
  .fire (comparePoint s c p).cue 2 (clockTag c p s.clocks.records[c].epoch) 128

/-- Every compare point of every clock, as (clock, point), in ascending order. -/
def points : List (Fin 4 × Fin 4) := four.flatMap fun c => four.map fun p => (c, p)

/-- Which of two held copies is offered first (R108): the one held at the earlier moment; at one moment, the one of the
lower clock; of one clock, the one matched first; of one match, the lower point (entry 26). -/
def copyBefore (a b : Nat × Nat × Nat × Nat) : Bool :=
  decide (a.1 < b.1) || (decide (a.1 = b.1) && (decide (a.2.1 < b.2.1) || (decide (a.2.1 = b.2.1) &&
    (decide (a.2.2.1 < b.2.2.1) || (decide (a.2.2.1 = b.2.2.1) && decide (a.2.2.2 < b.2.2.2))))))

/-- The place of a held copy in the order of R108. -/
def copyKey (s : State) (c p : Fin 4) : Option (Nat × Nat × Nat × Nat) :=
  match s.clocks.records[c].copies[p] with
  | .held _ since order => some (since, c.val, order, p.val)
  | .queued _ _ => none
  | .absent => none

/-- The held copy that the Segment Clock Unit offers (R108). -/
def bestCopy (s : State) : Option (Fin 4 × Fin 4) :=
  (points.foldl (fun best cp =>
    match copyKey s cp.1 cp.2 with
    | none => best
    | some k =>
      match best with
      | none => some (k, cp)
      | some (b, bp) => if copyBefore k b then some (k, cp) else some (b, bp)) none).map (·.2)

/-- The Segment Clock Unit places the FIRE of a point; the caller has found room (R108). -/
def placeClockFire (c p : Fin 4) (s : State) : State :=
  setCopy c p (.queued s.clocks.records[c].epoch s.txq.nextSeq) (placeFrame .clockUnit (clockFire s c p) s)

/-- The Segment Clock Unit's offer at a freeing (R108). -/
def offerHeldClock (s : State) : State :=
  match bestCopy s with
  | some (c, p) => if txRoom s then placeClockFire c p s else s
  | none => s

/-- The JOIN frame of the station, with a REPLY flag (R137). -/
def joinFrame (s : State) (reply : Bool) : LineFrame := .join (flagByte reply) s.member.identity s.member.signature

/-- Membership offers a JOIN: placed, or held for want of room (R148, R157, R159). -/
def offerJoin (reply : Bool) (s : State) : State :=
  if txRoom s then
    let s := placeFrame .membership (joinFrame s reply) s
    { s with member := { s.member with heldJoin := none } }
  else { s with member := { s.member with heldJoin := some reply } }

/-- Membership's offer at a freeing (R149). -/
def offerHeldJoin (s : State) : State :=
  match s.member.heldJoin with
  | some reply => if txRoom s then offerJoin reply s else s
  | none => s

/-- Whether a producer holds a frame. -/
def holds (s : State) : Producer → Bool
  | .lockoutUnit => (bestClaim s.lockout.round).isSome || decide (s.lockout.round.ownClose = .held)
  | .clockUnit => (bestCopy s).isSome
  | .membership => s.member.heldJoin.isSome
  | .panelPort => false

/-- A producer's offer at a freeing. -/
def offerHeld (s : State) : Producer → State
  | .lockoutUnit => offerHeldLockout s
  | .clockUnit => offerHeldClock s
  | .membership => offerHeldJoin s
  | .panelPort => s

/-- One round of offers at the freeing of an entry: every producer that holds a frame offers one, in either order
(R149; entry 8). -/
def offerRound (s : State) : State :=
  let holders := [Producer.lockoutUnit, .clockUnit, .membership].filter (holds s)
  if holders.length < 2 then holders.foldl offerHeld s
  else (freeOrder s.freeCount holders).foldl offerHeld { s with freeCount := s.freeCount + 1 }

/-- The rounds of offers of an event that frees `n` entries (R149). -/
def offerRounds : Nat → State → State
  | 0, s => s
  | n + 1, s => offerRounds n (offerRound s)

/-- The entry is the frame of the attempt in progress (R131). -/
def attempted (s : State) (seq : Nat) : Bool :=
  match s.line.attempt with
  | some a => a.entry == seq
  | none => false

/-- An entry is marked withdrawn (R131, R151). -/
def markWithdrawn (seq : Nat) (s : State) : State :=
  { s with txq := { s.txq with entries := s.txq.entries.map fun e => if e.seq = seq then { e with withdrawn := true } else e } }

/-- The withdrawal of an entry (R151): the frame of the attempt in progress is marked; any other leaves the queue at once, and
the freed entry is offered (R149). The caller has settled its own held frames. -/
def withdrawEntry (seq : Nat) (s : State) : State :=
  if attempted s seq then markWithdrawn seq s
  else if (txEntry s seq).isSome then offerRounds 1 (removeTx seq s)
  else s

/-- The withdrawals of one event: the freeings come one after another, each with its round of offers (R149). -/
def withdrawEntries (l : List Nat) (s : State) : State := l.foldl (fun t seq => withdrawEntry seq t) s

end Sys2Proof.Machine
end

