-- ==== Sys2Proof/Machine/Voices.lean ====
section
/-!
DEFINITION. The Voice Pool (chapter 2): the step walk, gain and ramps, the duck table, voice ends, release paths and the
suspend stack, with the side of the Clip Fetch Unit that follows a voice (R53, R56, R59).
-/
namespace Sys2Proof.Machine

/-! ## Slots -/

/-- The voice context of a slot. -/
def voiceOf (s : State) (i : Fin 16) : Voice := s.pool.voices[i]

/-- Replace the voice context of a slot. -/
def setVoice (i : Fin 16) (v : Voice) (s : State) : State :=
  { s with pool := { s.pool with voices := s.pool.voices.set i v } }

/-- The cue record of a slot's voice. -/
def voiceCue (s : State) (i : Fin 16) : CueRecord := cueRecord s (voiceOf s i).cue

/-- PRIMING, PLAYING or RESUMING: a voice that counts for choke, release and play policy (R6, R9, R17). -/
def Voice.sounding (v : Voice) : Bool :=
  match v.state with
  | .priming => true
  | .playing => true
  | .resuming => true
  | .idle => false
  | .releasing => false

/-- A voice that consumes frames: PLAYING, or RELEASING and primed (R30). -/
def Voice.consumes (v : Voice) : Bool :=
  match v.state with
  | .playing => true
  | .releasing => v.primed
  | .idle => false
  | .priming => false
  | .resuming => false

/-- One fire order is older than another (R2); of equal ones, the lower slot is the older. -/
def olderVoice (a : Word) (i : Fin 16) (b : Word) (j : Fin 16) : Bool :=
  behind a b || (decide (a = b) && decide (i < j))

/-! ## The step walk (section 2.2) -/

/-- The cue has tail steps: steps after loop last. -/
def CueRecord.hasTail (c : CueRecord) : Bool := decide (c.loopLast + 1 < c.stepCount)

/-- A step offset lies in the tail. -/
def CueRecord.inTail (c : CueRecord) (step : Nat) : Bool := decide (c.loopLast < step)

/-- The next step offset and loop passes remaining after the end of a step, or none where the voice ends: R31, or on the
TAIL path the order of R35. -/
def nextStep (c : CueRecord) (tail : Bool) (step passes : Nat) : Option (Nat × Nat) :=
  if tail && !c.inTail step then
    if c.hasTail then some (c.loopLast + 1, passes) else none
  else if step = c.loopLast && !tail then
    if passes = 255 then some (c.loopFirst, 255)
    else if 0 < passes then some (c.loopFirst, passes - 1)
    else if c.hasTail then some (c.loopLast + 1, passes) else none
  else if step + 1 < c.stepCount then some (step + 1, passes)
  else none

/-- The voice walks in the TAIL order. -/
def Voice.onTail (v : Voice) : Bool := decide (v.path = .tail)

/-- The segments of a block of up to `need` frames that begins at a cursor, and the cursor after it (R32, R52, R54). A cursor that
has passed the end of the walk, of which R32 says that it has no frames left, is none (entry 45). The first argument bounds the
number of segments. -/
def walkBlock (s : State) (c : CueRecord) (tail : Bool) : Nat → Nat → Cursor → List Segment × Option Cursor
  | 0, _, cur => ([], some cur)
  | fuel + 1, need, cur =>
    if need = 0 then ([], some cur)
    else
      let step := stepRecord s c cur.step
      let left := step.length - cur.pos
      if left = 0 then ([], none)
      else
        let seg : Segment := { clip := step.clip, first := step.start + cur.pos, count := min left need }
        if need < left then ([seg], some { cur with pos := cur.pos + need })
        else
          match nextStep c tail cur.step cur.passes with
          | none => ([seg], none)
          | some (st, ps) =>
            let (more, after) := walkBlock s c tail fuel (need - left) { step := st, pos := 0, passes := ps }
            (seg :: more, after)

/-! ## Block buffers (R53) -/

/-- The frame that a buffer holds at a walk count. -/
def Buffer.at (b : Buffer) (count : Word) : Option Sample := b.frames[(count - b.first).toNat]?

/-- A buffer once the frame at a walk count has been passed: the frames up to and with it are gone (R53, R63). -/
def Buffer.pass (b : Buffer) (count : Word) : Buffer :=
  let n := (count - b.first).toNat
  if n < b.frames.length then { first := count + 1, frames := b.frames.drop (n + 1) } else b

/-- The walk count after a buffer's run, where the buffer holds the frame at `count`; else `count`. -/
def Buffer.runEnd (b : Buffer) (count : Word) : Word :=
  if (count - b.first).toNat < b.frames.length then b.first + BitVec.ofNat 32 b.frames.length else count

/-- A buffer cut to the `rest` frames from walk count `play` on (R59). -/
def Buffer.trim (b : Buffer) (play : Word) (rest : Nat) : Buffer :=
  { b with frames := b.frames.take (rest - (b.first - play).toNat) }

/-- The frame at the play count, if a buffer holds it. -/
def Voice.frame (v : Voice) : Option Sample :=
  match v.buffer0.at v.playCount with
  | some x => some x
  | none => v.buffer1.at v.playCount

/-- The voice's unplayed buffered frames (R53). -/
def Voice.unplayed (v : Voice) : Nat := v.buffer0.frames.length + v.buffer1.frames.length

/-! ## Gain (section 2.5) -/

/-- A ramp of `n` frames to a target (R42). A ramp of 0 frames sets gain now at its start; its increment is not stated
(entry 9). -/
def startRamp (target n : Nat) (v : Voice) : Voice :=
  if n = 0 then
    { v with
      gainNow := target * 65536, gainTarget := target, rampLeft := 0
      rampIncrement := Config.zeroRampIncrement v.gainNow target }
  else
    { v with
      gainTarget := target, rampLeft := n
      rampIncrement := ((target * 65536 : Nat) - (v.gainNow : Int)).tdiv n }

/-- One advance of the ramp (R42): the last one sets gain now to the target exactly. -/
def advanceRamp (v : Voice) : Voice :=
  if v.rampLeft = 0 then v
  else if v.rampLeft = 1 then { v with gainNow := v.gainTarget * 65536, rampLeft := 0 }
  else { v with gainNow := ((v.gainNow : Int) + v.rampIncrement).toNat, rampLeft := v.rampLeft - 1 }

/-- The whole part of gain now (R42). -/
def Voice.gain (v : Voice) : Nat := v.gainNow / 65536

/-- A number of ms in frames. -/
def msFrames (ms : Nat) : Nat := ms * 48

/-- The step glide: 240 frames (Table 2-4). -/
def stepGlide : Nat := 240

/-! ## The duck table (section 2.6) -/

/-- A cue contributes to the count of a group that its duck mask names, its own choke group apart (R44). -/
def CueRecord.ducks (c : CueRecord) (group : Nat) : Bool := c.duckMask.getLsbD group && decide (c.choke ≠ group)

/-- The count of a group; none is kept for group 0 (R44). -/
def duckCount (s : State) (group : Nat) : Nat :=
  if h : 0 < group ∧ group < 16 then s.pool.duck[group - 1]'(by omega) else 0

/-- The least duck depth among the cues of the voices that contribute to a group (R45). -/
def leastDepth (s : State) (group : Nat) : Nat :=
  slots.foldl (fun d i =>
    if (voiceOf s i).state ≠ .idle ∧ (voiceCue s i).ducks group then min d (voiceCue s i).duckDepth else d) 128

/-- The duck depth applied to a group, none while its count is 0 (R45). -/
def appliedDepth (s : State) (group : Nat) : Option Nat :=
  if duckCount s group = 0 then none else some (leastDepth s group)

/-- The effective target of a voice (R41). -/
def effectiveTarget (s : State) (v : Voice) : Nat :=
  let c := cueRecord s v.cue
  let base := (stepRecord s c v.step).gain * v.trim.toNat / 128
  min 255 (if v.ducked then base * (appliedDepth s c.choke).getD 128 / 128 else base)

/-- Raise the counts a cue contributes to. -/
def raiseDuck (c : CueRecord) (s : State) : State :=
  { s with pool := { s.pool with
      duck := Vector.ofFn fun g => if c.ducks (g.val + 1) then s.pool.duck[g] + 1 else s.pool.duck[g] } }

/-- Lower the counts a cue contributes to. -/
def lowerDuck (c : CueRecord) (s : State) : State :=
  { s with pool := { s.pool with
      duck := Vector.ofFn fun g => if c.ducks (g.val + 1) then s.pool.duck[g] - 1 else s.pool.duck[g] } }

/-- The target that a duck change is measured against (R45): the gain target, or while the glide to the first tail step is
still to start, the effective target that the voice had before the change (R36; entry 16). -/
def targetBefore (before : State) (v : Voice) : Nat := if v.tailGlide then effectiveTarget before v else v.gainTarget

/-- One voice after a duck change (R45): the flag follows its group, and a changed target is ramped to over `n` frames,
but for a voice on the FADE path (R38). -/
def duckVoice (n : Nat) (before s : State) (v : Voice) : Voice :=
  let w := { v with ducked := (appliedDepth s (cueRecord s v.cue).choke).isSome }
  if v.path = .fade then w
  else if effectiveTarget s w = targetBefore before v then w
  else startRamp (effectiveTarget s w) n w

/-- The voices of the groups whose flag or applied depth differs from what it was, after a contribution of a voice of
cue `by_` began or ended (R45). -/
def duckChange (before : State) (by_ : CueRecord) (s : State) : State :=
  slots.foldl (fun t i =>
    let v := voiceOf t i
    let g := (voiceCue t i).choke
    if v.state = .idle ∨ g = 0 ∨ appliedDepth before g = appliedDepth t g then t
    else setVoice i (duckVoice (msFrames by_.duckRamp) before t v) t) s

/-! ## Requests a voice loses (R56) -/

/-- Cancel the request a slot owns: removed if it is waiting, disowned if it is the read in flight. -/
def cancelRequest (i : Fin 16) (s : State) : State :=
  { s with fetch := { s.fetch with
      requests := s.fetch.requests.filter fun r => r.slot != i
      flight := s.fetch.flight.map fun f => if f.request.slot = i then { f with owned := false } else f } }

/-! ## The suspend stack and voice ends (sections 2.4 and 2.7) -/

/-- An entry passes the resume check when its cue has choke group 0 or no voice of its group is sounding (R47). -/
def resumeCheck (s : State) (e : StackEntry) : Bool :=
  decide ((cueRecord s e.cue).choke = 0) ||
    !(slots.any fun i => (voiceOf s i).sounding && decide ((voiceCue s i).choke = (cueRecord s e.cue).choke))

/-- The first entry from the top that passes the resume check, with the entries under it; the ones above it are
discarded (R47). -/
def popEntry (s : State) : List StackEntry → Option (StackEntry × List StackEntry)
  | [] => none
  | e :: rest => if resumeCheck s e then some (e, rest) else popEntry s rest

/-- Resume an entry in a slot (R34, R47): gain now is 0 and the attack ramp starts. An attack of 0 ms has gain now at the target
from the pop on, as R42 has a ramp of 0 frames, where R34 and R37 say that gain now is 0 (entry 38). -/
def resumeVoice (i : Fin 16) (e : StackEntry) (s : State) : State :=
  let c := cueRecord s e.cue
  let v : Voice :=
    { state := .resuming, cue := e.cue, level := e.level, fireOrder := e.fireOrder, trim := e.trim, step := e.step,
      pos := e.pos, passes := e.passes, path := .noPath, primed := false, gainNow := 0, gainTarget := 0,
      rampIncrement := 0, rampLeft := 0, ducked := false, tailGlide := false, buffer0 := Buffer.empty,
      buffer1 := Buffer.empty, cursor := some { step := e.step, pos := e.pos, passes := e.passes }, playCount := 0, cursorCount := 0 }
  let s1 := duckChange s c (raiseDuck c (setVoice i v s))
  let v1 := { v with ducked := (appliedDepth s1 c.choke).isSome }
  setVoice i (startRamp (effectiveTarget s1 v1) (msFrames c.attack) v1) s1

/-- Offer a slot to the suspend stack (R40, R47). -/
def offerSlot (i : Fin 16) (s : State) : State :=
  match popEntry s s.pool.stack with
  | none => { s with pool := { s.pool with stack := [] } }
  | some (e, rest) => resumeVoice i e { s with pool := { s.pool with stack := rest } }

/-- Steps 1 to 4 of a voice's end (R40): IDLE, buffers and cursor gone, ramp, gain, ducked and primed cleared, its
request cancelled, its duck contributions removed. The other fields keep the values the voice last held (R27). -/
def vacate (i : Fin 16) (s : State) : State :=
  let v := voiceOf s i
  let c := cueRecord s v.cue
  let v' : Voice :=
    { v with
      state := .idle, primed := false, gainNow := 0, gainTarget := 0, rampIncrement := 0, rampLeft := 0,
      ducked := false, tailGlide := false, buffer0 := Buffer.empty, buffer1 := Buffer.empty, cursor := none }
  duckChange s c (lowerDuck c (cancelRequest i (setVoice i v' s)))

/-- The end of a voice whose slot no new voice claims (R40). -/
def endVoice (i : Fin 16) (s : State) : State := offerSlot i (vacate i s)

/-- Push a context on the suspend stack: a full one first loses its bottom entry, and STACK_DROP is set (R46). -/
def pushStack (e : StackEntry) (s : State) : State :=
  if s.pool.stack.length < 8 then { s with pool := { s.pool with stack := e :: s.pool.stack } }
  else setFault .stackDrop { s with pool := { s.pool with stack := (e :: s.pool.stack).take 8 } }

/-- Suspend a voice by preemption (R13, R46): its context goes on the stack, its slot is vacated for the new voice. -/
def suspendVoice (i : Fin 16) (s : State) : State :=
  let v := voiceOf s i
  let e : StackEntry :=
    { cue := v.cue, level := v.level, fireOrder := v.fireOrder, trim := v.trim, step := v.step, pos := v.pos,
      passes := v.passes, gainTarget := effectiveTarget s v }
  vacate i (pushStack e s)

/-- Discard the stack entries that a test names; the others keep their order (R48). -/
def purgeStack (test : StackEntry → Bool) (s : State) : State :=
  { s with pool := { s.pool with stack := s.pool.stack.filter fun e => !test e } }

/-! ## Start, restart and release (R9, R15, R35 to R38) -/

/-- Start a voice in a slot (R15). -/
def startVoice (i : Fin 16) (cue : Nat) (trim : Byte) (order : Word) (s : State) : State :=
  let c := cueRecord s cue
  let v : Voice :=
    { state := .priming, cue := cue, level := c.level, fireOrder := order, trim := trim, step := 0, pos := 0,
      passes := c.loopCount, path := .noPath, primed := false, gainNow := 0, gainTarget := 0, rampIncrement := 0,
      rampLeft := 0, ducked := (appliedDepth s c.choke).isSome, tailGlide := false, buffer0 := Buffer.empty,
      buffer1 := Buffer.empty, cursor := some { step := 0, pos := 0, passes := c.loopCount }, playCount := 0, cursorCount := 0 }
  let v := startRamp (effectiveTarget s v) (msFrames c.attack) v
  duckChange s c (raiseDuck c (setVoice i v s))

/-- Restart a voice at its first step (R9, R33). -/
def restartVoice (i : Fin 16) (trim : Byte) (order : Word) (s : State) : State :=
  let v := voiceOf s i
  let c := cueRecord s v.cue
  let v1 : Voice :=
    { v with
      state := .priming, step := 0, pos := 0, passes := c.loopCount, primed := false, fireOrder := order,
      trim := trim, tailGlide := false, buffer0 := Buffer.empty, buffer1 := Buffer.empty,
      cursor := some { step := 0, pos := 0, passes := c.loopCount }, playCount := 0, cursorCount := 0 }
  let target := effectiveTarget s v1
  let v2 := if target = v1.gainTarget then v1 else startRamp target (msFrames c.attack) v1
  cancelRequest i (setVoice i v2 s)

/-- The buffers and cursor of a voice that leaves its walk for the tail after its current step (R35, R59, R63). -/
def realign (s : State) (v : Voice) : Voice :=
  let c := cueRecord s v.cue
  let rest := (stepRecord s c v.step).length - v.pos
  let b0 := v.buffer0.trim v.playCount rest
  let b1 := v.buffer1.trim v.playCount rest
  let unheld := b0.runEnd (b1.runEnd (b0.runEnd v.playCount))
  let held := (unheld - v.playCount).toNat
  if held < rest then
    { v with
      buffer0 := b0, buffer1 := b1, cursorCount := unheld
      cursor := some { step := v.step, pos := v.pos + held, passes := v.passes } }
  else
    { v with
      buffer0 := b0, buffer1 := b1, cursorCount := v.playCount + BitVec.ofNat 32 rest
      cursor := if c.hasTail then some { step := c.loopLast + 1, pos := 0, passes := v.passes } else none }

/-- Release a voice on the TAIL path (R35, R36, R37, Table 3-2). A completion at the moment of the release leaves other buffers
where it comes first than where the release does, each order as R36, R57 and R59 have it, although R58 says that both leave the
same (entry 40). -/
def releaseTail (i : Fin 16) (s : State) : State :=
  let v := voiceOf s i
  let c := cueRecord s v.cue
  match v.state with
  | .priming =>
    if c.hasTail then
      cancelRequest i (setVoice i
        { v with
          state := .releasing, path := .tail, primed := false, tailGlide := true, step := c.loopLast + 1, pos := 0,
          passes := 0, buffer0 := Buffer.empty, buffer1 := Buffer.empty, playCount := 0, cursorCount := 0,
          cursor := some { step := c.loopLast + 1, pos := 0, passes := 0 } } s)
    else endVoice i s
  | .playing =>
    if c.inTail v.step then setVoice i { v with state := .releasing, path := .tail } s
    else cancelRequest i (setVoice i { realign s v with state := .releasing, path := .tail } s)
  | .resuming =>
    if c.inTail v.step then setVoice i { v with state := .releasing, path := .tail } s
    else cancelRequest i (setVoice i { realign s v with state := .releasing, path := .tail } s)
  | .idle => s
  | .releasing => s

/-- Release a voice on the FADE path (R36, R37, R38). -/
def releaseFade (i : Fin 16) (s : State) : State :=
  let v := voiceOf s i
  let faded := startRamp 0 (msFrames (cueRecord s v.cue).releaseTime) { v with state := .releasing, path := .fade }
  match v.state with
  | .priming => endVoice i s
  | .playing => setVoice i faded s
  | .resuming => setVoice i faded s
  | .idle => s
  | .releasing => s

/-- Release a voice by a mode. -/
def releaseVoice (mode : ReleaseMode) (i : Fin 16) (s : State) : State :=
  match mode with
  | .tail => releaseTail i s
  | .fade => releaseFade i s

/-! ## One frame clock at one voice (R30, R31, R38) -/

/-- The step glide to the first tail step starts at the first frame that is played, if the target changed (R36). -/
def startTailGlide (s : State) (v : Voice) : Voice :=
  if v.tailGlide then
    let w := { v with tailGlide := false }
    if effectiveTarget s w = w.gainTarget then w else startRamp (effectiveTarget s w) stepGlide w
  else v

/-- The voice after it has given a frame: its ramp advanced, its frame position and play count raised, and the passed
frame gone from its buffers (R30, R53). -/
def consumeFrame (s : State) (v : Voice) : Voice :=
  let v := advanceRamp (startTailGlide s v)
  { v with
    pos := v.pos + 1, playCount := v.playCount + 1
    buffer0 := v.buffer0.pass v.playCount, buffer1 := v.buffer1.pass v.playCount }

/-- The fade of a voice on the FADE path has reached its end (R38). -/
def Voice.fadeOver (v : Voice) : Bool := decide (v.path = .fade) && decide (v.rampLeft = 0)

/-- A move to another step, with the step glide of a changed target; a voice on the FADE path starts none (R31, R38,
R43). -/
def enterStep (s : State) (v : Voice) (step passes : Nat) : Voice :=
  let v := { v with step := step, pos := 0, passes := passes }
  if v.path = .fade then v
  else if effectiveTarget s v = v.gainTarget then v
  else startRamp (effectiveTarget s v) stepGlide v

/-- A consuming voice at a frame clock, and whether it ends there (R30, R31, R38). -/
def voiceFrame (s : State) (v : Voice) : Voice × Bool :=
  let c := cueRecord s v.cue
  let w := consumeFrame s v
  if w.fadeOver then (w, true)
  else if w.pos < (stepRecord s c w.step).length then (w, false)
  else
    match nextStep c w.onTail w.step w.passes with
    | none => (w, true)
    | some (st, ps) => (enterStep s w st ps, false)

end Sys2Proof.Machine
end

