-- ==== Sys2Proof/Machine/Fetch.lean ====
section
/-!
DEFINITION. The Clip Fetch Unit (chapter 3): block requests, the flash port, the arbiter and the completion of a read.
-/
namespace Sys2Proof.Machine

/-- The voice of a slot owns a request, waiting or in flight (R54). -/
def ownsRequest (s : State) (i : Fin 16) : Bool :=
  s.fetch.requests.any (fun r => r.slot == i) ||
    (match s.fetch.flight with
    | some f => f.owned && f.request.slot == i
    | none => false)

/-- A voice whose cursor is behind its play position has it moved there (R54). -/
def Voice.catchUp (v : Voice) (cur : Cursor) : Voice × Cursor :=
  if behind v.cursorCount v.playCount then
    ({ v with cursorCount := v.playCount }, { step := v.step, pos := v.pos, passes := v.passes })
  else (v, cur)

/-- The frames of a run of segments. -/
def segmentFrames (l : List Segment) : Nat := l.foldl (fun n g => n + g.count) 0

/-- Place the request for the block at a cursor, and move the cursor past it (R32, R54). -/
def placeBlock (i : Fin 16) (v : Voice) (cur : Cursor) (s : State) : State :=
  let (w, at_) := v.catchUp cur
  let (segs, after) := walkBlock s (cueRecord s w.cue) w.onTail 256 256 at_
  let n := segmentFrames segs
  if n = 0 then s
  else
    let r : Request :=
      { slot := i, second := !w.buffer0.frames.isEmpty, first := w.cursorCount, length := n, segments := segs,
        seq := s.fetch.nextSeq }
    setVoice i { w with cursor := after, cursorCount := w.cursorCount + BitVec.ofNat 32 n }
      { s with fetch := { s.fetch with requests := s.fetch.requests ++ [r], nextSeq := s.fetch.nextSeq + 1 } }

/-- A voice places its request when every condition of R54 holds. -/
def placeRequest (i : Fin 16) (s : State) : State :=
  let v := voiceOf s i
  if v.state = .idle || ownsRequest s i || !(v.buffer0.frames.isEmpty || v.buffer1.frames.isEmpty) then s
  else
    match v.cursor with
    | none => s
    | some cur => placeBlock i v cur s

/-- Rank 1 of Table 3-1. -/
def Voice.starving (v : Voice) : Bool := v.consumes && decide (v.unplayed < 128)

/-- Rank 2 of Table 3-1. -/
def Voice.waitsToPrime (v : Voice) : Bool :=
  match v.state with
  | .priming => true
  | .resuming => true
  | .releasing => !v.primed
  | .idle => false
  | .playing => false

/-- One waiting request is granted before another (Table 3-1, R55). -/
def grantsBefore (s : State) (a b : Request) : Bool :=
  let v := voiceOf s a.slot
  let w := voiceOf s b.slot
  if v.starving ≠ w.starving then v.starving
  else if v.waitsToPrime ≠ w.waitsToPrime then v.waitsToPrime
  else if v.level ≠ w.level then decide (w.level < v.level)
  else decide (a.seq < b.seq)

/-- The waiting request that is ranked first. -/
def firstRequest (s : State) : Option Request :=
  s.fetch.requests.foldl (fun best r =>
    match best with
    | none => some r
    | some b => if grantsBefore s r b then some r else some b) none

/-! ## The flash port (section 3.1) -/

/-- Ticks of one character at 40 MHz, 0.2 µs, and of the high of chip select between transfers (R52). -/
def flashCharTicks : Nat := 48

/-- How many characters a transfer has: the command, the address and the segment's bytes (R52). -/
def transferChars (g : Segment) : Nat := 4 + 2 * g.count

/-- The first byte address of a segment (R52). -/
def segmentAddress (s : State) (g : Segment) : Nat := (clipRecord s g.clip).address + 2 * g.first

/-- The characters that the part sends in a transfer: the read command and the address, most significant first (R52). -/
def transferSends (s : State) (g : Segment) : List Byte := 0x03 :: bytes3 (BitVec.ofNat 24 (segmentAddress s g))

/-- The bytes that the part clocks in in a transfer, as the flash returns them (R52). -/
def transferReturns (s : State) (g : Segment) : List Byte :=
  Memory.readRange s.flash (segmentAddress s g) (2 * g.count)

/-- The ticks of a transfer while chip select is low (R52). -/
def transferTicks (g : Segment) : Nat := transferChars g * flashCharTicks

/-- The ticks of a read from the lowering of chip select to its last byte: its transfers, and the high of chip select between
two of them (R52). -/
def readTicks (l : List Segment) : Nat :=
  (l.map transferTicks).sum + (l.length - 1) * flashCharTicks

/-- The transfer, and the number of characters of it that are over, some ticks after a read began; none while chip select is
high after a transfer. -/
def transferAt : List Segment → Nat → Option (Segment × Nat)
  | [], _ => none
  | g :: rest, t =>
    if t < transferTicks g then some (g, t / flashCharTicks)
    else if t < transferTicks g + flashCharTicks then none
    else transferAt rest (t - (transferTicks g + flashCharTicks))

/-- The transfer that the flash port is doing, and the number of characters of it that are over (R52). A read that was granted
in the 0.2 µs after the one before has not begun until they are over. -/
def flashPort (s : State) : Option (Segment × Nat) :=
  match s.fetch.flight with
  | none => none
  | some f =>
    let start := f.doneAt - readTicks f.request.segments
    if s.now < start then none else transferAt f.request.segments (s.now - start)

/-- The level of the flash chip select: low in a transfer, and high at every other moment, so that a reset, which leaves no read
in flight, raises it (R51, R52; entry 42). -/
def chipSelect (s : State) : Bool := (flashPort s).isNone

/-- The character that the part is sending to the flash, if it is sending one (R52). -/
def flashSends (s : State) : Option Byte :=
  match flashPort s with
  | none => none
  | some (g, k) => (transferSends s g)[k]?

/-- The byte that the part is clocking in from the flash, if it is clocking one in (R52). -/
def flashReturns (s : State) : Option Byte :=
  match flashPort s with
  | none => none
  | some (g, k) => if k < 4 then none else (transferReturns s g)[k - 4]?

/-! ## Grants and completions -/

/-- An idle arbiter grants the first request (R55). -/
def grant (s : State) : State :=
  match s.fetch.flight with
  | some _ => s
  | none =>
    match firstRequest s with
    | none => s
    | some r =>
      let done := max s.now s.fetch.portFree + readTicks r.segments
      { s with fetch := { s.fetch with
          requests := s.fetch.requests.filter fun q => q.seq != r.seq
          flight := some { request := r, owned := true, doneAt := done }
          portFree := done + flashCharTicks } }

/-- What the Clip Fetch Unit does at the end of an event: every voice that may place a request does, in ascending slot
order, and then an idle arbiter grants (R54, R55). -/
def fetchSettle (s : State) : State := grant (slots.foldl (fun t i => placeRequest i t) s)

/-- The samples of a block, segment by segment, as the flash returns them (R52). -/
def blockSamples (s : State) (l : List Segment) : List Sample :=
  l.flatMap fun g => samplesOf (transferReturns s g)

/-- The buffer that a completed block leaves, for a play count (the three cases of R57). -/
def enterBlock (first : Word) (frames : List Sample) (play : Word) : Buffer :=
  if behind first play then
    if (play - first).toNat < frames.length then { first := play, frames := frames.drop (play - first).toNat }
    else Buffer.empty
  else { first := first, frames := frames }

/-- A voice is primed by the block that holds its play position (R33, R34, R36, R37, R57). -/
def primeVoice (v : Voice) : Voice :=
  match v.state with
  | .priming => { v with primed := true, state := .playing }
  | .resuming => { v with primed := true, state := .playing }
  | .releasing => { v with primed := true }
  | .idle => v
  | .playing => v

/-- The voice after the entry of a block it owns (R57). -/
def voiceAfterBlock (s : State) (v : Voice) (r : Request) : Voice :=
  let b := enterBlock r.first (blockSamples s r.segments) v.playCount
  let w := if r.second then { v with buffer1 := b } else { v with buffer0 := b }
  if (b.at v.playCount).isSome && !v.primed then primeVoice w else w

/-- The read in flight, once its last byte has been clocked in (R52). -/
def completedRead (s : State) : Option Flight :=
  match s.fetch.flight with
  | some f => if f.doneAt ≤ s.now then some f else none
  | none => none

/-- The read in flight is over. -/
def endRead (s : State) : State := { s with fetch := { s.fetch with flight := none } }

/-- BLOCK_COMPLETION (R57): the block is entered, its voice may be primed, requests are placed and the arbiter grants. -/
def blockCompletion (s : State) : State :=
  match completedRead s with
  | none => s
  | some f =>
    if f.owned then
      let i := f.request.slot
      fetchSettle (setVoice i (voiceAfterBlock s (voiceOf s i) f.request) (endRead s))
    else s

/-- DISCARDED_COMPLETION (R58): the data is discarded and the arbiter grants. -/
def discardedCompletion (s : State) : State :=
  match completedRead s with
  | none => s
  | some f => if f.owned then s else fetchSettle (endRead s)

/-- BLOCK_COMPLETION (R57). -/
def execBlockCompletion (s : State) : Host.Outcome State Fault Refusal := .next (blockCompletion s)

/-- DISCARDED_COMPLETION (R58). -/
def execDiscardedCompletion (s : State) : Host.Outcome State Fault Refusal := .next (discardedCompletion s)

end Sys2Proof.Machine
end

