-- ==== Sys2Proof/Machine/Audio.lean ====
section
/-!
DEFINITION. The frame clock: the Word Clock Monitor that makes it, the Mixer and the step of the voice pool at it
(chapter 2 sections 2.2 and 2.4, chapter 4).
-/
namespace Sys2Proof.Machine

/-! ## The Mixer (sections 4.1 and 4.2) -/

/-- A voice's contribution at a frame clock (R67): its frame, silence where no buffer holds it (R61), times the whole
part of its gain, over 128. -/
def Voice.contribution (v : Voice) : Int :=
  match v.frame with
  | some x => (x.toInt * (v.gain : Int)).tdiv 128
  | none => 0

/-- A slot's voice feeds an output of a zone (R66). -/
def feeds (s : State) (i : Fin 16) (zone : Byte) : Bool :=
  (voiceOf s i).consumes && maskHasZone (voiceCue s i).zoneMask zone

/-- The total of an output (R67). -/
def outputTotal (s : State) (zone : Byte) : Int :=
  slots.foldl (fun n i => if feeds s i zone then n + (voiceOf s i).contribution else n) 0

/-- The range of a 16-bit sample (R68). -/
def saturate (n : Int) : Int := max (-32768) (min 32767 n)

/-- A total is a saturation (R68). -/
def saturates (n : Int) : Bool := decide (n < -32768) || decide (32767 < n)

/-- An output after a frame clock (R67 to R69). -/
def mixOutput (s : State) (o : Output) : Output :=
  let n := outputTotal s o.zone
  { o with sum := saturate n, presented := o.sum, clip := o.clip || saturates n }

/-- A consuming voice finds no frame at its play count (R61). -/
def underruns (s : State) : Bool :=
  slots.any fun i => (voiceOf s i).consumes && (voiceOf s i).frame.isNone

/-- The Mixer's part of a frame clock, with UNDERRUN and CLIP (R61, R68). -/
def mix (s : State) : State :=
  let clipped := four.any fun o => saturates (outputTotal s (outputZone s o))
  let t := { s with outputs := mapVec (mixOutput s) s.outputs }
  let t := if underruns s then setFault .underrun t else t
  if clipped then setFault .clip t else t

/-! ## The voice pool (R30, R31, R40) -/

/-- Every consuming voice after its step at a frame clock, each as the events before the frame clock left it
(entry 15). -/
def stepVoices (s : State) : State :=
  { s with pool := { s.pool with
      voices := mapVec (fun v => if v.consumes then (voiceFrame s v).1 else v) s.pool.voices } }

/-- The slots whose voices end at a frame clock. -/
def endingSlots (s : State) : List (Fin 16) :=
  slots.filter fun i => (voiceOf s i).consumes && (voiceFrame s (voiceOf s i)).2

/-- A frame clock (R30): the Mixer takes the frames, every consuming voice steps, the voices that end do so in ascending
slot order, and the requests that buffers and cursors allow are placed. -/
def frameClock (s : State) : State :=
  fetchSettle ((endingSlots s).foldl (fun t i => endVoice i t) (stepVoices (mix s)))

/-! ## The Word Clock Monitor (section 4.3) -/

/-- Change the monitor's state. -/
def withWclk (f : WordClock → WordClock) (s : State) : State := { s with wclk := f s.wclk }

/-- The time since the reference. -/
def sinceReference (s : State) : Nat := s.now - s.wclk.reference

/-- A frame clock at this moment, which becomes the reference. -/
def frameClockNow (s : State) : State := frameClock (withWclk (fun w => { w with reference := s.now }) s)

/-- Half a period (R72). -/
def halfPeriod : Nat := 2500

/-- 1.25 T (R72). -/
def substitutePeriod : Nat := 6250

/-- An edge that arrives in the window of R72, in LOCKED. -/
def edgeInWindow (s : State) : Bool :=
  decide (s.wclk.mode = .locked) && decide (halfPeriod ≤ sinceReference s) &&
    decide (sinceReference s ≤ substitutePeriod)

/-- The edge of the window makes a frame clock, and the miss count becomes 0 (R72). -/
def edgeFrameClock (s : State) : State :=
  frameClockNow (withWclk (fun w => { w with miss := 0, lastEdge := some s.now }) s)

/-- The recovery count after an edge in LOST (R74): the first edge begins a period; a period from 0.95 T to 1.05 T is
good. -/
def recoveryAfterEdge (s : State) : Nat :=
  match s.wclk.lastEdge with
  | none => s.wclk.recovery
  | some e => if 4750 ≤ s.now - e ∧ s.now - e ≤ 5250 then s.wclk.recovery + 1 else 0

/-- The 480th good period makes the monitor LOCKED, and the edge makes a frame clock or takes the reference's place
(R75). -/
def relock (s : State) : State :=
  let t := withWclk (fun w => { w with mode := .locked, miss := 0, recovery := 0, lastEdge := some s.now }) s
  if halfPeriod ≤ sinceReference s then frameClockNow t else withWclk (fun w => { w with reference := s.now }) t

/-- An external rising edge: not observed in INTERNAL (R71), the window of R72 in LOCKED, a measurement in LOST (R74,
R75). -/
def wordClockEdge (s : State) : State :=
  match s.wclk.mode with
  | .intern => s
  | .locked =>
    if edgeInWindow s then edgeFrameClock s
    else if sinceReference s < halfPeriod then withWclk (fun w => { w with lastEdge := some s.now }) s
    else s
  | .lost =>
    if recoveryAfterEdge s = 480 then relock s
    else withWclk (fun w => { w with recovery := recoveryAfterEdge s, lastEdge := some s.now }) s

/-- The substitute frame clock is due (R72). -/
def substituteDue (s : State) : Bool :=
  decide (s.wclk.mode = .locked) && decide (substitutePeriod ≤ sinceReference s)

/-- The monitor becomes LOST at the fourth consecutive substitute, and WCLK_LOST is set (R73). -/
def loseWordClock (s : State) : State :=
  setFault .wclkLost
    (withWclk (fun w => { w with mode := .lost, miss := 0, recovery := 0, lastEdge := none }) s)

/-- A substitute frame clock (R72, R73). -/
def substituteFrameClock (s : State) : State :=
  if substituteDue s then
    let t := frameClockNow (withWclk (fun w => { w with miss := w.miss + 1 }) s)
    if s.wclk.miss = 3 then loseWordClock t else t
  else s

/-- The internal timer's frame clock is due (R71, R74). -/
def timerDue (s : State) : Bool := decide (s.wclk.mode ≠ .locked) && decide (framePeriod ≤ sinceReference s)

/-- A frame clock comes at this moment: the timer's, or in LOCKED the edge's or the substitute's (entry 23). -/
def frameClockDue (s : State) : Bool := timerDue s || edgeInWindow s || substituteDue s

/-- The frame clock of this moment, from the source that makes it. -/
def frameClockBySource (s : State) : State :=
  if timerDue s then frameClockNow s
  else if edgeInWindow s then edgeFrameClock s
  else substituteFrameClock s

/-- RAMP_END: the frame clock at which the ramp of a slot reaches its target (R42). -/
def rampEnd (i : Fin 16) (s : State) : State :=
  if frameClockDue s && (voiceOf s i).consumes && decide ((startTailGlide s (voiceOf s i)).rampLeft = 1)
  then frameClockBySource s else s

/-- FADE_END: the frame clock at which the fade of a slot reaches its end, and its voice with it (R38). -/
def fadeEnd (i : Fin 16) (s : State) : State :=
  if frameClockDue s && (voiceOf s i).consumes && (consumeFrame s (voiceOf s i)).fadeOver then frameClockBySource s else s

/-- WCLK_LOST: the fourth consecutive substitute (R73). -/
def wclkLost (s : State) : State := if decide (s.wclk.miss = 3) then substituteFrameClock s else s

/-- WCLK_RELOCK: the edge that completes the 480th good period in LOST (R75). -/
def wclkRelock (s : State) : State :=
  if decide (s.wclk.mode = .lost) && decide (recoveryAfterEdge s = 480) then wordClockEdge s else s

/-- FRAME_CLOCK (R30). -/
def execFrameClock (s : State) : Host.Outcome State Fault Refusal := .next (frameClockBySource s)

/-- RAMP_END (R42). -/
def execRampEnd (i : Fin 16) (s : State) : Host.Outcome State Fault Refusal := .next (rampEnd i s)

/-- FADE_END (R38). -/
def execFadeEnd (i : Fin 16) (s : State) : Host.Outcome State Fault Refusal := .next (fadeEnd i s)

/-- WORD_CLOCK_EDGE (R72). -/
def execWordClockEdge (s : State) : Host.Outcome State Fault Refusal := .next (wordClockEdge s)

/-- SUBSTITUTE_FRAME_CLOCK (R72). -/
def execSubstituteFrameClock (s : State) : Host.Outcome State Fault Refusal := .next (substituteFrameClock s)

/-- WCLK_LOST (R73). -/
def execWclkLost (s : State) : Host.Outcome State Fault Refusal := .next (wclkLost s)

/-- WCLK_RELOCK (R75). -/
def execWclkRelock (s : State) : Host.Outcome State Fault Refusal := .next (wclkRelock s)

end Sys2Proof.Machine
end

