-- ==== Sys2Proof/Machine/Line.lean ====
section
/-!
DEFINITION. The Line Interface (chapter 7), sample by sample: the receiver with its search for characters, its states and
its conditions; the transmitter; the veto slot and the ends of attempts. A command of the line brings the samples since the
line command before, and names an event of the last of them (entry 4).
-/
namespace Sys2Proof.Machine

/-- The rows of the table that happen at a sample of the line. -/
inductive LineEvent where
  | syncIdle | breakDetect | gapError | lineStuck | stuckRecovery | attemptStart | arbitrationLost | bitError | jam
  | vetoSlotStart | frameAccepted | frameVetoed | frameDropped | headerUnusable | strayStartBit
  deriving DecidableEq, Repr

/-- Change the Line Interface. -/
def withLine (f : LineInterface → LineInterface) (s : State) : State := { s with line := f s.line }

/-! ## Lengths in samples of 1/16 tb -/

/-- A bit time. -/
def bitSamples : Nat := 16

/-- A character (R115), and the 11 tb of a break and of a jam (R117, R126). -/
def charSamples : Nat := 176

/-- The break as sent, 12 tb (R122). -/
def breakSamples : Nat := 192

/-- The mark before the header, 2 tb (R123). -/
def markSamples : Nat := 32

/-- 14 tb of high line (R119). -/
def idleSamples : Nat := 224

/-- 6 tb, more than which is a gap (R120). -/
def gapSamples : Nat := 96

/-- 64 tb, more than which is a stuck line (R121). -/
def stuckSamples : Nat := 1024

/-- From sample 9 of a stop bit, where a character is complete, to the end of the 1 tb mark after it (R116, R126). -/
def endMarkSamples : Nat := 22

/-- The veto slot, 2 tb (R126). -/
def slotSamples : Nat := 32

/-- From sample 9 of a stop bit to the sample at which a gap measured from the end of that bit is an error (R120). -/
def betweenGap : Nat := 6 + gapSamples + 1

/-! ## Single samples -/

/-- A level as a number of highs. -/
def Bool.high (b : Bool) : Nat := if b then 1 else 0

/-- The count of highs among samples 7, 8 and 9 of a bit, after a sample of an index in the bit (R116). -/
def tally (index highs : Nat) (level : Bool) : Nat :=
  if index = 7 then Bool.high level else if index = 8 ∨ index = 9 then highs + Bool.high level else highs

/-- The level that the majority of samples 7, 8 and 9 shows (R116). -/
def majorityHigh (highs : Nat) : Bool := decide (2 ≤ highs)

/-- The runs of low and of high samples, with the clock value of the first low one (R117). -/
def LineInterface.pulse (clk : Word) (level : Bool) (l : LineInterface) : LineInterface :=
  if level then { l with highs := l.highs + 1, lows := 0 }
  else { l with lows := l.lows + 1, highs := 0, lowEdge := if l.lows = 0 then clk else l.lowEdge }

/-- What a sample brings the receiver's search: nothing, a start bit that passes the noise test, or a character. -/
inductive Found where
  | nothing
  | started
  | character (c : ReadChar)
  deriving DecidableEq, Repr

/-- The receiver reads a bit at its sample 9 (R116): a high start bit is noise; the stop bit completes the character, after
which hunting resumes at once, or after a framing error at the first high sample. -/
def huntBit (sample : Nat) (level : Bool) (bits : BitVec 11) : Hunt × Found :=
  let read : BitVec 11 := if level then bits ||| (1 <<< (sample / bitSamples)) else bits
  if sample / bitSamples = 0 then (if level then (.hunting, .nothing) else (.reading (sample + 1) 0 read, .started))
  else if sample / bitSamples < 10 then (.reading (sample + 1) 0 read, .nothing)
  else (if level then .hunting else .waitHigh, .character (readLineBits read))

/-- One sample of the search for characters (R116). -/
def huntSample (level : Bool) (h : Hunt) : Hunt × Found :=
  match h with
  | .hunting => (if level then .hunting else .reading 1 0 0, .nothing)
  | .waitHigh => (if level then .hunting else .waitHigh, .nothing)
  | .reading sample highs bits =>
    let highs := tally (sample % bitSamples) highs level
    if sample % bitSamples = 9 then huntBit sample (majorityHigh highs) bits else (.reading (sample + 1) highs bits, .nothing)

/-- A start bit has been found and not yet tested. -/
def Hunt.pending (h : Hunt) : Bool :=
  match h with
  | .reading _ _ _ => true
  | .hunting => false
  | .waitHigh => false

/-- The receiver waits for the line to be high. -/
def Hunt.waits (h : Hunt) : Bool :=
  match h with
  | .waitHigh => true
  | .hunting => false
  | .reading _ _ _ => false

/-- Idle holds (R119): the receiver is OUTSIDE, its count is 14 tb or more, and no low stands (entry 35). -/
def idleHolds (s : State) : Bool :=
  decide (s.line.rx = .outside) && decide (idleSamples ≤ s.line.idleCount) && decide (s.line.lows = 0) &&
    !s.line.hunt.pending

/-- The receiver enters OUTSIDE with an idle count, and nothing is in assembly. -/
def LineInterface.toOutside (idle : Nat) (l : LineInterface) : LineInterface :=
  { l with rx := .outside, idleCount := idle, assembling := false, frame := [], jamWait := false, jamReady := false }

/-! ## The ends of attempts (section 7.5) -/

/-- The attempt is over and the station stops driving it. -/
def endAttempt (s : State) : State := withLine (fun l => { l with attempt := none, driver := .released }) s

/-- An end that Table 7-4 does not count: a withdrawn frame is removed (R131), any other stays queued. -/
def endUncounted (a : Attempt) (s : State) : State :=
  match txEntry s a.entry with
  | some e => if e.withdrawn then offerRounds 1 (removeTx a.entry (endAttempt s)) else endAttempt s
  | none => endAttempt s

/-- The drop of a frame placed at a panel command posts an outcome record (R25, R130). -/
def panelFrame (e : TxEntry) : Bool :=
  decide (e.producer = .panelPort) || decide (kindOf e.frame = some .arm) || decide (kindOf e.frame = some .clock)

/-- The DROPPED record of a frame, with the break edge of its last attempt (R25). -/
def droppedRecord (f : LineFrame) (edge : Word) : OutcomeRecord :=
  { tag := (recordFields f).1, cue := (recordFields f).2, kind := f.kind, outcome := .dropped, edge := edge }

/-- The Panel Port is told of a drop (R25). -/
def postDropped (e : TxEntry) (edge : Word) (s : State) : State :=
  match parseFrame e.frame with
  | some f => if panelFrame e then postOutcome (droppedRecord f edge) s else s
  | none => s

/-- Membership is told of a dropped JOIN (R157, R159): a JOINING station offers a new one. -/
def rejoin (e : TxEntry) (s : State) : State :=
  if s.member.state = .joining ∧ kindOf e.frame = some .join then offerJoin false s else s

/-- The frame of a failed attempt reaches its eighth failure and is dropped (R130). The DROPPED record takes the timestamp of the
attempt's own break; where that break was never recognised, the receiver's last break edge (entry 39). -/
def dropFrame (a : Attempt) (e : TxEntry) (s : State) : State :=
  let t := setFault .txDropped (forgetEntry a.entry (removeTx a.entry (endAttempt s)))
  offerRounds 1 (rejoin e (postDropped e (a.edge.getD s.line.breakEdge) t))

/-- The frame's failed-attempt count rises by one (R129). -/
def countFailure (seq : Nat) (s : State) : State :=
  { s with txq := { s.txq with
      entries := s.txq.entries.map fun e => if e.seq = seq then { e with fails := e.fails + 1 } else e } }

/-- An end that Table 7-4 counts as failed (R129 to R131). -/
def endFailed (a : Attempt) (s : State) : State :=
  match txEntry s a.entry with
  | some e =>
    if e.withdrawn then offerRounds 1 (removeTx a.entry (endAttempt s))
    else if e.fails + 1 = 8 then dropFrame a e s
    else countFailure a.entry (endAttempt s)
  | none => endAttempt s

/-- A JOINING station whose own JOIN is accepted becomes ACTIVE (R128, R157). -/
def joinAccepted (e : TxEntry) (s : State) : State :=
  if s.member.state = .joining ∧ kindOf e.frame = some .join then { s with member := { s.member with state := .active } }
  else s

/-- An attempt ends by acceptance (R129). -/
def endAccepted (a : Attempt) (s : State) : State :=
  match txEntry s a.entry with
  | some e => joinAccepted e (forgetEntry a.entry (removeTx a.entry (endAttempt s)))
  | none => endAttempt s

/-- The end of an attempt that fails would drop its frame (R130). -/
def failureDrops (s : State) : Bool :=
  match s.line.attempt with
  | none => false
  | some a =>
    match txEntry s a.entry with
    | none => false
    | some e => decide (e.fails + 1 = 8) && !e.withdrawn

/-- The events of a failed end: its own, and the drop. -/
def failureEvents (s : State) (e : LineEvent) : List LineEvent := if failureDrops s then [e, .frameDropped] else [e]

/-! ## The transmitter (section 7.3) -/

/-- The level that a frame sends at a bit of a character: set for high (R115). -/
def sentLevel (frame : List Byte) (char bit : Nat) : Bool := (lineBits (frame.getD char 0)).getLsbD bit

/-- The characters of the arbitration field (R124): header and station, and in a JOIN that has read them back as sent every
one before the check. -/
def fieldChars (frame : List Byte) (clean : Bool) : Nat := if kindOf frame = some .join ∧ clean = true then 11 else 2

/-- What a transmitter finds at a bit that it reads back. -/
inductive ReadBack where
  | asSent | lost | error
  deriving DecidableEq, Repr

/-- A bit read back (R124, R125): a data or parity bit of the field sent high and read low loses; any other bit after the
field, and any bit sent low and read high, is a bit error. A stop bit in the field read low is neither (entry 33). -/
def readBack (frame : List Byte) (clean : Bool) (char bit : Nat) (read : Bool) : ReadBack :=
  if sentLevel frame char bit = read then .asSent
  else if sentLevel frame char bit = true ∧ char < fieldChars frame clean then
    (if 1 ≤ bit ∧ bit ≤ 9 then .lost else .asSent)
  else .error

/-- The attempt in another phase. -/
def setPhase (p : AttemptPhase) (s : State) : State :=
  withLine (fun l => { l with attempt := l.attempt.map fun a => { a with phase := p } }) s

/-- The phase after a sample of the characters: the next sample, or after the check character the mark and the slot. -/
def nextPhase (frame : List Byte) (sample highs : Nat) : AttemptPhase :=
  if sample + 1 < charSamples * frame.length then .sending (sample + 1) highs else .slot 0 0 0

/-- A bit read back as sent, or a stop bit of the field that was not: the attempt goes on (R124). -/
def goOn (asSent : Bool) (char : Nat) (p : AttemptPhase) (s : State) : State :=
  withLine (fun l =>
    { l with attempt := l.attempt.map fun a => { a with phase := p, clean := a.clean && (asSent || decide (2 ≤ char)) } }) s

/-- A bit error (R125): the attempt fails, and in the check character the station owes the veto slot. -/
def failAttempt (a : Attempt) (frame : List Byte) (sample : Nat) (s : State) : State :=
  endFailed a (if sample / charSamples + 1 = frame.length
    then withLine (fun l => { l with vetoOwed := some (sample % charSamples) }) s else s)

/-- One sample of a frame's characters: at sample 9 of each bit the level read back is judged. -/
def sendSample (a : Attempt) (frame : List Byte) (sample highs : Nat) (level : Bool) (s : State) : State × List LineEvent :=
  let highs := tally (sample % bitSamples) highs level
  if sample % bitSamples = 9 then
    let char := sample / charSamples
    let bit := sample % charSamples / bitSamples
    let read := majorityHigh highs
    match readBack frame a.clean char bit read with
    | .asSent => (goOn (sentLevel frame char bit == read) char (nextPhase frame sample 0) s, [])
    | .lost => (endUncounted a s, [.arbitrationLost])
    | .error => (failAttempt a frame sample s, failureEvents s .bitError)
  else (setPhase (nextPhase frame sample highs) s, [])

/-- One sample of an attempt (R122, R123): 12 tb of break; a wait for the line to go high; 2 tb of mark, cut short by a low,
which is sample 0 of the start bit; the characters; the mark and the slot. -/
def attemptSample (a : Attempt) (level : Bool) (s : State) : State × List LineEvent :=
  match a.phase with
  | .breaking n => (setPhase (if n + 1 < breakSamples then .breaking (n + 1) else .waiting) s, [])
  | .waiting => (if level then setPhase (.mark 1) s else s, [])
  | .mark n =>
    (setPhase (if level then (if n + 1 < markSamples then .mark (n + 1) else .sending 0 0) else .sending 1 0) s, [])
  | .sending sample highs =>
    match txEntry s a.entry with
    | some e => sendSample a e.frame sample highs level s
    | none => (s, [])
  | .slot n first second =>
    let first := if n < 32 then tally (n - 16) first level else first
    let second := if n < 32 then second else tally (n - 32) second level
    (setPhase (.slot (min 48 (n + 1)) first second) s, [])

/-- The transmitter's part of a sample. -/
def sendingSample (level : Bool) (s : State) : State × List LineEvent :=
  match s.line.attempt with
  | some a => attemptSample a level s
  | none => (s, [])

/-- The time of a check character that had a bit error runs on to the end of its veto slot (R125), whatever the receiver finds
meanwhile (entry 34). -/
def LineInterface.owedSample (l : LineInterface) : LineInterface :=
  { l with vetoOwed := match l.vetoOwed with
      | some n => if n + 1 < charSamples + bitSamples + slotSamples - 1 then some (n + 1) else none
      | none => none }

/-- The veto owed is driven from the end of the mark to the end of the slot (R125). -/
def LineInterface.drivesOwed (l : LineInterface) : Bool :=
  match l.vetoOwed with
  | some n => decide (charSamples + bitSamples ≤ n + 1)
  | none => false

/-- The attempt drives the line low until the next sample (R122, R123). -/
def drivesAttempt (s : State) : Bool :=
  match s.line.attempt with
  | none => false
  | some a =>
    match a.phase with
    | .breaking _ => true
    | .sending sample _ =>
      (match txEntry s a.entry with
      | some e => !sentLevel e.frame (sample / charSamples) (sample % charSamples / bitSamples)
      | none => false)
    | .waiting => false
    | .mark _ => false
    | .slot _ _ _ => false

/-- The driver until the next sample (R114). -/
def drive (s : State) : State :=
  withLine (fun l =>
    { l with driver :=
        if 0 < l.jamLeft then .jam
        else if (decide (l.rx = .slot) && l.slotVeto) || l.drivesOwed then .veto
        else if drivesAttempt s then .attempt
        else .released }) s

/-! ## The receiver's conditions (section 7.2) -/

/-- SYNC_IDLE and STUCK_RECOVERY (R119, R121): 14 tb of high line, and idle holds. -/
def idleLine (s : State) : State := withLine (fun l => { LineInterface.toOutside idleSamples l with hunt := .hunting }) s

/-- The station's own attempt takes the timestamp of its break (R117). -/
def Attempt.stamp (edge : Word) (a : Attempt) : Attempt :=
  match a.edge with
  | none => { a with edge := some edge }
  | some _ => a

/-- BREAK_DETECT (R117): a frame in assembly is discarded, and a new one begins with the clock value of the low's first
sample. -/
def breakDetect (s : State) : State :=
  withLine (fun l =>
    { l with
      rx := .inBreak, idleCount := 0, breakEdge := l.lowEdge, assembling := true, frame := [], jamWait := false,
      jamReady := false, slotVeto := false, hunt := .hunting, attempt := l.attempt.map (Attempt.stamp l.lowEdge) }) s

/-- GAP_ERROR (R120): the count of OUTSIDE is the time since the last low sample (R119). A veto owed stays owed (entry 34). -/
def gapError (s : State) : State := withLine (fun l => LineInterface.toOutside l.highs l) s

/-- LINE_STUCK (R121): the frame in assembly is discarded, the station drives nothing, and an attempt that waits for its
header ends, as one in any other phase would (entry 6). -/
def lineStuck (s : State) : State :=
  let t := setFault .lineStuck
    (withLine (fun l =>
      { l with
        rx := .stuck, idleCount := 0, assembling := false, frame := [], jamWait := false, jamReady := false, jamLeft := 0,
        slotVeto := false, vetoOwed := none, hunt := .hunting }) s)
  match s.line.attempt with
  | some a => endUncounted a t
  | none => t

/-- One sample OUTSIDE (R119): the count rises at a high sample while no start bit is being tested, and a start bit that passes
the noise test sets it to 0 and begins no character (entry 35). -/
def outsideSample (level : Bool) (s : State) : State × List LineEvent :=
  match huntSample level s.line.hunt with
  | (_, .started) => (withLine (fun l => { l with idleCount := 0, hunt := .waitHigh }) s, [.strayStartBit])
  | (h, _) =>
    (withLine (fun l =>
      { l with hunt := h, idleCount := if level && !l.hunt.pending then l.idleCount + 1 else l.idleCount }) s, [])

/-- The samples left until a gap error (R120): in BETWEEN they run from the end of the stop bit, and while a low stands after
a framing error the count waits for the line to be high (entry 36). -/
def gapAfter (level : Bool) (h : Hunt) (left : Nat) : Nat :=
  if h.waits && !level then max (gapSamples + 1) (left - 1) else left - 1

/-- One sample of a gap: the error is found when no start bit is being tested (entry 36). -/
def gapSample (level : Bool) (before after : Hunt) (s : State) : State × List LineEvent :=
  let left := gapAfter level before s.line.gapLeft
  if left = 0 ∧ after.pending = false then (gapError s, [.gapError])
  else (withLine (fun l => { l with gapLeft := left }) s, [])

/-! ## Frame length, the jam and the veto slot (section 7.4) -/

/-- The receiver waits for the next start bit (R116). -/
def toBetween (s : State) : State := withLine (fun l => { l with rx := .between, gapLeft := betweenGap }) s

/-- HEADER_UNUSABLE (R126): the frame is discarded; an ACTIVE receiver waits to jam it, any other enters OUTSIDE. -/
def headerUnusable (s : State) : State :=
  if s.member.state = .active then
    toBetween (withLine (fun l => { l with assembling := false, frame := [], jamWait := true, jamReady := false }) s)
  else withLine (fun l => LineInterface.toOutside l.highs l) s

/-- The length that the header of a frame gives (R126). -/
def lengthOf (frame : List ReadChar) : Option Nat :=
  match frame with
  | [] => none
  | h :: _ => (usableHeader h).map FrameKind.length

/-- A character of the frame in assembly is complete (R116, R126): the header is judged, and the last character begins the
mark. -/
def frameChar (c : ReadChar) (s : State) : State × List LineEvent :=
  let frame := s.line.frame ++ [c]
  match lengthOf frame with
  | none => (headerUnusable s, [.headerUnusable])
  | some n =>
    if frame.length < n then (toBetween (withLine (fun l => { l with frame := frame }) s), [])
    else (withLine (fun l => { l with frame := frame, rx := .endMark, passed := 0 }) s, [])

/-- A character is complete: one of the frame in assembly, or the station character of one that waits to be jammed. -/
def charDone (c : ReadChar) (s : State) : State × List LineEvent :=
  if s.line.assembling then frameChar c s
  else (toBetween (withLine (fun l => { l with jamReady := l.jamWait }) s), [])

/-- The first low sample after the station character of a frame that waits to be jammed (R126). -/
def jamStarts (level : Bool) (s : State) : Bool :=
  s.line.jamWait && s.line.jamReady && decide (s.line.hunt = .hunting) && !level && decide (s.member.state = .active)

/-- JAM (R126): the line is driven low for 11 tb from this sample. -/
def jam (s : State) : State :=
  withLine (fun l => { l with rx := .character, jamWait := false, jamReady := false, jamLeft := charSamples - 1 }) s

/-- One sample of a jam, after which the receiver is OUTSIDE (R126; entry 7). -/
def jamSample (s : State) : State :=
  if s.line.jamLeft = 1 then withLine (fun l => { LineInterface.toOutside l.highs l with jamLeft := 0, hunt := .hunting }) s
  else withLine (fun l => { l with jamLeft := l.jamLeft - 1 }) s

/-- One sample in HEADER_WAIT, CHARACTER or BETWEEN. -/
def frameSample (level : Bool) (s : State) : State × List LineEvent :=
  if jamStarts level s then (jam s, [.jam])
  else
    let found := huntSample level s.line.hunt
    let t := withLine (fun l => { l with hunt := found.1 }) s
    match found.2 with
    | .started => (withLine (fun l => { l with rx := .character }) t, [])
    | .character c => charDone c t
    | .nothing => if s.line.rx = .character then (t, []) else gapSample level s.line.hunt found.1 t

/-- A frame in assembly has errors at this station (R127): a character error, or a sum that is not 0x5A. -/
def frameErrors (chars : List ReadChar) : Bool :=
  chars.any ReadChar.bad || decide (charSum (chars.map (·.value)) ≠ lineCheck)

/-- The receive queue is full (R127). -/
def rxFull (s : State) : Bool := decide (8 ≤ s.rxq.entries.length)

/-- An ACTIVE station's reasons to veto (R127). -/
def vetoes (s : State) : Bool :=
  decide (s.member.state = .active) &&
    (frameErrors s.line.frame || decide (31 < (senderOf (s.line.frame.map (·.value))).toNat) || rxFull s)

/-- VETO_SLOT_START (R127). -/
def vetoSlotStart (s : State) : State :=
  withLine (fun l => { l with rx := .slot, passed := 0, slotFirst := 0, slotSecond := 0, slotVeto := vetoes s }) s

/-- One sample of the mark after the check character. -/
def endMarkSample (s : State) : State × List LineEvent :=
  if s.line.passed + 1 < endMarkSamples then (withLine (fun l => { l with passed := l.passed + 1 }) s, [])
  else (vetoSlotStart s, [.vetoSlotStart])

/-- The accepted frame enters the receive queue of a station that assembled it without error and has room; a LISTENING
station without room sets RX_OVERRUN (R128, R144; entry 14). -/
def enqueueAccepted (chars : List ReadChar) (edge : Word) (s : State) : State :=
  if frameErrors chars then s
  else if rxFull s then (if s.member.state = .listening then setFault .rxOverrun s else s)
  else pushRx { frame := chars.map (·.value), edge := edge, joining := decide (s.member.state = .joining) } s

/-- The attempt that the end of a slot ends: one that has sent its characters. -/
def slotAttempt (s : State) : Option Attempt :=
  match s.line.attempt with
  | none => none
  | some a =>
    match a.phase with
    | .slot _ _ _ => some a
    | .breaking _ => none
    | .waiting => none
    | .mark _ => none
    | .sending _ _ => none

/-- The receiver leaves the slot for OUTSIDE, with an idle count of 0 (R119). -/
def leaveSlot (s : State) : State :=
  withLine (fun l => { LineInterface.toOutside 0 l with slotVeto := false, hunt := .hunting }) s

/-- FRAME_ACCEPTED (R128). -/
def frameAccepted (s : State) : State :=
  match slotAttempt s with
  | some a => offerRounds 1 (enqueueAccepted s.line.frame s.line.breakEdge (endAccepted a (leaveSlot s)))
  | none => enqueueAccepted s.line.frame s.line.breakEdge (leaveSlot s)

/-- FRAME_VETOED (R128). -/
def frameVetoed (s : State) : State × List LineEvent :=
  match slotAttempt s with
  | some a => (endFailed a (leaveSlot s), failureEvents s .frameVetoed)
  | none => (leaveSlot s, [.frameVetoed])

/-- One sample of the veto slot: at its end both bit times are read by their samples 7, 8 and 9 (R128). -/
def slotSample (level : Bool) (s : State) : State × List LineEvent :=
  let n := s.line.passed
  let first := if n < bitSamples then tally n s.line.slotFirst level else s.line.slotFirst
  let second := if n < bitSamples then s.line.slotSecond else tally (n - bitSamples) s.line.slotSecond level
  if n + 1 < slotSamples then
    (withLine (fun l => { l with passed := n + 1, slotFirst := first, slotSecond := second }) s, [])
  else if majorityHigh first && majorityHigh second then (frameAccepted s, [.frameAccepted])
  else frameVetoed s

/-- A transmitter whose own receiver is not in the mark or the slot of its frame takes the end of the slot from its own
reading (R123, R128; entry 34). -/
def ownSlotEnd (s : State) : State × List LineEvent :=
  match slotAttempt s with
  | none => (s, [])
  | some a =>
    match a.phase with
    | .slot n first second =>
      if n < 48 ∨ s.line.rx = .endMark ∨ s.line.rx = .slot then (s, [])
      else if majorityHigh first && majorityHigh second then (offerRounds 1 (endAccepted a s), [.frameAccepted])
      else (endFailed a s, failureEvents s .frameVetoed)
    | _ => (s, [])

/-! ## The beginning of an attempt (section 7.3) -/

/-- The station may begin an attempt of the head (R114, R122). -/
def maySend (s : State) (head : TxEntry) : Bool :=
  decide (s.member.state = .active) || (decide (s.member.state = .joining) && decide (kindOf head.frame = some .join))

/-- The attempt of an entry, as its break begins (R122). -/
def Attempt.start (e : TxEntry) : Attempt := { entry := e.seq, phase := .breaking 0, edge := none, clean := true }

/-- The entries that had been placed by this moment: all but those that a sample before their placing does not find. -/
def placedEntries (s : State) : List TxEntry := s.txq.entries.filter fun e => decide (e.placedAt ≤ s.now)

/-- The entry whose attempt begins at a sample (R122): the head at that sample, when the station may send it, idle holds, and so
the line reads high, and nothing is driven or owed. -/
def nextAttempt (s : State) : Option TxEntry :=
  match txHead (placedEntries s) with
  | none => none
  | some e =>
    if maySend s e && idleHolds s && s.line.attempt.isNone && s.line.vetoOwed.isNone && decide (s.line.driver = .released)
    then some e else none

/-- ATTEMPT_START (R122), if the sample begins an attempt. -/
def beginSample (s : State) : State × List LineEvent :=
  match nextAttempt s with
  | none => (s, [])
  | some e => (withLine (fun l => { l with driver := .attempt, attempt := some (Attempt.start e) }) s, [.attemptStart])

/-! ## A sample of the line -/

/-- The receiver's part of a sample in its states of Table 7-2. -/
def stateSample (level : Bool) (s : State) : State × List LineEvent :=
  match s.line.rx with
  | .off => (s, [])
  | .sync => if idleSamples ≤ s.line.highs then (idleLine s, [.syncIdle]) else (s, [])
  | .stuck => if idleSamples ≤ s.line.highs then (idleLine s, [.stuckRecovery]) else (s, [])
  | .outside => outsideSample level s
  | .inBreak =>
    (if level then withLine (fun l => { l with rx := .headerWait, gapLeft := gapSamples, hunt := .hunting }) s else s, [])
  | .headerWait => frameSample level s
  | .character => frameSample level s
  | .between => frameSample level s
  | .endMark => endMarkSample s
  | .slot => slotSample level s

/-- The receiver recognises breaks: not in OFF, SYNC or STUCK (R117), nor in the jam it drives itself (entry 7). -/
def hearsBreaks (s : State) : Bool :=
  decide (s.line.jamLeft = 0) &&
    (match s.line.rx with
    | .off => false
    | .sync => false
    | .stuck => false
    | .outside => true
    | .inBreak => true
    | .headerWait => true
    | .character => true
    | .between => true
    | .endMark => true
    | .slot => true)

/-- The receiver's part of a sample: a low of more than 64 tb (R121), a low of 11 tb (R117), the jam, or its state, the first
that is so (entry 6). -/
def receiverSample (level : Bool) (s : State) : State × List LineEvent :=
  if stuckSamples < s.line.lows ∧ s.line.rx ≠ .stuck then (lineStuck s, [.lineStuck])
  else if s.line.lows = charSamples ∧ hearsBreaks s = true then (breakDetect s, [.breakDetect])
  else if 0 < s.line.jamLeft then (jamSample s, [])
  else stateSample level s

/-- A sample up to what is driven after it: the transmitter, the receiver, and the end of an attempt that the receiver did not
follow. -/
def followSample (clk : Word) (level : Bool) (s : State) : State × List LineEvent :=
  let sent := sendingSample level (withLine (fun l => (l.pulse clk level).owedSample) s)
  let received := receiverSample level sent.1
  let ended := ownSlotEnd received.1
  (drive ended.1, sent.2 ++ received.2 ++ ended.2)

/-- One sample of the line, with the station clock's value at it: what it brings, and last the beginning of an attempt, unless
one was in progress when the sample came (entry 6). A receiver that is OFF does not sample. -/
def lineSample (clk : Word) (level : Bool) (s : State) : State × List LineEvent :=
  if s.line.rx = .off then (s, [])
  else
    let followed := followSample clk level s
    if s.line.attempt.isNone then ((beginSample followed.1).1, followed.2 ++ (beginSample followed.1).2) else followed

/-- The station clock's value a number of samples before this moment (R117; entry 5). -/
def clockBefore (s : State) (samples : Nat) : Word :=
  s.stationClock - BitVec.ofNat 32 ((samples * sampleTicks s.straps.lrate + 239 - s.now % 240) / 240)

/-- The moment a number of samples before this one. -/
def momentBefore (s : State) (samples : Nat) : Nat := s.now - samples * sampleTicks s.straps.lrate

/-- One sample of the line at its own moment, with the number of samples that follow it up to this moment (entry 4). -/
def sampleAt (n : Nat) (level : Bool) (s : State) : State × List LineEvent :=
  let sampled := lineSample (clockBefore s n) level { s with now := momentBefore s n }
  ({ sampled.1 with now := s.now }, sampled.2)

/-- Samples of the line one after another, with the number of samples that follow them up to this moment. -/
def playLine : Samples → Nat → State → State
  | [], _, s => s
  | level :: rest, n, s => playLine rest n (sampleAt (rest.length + n) level s).1

/-- The samples of a line command, the last of which is the sample of this moment, with the events of the last (entry 4). -/
def runLine (line : Samples) (s : State) : State × List LineEvent :=
  match line.getLast? with
  | none => (s, [])
  | some level => sampleAt 0 level (playLine line.dropLast 1 s)

/-- A command of the line: its samples, if its event happens at the last of them. -/
def lineCommand (e : LineEvent) (line : Samples) (s : State) : State :=
  if (runLine line s).2.contains e then (runLine line s).1 else s

/-! ## The commands -/

/-- SYNC_IDLE (R119). -/
def execSyncIdle (line : Samples) (s : State) : Host.Outcome State Fault Refusal :=
  .next (lineCommand .syncIdle line s)

/-- BREAK_DETECT (R117). -/
def execBreakDetect (line : Samples) (s : State) : Host.Outcome State Fault Refusal :=
  .next (lineCommand .breakDetect line s)

/-- GAP_ERROR (R120). -/
def execGapError (line : Samples) (s : State) : Host.Outcome State Fault Refusal :=
  .next (lineCommand .gapError line s)

/-- LINE_STUCK (R121). -/
def execLineStuck (line : Samples) (s : State) : Host.Outcome State Fault Refusal :=
  .next (lineCommand .lineStuck line s)

/-- STUCK_RECOVERY (R121). -/
def execStuckRecovery (line : Samples) (s : State) : Host.Outcome State Fault Refusal :=
  .next (lineCommand .stuckRecovery line s)

/-- ATTEMPT_START (R122). -/
def execAttemptStart (line : Samples) (s : State) : Host.Outcome State Fault Refusal :=
  .next (lineCommand .attemptStart line s)

/-- ARBITRATION_LOST (R124). -/
def execArbitrationLost (line : Samples) (s : State) : Host.Outcome State Fault Refusal :=
  .next (lineCommand .arbitrationLost line s)

/-- BIT_ERROR (R125). -/
def execBitError (line : Samples) (s : State) : Host.Outcome State Fault Refusal :=
  .next (lineCommand .bitError line s)

/-- JAM (R126). -/
def execJam (line : Samples) (s : State) : Host.Outcome State Fault Refusal :=
  .next (lineCommand .jam line s)

/-- VETO_SLOT_START (R127). -/
def execVetoSlotStart (line : Samples) (s : State) : Host.Outcome State Fault Refusal :=
  .next (lineCommand .vetoSlotStart line s)

/-- FRAME_ACCEPTED (R128). -/
def execFrameAccepted (line : Samples) (s : State) : Host.Outcome State Fault Refusal :=
  .next (lineCommand .frameAccepted line s)

/-- FRAME_VETOED (R128). -/
def execFrameVetoed (line : Samples) (s : State) : Host.Outcome State Fault Refusal :=
  .next (lineCommand .frameVetoed line s)

/-- FRAME_DROPPED (R130). -/
def execFrameDropped (line : Samples) (s : State) : Host.Outcome State Fault Refusal :=
  .next (lineCommand .frameDropped line s)

/-- HEADER_UNUSABLE (R126). -/
def execHeaderUnusable (line : Samples) (s : State) : Host.Outcome State Fault Refusal :=
  .next (lineCommand .headerUnusable line s)

/-- STRAY_START_BIT (R119). -/
def execStrayStartBit (line : Samples) (s : State) : Host.Outcome State Fault Refusal :=
  .next (lineCommand .strayStartBit line s)

end Sys2Proof.Machine
end

