-- ==== Sys2Proof/Machine/CueDispatch.lean ====
section
/-!
DEFINITION. The Cue Dispatcher (chapter 1): the stages of a FIRE, RELEASE and HUSH, internal fires and outcomes.
-/
namespace Sys2Proof.Machine

/-! ## The stages of Table 1-1 -/

/-- Stage 3 (R6): the entries of the cue's choke group are discarded, then the group's sounding voices are released,
each under its own cue's release mode, in ascending slot order. -/
def chokeStage (c : CueRecord) (s : State) : State :=
  if c.choke = 0 then s
  else
    slots.foldl (fun t i =>
      if (voiceOf t i).sounding && decide ((voiceCue t i).choke = c.choke)
      then releaseVoice (voiceCue t i).releaseMode i t else t)
      (purgeStack (fun e => decide ((cueRecord s e.cue).choke = c.choke)) s)

/-- The slot that comes first among those that a test names. -/
def pickSlot (test : Fin 16 → Bool) (before : Fin 16 → Fin 16 → Bool) : Option (Fin 16) :=
  slots.foldl (fun best i =>
    if test i then
      match best with
      | none => some i
      | some b => if before i b then some i else some b
    else best) none

/-- The voice of one slot is older than that of another (R2). -/
def slotOlder (s : State) (i j : Fin 16) : Bool :=
  olderVoice (voiceOf s i).fireOrder i (voiceOf s j).fireOrder j

/-- The sounding voice of a cue that policy RESTART restarts: the one with the greatest fire order (R9). -/
def soundingVoice (s : State) (cue : Nat) : Option (Fin 16) :=
  pickSlot (fun i => (voiceOf s i).sounding && decide ((voiceOf s i).cue = cue)) fun i j => slotOlder s j i

/-- The lowest IDLE slot (R11). -/
def idleSlot (s : State) : Option (Fin 16) :=
  pickSlot (fun i => decide ((voiceOf s i).state = .idle)) fun i j => decide (i < j)

/-- The victim of a fire of a level, when no slot is IDLE (R12). -/
def victim (s : State) (level : Nat) : Option (Fin 16) :=
  match pickSlot (fun i => decide ((voiceOf s i).state = .releasing)) (slotOlder s) with
  | some i => some i
  | none =>
    pickSlot (fun i => decide ((voiceOf s i).level < level)) fun i j =>
      decide ((voiceOf s i).level < (voiceOf s j).level) ||
        (decide ((voiceOf s i).level = (voiceOf s j).level) && slotOlder s i j)

/-- Whether a victim is suspended (R13): not RELEASING, and of kind BED or APPLAUSE. -/
def suspendable (s : State) (i : Fin 16) : Bool :=
  decide ((voiceOf s i).state ≠ .releasing) &&
    (match (voiceCue s i).kind with
    | .bed => true
    | .applause => true
    | .noCue => false
    | .sting => false
    | .jingle => false)

/-- The victim's slot passes to the new voice, no entry being popped into it (R13). -/
def preempt (i : Fin 16) (s : State) : State := if suspendable s i then suspendVoice i s else vacate i s

/-- Stages 6 and 7 (R11 to R15), with the outcome that a started voice gives. -/
def allocate (cue : Nat) (trim : Byte) (order : Word) (started : FireOutcome) (s : State) : State × FireOutcome :=
  match idleSlot s with
  | some i => (startVoice i cue trim order s, started)
  | none =>
    match victim s (cueRecord s cue).level with
    | some i => (startVoice i cue trim order (preempt i s), started)
    | none => (s, .noVoice)

/-- Stages 5 to 7 (R9, R10). -/
def playStages (cue : Nat) (trim : Byte) (order : Word) (s : State) : State × FireOutcome :=
  match soundingVoice s cue with
  | none => allocate cue trim order .played s
  | some i =>
    match (cueRecord s cue).policy with
    | .restart => (restartVoice i trim order s, .restarted)
    | .ignore => (s, .ignoredBusy)
    | .layer => allocate cue trim order .layered s

/-- The seven stages of a FIRE (Table 1-1, R4), with its outcome. -/
def dispatchFire (cue : Nat) (trim : Byte) (edge order : Word) (s : State) : State × FireOutcome :=
  if knownCue s cue then
    let c := cueRecord s cue
    let t := chokeStage c (setLastAccepted cue edge s)
    if zoneTest t c.zoneMask then playStages cue trim order t else (t, .notHere)
  else (s, .unknownCue)

/-- A fire as the dispatcher and the Clip Fetch Unit act on it within one taking. -/
def fireNow (cue : Nat) (trim : Byte) (edge : Word) (s : State) : State × FireOutcome :=
  let (t, o) := dispatchFire cue trim edge s.dispatch.fireOrder s
  (fetchSettle t, o)

/-- An internal fire (R20, R21): trim 128, and the fire order and break edge of the frame that causes it. No outcome
record is posted (R23). -/
def internalFire (cue : Option Nat) (edge : Word) (s : State) : State :=
  match cue with
  | some n => (fireNow n 128 edge s).1
  | none => s

/-! ## Outcome records (R24) -/

/-- The record of a frame taken at the station that sent it. -/
def outcomeOf (e : RxEntry) (f : LineFrame) (o : FireOutcome) : OutcomeRecord :=
  { tag := (recordFields f).1, cue := (recordFields f).2, kind := f.kind, outcome := o, edge := e.edge }

/-- Post the outcome of a taken frame when its station character is the own number (R24). -/
def postOwn (e : RxEntry) (f : LineFrame) (o : FireOutcome) (s : State) : State :=
  if senderOf e.frame = ownNumber s then postOutcome (outcomeOf e f o) s else s

/-! ## TAKE_FIRE, TAKE_RELEASE, TAKE_HUSH -/

/-- TAKE_FIRE (R4): a FIRE of any origin but CLOCK. -/
def takeFire (s : State) : State :=
  match takable s with
  | some (e, .fire cue origin tag trim) =>
    if origin = 2 then s
    else
      let (t, o) := fireNow cue.toNat trim e.edge (leaveHead e s)
      if origin = 1 then postOwn e (.fire cue origin tag trim) o t else t
  | _ => s

/-- One voice under a RELEASE (R17, R18). -/
def releaseByMode (mode : Byte) (i : Fin 16) (s : State) : State :=
  if mode = 0 then releaseTail i s
  else if mode = 1 then releaseFade i s
  else if mode = 2 then endVoice i s
  else releaseVoice (voiceCue s i).releaseMode i s

/-- A sounding voice or a stack entry of a cue exists (R17). -/
def cuePlaying (s : State) (cue : Nat) : Bool :=
  (s.pool.stack.any fun e => e.cue == cue) ||
    slots.any fun i => (voiceOf s i).sounding && decide ((voiceOf s i).cue = cue)

/-- The effect of a RELEASE on the voices and the stack (R17). -/
def releaseCue (cue : Nat) (mode : Byte) (s : State) : State :=
  slots.foldl (fun t i =>
    if (voiceOf t i).sounding && decide ((voiceOf t i).cue = cue) then releaseByMode mode i t else t)
    (purgeStack (fun e => e.cue == cue) s)

/-- TAKE_RELEASE (R17, R18). -/
def takeRelease (s : State) : State :=
  match takable s with
  | some (e, .release cue mode) =>
    let t := leaveHead e s
    if knownCue t cue.toNat then
      postOwn e (.release cue mode) (if cuePlaying t cue.toNat then .released else .notPlaying)
        (fetchSettle (releaseCue cue.toNat mode t))
    else postOwn e (.release cue mode) .unknownCue t
  | _ => s

/-- A cue reaches a hushed zone of this station (R19). -/
def hushed (s : State) (mask : Byte) (cue : Nat) : Bool :=
  four.any fun o => maskHasZone mask (outputZone s o) && maskHasZone (cueRecord s cue).zoneMask (outputZone s o)

/-- The effect of a HUSH on the voices and the stack (R19). -/
def hushZones (mask : Byte) (s : State) : State :=
  slots.foldl (fun t i =>
    if decide ((voiceOf t i).state ≠ .idle) && hushed t mask (voiceOf t i).cue then endVoice i t else t)
    (purgeStack (fun e => hushed s mask e.cue) s)

/-- TAKE_HUSH (R19). -/
def takeHush (s : State) : State :=
  match takable s with
  | some (e, .hush mask) => postOwn e (.hush mask) .hushed (fetchSettle (hushZones mask (leaveHead e s)))
  | _ => s

/-- REMOVE_WITHOUT_EFFECT (R146). -/
def removeWithoutEffect (s : State) : State :=
  match rxHead s with
  | some e => if headReady s && receiving s && removedEntry s e then leaveHead e s else s
  | none => s

/-- LAST_ACCEPTED_EXPIRY (R3). -/
def lastAcceptedExpiry (cue : Nat) (s : State) : State :=
  match lastAccepted s cue with
  | some w => if recordOld s w then clearLastAccepted cue s else s
  | none => s

/-- TAKE_FIRE (R4). -/
def execTakeFire (s : State) : Host.Outcome State Fault Refusal := .next (takeFire s)

/-- TAKE_RELEASE (R17). -/
def execTakeRelease (s : State) : Host.Outcome State Fault Refusal := .next (takeRelease s)

/-- TAKE_HUSH (R19). -/
def execTakeHush (s : State) : Host.Outcome State Fault Refusal := .next (takeHush s)

/-- REMOVE_WITHOUT_EFFECT (R146). -/
def execRemoveWithoutEffect (s : State) : Host.Outcome State Fault Refusal := .next (removeWithoutEffect s)

/-- LAST_ACCEPTED_EXPIRY (R3). -/
def execLastAcceptedExpiry (cue : BitVec 10) (s : State) : Host.Outcome State Fault Refusal :=
  .next (lastAcceptedExpiry cue.toNat s)

end Sys2Proof.Machine
end

