-- ==== Sys2Proof/Machine/Membership.lean ====
section
/-!
DEFINITION. Membership (chapter 9): the taking of a JOIN and the entry into DUPLICATE.
-/
namespace Sys2Proof.Machine

/-- The sender's peer entry after its JOIN (R158). -/
def recordPeer (sender : Byte) (identity signature : Word) (s : State) : State :=
  updatePeer sender (fun p =>
    { p with
      identity := identity, signature := signature
      state := if signature = s.member.signature then .present else .foreign }) s

/-- An ACTIVE station owes one REPLY JOIN: none is offered while one is held or in the transmit queue (R159). -/
def oweReply (s : State) : State :=
  if s.member.state = .active ∧ s.member.heldJoin = none ∧ txHoldsJoin s = false then offerJoin true s else s

/-- A RUNNING clock stops where it stands; no own copy remains, since every entry and every held frame is gone (R161;
entry 28). -/
def ClockRecord.silence (r : ClockRecord) : ClockRecord :=
  { r with
    state := if r.state = .running then .stopped else r.state
    phase := none, copies := Vector.replicate 4 .absent }

/-- The line and the queues at the entry into DUPLICATE (R132, R144, R152, R161). -/
def leaveLine (s : State) : State :=
  { s with
    line := { LineInterface.reset with breakEdge := s.line.breakEdge }
    txq := { s.txq with entries := [] }
    rxq := { s.rxq with entries := [] } }

/-- Every voice is cut, and no entry is popped (R161). -/
def cutVoices (s : State) : State :=
  slots.foldl (fun t i => if (voiceOf t i).state = .idle then t else vacate i t)
    { s with pool := { s.pool with stack := [] } }

/-- The entry into DUPLICATE (R161). The hold of R80 on round time ends with the rest of the round record (entry 41). -/
def enterDuplicate (s : State) : State :=
  let t := cutVoices (leaveLine (setFault .duplicateStation s))
  { t with
    member := { t.member with state := .duplicate, heldJoin := none }
    lockout := { t.lockout with round := Round.reset }
    clocks := { t.clocks with records := mapVec ClockRecord.silence t.clocks.records } }

/-- A JOIN of the station's own number with another identity (R159, R160). -/
def ownNumberJoin (reply : Bool) (s : State) : State :=
  match s.member.state with
  | .joining => enterDuplicate s
  | .active => if reply then enterDuplicate s else oweReply s
  | .listening => s
  | .loading => s
  | .imageFault => s
  | .duplicate => s

/-- TAKE_JOIN (R158 to R160). -/
def takeJoin (s : State) : State :=
  match takable s with
  | some (e, .join flags identity signature) =>
    let t := leaveHead e s
    if senderOf e.frame = ownNumber s then
      if identity = s.member.identity then t else ownNumberJoin (flagSet flags) t
    else
      let t := recordPeer (senderOf e.frame) identity signature t
      if flagSet flags then t else oweReply t
  | _ => s

/-- TAKE_JOIN (R158). -/
def execTakeJoin (s : State) : Host.Outcome State Fault Refusal := .next (takeJoin s)

end Sys2Proof.Machine
end

