-- ==== Sys2Proof/Machine/Clocks.lean ====
section
/-!
DEFINITION. The Segment Clock Unit (chapter 6): CLOCK frames, decrements, compare points and clock-origin FIRE frames.
-/
namespace Sys2Proof.Machine

/-- The clock record of a clock. -/
def clockOf (s : State) (c : Fin 4) : ClockRecord := s.clocks.records[c]

/-! ## Decrements and the compare test (R103, R107, R108) -/

/-- The own copy of a point is held or queued for an epoch (R108). -/
def OwnCopy.current (epoch : Byte) : OwnCopy → Bool
  | .absent => false
  | .held e _ _ => e == epoch
  | .queued e _ => e == epoch

/-- A point matches at a decrement that brings its clock to a value (R107). -/
def pointMatches (s : State) (c p : Fin 4) (value : Triple) : Bool :=
  (comparePoint s c p).enabled && (comparePoint s c p).value == value

/-- A match offers a clock-origin FIRE (R107): the point's fired flag is clear, the station is ACTIVE, and the point has
no own copy of the epoch (R108). -/
def matchOffers (s : State) (c p : Fin 4) : Bool :=
  !(clockOf s c).fired[p] && decide (s.member.state = .active) &&
    !((clockOf s c).copies[p]).current (clockOf s c).epoch

/-- The offer of a match: placed, or held for want of room (R108). -/
def offerMatch (c p : Fin 4) (s : State) : State :=
  if txRoom s then placeClockFire c p s else setCopy c p (.held (clockOf s c).epoch s.now s.clocks.matchSeq) s

/-- The compare test of one decrement, in ascending point order (R107). -/
def compareTest (c : Fin 4) (value : Triple) (s : State) : State :=
  let t := four.foldl (fun t p => if pointMatches t c p value && matchOffers t c p then offerMatch c p t else t) s
  { t with clocks := { t.clocks with matchSeq := t.clocks.matchSeq + 1 } }

/-- A clock is RUNNING and its phase has been reached (R103). -/
def decrementDue (s : State) (c : Fin 4) : Bool :=
  decide ((clockOf s c).state = .running) &&
    (match (clockOf s c).phase with
    | some p => decide ((s.stationClock - p).toNat < 2147483648)
    | none => false)

/-- A clock whose count has reached 0 becomes EXPIRED and loses its phase (R103). -/
def expireAtZero (r : ClockRecord) : ClockRecord :=
  if r.value = 0 then { r with state := .expired, phase := none } else r

/-- One decrement of a clock whose phase has been reached (R103). -/
def decrement (c : Fin 4) (s : State) : State :=
  if decrementDue s c then
    let value := (clockOf s c).value - 1
    let t := withClock c (fun r => { r with value := value, phase := r.phase.map (· + 10000) }) s
    withClock c expireAtZero (compareTest c value t)
  else s

/-- CLOCK_EXPIRY (R103): the decrement that brings a clock to 0. -/
def clockExpiry (c : Fin 4) (s : State) : State := if (clockOf s c).value = 1 then decrement c s else s

/-! ## CLOCK frames (R104, R105, R111) -/

/-- Every decrement that is due, one after another, at most `n` (R105). -/
def catchUp (c : Fin 4) : Nat → State → State
  | 0, s => s
  | n + 1, s => catchUp c n (decrement c s)

/-- The value and epoch of a CLOCK frame adopted: a changed epoch clears the fired flags, discards the held copies and
forgets the queued ones (R104, R111). -/
def adoptEpoch (epoch : Byte) (value : Triple) (r : ClockRecord) : ClockRecord :=
  if epoch = r.epoch then { r with value := value }
  else
    { r with
      value := value, epoch := epoch, fired := Vector.replicate 4 false, copies := Vector.replicate 4 .absent }

/-- A START (Table 6-2, R104, R105). -/
def startClock (c : Fin 4) (edge : Word) (s : State) : State :=
  if (clockOf s c).value = 0 then withClock c (fun r => { r with state := .expired, phase := none }) s
  else
    catchUp c ((s.stationClock - edge).toNat / 10000)
      (withClock c (fun r => { r with state := .running, phase := some (edge + 10000) }) s)

/-- A LOAD or STOP (Table 6-2). -/
def stopClock (c : Fin 4) (s : State) : State := withClock c (fun r => { r with state := .stopped, phase := none }) s

/-- A CLOCK frame changes the record of its clock (R104): the epoch of a clock that is not UNSET is not behind. -/
def clockFrameApplies (s : State) (c : Fin 4) (epoch : Byte) : Bool :=
  decide ((clockOf s c).state = .unset) || !epochBehind epoch (clockOf s c).epoch

/-- The operations of Table 6-2. -/
def applyClockOp (c : Fin 4) (op epoch : Byte) (value : Triple) (edge : Word) (s : State) : State :=
  if clockFrameApplies s c epoch then
    let t := withClock c (adoptEpoch epoch value) s
    if op = 2 then startClock c edge t
    else if op = 1 ∨ op = 3 then stopClock c t
    else s
  else s

/-- TAKE_CLOCK (R104). -/
def takeClock (s : State) : State :=
  match takable s with
  | some (e, .clock clk op epoch value) =>
    let t := leaveHead e s
    if h : clk.toNat < 4 then applyClockOp ⟨clk.toNat, h⟩ op epoch value e.edge t else t
  | _ => s

/-! ## Clock-origin FIRE frames (R109, R110) -/

/-- The point that a clock-origin FIRE names passes the tests of Table 6-3. -/
def clockFirePasses (s : State) (c p : Fin 4) (epoch : Byte) : Bool :=
  decide ((clockOf s c).state ≠ .unset) && decide ((clockOf s c).epoch = epoch) && !(clockOf s c).fired[p]

/-- The unit withdraws its own queued copy of a point, or discards the held one; the own copy becomes none (R109, R110). -/
def dropCopy (c p : Fin 4) (s : State) : State :=
  match (clockOf s c).copies[p] with
  | .absent => s
  | .held _ _ _ => setCopy c p .absent s
  | .queued _ entry => withdrawEntry entry (setCopy c p .absent s)

/-- The last row of Table 6-3 (R109): the flag is set, the own copy withdrawn, and the frame dispatched. -/
def passClockFire (c p : Fin 4) (cue : BitVec 16) (trim : Byte) (edge : Word) (s : State) : State :=
  (fireNow cue.toNat trim edge (dropCopy c p (withClock c (fun r => { r with fired := r.fired.set p true }) s))).1

/-- TAKE_CLOCK_FIRE (R109). -/
def takeClockFire (s : State) : State :=
  match takable s with
  | some (e, .fire cue origin tag trim) =>
    if origin = 2 then
      let t := leaveHead e s
      let name := (tag.extractLsb' 8 8).toNat
      if h : name / 16 < 4 ∧ name % 16 < 4 then
        let c : Fin 4 := ⟨name / 16, h.1⟩
        let p : Fin 4 := ⟨name % 16, h.2⟩
        if clockFirePasses t c p (tag.extractLsb' 0 8) then passClockFire c p cue trim e.edge t else t
      else t
    else s
  | _ => s

/-! ## The commands -/

/-- CLOCK_DECREMENT (R103). -/
def execClockDecrement (c : Fin 4) (s : State) : Host.Outcome State Fault Refusal := .next (decrement c s)

/-- CLOCK_EXPIRY (R103). -/
def execClockExpiry (c : Fin 4) (s : State) : Host.Outcome State Fault Refusal := .next (clockExpiry c s)

/-- TAKE_CLOCK (R104). -/
def execTakeClock (s : State) : Host.Outcome State Fault Refusal := .next (takeClock s)

/-- TAKE_CLOCK_FIRE (R109). -/
def execTakeClockFire (s : State) : Host.Outcome State Fault Refusal := .next (takeClockFire s)

end Sys2Proof.Machine
end

