-- ==== Sys2Proof/Machine/Image.lean ====
section
/-!
DEFINITION. The Image Loader (chapter 9 section 9.2, chapter 10, chapter 12 section 12.4): the four stages of a load and
its end; and the reset that precedes one (R163).
-/
namespace Sys2Proof.Machine

/-! ## Reading the flash -/

/-- The flash address of the show image (R165). -/
def imageBase : Nat := 4096

/-- Bytes of the show image, by their offset from its first byte. -/
def imageBytes (flash : List Host.Cell) (offset n : Nat) : List Byte := Memory.readRange flash (imageBase + offset) n

/-- The fields of a record, by their widths in bytes. -/
def recordFieldsOf : List Nat → List Byte → List Nat
  | [], _ => []
  | w :: ws, b => numberOf (b.take w) :: recordFieldsOf ws (b.drop w)

/-- `n` runs of `size` bytes. -/
def chunks (size : Nat) : Nat → List Byte → List (List Byte)
  | 0, _ => []
  | n + 1, b => b.take size :: chunks size n (b.drop size)

/-! ## Stage 1: the unit block (R164) -/

/-- The unit identity, if its inverse stands beside it. -/
def unitIdentity (flash : List Host.Cell) : Option Word :=
  match recordFieldsOf [4, 4] (Memory.readRange flash 0 8) with
  | [identity, inverse] => if identity + inverse = 4294967295 then some (BitVec.ofNat 32 identity) else none
  | _ => none

/-! ## Stage 2: the header and the section table (R165) -/

/-- An entry of the section table. -/
structure Section where
  kind : Nat
  count : Nat
  offset : Nat
  deriving DecidableEq, Repr

/-- The size of a record of a kind (Table 12-9). -/
def recordSize (kind : Nat) : Nat := [0, 5, 23, 9, 6, 2, 74, 6].getD kind 0

/-- The record counts that a kind allows (Table 10-1). -/
def countAllowed (kind count : Nat) : Bool :=
  if kind = 2 then decide (count ≤ 1024)
  else if kind = 3 then decide (count ≤ 4096)
  else if kind = 4 then decide (count ≤ 2048)
  else decide (count = [0, 32, 0, 0, 0, 256, 8, 16].getD kind 0)

/-- The end of a section: its record count field and its records. -/
def Section.stop (e : Section) : Nat := e.offset + 2 + e.count * recordSize e.kind

/-- The header's bytes: mark, length, count and the seven entries. -/
def headerSize : Nat := 58

/-- One section table entry against the image length and the entries before it (R165). -/
def sectionPasses (length : Nat) (earlier : List Section) (e : Section) : Bool :=
  decide (1 ≤ e.kind) && decide (e.kind ≤ 7) && !(earlier.any fun x => x.kind == e.kind) &&
    countAllowed e.kind e.count && decide (headerSize ≤ e.offset) && decide (e.stop ≤ length - 4) &&
    earlier.all fun x => decide (e.stop ≤ x.offset) || decide (x.stop ≤ e.offset)

/-- Every entry passes, in table order. -/
def sectionsPass (length : Nat) : List Section → List Section → Bool
  | _, [] => true
  | earlier, e :: rest => sectionPasses length earlier e && sectionsPass length (e :: earlier) rest

/-- A section table entry from its seven bytes (Table 12-8). -/
def sectionOf (b : List Byte) : Section :=
  match recordFieldsOf [1, 2, 4] b with
  | [kind, count, offset] => { kind := kind, count := count, offset := offset }
  | _ => { kind := 0, count := 0, offset := 0 }

/-- The image length and the section table, if the header passes. -/
def imageHeader (flash : List Host.Cell) : Option (Nat × List Section) :=
  let b := imageBytes flash 0 headerSize
  match recordFieldsOf [4, 4, 1] b with
  | [mark, length, count] =>
    let sections := (chunks 7 7 (b.drop 9)).map sectionOf
    if mark = 0x4E530100 ∧ length ≤ 1048576 ∧ headerSize + 4 ≤ length ∧ count = 7 ∧ sectionsPass length [] sections = true
    then some (length, sections) else none
  | _ => none

/-! ## Stage 3: the signature (R167) -/

/-- The modulus of the signature. -/
def signatureModulus : Nat := 4294967291

/-- The signature of a run of bytes. -/
def signatureOf (b : List Byte) : Nat := b.foldl (fun v x => (v * 131 + x.toNat) % signatureModulus) 1

/-- The show signature, if the signature word equals it. -/
def imageSignature (flash : List Host.Cell) (length : Nat) : Option Word :=
  let v := signatureOf (imageBytes flash 0 (length - 4))
  if numberOf (imageBytes flash (length - 4) 4) = v then some (BitVec.ofNat 32 v) else none

/-! ## Stage 4: limits and references (R168, Table 10-3) -/

/-- The staging copy of one section: its record count field, the section table's count, and its records (R166). -/
structure Staged where
  countField : Nat
  count : Nat
  records : List (List Byte)
  deriving DecidableEq, Repr

/-- The staging copy of the section of a kind. -/
def stage (flash : List Host.Cell) (sections : List Section) (kind : Nat) : Staged :=
  match sections.find? fun e => e.kind == kind with
  | none => { countField := 0, count := 0, records := [] }
  | some e =>
    { countField := numberOf (imageBytes flash e.offset 2)
      count := e.count
      records := chunks (recordSize kind) e.count (imageBytes flash (e.offset + 2) (e.count * recordSize kind)) }

/-- The first failure of a list of checks. -/
def firstFailure : List (Option FaultReason) → Option FaultReason
  | [] => none
  | none :: rest => firstFailure rest
  | some r :: _ => some r

/-- A check whose failure gives a reason. -/
def failsUnless (r : FaultReason) (ok : Bool) : Option FaultReason := if ok then none else some r

/-- A value within a range. -/
def within (lo hi n : Nat) : Bool := decide (lo ≤ n) && decide (n ≤ hi)

/-- A field that names a cue or none (R168, R192). -/
def cueOrNone (n : Nat) : Bool := decide (n < 1024) || decide (n = 65535)

/-- A station table record (R169). -/
def stationOf (b : List Byte) : StationRecord := { zones := b.take 4, polarity := b.getD 4 0 }

/-- The checks of a station table record. -/
def checkStation (b : List Byte) : Option FaultReason :=
  failsUnless .limit ((b.take 4).all fun z => decide (z.toNat < 8) || decide (z = 255))

/-- The widths of a cue record's fields (Table 12-9). -/
def cueWidths : List Nat := [1, 1, 1, 2, 1, 2, 1, 2, 1, 1, 1, 1, 1, 2, 2, 1, 2]

/-- The ranges of a cue record's fields, kind apart, in the order of the record (Table 10-4). -/
def cueRanges : List (Nat × Nat) :=
  [(1, 15), (0, 15), (0, 65535), (0, 128), (0, 2000), (0, 255), (0, 4095), (1, 64), (0, 63), (0, 63), (0, 255), (0, 1),
    (0, 10000), (0, 2000), (0, 2), (0, 60000)]

/-- The kind that a code names. -/
def cueKindOf (n : Nat) : CueKind := [CueKind.noCue, .sting, .jingle, .bed, .applause].getD n .noCue

/-- A cue record; of kind NONE, whatever its other fields, the record of no cue (R170). -/
def cueOf (b : List Byte) : CueRecord :=
  match recordFieldsOf cueWidths b with
  | [kind, level, choke, duckMask, duckDepth, duckRamp, zoneMask, firstStep, stepCount, loopFirst, loopLast, loopCount,
      releaseMode, releaseTime, attack, policy, refire] =>
    if cueKindOf kind = .noCue then CueRecord.noCue
    else
      { kind := cueKindOf kind, level := level, choke := choke, duckMask := BitVec.ofNat 16 duckMask,
        duckDepth := duckDepth, duckRamp := duckRamp, zoneMask := BitVec.ofNat 8 zoneMask, firstStep := firstStep,
        stepCount := stepCount, loopFirst := loopFirst, loopLast := loopLast, loopCount := loopCount,
        releaseMode := [ReleaseMode.tail, .fade].getD releaseMode .tail, releaseTime := releaseTime, attack := attack,
        policy := [PlayPolicy.restart, .layer, .ignore].getD policy .restart, refire := refire }
  | _ => CueRecord.noCue

/-- The checks of a cue record, against the count of the step pool. -/
def checkCue (stepCount : Nat) (b : List Byte) : Option FaultReason :=
  match recordFieldsOf cueWidths b with
  | [] => none
  | kind :: rest =>
    if 4 < kind then some .limit
    else if kind = 0 then none
    else
      let c := cueOf b
      firstFailure
        [failsUnless .limit ((rest.zip cueRanges).all fun x => within x.2.1 x.2.2 x.1),
          failsUnless .limit (!c.duckMask.getLsbD 0),
          failsUnless .reference (decide (c.firstStep + c.stepCount ≤ stepCount)),
          failsUnless .limit (decide (c.loopFirst ≤ c.loopLast) && decide (c.loopLast < c.stepCount))]

/-- A step pool record (R171). -/
def stepOf (b : List Byte) : StepRecord :=
  match recordFieldsOf [2, 3, 3, 1] b with
  | [clip, start, length, gain] => { clip := clip, start := start, length := length, gain := gain }
  | _ => { clip := 0, start := 0, length := 0, gain := 0 }

/-- A clip directory record (R171). -/
def clipOf (b : List Byte) : ClipRecord :=
  match recordFieldsOf [3, 3] b with
  | [address, length] => { address := address, length := length }
  | _ => { address := 0, length := 0 }

/-- The checks of a step pool record, against the clip directory. -/
def checkStep (clips : List ClipRecord) (b : List Byte) : Option FaultReason :=
  let x := stepOf b
  firstFailure
    [failsUnless .limit (decide (1 ≤ x.length)),
      failsUnless .reference (decide (x.clip < clips.length)),
      failsUnless .reference (decide (x.start + x.length ≤ (clips.getD x.clip { address := 0, length := 0 }).length))]

/-- The checks of a clip directory record. -/
def checkClip (b : List Byte) : Option FaultReason :=
  let x := clipOf b
  firstFailure
    [failsUnless .limit (within 1 8388608 x.length), failsUnless .limit (decide (x.address + 2 * x.length ≤ flashSize))]

/-- A cue-or-none field (R192). -/
def optionalCue (n : Nat) : Option Nat := if n = 65535 then none else some n

/-- An input map record (R172). -/
def inputCueOf (b : List Byte) : Option Nat := optionalCue (numberOf b)

/-- The check of an input map record. -/
def checkInput (b : List Byte) : Option FaultReason := failsUnless .reference (cueOrNone (numberOf b))

/-- The pairs of a profile's eligible set: as many as its pair count, of the 32 it has places for (R172). -/
def pairsOf : Nat → List Byte → List (Nat × Nat)
  | n + 1, s :: i :: rest => (s.toNat, i.toNat) :: pairsOf n rest
  | _, _ => []

/-- No pair appears twice. -/
def distinctPairs : List (Nat × Nat) → Bool
  | [] => true
  | p :: rest => !rest.contains p && distinctPairs rest

/-- A round profile, with its pair count (R172). -/
def profileOf (b : List Byte) : ProfileRecord × Nat :=
  match recordFieldsOf [2, 2, 1, 2, 2, 1] b with
  | [holdoff, window, settle, falseCue, noClaimCue, pairs] =>
    ({ holdoff := holdoff, window := window, settle := settle, falseCue := optionalCue falseCue,
       noClaimCue := optionalCue noClaimCue, eligible := pairsOf pairs (b.drop 10) }, pairs)
  | _ => ({ holdoff := 0, window := 0, settle := 0, falseCue := none, noClaimCue := none, eligible := [] }, 0)

/-- A profile's cue is 0 to 1023 or none. -/
def cueInRange (c : Option Nat) : Bool :=
  match c with
  | none => true
  | some n => decide (n < 1024)

/-- The checks of a round profile. -/
def checkProfile (b : List Byte) : Option FaultReason :=
  let (p, n) := profileOf b
  firstFailure
    [failsUnless .limit (within 0 10000 p.holdoff && within 1 16000 p.window && within 1 250 p.settle && within 1 32 n &&
        (p.eligible.all fun x => decide (x.1 < 32) && decide (x.2 < 8)) && distinctPairs p.eligible),
      failsUnless .limit (decide (p.holdoff < p.window) && decide (p.window + p.settle ≤ 16000)),
      failsUnless .reference (cueInRange p.falseCue && cueInRange p.noClaimCue)]

/-- A compare point (R172): the unnamed bits of the enable character are ignored (R192). -/
def compareOf (b : List Byte) : ComparePoint :=
  match recordFieldsOf [1, 3, 2] b with
  | [enabled, value, cue] =>
    { enabled := decide (enabled % 2 = 1), value := BitVec.ofNat 24 value, cue := BitVec.ofNat 16 cue }
  | _ => { enabled := false, value := 0, cue := 0 }

/-- The check of a compare point. -/
def checkCompare (b : List Byte) : Option FaultReason :=
  let p := compareOf b
  failsUnless .reference (!p.enabled || decide (p.cue.toNat < 1024))

/-- The checks of one section: its count, then its records in ascending order (R168). -/
def checkSection (x : Staged) (check : List Byte → Option FaultReason) : Option FaultReason :=
  firstFailure (failsUnless .limit (decide (x.countField = x.count)) :: x.records.map check)

/-- The checks of stage 4, section by section in the order of the kinds (R168). The counts that a cue and a step are checked
against are those of the section table (entry 37). -/
def stageFour (staged : Nat → Staged) : Option FaultReason :=
  firstFailure
    [checkSection (staged 1) checkStation,
      checkSection (staged 2) (checkCue (staged 3).count),
      checkSection (staged 3) (checkStep ((staged 4).records.map clipOf)),
      checkSection (staged 4) checkClip,
      checkSection (staged 5) checkInput,
      checkSection (staged 6) checkProfile,
      checkSection (staged 7) checkCompare]

/-- The show tables of a staging copy (R166). -/
def tablesOf (staged : Nat → Staged) : ShowTables :=
  { stations := (staged 1).records.map stationOf
    cues := (staged 2).records.map cueOf
    steps := (staged 3).records.map stepOf
    clips := (staged 4).records.map clipOf
    inputMap := (staged 5).records.map inputCueOf
    profiles := (staged 6).records.map fun b => (profileOf b).1
    compare := (staged 7).records.map compareOf }

/-! ## The load (R155) -/

/-- What a load that passes every check leaves. -/
structure LoadedImage where
  identity : Word
  signature : Word
  tables : ShowTables
  deriving DecidableEq, Repr

/-- The stages of Table 9-2, each after the one before has passed: the image, or the reason of the first failure. -/
def loadImage (flash : List Host.Cell) : Except FaultReason LoadedImage :=
  match unitIdentity flash with
  | none => .error .unitBlock
  | some identity =>
    match imageHeader flash with
    | none => .error .header
    | some (length, sections) =>
      match imageSignature flash length with
      | none => .error .signature
      | some signature =>
        match stageFour (stage flash sections) with
        | some r => .error r
        | none => .ok { identity := identity, signature := signature, tables := tablesOf (stage flash sections) }

/-- A failed load (R155): the reason is recorded, and IMAGE_FAULT entered and set. -/
def failLoad (r : FaultReason) (s : State) : State :=
  setFault .imageFault { s with member := { s.member with state := .imageFault, faultReason := r } }

/-- The zone of an output in the station's own record (R65, R169). -/
def zoneOf (r : StationRecord) (o : Fin 4) : Byte := r.zones.getD o.val 255

/-- The effects of a good load (R155): identity and signature, the station's own peer entry, the show tables and the
output zones. -/
def fillTables (i : LoadedImage) (s : State) : State :=
  let t := { s with tables := i.tables, member := { s.member with identity := i.identity, signature := i.signature } }
  let r := stationRecord t s.straps.stn.toNat
  updatePeer (ownNumber s) (fun p => { p with identity := i.identity, signature := i.signature })
    { t with outputs := Vector.ofFn fun o => { s.outputs[o] with zone := zoneOf r o } }

/-- The receiver enters SYNC (R119) and the inputs begin to be sampled (R77). -/
def beginReceiving (s : State) : State :=
  { s with line := { s.line with rx := .sync, lows := 0, highs := 0 }, lockout := { s.lockout with sampleDue := s.now } }

/-- The station state a good load leads to (R155); a JOINING station offers its JOIN (R157). -/
def enterLine (s : State) : State :=
  let t := beginReceiving s
  if s.straps.listen then { t with member := { t.member with state := .listening } }
  else offerJoin false { t with member := { t.member with state := .joining } }

/-- IMAGE_LOAD (R155), of a flash that holds the given cells; `now` is the end of the load. -/
def imageLoad (flash : List Host.Cell) (s : State) : State :=
  if s.member.state = .loading then
    let t := { s with flash := Memory.ofCells flash }
    match loadImage t.flash with
    | .error r => failLoad r t
    | .ok i => enterLine (fillTables i t)
  else s

/-- RESET (R163): every block takes its reset values, the straps are sampled and LOADING begins. The flash keeps its
contents; the queue and the free values' counter are the model's own (entry 31). -/
def resetStation (straps : Straps) (s : State) : State := State.afterReset straps s.flash s.freeCount s.pending

/-- IMAGE_LOAD (R155). -/
def execImageLoad (flash : List Host.Cell) (s : State) : Host.Outcome State Fault Refusal := .next (imageLoad flash s)

/-- RESET (R163). -/
def execReset (straps : Straps) (s : State) : Host.Outcome State Fault Refusal := .next (resetStation straps s)

end Sys2Proof.Machine
end

