-- ==== Sys2Proof/Machine/Lockout.lean ====
section
/-!
DEFINITION. The Lockout Unit (chapter 5): buzzer inputs, presses, the round record, CLAIM and CLOSE.
-/
namespace Sys2Proof.Machine

/-! ## Round time and the profile (R80) -/

/-- The value at which round time is held. -/
def maxRoundTime : Nat := 16777215

/-- Round time (R80). -/
def roundTime (s : State) : Nat :=
  if s.lockout.round.timeHeld then maxRoundTime
  else min maxRoundTime (s.stationClock - s.lockout.round.reference).toNat

/-- The round time of a capture (R80; entry 24). -/
def pressTime (s : State) (capture : Word) : Nat :=
  if s.lockout.round.timeHeld then maxRoundTime
  else if behind capture s.lockout.round.reference then 0
  else min maxRoundTime (capture - s.lockout.round.reference).toNat

/-- The profile of the current round. -/
def roundProfile (s : State) : ProfileRecord := profileRecord s s.lockout.round.profile

/-- A profile time in µs (R80). -/
def msMicros (ms : Nat) : Nat := ms * 1000

/-- A station and input pair is in the eligible set of the round's profile (R91, R172). -/
def eligible (s : State) (station input : Nat) : Bool := (roundProfile s).eligible.contains (station, input)

/-- The round runs: HOLDOFF, OPEN or SETTLING. -/
def Round.running (r : Round) : Bool :=
  match r.state with
  | .holdoff => true
  | .isOpen => true
  | .settling => true
  | .idle => false
  | .closed => false

/-! ## Buzzer inputs (section 5.1) -/

/-- The level of an input's sample, read as active or inactive by its polarity (R77). -/
def sampleActive (s : State) (levels : Byte) (i : Fin 8) : Bool :=
  levels.getLsbD i.val == (stationRecord s s.straps.stn.toNat).polarity.getLsbD i.val

/-- The debounce state after a sample (R77). -/
def Debounce.sample (active : Bool) (clk : Word) (d : Debounce) : Debounce :=
  match d.level with
  | none =>
    let run := if d.last = some active then d.run + 1 else 1
    let start := if d.last = some active then d.runStart else clk
    if run = 3 then { level := some active, run := 0, runStart := start, last := some active }
    else { level := none, run := run, runStart := start, last := some active }
  | some l =>
    let start := if d.run = 0 then clk else d.runStart
    if active = l then { d with run := 0, last := some active }
    else if d.run + 1 = 3 then { level := some active, run := 0, runStart := start, last := some active }
    else { d with run := d.run + 1, runStart := start, last := some active }

/-- A sample changes the debounced level from inactive to active: a press (R78). -/
def Debounce.presses (active : Bool) (d : Debounce) : Bool :=
  decide (d.level = some false) && active && decide (d.run + 1 = 3)

/-- The press classes of Table 5-3. -/
inductive PressClass where
  | falseStart | valid | late
  deriving DecidableEq, Repr

/-- The classification of a press at an ACTIVE station (Table 5-3, R86). What no row of the table names is late: every
press that is no false start and not valid is (section 5.4; entry 24). -/
def classify (s : State) (input : Fin 8) (time : Nat) : PressClass :=
  let p := roundProfile s
  if eligible s s.straps.stn.toNat input.val && decide (s.lockout.round.press[input] = .noPress) then
    match s.lockout.round.state with
    | .holdoff => if time < msMicros p.holdoff then .falseStart else .late
    | .isOpen =>
      if time < msMicros p.holdoff then .falseStart
      else if time ≤ msMicros p.window then .valid
      else .late
    | .settling => if msMicros p.holdoff ≤ time ∧ time ≤ msMicros p.window then .valid else .late
    | .idle => .late
    | .closed => .late
  else .late

/-- A late press (R86, R88). -/
def latePress (i : Fin 8) (s : State) : State :=
  withRound (fun r => { r with late := r.late.set i (min 65535 (r.late[i] + 1)) }) s

/-- A false start or valid press sets the press state and offers its CLAIM (R86, R87). -/
def claimPress (i : Fin 8) (falseStart : Bool) (time : Nat) (s : State) : State :=
  offerClaim i falseStart time
    (withRound (fun r => { r with press := r.press.set i (if falseStart then .falseStart else .claimed) }) s)

/-- A press is taken (R86, R88). -/
def takePress (i : Fin 8) (capture : Word) (s : State) : State :=
  if s.member.state = .active then
    match classify s i (pressTime s capture) with
    | .falseStart => claimPress i true (pressTime s capture) s
    | .valid => claimPress i false (pressTime s capture) s
    | .late => latePress i s
  else latePress i s

/-- The inputs whose presses a sample completes (R78). -/
def pressedInputs (s : State) (levels : Byte) : List (Fin 8) :=
  inputs.filter fun i => (s.lockout.debounce[i]).presses (sampleActive s levels i)

/-- The debounce states after a sample, and the earliest moment of the next one, 10 µs later (R77; entry 22). -/
def debounceSample (levels : Byte) (s : State) : State :=
  { s with lockout := { s.lockout with
      debounce := Vector.ofFn fun i => (s.lockout.debounce[i]).sample (sampleActive s levels i) s.stationClock
      sampleDue := s.now + 10 * ticksPerMicro } }

/-- The presses of a sample, in an order: each with the capture that its run recorded (R78). -/
def takePresses (order : List (Fin 8)) (s : State) : State :=
  order.foldl (fun t i => takePress i t.lockout.debounce[i].runStart t) s

/-- The presses of a sample: `first` ones, then the others in a free order (R78; entry 8). -/
def samplePresses (first others : List (Fin 8)) (s : State) : State :=
  if others.length < 2 then takePresses (first ++ others) s
  else takePresses (first ++ freeOrder s.freeCount others) { s with freeCount := s.freeCount + 1 }

/-- The inputs are sampled, and a sample is due (R77). -/
def samplesInputs (s : State) : Bool := receiving s && decide (s.lockout.sampleDue ≤ s.now)

/-- BUZZER_SAMPLE (R77). -/
def buzzerSample (levels : Byte) (s : State) : State :=
  if samplesInputs s then samplePresses [] (pressedInputs s levels) (debounceSample levels s) else s

/-- PRESS (R78): the sample that completes the press of an input, which is the first of that sample to be taken. -/
def press (input : Fin 8) (levels : Byte) (s : State) : State :=
  if samplesInputs s && (pressedInputs s levels).contains input then
    samplePresses [input] ((pressedInputs s levels).filter (· ≠ input)) (debounceSample levels s)
  else s

/-! ## Expiries (R84, R85) -/

/-- HOLDOFF_EXPIRY (R84). -/
def holdoffExpiry (s : State) : State :=
  if s.lockout.round.state = .holdoff ∧ msMicros (roundProfile s).holdoff ≤ roundTime s
  then withRound (fun r => { r with state := .isOpen }) s else s

/-- WINDOW_EXPIRY (R84). -/
def windowExpiry (s : State) : State :=
  if s.lockout.round.state = .isOpen ∧ msMicros (roundProfile s).window ≤ roundTime s
  then withRound (fun r => { r with state := .settling }) s else s

/-- SETTLE_EXPIRY (R85): once per round, an ACTIVE station offers its CLOSE. -/
def settleExpiry (s : State) : State :=
  if s.lockout.round.state = .settling ∧ s.lockout.round.settled = false ∧
      msMicros ((roundProfile s).window + (roundProfile s).settle) ≤ roundTime s then
    let t := withRound (fun r => { r with settled := true }) s
    if s.member.state = .active then offerClose t else t
  else s

/-! ## ARM (R82, R83) -/

/-- A CLAIM or CLOSE frame of the Lockout Unit (R95). -/
def roundFrame (e : TxEntry) : Bool :=
  decide (e.producer = .lockoutUnit) &&
    (decide (kindOf e.frame = some .claim) || decide (kindOf e.frame = some .close))

/-- The entries of the Lockout Unit's CLAIM and CLOSE frames, in the order of placing. -/
def roundEntries (s : State) : List Nat := (s.txq.entries.filter roundFrame).map (·.seq)

/-- Every own claim and the own CLOSE become none, and held frames are discarded with them (R95). -/
def clearOwn (s : State) : State :=
  withRound (fun r => { r with ownClaim := Vector.replicate 8 .absent, ownClose := .absent }) s

/-- The Lockout Unit discards the CLAIM and CLOSE frames it holds and withdraws those it has queued (R95): each freed entry is
offered before the next frees (R149). -/
def withdrawRound (s : State) : State := withdrawEntries (roundEntries s) (clearOwn s)

/-- The round record re-initialised (R82 step 2). -/
def Round.fresh (identity : Byte × Byte) (profile : Nat) (reference : Word) (state : RoundState) (held : Bool) : Round :=
  { Round.reset with
    state := state, identity := some identity, profile := profile, reference := reference, timeHeld := held }

/-- TAKE_ARM (R82, R83). -/
def takeArm (s : State) : State :=
  match takable s with
  | some (e, .arm number profile) =>
    let t := withdrawRound (leaveHead e s)
    let held := decide (maxRoundTime ≤ (t.stationClock - e.edge).toNat)
    let id := (senderOf e.frame, number)
    if profile.toNat < 8 then
      let p := profile.toNat
      let state := if (profileRecord t p).holdoff = 0 then RoundState.isOpen else .holdoff
      settleExpiry (windowExpiry (holdoffExpiry (withRound (fun _ => Round.fresh id p e.edge state held) t)))
    else withRound (fun _ => Round.fresh id 0 e.edge .idle held) t
  | _ => s

/-! ## CLAIM (section 5.5) -/

/-- A CLAIM is stale (R89). -/
def staleClaim (s : State) (rs rn input : Byte) : Bool :=
  !s.lockout.round.running || decide (s.lockout.round.identity ≠ some (rs, rn)) || decide (7 < input.toNat)

/-- One claim wins over another (R92). -/
def Claim.before (a b : Claim) : Bool :=
  decide (a.capture < b.capture) || (decide (a.capture = b.capture) &&
    (decide (a.station < b.station) || (decide (a.station = b.station) && decide (a.input < b.input))))

/-- The verdict of a claim list (R92). -/
def verdictOf (l : List Claim) : Option Claim :=
  l.foldl (fun best c =>
    match best with
    | none => some c
    | some b => if c.before b then some c else some b) none

/-- The verdict computed again (R92). -/
def Round.recompute (r : Round) : Round :=
  match r.source with
  | .own => { r with verdict := verdictOf r.claims }
  | .line => r

/-- The claim list holds an entry for a pair. -/
def Round.holdsPair (r : Round) (pair : Nat × Nat) : Bool := r.claims.any fun c => (c.station, c.input) == pair

/-- The effect of a FALSE_START claim that is not stale (R90). -/
def falseStartClaim (pair : Nat × Nat) (edge : Word) (s : State) : State :=
  if s.lockout.round.excluded.contains pair then s
  else
    let t := withRound (fun r => { r with excluded := r.excluded ++ [pair] }) s
    withRound (fun r =>
      Round.recompute { r with claims := r.claims.filter fun c => (c.station, c.input) != pair })
      (internalFire (roundProfile s).falseCue edge t)

/-- The four conditions of a valid claim (R91). -/
def validClaim (s : State) (pair : Nat × Nat) (capture : Nat) : Bool :=
  decide (msMicros (roundProfile s).holdoff ≤ capture) && decide (capture ≤ msMicros (roundProfile s).window) &&
    eligible s pair.1 pair.2 && !s.lockout.round.excluded.contains pair && !s.lockout.round.holdsPair pair

/-- The effect of a claim without FALSE_START that is not stale (R91). -/
def addClaim (pair : Nat × Nat) (capture : Nat) (s : State) : State :=
  if validClaim s pair capture then
    withRound (fun r =>
      Round.recompute { r with claims := r.claims ++ [{ station := pair.1, input := pair.2, capture := capture }] }) s
  else s

/-- TAKE_CLAIM (R89 to R91). -/
def takeClaim (s : State) : State :=
  match takable s with
  | some (e, .claim rs rn input flags capture) =>
    let t := leaveHead e s
    let pair := ((senderOf e.frame).toNat, input.toNat)
    if staleClaim t rs rn input then t
    else if flagSet flags then falseStartClaim pair e.edge t
    else addClaim pair capture.toNat t
  | _ => s

/-! ## CLOSE (section 5.6) -/

/-- The winner that a CLOSE frame names (R93, R138). -/
def frameWinner (ws wi : Byte) (capture : Triple) : Option Claim :=
  if ws = 255 then none else some { station := ws.toNat, input := wi.toNat, capture := capture.toNat }

/-- The cue of an adopted verdict (R20). -/
def verdictCue (s : State) (w : Option Claim) : Option Nat :=
  match w with
  | some c => inputMapCue s c.station c.input
  | none => (roundProfile s).noClaimCue

/-- The Panel Port takes its copy of an adopted verdict, and the VERDICT report becomes pending (R93, R178). -/
def reportVerdictOf (id : Byte × Byte) (w : Option Claim) (differed : Bool) (s : State) : State :=
  { s with panel := { s.panel with
      verdictPending := true
      lastVerdict := some { station := id.1, number := id.2, verdict := w, differed := differed } } }

/-- The adoption of a CLOSE (R93). -/
def adoptClose (id : Byte × Byte) (w : Option Claim) (edge : Word) (s : State) : State :=
  let differed := decide (w ≠ s.lockout.round.verdict)
  let t := if differed then setFault .verdictDiffers s else s
  let t := withRound (fun r => { r with verdict := w, source := .line, differed := differed, state := .closed }) t
  reportVerdictOf id w differed (withdrawRound (internalFire (verdictCue s w) edge t))

/-- TAKE_CLOSE (R93, R94). -/
def takeClose (s : State) : State :=
  match takable s with
  | some (e, .close rs rn ws wi capture) =>
    let t := leaveHead e s
    if t.lockout.round.running && decide (t.lockout.round.identity = some (rs, rn))
    then adoptClose (rs, rn) (frameWinner ws wi capture) e.edge t else t
  | _ => s

/-! ## The commands -/

/-- BUZZER_SAMPLE (R77). -/
def execBuzzerSample (levels : Byte) (s : State) : Host.Outcome State Fault Refusal := .next (buzzerSample levels s)

/-- PRESS (R78). -/
def execPress (input : Fin 8) (levels : Byte) (s : State) : Host.Outcome State Fault Refusal :=
  .next (press input levels s)

/-- HOLDOFF_EXPIRY (R84). -/
def execHoldoffExpiry (s : State) : Host.Outcome State Fault Refusal := .next (holdoffExpiry s)

/-- WINDOW_EXPIRY (R84). -/
def execWindowExpiry (s : State) : Host.Outcome State Fault Refusal := .next (windowExpiry s)

/-- SETTLE_EXPIRY (R85). -/
def execSettleExpiry (s : State) : Host.Outcome State Fault Refusal := .next (settleExpiry s)

/-- TAKE_ARM (R82). -/
def execTakeArm (s : State) : Host.Outcome State Fault Refusal := .next (takeArm s)

/-- TAKE_CLAIM (R89). -/
def execTakeClaim (s : State) : Host.Outcome State Fault Refusal := .next (takeClaim s)

/-- TAKE_CLOSE (R93). -/
def execTakeClose (s : State) : Host.Outcome State Fault Refusal := .next (takeClose s)

end Sys2Proof.Machine
end

