-- ==== Sys2Proof/Machine/Panel.lean ====
section
/-!
DEFINITION. The Panel Port (chapter 11, chapter 12 section 12.3): commands, answers, reports and the serial receiver.
-/
namespace Sys2Proof.Machine

/-! ## Commands and their frames (Table 12-5, R174) -/

/-- The code and body length of each command (Table 12-5). -/
def commandTable : List (Byte × Nat) :=
  [(0x01, 0), (0x02, 3), (0x03, 3), (0x04, 1), (0x05, 1), (0x06, 5), (0x10, 1), (0x11, 1), (0x12, 0), (0x13, 1), (0x14, 1),
    (0x15, 1), (0x16, 1), (0x20, 0), (0x21, 0), (0x22, 1), (0x30, 0)]

/-- The body length of the command that a code names. -/
def commandBody (code : Byte) : Option Nat := (commandTable.find? fun x => x.1 == code).map (·.2)

/-- The command of a code and its body (Table 12-5), every field most significant character first (R192). -/
def parseCommand (code : Byte) (body : List Byte) : Option PanelCommand :=
  match body with
  | [] =>
    if code = 0x01 then some .status
    else if code = 0x12 then some .readRound
    else if code = 0x20 then some .readFaults
    else if code = 0x21 then some .clearFaults
    else if code = 0x30 then some .reload
    else none
  | [a] =>
    if code = 0x04 then some (.hush a)
    else if code = 0x05 then some (.arm a)
    else if code = 0x10 then some (.readVoice a)
    else if code = 0x11 then some (.readStack a)
    else if code = 0x13 then some (.readClaim a)
    else if code = 0x14 then some (.readPeer a)
    else if code = 0x15 then some (.readClock a)
    else if code = 0x16 then some (.readOutput a)
    else if code = 0x22 then some (.reports a)
    else none
  | [a, b, c] =>
    if code = 0x02 then some (.fire (field2 a b) c)
    else if code = 0x03 then some (.release (field2 a b) c)
    else none
  | [a, b, c, d, e] => if code = 0x06 then some (.clock a b (field3 c d e)) else none
  | _ => none

/-- A frame whose code names a command, whole (R174): BAD_CHECK where a character had an error or the sum is not 0xA5, and
the command otherwise. -/
def judgeWhole (chars : List ReadChar) : Option PanelCommand :=
  match chars.map (·.value) with
  | [] => none
  | code :: rest =>
    if chars.any ReadChar.bad || decide (charSum (code :: rest) ≠ panelCheck) then some (.badCheck code)
    else parseCommand code rest.dropLast

/-- The command that the characters after a break complete at the last of them (R173, R174): a code with an error is
BAD_CHECK, one that names no command BAD_COMMAND, each by itself; any other code fixes the frame's length. A brought character
all of whose bits read low has a framing error and is no break (entry 44). -/
def judgeChars (chars : List ReadChar) : Option PanelCommand :=
  match chars with
  | [] => none
  | c :: rest =>
    if c.bad then (if rest.isEmpty then some (.badCheck c.value) else none)
    else
      match commandBody c.value with
      | none => if rest.isEmpty then some (.badCommand c.value) else none
      | some n => if rest.length = n + 1 then judgeWhole chars else none

/-- The command that a frame completes, from its characters as sampled, none of them rejected as noise (R173). -/
def judgeCommand (frame : List RawChar) : Option PanelCommand :=
  if frame.all startBitLow then judgeChars (frame.map readPanelChar) else none

/-- The kind character that a command's answer echoes (R176, R174). -/
def PanelCommand.code : PanelCommand → Byte
  | .status => 0x01
  | .fire _ _ => 0x02
  | .release _ _ => 0x03
  | .hush _ => 0x04
  | .arm _ => 0x05
  | .clock _ _ _ => 0x06
  | .readVoice _ => 0x10
  | .readStack _ => 0x11
  | .readRound => 0x12
  | .readClaim _ => 0x13
  | .readPeer _ => 0x14
  | .readClock _ => 0x15
  | .readOutput _ => 0x16
  | .readFaults => 0x20
  | .clearFaults => 0x21
  | .reports _ => 0x22
  | .reload => 0x30
  | .badCommand kind => kind
  | .badCheck kind => kind

/-- The rows of the table that a received frame can complete. -/
inductive CommandRow where
  | fire | release | hush | arm | clock | status | readVoice | readStack | readRound | readClaim | readPeer | readClock
  | readOutput | readFaults | clearFaults | reports | reload | badCommand | badCheck
  deriving DecidableEq, Repr

/-- The row of a completed command. -/
def PanelCommand.row : PanelCommand → CommandRow
  | .status => .status
  | .fire _ _ => .fire
  | .release _ _ => .release
  | .hush _ => .hush
  | .arm _ => .arm
  | .clock _ _ _ => .clock
  | .readVoice _ => .readVoice
  | .readStack _ => .readStack
  | .readRound => .readRound
  | .readClaim _ => .readClaim
  | .readPeer _ => .readPeer
  | .readClock _ => .readClock
  | .readOutput _ => .readOutput
  | .readFaults => .readFaults
  | .clearFaults => .clearFaults
  | .reports _ => .reports
  | .reload => .reload
  | .badCommand _ => .badCommand
  | .badCheck _ => .badCheck

/-- The body that a host sends with a command (Table 12-5). -/
def PanelCommand.body : PanelCommand → List Byte
  | .status => []
  | .fire cue trim => bytes2 cue ++ [trim]
  | .release cue mode => bytes2 cue ++ [mode]
  | .hush mask => [mask]
  | .arm profile => [profile]
  | .clock clk op value => [clk, op] ++ bytes3 value
  | .readVoice slot => [slot]
  | .readStack index => [index]
  | .readRound => []
  | .readClaim index => [index]
  | .readPeer station => [station]
  | .readClock clk => [clk]
  | .readOutput output => [output]
  | .readFaults => []
  | .clearFaults => []
  | .reports mask => [mask]
  | .reload => []
  | .badCommand _ => []
  | .badCheck _ => []

/-- The characters of a command's frame (R193). -/
def commandChars (c : PanelCommand) : List Byte := withCheck panelCheck (c.code :: c.body)

/-- A command's frame as the receiver samples it from a line without disturbance (R173). -/
def commandFrame (c : PanelCommand) : List RawChar := (commandChars c).map fun v => cleanChar (panelBits v)

/-! ## Answer data (Tables 12-5 and 12-6) -/

/-- A number as three characters. -/
def nat3 (n : Nat) : List Byte := bytes3 (BitVec.ofNat 24 n)

/-- A number as two characters. -/
def nat2 (n : Nat) : List Byte := bytes2 (BitVec.ofNat 16 n)

/-- A number as one character. -/
def nat1 (n : Nat) : Byte := BitVec.ofNat 8 n

/-- A voice state's code. -/
def VoiceState.code : VoiceState → Byte
  | .idle => 0
  | .priming => 1
  | .playing => 2
  | .releasing => 3
  | .resuming => 4

/-- A release path's code. -/
def ReleasePath.code : ReleasePath → Byte
  | .noPath => 0
  | .tail => 1
  | .fade => 2

/-- A round state's code. -/
def RoundState.code : RoundState → Byte
  | .idle => 0
  | .holdoff => 1
  | .isOpen => 2
  | .settling => 3
  | .closed => 4

/-- A press state's code. -/
def PressState.code : PressState → Byte
  | .noPress => 0
  | .claimed => 1
  | .falseStart => 2

/-- A peer state's code. -/
def PeerState.code : PeerState → Byte
  | .absent => 0
  | .present => 1
  | .foreign => 2
  | .self => 3

/-- A clock state's code. -/
def ClockState.code : ClockState → Byte
  | .unset => 0
  | .stopped => 1
  | .running => 2
  | .expired => 3

/-- The characters of a fetch cursor; of no cursor the manual states none (entry 10). -/
def cursorData (free : Nat → Byte) (c : Option Cursor) : List Byte :=
  match c with
  | some x => [nat1 x.step] ++ nat3 x.pos ++ [nat1 x.passes]
  | none => [free 0, free 1, free 2, free 3, free 4]

/-- READ_VOICE data (Table 12-6). -/
def voiceData (free : Nat → Byte) (v : Voice) : List Byte :=
  [v.state.code, bitIf v.primed 0 ||| bitIf v.ducked 1 ||| bitIf v.cursor.isSome 2] ++ nat2 v.cue ++ [nat1 v.level] ++
    bytes4 v.fireOrder ++ [v.trim, nat1 v.step] ++ nat3 v.pos ++ [nat1 v.passes, v.path.code, nat1 v.gain, nat1 v.gainTarget] ++
    bytes4 (BitVec.ofInt 32 v.rampIncrement) ++ nat3 v.rampLeft ++ nat2 v.buffer0.frames.length ++
    nat2 v.buffer1.frames.length ++ cursorData free v.cursor

/-- READ_STACK data: an absent entry carries 0 (Table 12-5). -/
def stackData (e : Option StackEntry) : List Byte :=
  match e with
  | some x =>
    [1] ++ nat2 x.cue ++ [nat1 x.level] ++ bytes4 x.fireOrder ++ [x.trim, nat1 x.step] ++ nat3 x.pos ++
      [nat1 x.passes, nat1 x.gainTarget]
  | none => List.replicate 15 0

/-- A verdict's winner station, input and capture; none is 255 with input and capture 0 (Table 12-6; entry 11). -/
def verdictData (w : Option Claim) : List Byte :=
  match w with
  | some c => [nat1 c.station, nat1 c.input] ++ nat3 c.capture
  | none => [255, 0, 0, 0, 0]

/-- The round identity; the number of no round is not stated (entry 10). -/
def identityData (free : Nat → Byte) (i : Option (Byte × Byte)) : List Byte :=
  match i with
  | some x => [x.1, x.2]
  | none => [255, free 0]

/-- READ_ROUND data (Table 12-6, R101). -/
def roundData (free : Nat → Byte) (s : State) : List Byte :=
  let r := s.lockout.round
  [r.state.code] ++ identityData free r.identity ++ [nat1 r.profile] ++ nat3 (roundTime s) ++ [nat1 r.claims.length] ++
    nat2 r.excluded.length ++ verdictData r.verdict ++
    [bitIf (decide (r.source = .line)) 0 ||| bitIf r.differed 1] ++ r.press.toList.map PressState.code ++
    r.late.toList.flatMap nat2

/-- READ_CLAIM data: an absent entry carries 0 (Table 12-5). -/
def claimData (c : Option Claim) : List Byte :=
  match c with
  | some x => [1, nat1 x.station, nat1 x.input] ++ nat3 x.capture
  | none => List.replicate 6 0

/-- READ_PEER data: a last-heard of none carries 0 (Table 12-5). -/
def peerData (p : Peer) : List Byte :=
  [p.state.code] ++ bytes4 p.identity ++ bytes4 p.signature ++
    (match p.lastHeard with
    | some w => 1 :: bytes4 w
    | none => [0, 0, 0, 0, 0])

/-- The fired flags of a clock, bit n for point n (Table 12-5). -/
def firedData (r : ClockRecord) : Byte := bitIf r.fired[0] 0 ||| bitIf r.fired[1] 1 ||| bitIf r.fired[2] 2 ||| bitIf r.fired[3] 3

/-- READ_CLOCK data (R113). -/
def clockData (r : ClockRecord) : List Byte := [r.state.code] ++ bytes3 r.value ++ [r.epoch, firedData r]

/-- READ_OUTPUT data (R70). -/
def outputData (o : Output) : List Byte := [o.zone, bitIf o.clip 0]

/-! ## Acting on a command (R177, section 11.6) -/

/-- The station state allows the commands of Table 11-2's second row. -/
def allowsReads (s : State) : Bool :=
  match s.member.state with
  | .loading => false
  | .imageFault => false
  | .joining => true
  | .active => true
  | .listening => true
  | .duplicate => true

/-- The station state allows the commands of Table 11-2's third row. -/
def allowsLine (s : State) : Bool := decide (s.member.state = .active)

/-- An answer body of a code alone (R192). -/
def refuse (c : AnswerCode) (s : State) : State × List Byte := (s, [c.code])

/-- An answer body of OK with its data. -/
def answerOk (data : List Byte) (s : State) : State × List Byte := (s, AnswerCode.ok.code :: data)

/-- The tests of a command in order: the state, the arguments, then what follows (R177). -/
def tested (allowed args : Bool) (run : State → State × List Byte) (s : State) : State × List Byte :=
  if !allowed then refuse .notActive s
  else if !args then refuse .badArgument s
  else run s

/-- The room test, and then the frame (R177, R148). -/
def queued (run : State → State × List Byte) (s : State) : State × List Byte :=
  if txRoom s then run s else refuse .queueFull s

/-- The refire test of a FIRE (R182). -/
def tooSoon (s : State) (cue : BitVec 16) : Bool :=
  txHoldsFire s cue ||
    (match lastAccepted s cue.toNat with
    | some w => decide ((s.stationClock - w).toNat < (cueRecord s cue.toNat).refire * 1000)
    | none => false)

/-- FIRE placed (R182). -/
def placePanelFire (cue : BitVec 16) (trim : Byte) (s : State) : State × List Byte :=
  let tag := s.panel.fireCounter + 1
  answerOk (bytes2 tag)
    (placeFrame .panelPort (.fire cue 1 tag trim) { s with panel := { s.panel with fireCounter := tag } })

/-- FIRE (R182). -/
def actFire (cue : BitVec 16) (trim : Byte) (s : State) : State × List Byte :=
  tested (allowsLine s) true (fun s =>
    if !knownCue s cue.toNat then refuse .unknownCue s
    else if tooSoon s cue then refuse .tooSoon s
    else queued (placePanelFire cue trim) s) s

/-- RELEASE (R183). -/
def actRelease (cue : BitVec 16) (mode : Byte) (s : State) : State × List Byte :=
  tested (allowsLine s) (decide (cue.toNat < 1024) && decide (mode.toNat < 3))
    (queued fun s => answerOk (bytes2 0) (placeFrame .panelPort (.release cue mode) s)) s

/-- HUSH (R184). -/
def actHush (mask : Byte) (s : State) : State × List Byte :=
  tested (allowsLine s) true (queued fun s => answerOk (bytes2 0) (placeFrame .panelPort (.hush mask) s)) s

/-- ARM placed by the Lockout Unit (R81, R185). -/
def placeArm (profile : Byte) (s : State) : State × List Byte :=
  let number := s.lockout.roundCounter + 1
  answerOk [number]
    (placeFrame .lockoutUnit (.arm number profile) { s with lockout := { s.lockout with roundCounter := number } })

/-- ARM (R185). -/
def actArm (profile : Byte) (s : State) : State × List Byte :=
  tested (allowsLine s) (decide (profile.toNat < 8)) (queued (placeArm profile)) s

/-- CLOCK placed by the Segment Clock Unit (R106): a LOAD carries the command's value and the next epoch, a START or STOP
the held ones. -/
def placeClock (c : Fin 4) (op : Byte) (value : Triple) (s : State) : State × List Byte :=
  let r := clockOf s c
  let epoch := if op = 1 then r.epoch + 1 else r.epoch
  let v := if op = 1 then value else r.value
  answerOk (epoch :: bytes3 v) (placeFrame .clockUnit (.clock (nat1 c.val) op epoch v) s)

/-- CLOCK (R186). -/
def actClock (clk op : Byte) (value : Triple) (s : State) : State × List Byte :=
  if h : clk.toNat < 4 then
    let c : Fin 4 := ⟨clk.toNat, h⟩
    tested (allowsLine s) (decide (op = 1) || decide (op = 2) || decide (op = 3)) (fun s =>
      if op ≠ 1 ∧ (clockOf s c).state = .unset then refuse .notSet s else queued (placeClock c op value) s) s
  else tested (allowsLine s) false (fun s => (s, [])) s

/-- STATUS (R181). -/
def actStatus (s : State) : State × List Byte :=
  let reason := if s.member.state = .imageFault then s.member.faultReason else .noReason
  answerOk [s.member.state.code, reason.code] s

/-- The characters that the manual does not state, at this moment (entry 10). -/
def freeCharacters (s : State) : Nat → Byte := Config.unstatedCharacter s.freeCount

/-- The counter after characters of its present count have been given out. -/
def useFree (used : Bool) (s : State) : State := if used then { s with freeCount := s.freeCount + 1 } else s

/-- READ_VOICE (R187). -/
def actReadVoice (slot : Byte) (s : State) : State × List Byte :=
  tested (allowsReads s) (decide (slot.toNat < 16)) (fun s =>
    let v := voiceOf s (Fin.ofNat 16 slot.toNat)
    answerOk (voiceData (freeCharacters s) v) (useFree v.cursor.isNone s)) s

/-- READ_STACK (R187). -/
def actReadStack (index : Byte) (s : State) : State × List Byte :=
  tested (allowsReads s) (decide (index.toNat < 8)) (fun s => answerOk (stackData s.pool.stack[index.toNat]?) s) s

/-- READ_ROUND (R187). -/
def actReadRound (s : State) : State × List Byte :=
  tested (allowsReads s) true (fun s =>
    answerOk (roundData (freeCharacters s) s) (useFree s.lockout.round.identity.isNone s)) s

/-- READ_CLAIM (R187). -/
def actReadClaim (index : Byte) (s : State) : State × List Byte :=
  tested (allowsReads s) (decide (index.toNat < 32)) (fun s => answerOk (claimData s.lockout.round.claims[index.toNat]?) s) s

/-- READ_PEER (R187). -/
def actReadPeer (station : Byte) (s : State) : State × List Byte :=
  tested (allowsReads s) (decide (station.toNat < 32))
    (fun s => answerOk (peerData s.member.peers[Fin.ofNat 32 station.toNat]) s) s

/-- READ_CLOCK (R187). -/
def actReadClock (clk : Byte) (s : State) : State × List Byte :=
  tested (allowsReads s) (decide (clk.toNat < 4)) (fun s => answerOk (clockData (clockOf s (Fin.ofNat 4 clk.toNat))) s) s

/-- READ_OUTPUT (R187). -/
def actReadOutput (output : Byte) (s : State) : State × List Byte :=
  tested (allowsReads s) (decide (output.toNat < 4)) (fun s => answerOk (outputData s.outputs[Fin.ofNat 4 output.toNat]) s) s

/-- READ_FAULTS (R188). -/
def actReadFaults (s : State) : State × List Byte := answerOk (bytes2 s.panel.faults) s

/-- The fault flags whose condition has passed are cleared, with every output's CLIP flag and the pending FAULT report
(R70, R189). -/
def clearPassed (s : State) : State :=
  { s with
    panel := { s.panel with faults := s.panel.faults &&& keptFaults s, faultPending := false }
    outputs := mapVec (fun o => { o with clip := false }) s.outputs }

/-- CLEAR_FAULTS (R189). -/
def actClearFaults (s : State) : State × List Byte :=
  tested (allowsReads s) true (fun s => answerOk (bytes2 (clearPassed s).panel.faults) (clearPassed s)) s

/-- REPORTS (R190). -/
def actReports (mask : Byte) (s : State) : State × List Byte :=
  tested (allowsReads s) (decide (mask.toNat < 8))
    (fun s => answerOk [] { s with panel := { s.panel with mask := mask.setWidth 3 } }) s

/-- A command acted on, with its answer body (R174, R177). -/
def act (c : PanelCommand) (s : State) : State × List Byte :=
  match c with
  | .status => actStatus s
  | .fire cue trim => actFire cue trim s
  | .release cue mode => actRelease cue mode s
  | .hush mask => actHush mask s
  | .arm profile => actArm profile s
  | .clock clk op value => actClock clk op value s
  | .readVoice slot => actReadVoice slot s
  | .readStack index => actReadStack index s
  | .readRound => actReadRound s
  | .readClaim index => actReadClaim index s
  | .readPeer station => actReadPeer station s
  | .readClock clk => actReadClock clk s
  | .readOutput output => actReadOutput output s
  | .readFaults => actReadFaults s
  | .clearFaults => actClearFaults s
  | .reports mask => actReports mask s
  | .reload => answerOk [] s
  | .badCommand _ => refuse .badCommand s
  | .badCheck _ => refuse .badCheck s

/-! ## The transmitter and the answer slot (R175, R176) -/

/-- Change the Panel Port. -/
def withPanel (f : PanelPort → PanelPort) (s : State) : State := { s with panel := f s.panel }

/-- The characters of a frame from the station: kind, status, body and check (R193). -/
def stationFrame (kind status : Byte) (body : List Byte) : List Byte := withCheck panelCheck (kind :: status :: body)

/-- The levels of the station's transmit line, one for each bit time, of the frame being sent; of an idle transmitter one bit
time, which repeats as long as it is idle and is high (R173). -/
def PanelTx.levels : PanelTx → List Bool
  | .idle => [true]
  | .answering chars => panelLevels chars
  | .reporting chars => panelLevels chars

/-- The level of the transmit line a number of bit times after the transmitter began what it does: a frame's levels, and the
line idles high after them and where none is sent (R173). -/
def PanelTx.level (tx : PanelTx) (bitTime : Nat) : Bool := tx.levels.getD bitTime true

/-- An idle transmitter begins the formed answer: its status character is formed, and the two latches are cleared
(R175, R176). -/
def startAnswer (s : State) : State :=
  match s.panel.tx, s.panel.answer with
  | .idle, some a =>
    withPanel (fun p =>
      { p with
        tx := .answering (stationFrame a.kind (statusCharacter s true) a.body), resetSeen := false, overrun := false }) s
  | _, _ => s

/-- Whether a command is a RELOAD (R191). -/
def PanelCommand.reloads (c : PanelCommand) : Bool := decide (c = .reload)

/-- A command is acted on and its answer formed into the slot (R175). -/
def actNow (c : PanelCommand) (s : State) : State :=
  let (t, body) := act c s
  startAnswer (withPanel (fun p => { p with answer := some { kind := c.code, body := body, reload := c.reloads } }) t)

/-- The completion of a command (R175): acted on, left to wait, or discarded with PANEL_OVERRUN. With buffer and slot full it is
discarded also at the moment of an answer's last character, where its row comes before ANSWER_SENT (entry 43). -/
def completeCommand (c : PanelCommand) (s : State) : State :=
  let t := withPanel (fun p => { p with rx := .hunting }) s
  match s.panel.answer, s.panel.buffer with
  | none, _ => actNow c t
  | some _, none => withPanel (fun p => { p with buffer := some c }) t
  | some _, some _ => withPanel (fun p => { p with overrun := true }) t

/-- A command completes only in a frame that a break began (R173, R174; entry 18). -/
def receiveCommand (c : PanelCommand) (s : State) : State := if s.panel.rx = .assembling then completeCommand c s else s

/-- A row of the table brings a frame, which completes if it is one of that row (R174). -/
def receiveFrame (row : CommandRow) (frame : List RawChar) (s : State) : State :=
  match judgeCommand frame with
  | some c => if c.row = row then receiveCommand c s else s
  | none => s

/-- PANEL_BREAK (R174). -/
def panelBreak (s : State) : State := withPanel (fun p => { p with rx := .assembling }) s

/-- The answer slot empties (R175). -/
def emptySlot (s : State) : State := withPanel (fun p => { p with answer := none, tx := .idle }) s

/-- A command waiting in the buffer is acted on (R175). -/
def actBuffered (s : State) : State :=
  match s.panel.buffer with
  | some c => actNow c (withPanel (fun p => { p with buffer := none }) s)
  | none => s

/-- The answer being sent is a RELOAD's (R191). -/
def answersReload (s : State) : Bool :=
  match s.panel.answer with
  | some a => a.reload
  | none => false

/-- An answer is being sent. -/
def sendsAnswer (s : State) : Bool :=
  match s.panel.tx with
  | .answering _ => true
  | .idle => false
  | .reporting _ => false

/-- A report is being sent. -/
def sendsReport (s : State) : Bool :=
  match s.panel.tx with
  | .answering _ => false
  | .idle => false
  | .reporting _ => true

/-- ANSWER_SENT (R175, R191). -/
def answerSent (straps : Straps) (s : State) : State :=
  if sendsAnswer s then (if answersReload s then resetStation straps s else actBuffered (emptySlot s)) else s

/-! ## Reports (R178) -/

/-- The report kinds, in their order. -/
inductive ReportKind where
  | fault | verdict | cue
  deriving DecidableEq, Repr

/-- The enable bit of a report kind (Table 12-5). -/
def ReportKind.bit : ReportKind → Nat
  | .fault => 0
  | .verdict => 1
  | .cue => 2

/-- A report of a kind is pending (R178). -/
def reportPending (s : State) : ReportKind → Bool
  | .fault => s.panel.faultPending
  | .verdict => s.panel.verdictPending
  | .cue => !s.panel.outcomes.isEmpty

/-- The report to send: the first pending kind that the mask enables (R178). -/
def nextReport (s : State) : Option ReportKind :=
  [ReportKind.fault, .verdict, .cue].find? fun k => reportPending s k && s.panel.mask.getLsbD k.bit

/-- VERDICT report body (Table 12-7); it is pending only after an adoption. -/
def verdictBody (v : Option VerdictCopy) : List Byte :=
  match v with
  | some x => [x.station, x.number] ++ verdictData x.verdict ++ [bitIf x.differed 0]
  | none => []

/-- CUE report body (Table 12-7). -/
def cueBody (o : List OutcomeRecord) : List Byte :=
  match o with
  | [] => []
  | r :: _ => bytes2 r.tag ++ bytes2 r.cue ++ [r.kind.header, r.outcome.code] ++ bytes4 r.edge

/-- The code and the body of a report (Table 12-7). -/
def reportCode : ReportKind → Byte
  | .fault => 0x80
  | .verdict => 0x81
  | .cue => 0x82

/-- The body of a report, from the state at its start. -/
def reportBody (s : State) : ReportKind → List Byte
  | .fault => bytes2 s.panel.faults
  | .verdict => verdictBody s.panel.lastVerdict
  | .cue => cueBody s.panel.outcomes

/-- What the start of a report ends (R178). -/
def endPending (k : ReportKind) (s : State) : State :=
  match k with
  | .fault => withPanel (fun p => { p with faultPending := false }) s
  | .verdict => withPanel (fun p => { p with verdictPending := false }) s
  | .cue => withPanel (fun p => { p with outcomes := p.outcomes.drop 1 }) s

/-- The status character of a report: formed at its start, before or after the report's own kind stops pending, which
the manual leaves open (R176, R178; entry 8). -/
def reportStatus (k : ReportKind) (s : State) : Byte :=
  if Config.freeIndex s.freeCount 0 % 2 = 0 then statusCharacter s false else statusCharacter (endPending k s) false

/-- A report begins (R176, R178). -/
def startReport (k : ReportKind) (s : State) : State :=
  let t := withPanel (fun p =>
    { p with tx := .reporting (stationFrame (reportCode k) (reportStatus k s) (reportBody s k)), overrun := false })
    (endPending k s)
  { t with freeCount := t.freeCount + 1 }

/-- The transmitter is idle and no answer is formed (R178). -/
def mayReport (s : State) : Bool := decide (s.panel.tx = .idle) && s.panel.answer.isNone

/-- A report of a kind begins, if it is the one to send. -/
def report (k : ReportKind) (s : State) : State := if mayReport s && decide (nextReport s = some k) then startReport k s else s

/-- An idle transmitter sends a formed answer, or else the next report (R175, R178). -/
def sendNext (s : State) : State :=
  match s.panel.answer with
  | some _ => startAnswer s
  | none =>
    match nextReport s with
    | some k => startReport k s
    | none => s

/-- REPORT_SENT (R175). -/
def reportSent (s : State) : State := if sendsReport s then sendNext (withPanel (fun p => { p with tx := .idle }) s) else s

/-! ## The commands -/

/-- FIRE (R182). -/
def execFire (frame : List RawChar) (s : State) : Host.Outcome State Fault Refusal :=
  .next (receiveFrame .fire frame s)

/-- RELEASE (R183). -/
def execRelease (frame : List RawChar) (s : State) : Host.Outcome State Fault Refusal :=
  .next (receiveFrame .release frame s)

/-- HUSH (R184). -/
def execHush (frame : List RawChar) (s : State) : Host.Outcome State Fault Refusal :=
  .next (receiveFrame .hush frame s)

/-- ARM (R185). -/
def execArm (frame : List RawChar) (s : State) : Host.Outcome State Fault Refusal :=
  .next (receiveFrame .arm frame s)

/-- CLOCK (R186). -/
def execClock (frame : List RawChar) (s : State) : Host.Outcome State Fault Refusal :=
  .next (receiveFrame .clock frame s)

/-- STATUS (R181). -/
def execStatus (frame : List RawChar) (s : State) : Host.Outcome State Fault Refusal :=
  .next (receiveFrame .status frame s)

/-- READ_VOICE (R187). -/
def execReadVoice (frame : List RawChar) (s : State) : Host.Outcome State Fault Refusal :=
  .next (receiveFrame .readVoice frame s)

/-- READ_STACK (R187). -/
def execReadStack (frame : List RawChar) (s : State) : Host.Outcome State Fault Refusal :=
  .next (receiveFrame .readStack frame s)

/-- READ_ROUND (R187). -/
def execReadRound (frame : List RawChar) (s : State) : Host.Outcome State Fault Refusal :=
  .next (receiveFrame .readRound frame s)

/-- READ_CLAIM (R187). -/
def execReadClaim (frame : List RawChar) (s : State) : Host.Outcome State Fault Refusal :=
  .next (receiveFrame .readClaim frame s)

/-- READ_PEER (R187). -/
def execReadPeer (frame : List RawChar) (s : State) : Host.Outcome State Fault Refusal :=
  .next (receiveFrame .readPeer frame s)

/-- READ_CLOCK (R187). -/
def execReadClock (frame : List RawChar) (s : State) : Host.Outcome State Fault Refusal :=
  .next (receiveFrame .readClock frame s)

/-- READ_OUTPUT (R187). -/
def execReadOutput (frame : List RawChar) (s : State) : Host.Outcome State Fault Refusal :=
  .next (receiveFrame .readOutput frame s)

/-- READ_FAULTS (R188). -/
def execReadFaults (frame : List RawChar) (s : State) : Host.Outcome State Fault Refusal :=
  .next (receiveFrame .readFaults frame s)

/-- CLEAR_FAULTS (R189). -/
def execClearFaults (frame : List RawChar) (s : State) : Host.Outcome State Fault Refusal :=
  .next (receiveFrame .clearFaults frame s)

/-- REPORTS (R190). -/
def execReports (frame : List RawChar) (s : State) : Host.Outcome State Fault Refusal :=
  .next (receiveFrame .reports frame s)

/-- RELOAD (R191). -/
def execReload (frame : List RawChar) (s : State) : Host.Outcome State Fault Refusal :=
  .next (receiveFrame .reload frame s)

/-- BAD_COMMAND (R174): the code's character alone. -/
def execBadCommand (code : RawChar) (s : State) : Host.Outcome State Fault Refusal :=
  .next (receiveFrame .badCommand [code] s)

/-- BAD_CHECK (R174): the answer's kind character echoes the code's data bits as received. -/
def execBadCheck (chars : List RawChar) (s : State) : Host.Outcome State Fault Refusal :=
  .next (receiveFrame .badCheck chars s)

/-- ANSWER_SENT (R175). -/
def execAnswerSent (straps : Straps) (s : State) : Host.Outcome State Fault Refusal := .next (answerSent straps s)

/-- REPORT_FAULT (R178). -/
def execReportFault (s : State) : Host.Outcome State Fault Refusal := .next (report .fault s)

/-- REPORT_VERDICT (R178). -/
def execReportVerdict (s : State) : Host.Outcome State Fault Refusal := .next (report .verdict s)

/-- REPORT_CUE (R178). -/
def execReportCue (s : State) : Host.Outcome State Fault Refusal := .next (report .cue s)

/-- PANEL_BREAK (R174). -/
def execPanelBreak (s : State) : Host.Outcome State Fault Refusal := .next (panelBreak s)

/-- REPORT_SENT (R175). -/
def execReportSent (s : State) : Host.Outcome State Fault Refusal := .next (reportSent s)

end Sys2Proof.Machine
end

