-- ==== Sys2Proof/Machine/Time.lean ====
section
/-!
DEFINITION. The passage of time: one tick of 1/240 µs, which is what a step does when no command waits, and the events
that the block makes of itself at it (entry 1).
-/
namespace Sys2Proof.Machine

/-- The events of a list that are due. -/
def dueIf (due : Bool) (c : Instr) : List Instr := if due then [c] else []

/-- The expiries of the round that are due (R84, R85). -/
def dueExpiries (s : State) : List Instr :=
  let r := s.lockout.round
  let p := roundProfile s
  dueIf (decide (r.state = .holdoff) && decide (msMicros p.holdoff ≤ roundTime s)) .holdoffExpiry ++
    dueIf (decide (r.state = .isOpen) && decide (msMicros p.window ≤ roundTime s)) .windowExpiry ++
    dueIf (decide (r.state = .settling) && !r.settled && decide (msMicros (p.window + p.settle) ≤ roundTime s)) .settleExpiry

/-- The decrements that are due (R103). -/
def dueDecrements (s : State) : List Instr := four.flatMap fun c => dueIf (decrementDue s c) (.clockDecrement c)

/-- The frame clock that the monitor's timer makes (R71, R72, R74). -/
def dueFrameClock (s : State) : List Instr :=
  dueIf (timerDue s) .frameClock ++ dueIf (substituteDue s) .substituteFrameClock

/-- The completion of the read in flight (R57, R58). -/
def dueCompletion (s : State) : List Instr :=
  match completedRead s with
  | some f => if f.owned then [.blockCompletion] else [.discardedCompletion]
  | none => []

/-- The last-accepted records that have grown old (R3). -/
def dueRecords (s : State) : List Instr :=
  (s.dispatch.lastAccepted.filter fun r => recordOld s r.2).map fun r => .lastAcceptedExpiry (BitVec.ofNat 10 r.1)

/-- The taking of a frame by the owner of its kind (Table 8-1). -/
def takingOf : LineFrame → Instr
  | .fire _ origin _ _ => if origin = 2 then .takeClockFire else .takeFire
  | .release _ _ => .takeRelease
  | .hush _ => .takeHush
  | .clock _ _ _ _ => .takeClock
  | .arm _ _ => .takeArm
  | .claim _ _ _ _ _ => .takeClaim
  | .close _ _ _ _ _ => .takeClose
  | .join _ _ _ => .takeJoin

/-- A head that has stood for 2 ms leaves the queue, taken or removed (R145; entry 21). -/
def dueTaking (s : State) : List Instr :=
  if s.rxq.headSince + 2000 * ticksPerMicro ≤ s.now then
    match rxHead s with
    | none => []
    | some e =>
      if removedEntry s e then [.removeWithoutEffect]
      else
        match takable s with
        | some (_, f) => [takingOf f]
        | none => []
  else []

/-- The report that an idle transmitter begins (R178). -/
def dueReport (s : State) : List Instr :=
  if mayReport s then
    match nextReport s with
    | some .fault => [.reportFault]
    | some .verdict => [.reportVerdict]
    | some .cue => [.reportCue]
    | none => []
  else []

/-- Every event that the block makes of itself and that is due at this moment. -/
def dueEvents (s : State) : List Instr :=
  dueExpiries s ++ dueDecrements s ++ dueFrameClock s ++ dueCompletion s ++ dueRecords s ++ dueTaking s ++ dueReport s

/-- The due events wait in the queue, in a free order (entry 8). -/
def queueDue (s : State) : State :=
  match dueEvents s with
  | [] => s
  | [c] => { s with pending := s.pending ++ [c] }
  | l => { s with pending := s.pending ++ freeOrder s.freeCount l, freeCount := s.freeCount + 1 }

/-- Round time is held from the moment it first reaches its greatest value (R80). -/
def roundTick (s : State) : State :=
  if maxRoundTime ≤ (s.stationClock - s.lockout.round.reference).toNat then withRound (fun r => { r with timeHeld := true }) s
  else s

/-- The station clock rises by one each µs (R118). -/
def clockTick (s : State) : State :=
  let now := s.now + 1
  { s with now := now, stationClock := if now % ticksPerMicro = 0 then s.stationClock + 1 else s.stationClock }

/-- One tick: the clocks, round time, and the events now due. The line's samples come with the commands of the line
(entry 4). -/
def tick (s : State) : State := queueDue (roundTick (clockTick s))

/-- A step on an empty queue. -/
def elapse (s : State) : Host.Outcome State Fault Refusal := .next (tick s)

end Sys2Proof.Machine
end

