-- ==== Sys2Proof/Machine/Dispatch.lean ====
section
/-!
DEFINITION. The dispatch of commands: one arm for each row of the table, each one direct call of the row's meaning.
-/
namespace Sys2Proof.Machine

/-- The effect of a command on everything but the queue. -/
def exec (i : Instr) (s : State) : Host.Outcome State Fault Refusal :=
  match i with
  | .reset straps => Sys2Proof.Machine.execReset straps s
  | .imageLoad flash => Sys2Proof.Machine.execImageLoad flash s
  | .syncIdle line => Sys2Proof.Machine.execSyncIdle line s
  | .breakDetect line => Sys2Proof.Machine.execBreakDetect line s
  | .gapError line => Sys2Proof.Machine.execGapError line s
  | .lineStuck line => Sys2Proof.Machine.execLineStuck line s
  | .stuckRecovery line => Sys2Proof.Machine.execStuckRecovery line s
  | .attemptStart line => Sys2Proof.Machine.execAttemptStart line s
  | .arbitrationLost line => Sys2Proof.Machine.execArbitrationLost line s
  | .bitError line => Sys2Proof.Machine.execBitError line s
  | .jam line => Sys2Proof.Machine.execJam line s
  | .vetoSlotStart line => Sys2Proof.Machine.execVetoSlotStart line s
  | .frameAccepted line => Sys2Proof.Machine.execFrameAccepted line s
  | .frameVetoed line => Sys2Proof.Machine.execFrameVetoed line s
  | .frameDropped line => Sys2Proof.Machine.execFrameDropped line s
  | .takeFire => Sys2Proof.Machine.execTakeFire s
  | .takeRelease => Sys2Proof.Machine.execTakeRelease s
  | .takeHush => Sys2Proof.Machine.execTakeHush s
  | .takeClockFire => Sys2Proof.Machine.execTakeClockFire s
  | .takeClock => Sys2Proof.Machine.execTakeClock s
  | .takeArm => Sys2Proof.Machine.execTakeArm s
  | .takeClaim => Sys2Proof.Machine.execTakeClaim s
  | .takeClose => Sys2Proof.Machine.execTakeClose s
  | .takeJoin => Sys2Proof.Machine.execTakeJoin s
  | .removeWithoutEffect => Sys2Proof.Machine.execRemoveWithoutEffect s
  | .lastAcceptedExpiry cue => Sys2Proof.Machine.execLastAcceptedExpiry cue s
  | .frameClock => Sys2Proof.Machine.execFrameClock s
  | .rampEnd slot => Sys2Proof.Machine.execRampEnd slot s
  | .fadeEnd slot => Sys2Proof.Machine.execFadeEnd slot s
  | .blockCompletion => Sys2Proof.Machine.execBlockCompletion s
  | .discardedCompletion => Sys2Proof.Machine.execDiscardedCompletion s
  | .wordClockEdge => Sys2Proof.Machine.execWordClockEdge s
  | .substituteFrameClock => Sys2Proof.Machine.execSubstituteFrameClock s
  | .wclkLost => Sys2Proof.Machine.execWclkLost s
  | .wclkRelock => Sys2Proof.Machine.execWclkRelock s
  | .buzzerSample levels => Sys2Proof.Machine.execBuzzerSample levels s
  | .press input levels => Sys2Proof.Machine.execPress input levels s
  | .holdoffExpiry => Sys2Proof.Machine.execHoldoffExpiry s
  | .windowExpiry => Sys2Proof.Machine.execWindowExpiry s
  | .settleExpiry => Sys2Proof.Machine.execSettleExpiry s
  | .clockDecrement clk => Sys2Proof.Machine.execClockDecrement clk s
  | .clockExpiry clk => Sys2Proof.Machine.execClockExpiry clk s
  | .fire frame => Sys2Proof.Machine.execFire frame s
  | .release frame => Sys2Proof.Machine.execRelease frame s
  | .hush frame => Sys2Proof.Machine.execHush frame s
  | .arm frame => Sys2Proof.Machine.execArm frame s
  | .clock frame => Sys2Proof.Machine.execClock frame s
  | .status frame => Sys2Proof.Machine.execStatus frame s
  | .readVoice frame => Sys2Proof.Machine.execReadVoice frame s
  | .readStack frame => Sys2Proof.Machine.execReadStack frame s
  | .readRound frame => Sys2Proof.Machine.execReadRound frame s
  | .readClaim frame => Sys2Proof.Machine.execReadClaim frame s
  | .readPeer frame => Sys2Proof.Machine.execReadPeer frame s
  | .readClock frame => Sys2Proof.Machine.execReadClock frame s
  | .readOutput frame => Sys2Proof.Machine.execReadOutput frame s
  | .readFaults frame => Sys2Proof.Machine.execReadFaults frame s
  | .clearFaults frame => Sys2Proof.Machine.execClearFaults frame s
  | .reports frame => Sys2Proof.Machine.execReports frame s
  | .reload frame => Sys2Proof.Machine.execReload frame s
  | .badCommand code => Sys2Proof.Machine.execBadCommand code s
  | .badCheck chars => Sys2Proof.Machine.execBadCheck chars s
  | .answerSent straps => Sys2Proof.Machine.execAnswerSent straps s
  | .reportFault => Sys2Proof.Machine.execReportFault s
  | .reportVerdict => Sys2Proof.Machine.execReportVerdict s
  | .reportCue => Sys2Proof.Machine.execReportCue s
  | .panelBreak => Sys2Proof.Machine.execPanelBreak s
  | .headerUnusable line => Sys2Proof.Machine.execHeaderUnusable line s
  | .reportSent => Sys2Proof.Machine.execReportSent s
  | .strayStartBit line => Sys2Proof.Machine.execStrayStartBit line s

end Sys2Proof.Machine
end

