-- ==== Sys2Proof/Safety.lean ====
section
/-!
DEFINITION. What holds of every state that a run can reach: the laws that the manual names, as properties of a state.
-/
namespace Sys2Proof.Machine

/-- The queues, the suspend stack and the outcome FIFO hold what they have places for (R46, R144, R147, R179). -/
def queuesBounded (s : State) : Prop :=
  s.rxq.entries.length ≤ 8 ∧ s.txq.entries.length ≤ 4 ∧ s.pool.stack.length ≤ 8 ∧ s.panel.outcomes.length ≤ 8

/-- The flash is in its canonical form. -/
def flashCanonical (s : State) : Prop := Memory.wf s.flash = true

/-- The station clock counts the µs of the time since the end of reset (R118; entry 1). -/
def clockAgrees (s : State) : Prop := s.stationClock = BitVec.ofNat 32 (s.now / ticksPerMicro)

/-- A value in the range of a 16-bit sample. -/
def inSampleRange (n : Int) : Prop := -32768 ≤ n ∧ n ≤ 32767

/-- No output's sum or presented sample is outside the range of a 16-bit sample (R68). -/
def outputsInRange (s : State) : Prop := ∀ o : Fin 4, inSampleRange s.outputs[o].sum ∧ inSampleRange s.outputs[o].presented

/-- A block buffer holds at most 256 frames, and a request names at most 256 (R53, R54). -/
def blocksBounded (s : State) : Prop :=
  (∀ i : Fin 16, (voiceOf s i).buffer0.frames.length ≤ 256 ∧ (voiceOf s i).buffer1.frames.length ≤ 256) ∧
    (∀ r ∈ s.fetch.requests, segmentFrames r.segments ≤ 256) ∧
    ∀ f, s.fetch.flight = some f → segmentFrames f.request.segments ≤ 256

/-- The basic invariant of every step. -/
def basicInv (s : State) : Prop :=
  queuesBounded s ∧ flashCanonical s ∧ clockAgrees s ∧ outputsInRange s ∧ blocksBounded s

/-- The station may drive the line: ACTIVE or JOINING (R114). -/
def mayDrive (s : State) : Prop := s.member.state = .active ∨ s.member.state = .joining

/-- A station that is neither ACTIVE nor JOINING drives nothing and owes the line nothing; a JOINING one drives no jam, and a
veto only after a bit error in its own check character; a veto is driven in the slot alone, its own or the one owed, and a jam
while its 11 tb run (R114). A receiver that is OFF, in SYNC or STUCK has no attempt, no jam and owes no veto (R119, R121,
R132). -/
def driverLaw (s : State) : Prop :=
  (¬ mayDrive s → s.line.driver = .released ∧ s.line.attempt = none ∧ s.line.vetoOwed = none) ∧
    (s.member.state ≠ .active → s.line.slotVeto = false ∧ s.line.jamLeft = 0) ∧
    (s.line.driver = .veto → (s.line.rx = .slot ∧ s.line.slotVeto = true) ∨ s.line.drivesOwed = true) ∧
    (s.line.driver = .jam → 0 < s.line.jamLeft) ∧
    (s.line.rx = .off ∨ s.line.rx = .sync ∨ s.line.rx = .stuck →
      s.line.driver = .released ∧ s.line.attempt = none ∧ s.line.vetoOwed = none ∧ s.line.jamLeft = 0)

/-- While LOADING, every slot is IDLE, the suspend stack is empty and the round record holds no claim (R28, R51, R79). -/
def loadingQuiet (s : State) : Prop :=
  s.member.state = .loading →
    (∀ i : Fin 16, (voiceOf s i).state = .idle) ∧ s.pool.stack = [] ∧ s.lockout.round.claims = []

/-- How many voices contribute to the count of a group (R44). -/
def contributors (s : State) (group : Nat) : Nat :=
  (slots.filter fun i => decide ((voiceOf s i).state ≠ .idle) && (voiceCue s i).ducks group).length

/-- For every group the count equals the number of voices that contribute to it (R44). -/
def duckLaw (s : State) : Prop := ∀ g : Fin 15, s.pool.duck[g] = contributors s (g.val + 1)

/-- The contexts of a choke group that are sounding in a slot or wait on the suspend stack. -/
def chokeContexts (s : State) (group : Nat) : Nat :=
  (slots.filter fun i => (voiceOf s i).sounding && decide ((voiceCue s i).choke = group)).length +
    (s.pool.stack.filter fun e => decide ((cueRecord s e.cue).choke = group)).length

/-- At most one context of any nonzero choke group is sounding or suspended, from which the law of R6 follows. -/
def chokeLaw (s : State) : Prop := ∀ group, 0 < group → chokeContexts s group ≤ 1

/-- The claim list holds at most one entry for a pair and at most 32, each entry's capture lies from the holdoff to the
window of the round's profile, and no entry's pair is excluded (R90). -/
def claimsLaw (s : State) : Prop :=
  let r := s.lockout.round
  let p := roundProfile s
  (r.claims.map fun c => (c.station, c.input)).Nodup ∧ r.claims.length ≤ 32 ∧
    ∀ c ∈ r.claims, msMicros p.holdoff ≤ c.capture ∧ c.capture ≤ msMicros p.window ∧
      (c.station, c.input) ∉ r.excluded

/-- What makes the claim law last: every entry's pair is eligible, and every profile's set holds at most 32 pairs
(R91, R172). -/
def claimsInv (s : State) : Prop :=
  claimsLaw s ∧ (∀ c ∈ s.lockout.round.claims, eligible s c.station c.input = true) ∧
    (∀ p ∈ s.tables.profiles, p.eligible.length ≤ 32) ∧ loadingQuiet s

/-! ## Samples of the line -/

/-- No low that stands at a sample of a level is as long as a break (R117). -/
def shortLow (s : State) (level : Bool) : Prop := level = true ∨ s.line.lows < 175

/-- The receiver reads the last bit of its veto slot: the slot's last sample, with no jam and no break (R128). -/
def slotEnds (s : State) (level : Bool) : Prop :=
  s.line.rx = .slot ∧ s.line.passed = 31 ∧ s.line.jamLeft = 0 ∧ shortLow s level

/-- Both bit times of the slot have read high by the majority of their samples 7, 8 and 9 (R128). -/
def slotHigh (s : State) : Prop := 2 ≤ s.line.slotFirst ∧ 2 ≤ s.line.slotSecond

/-- The transmitter reads a bit back at its sample 9: the attempt and its frame, and the place of the bit (R116, R124). -/
def readsBack (s : State) (a : Attempt) (e : TxEntry) (char bit highs : Nat) : Prop :=
  s.line.rx ≠ .off ∧ s.line.attempt = some a ∧ txEntry s a.entry = some e ∧ bit < 11 ∧
    a.phase = .sending (176 * char + 16 * bit + 9) highs

/-- An entry is the head of what the transmit queue holds at this moment, and the station may send it (R114, R122). -/
def mayAttempt (s : State) (e : TxEntry) : Prop :=
  txHead (s.txq.entries.filter fun x => decide (x.placedAt ≤ s.now)) = some e ∧
    (s.member.state = .active ∨ (s.member.state = .joining ∧ kindOf e.frame = some .join))

/-- How many characters the arbitration field of a frame has (R124). -/
def arbitrationField (e : TxEntry) (a : Attempt) : Nat := if kindOf e.frame = some .join ∧ a.clean = true then 11 else 2

/-- A bit read back is a bit error (R125). -/
def isBitError (e : TxEntry) (a : Attempt) (char bit : Nat) (read : Bool) : Prop :=
  sentLevel e.frame char bit ≠ read ∧ (sentLevel e.frame char bit = false ∨ arbitrationField e a ≤ char)

/-! ## What an event leaves as it was -/

/-- The straps, the show tables, the flash, the two clocks and the queue are as they were. -/
def keepsFixed (s t : State) : Prop :=
  t.straps = s.straps ∧ t.tables = s.tables ∧ t.flash = s.flash ∧ t.now = s.now ∧ t.stationClock = s.stationClock ∧
    t.pending = s.pending

/-- The audio blocks are as they were: voices, stack and duck counts, requests and read, outputs, word clock monitor. -/
def keepsAudio (s t : State) : Prop :=
  t.pool = s.pool ∧ t.fetch = s.fetch ∧ t.outputs = s.outputs ∧ t.wclk = s.wclk

/-- Of the Panel Port only the fault flags and their pending report may differ. -/
def keepsPanelButFaults (s t : State) : Prop :=
  t.panel = { s.panel with faults := t.panel.faults, faultPending := t.panel.faultPending }

/-- Of Membership only the station state and the held JOIN may differ. -/
def keepsPeers (s t : State) : Prop :=
  t.member = { s.member with state := t.member.state, heldJoin := t.member.heldJoin }

/-- A voice as it was, but for what a duck change sets, the ducked flag and the gain with its ramp (R45), and the fetch cursor,
which moves as requests are placed (R54). -/
def sameWalk (v w : Voice) : Prop :=
  w = { v with
    ducked := w.ducked, gainNow := w.gainNow, gainTarget := w.gainTarget, rampIncrement := w.rampIncrement
    rampLeft := w.rampLeft, cursor := w.cursor, cursorCount := w.cursorCount }

/-- A ramp to a target over a number of frames from a voice's gain now (R42); the increment of a ramp of 0 frames is left open
(log entry 9). -/
def rampsTo (target n : Nat) (v w : Voice) : Prop :=
  w = { v with
      ducked := w.ducked, gainTarget := target, rampLeft := n, rampIncrement := w.rampIncrement
      gainNow := if n = 0 then target * 65536 else v.gainNow } ∧
    (0 < n → w.rampIncrement = ((target : Int) * 65536 - v.gainNow).tdiv n)

/-- The effect on the other voices of a contribution of a voice of cue `by_` in slot `i` that began or ended between two states
(R45): a voice of a group whose applied depth stays is as it was; one of a group whose depth changed has the ducked flag of its
group's count and, but for the FADE path, a changed target is ramped to over the duck ramp of `by_`. While the glide to a first
tail step is still to start the change is measured against the effective target before it (log entry 16). -/
def duckFollows (s t : State) (by_ : CueRecord) (i : Fin 16) : Prop :=
  ∀ j : Fin 16, j ≠ i →
    let v := voiceOf s j
    let w := voiceOf t j
    let g := (voiceCue s j).choke
    let target := effectiveTarget t { v with ducked := w.ducked }
    let former := if v.tailGlide = true then effectiveTarget s v else v.gainTarget
    (v.state = .idle ∨ g = 0 ∨ appliedDepth t g = appliedDepth s g → w = v) ∧
      (v.state ≠ .idle → g ≠ 0 → appliedDepth t g ≠ appliedDepth s g →
        (w.ducked = true ↔ 0 < duckCount t g) ∧
        (v.path = .fade ∨ target = former → w = { v with ducked := w.ducked }) ∧
        (v.path ≠ .fade → target ≠ former → rampsTo target (by_.duckRamp * 48) v w))

/-- What becomes of a slot whose voice ends (R27, R40, R47): it is IDLE and keeps what READ_VOICE shows of the voice, or an
entry of the suspend stack resumes in it. -/
def endedVoice (s : State) (v w : Voice) : Prop :=
  (w.state = .idle ∧ w.cue = v.cue ∧ w.level = v.level ∧ w.fireOrder = v.fireOrder ∧ w.trim = v.trim ∧ w.step = v.step ∧
      w.pos = v.pos ∧ w.passes = v.passes ∧ w.unplayed = 0 ∧ w.cursor = none ∧ w.gainNow = 0 ∧ w.gainTarget = 0 ∧
      w.ducked = false ∧ w.primed = false) ∨
    (w.state = .resuming ∧ ∃ e ∈ s.pool.stack, w.cue = e.cue ∧ w.level = e.level ∧ w.fireOrder = e.fireOrder ∧
      w.trim = e.trim ∧ w.step = e.step ∧ w.pos = e.pos ∧ w.passes = e.passes ∧ w.primed = false ∧ w.unplayed = 0)

/-- A buffer that keeps the frames of its run among the `rest` frames from a walk count on (R59). -/
def keptRun (b w : Buffer) (play : Word) (rest : Nat) : Prop :=
  w.first = b.first ∧ w.frames = b.frames.take (rest - (b.first - play).toNat)

/-- What a release by a mode makes of a sounding voice (R35 to R38, R59, Table 3-2). -/
def releasedBy (s : State) (mode : ReleaseMode) (v w : Voice) : Prop :=
  let c := cueRecord s v.cue
  let rest := (stepRecord s c v.step).length - v.pos
  (v.state = .priming → (mode = .fade ∨ c.stepCount ≤ c.loopLast + 1) → endedVoice s v w) ∧
    (v.state = .priming → mode = .tail → c.loopLast + 1 < c.stepCount →
      w.state = .releasing ∧ w.path = .tail ∧ w.cue = v.cue ∧ w.primed = false ∧ w.tailGlide = true ∧
        w.step = c.loopLast + 1 ∧ w.pos = 0 ∧ w.passes = 0 ∧ w.unplayed = 0 ∧ w.playCount = 0) ∧
    ((v.state = .playing ∨ v.state = .resuming) →
      w.state = .releasing ∧ w.cue = v.cue ∧ w.primed = v.primed ∧ w.step = v.step ∧ w.pos = v.pos ∧
        w.passes = v.passes ∧ w.playCount = v.playCount ∧
        (mode = .fade → w.path = .fade ∧ w.gainTarget = 0 ∧ w.rampLeft = c.releaseTime * 48 ∧
          (c.releaseTime = 0 → w.gainNow = 0) ∧ w.buffer0 = v.buffer0 ∧ w.buffer1 = v.buffer1) ∧
        (mode = .tail → w.path = .tail ∧
          (c.loopLast < v.step → w.buffer0 = v.buffer0 ∧ w.buffer1 = v.buffer1) ∧
          (v.step ≤ c.loopLast → keptRun v.buffer0 w.buffer0 v.playCount rest ∧
            keptRun v.buffer1 w.buffer1 v.playCount rest)))

/-- What a release of the voices that a test names, each by its mode, leaves: their slots as released, every other voice on its
walk, and of the suspend stack entries from its bottom up (R6, R17). -/
def releasesVoices (s t : State) (named : Fin 16 → Prop) (mode : Fin 16 → ReleaseMode) : Prop :=
  ∀ i : Fin 16, (named i → (voiceOf s i).sounding = true → releasedBy s (mode i) (voiceOf s i) (voiceOf t i)) ∧
    (¬ (named i ∧ (voiceOf s i).sounding = true) → sameWalk (voiceOf s i) (voiceOf t i))

/-- The frames of a cue's walk from a cursor on, one by one, each as a clip and a frame of it (R29, R31, R32, R35). -/
def walkFrames (s : State) (c : CueRecord) (tail : Bool) : Nat → Cursor → List (Nat × Nat)
  | 0, _ => []
  | n + 1, cur =>
    let x := stepRecord s c cur.step
    if x.length ≤ cur.pos then []
    else
      (x.clip, x.start + cur.pos) ::
        (if cur.pos + 1 < x.length then walkFrames s c tail n { cur with pos := cur.pos + 1 }
         else
          match nextStep c tail cur.step cur.passes with
          | none => []
          | some (st, ps) => walkFrames s c tail n { step := st, pos := 0, passes := ps })

/-- The frames that segments name, one by one (R52). -/
def segmentWalk (l : List Segment) : List (Nat × Nat) :=
  l.flatMap fun g => (List.range g.count).map fun k => (g.clip, g.first + k)

/-- A waiting request ranks at or before another by the four keys of Table 3-1. -/
def ranksFirst (s : State) (a b : Request) : Prop :=
  let v := voiceOf s a.slot
  let w := voiceOf s b.slot
  let starving := fun x : Voice => x.consumes = true ∧ x.unplayed < 128
  let priming := fun x : Voice => x.state = .priming ∨ x.state = .resuming ∨ (x.state = .releasing ∧ x.primed = false)
  (starving v ∧ ¬ starving w) ∨ ((starving v ↔ starving w) ∧
    ((priming v ∧ ¬ priming w) ∨ ((priming v ↔ priming w) ∧
      (w.level < v.level ∨ (w.level = v.level ∧ a.seq ≤ b.seq)))))

/-- Of the Lockout Unit only the own claims and the own CLOSE may differ. -/
def keepsRound (s t : State) : Prop :=
  t.lockout =
    { s.lockout with
      round := { s.lockout.round with
        ownClaim := t.lockout.round.ownClaim, ownClose := t.lockout.round.ownClose } }

/-- A held copy of a clock's point comes before another, or is it, in the order of R108 (log entry 26). -/
def heldFirst (since order since' order' : Nat) (c p c' p' : Fin 4) : Prop :=
  since < since' ∨ (since = since' ∧ (c < c' ∨ (c = c' ∧ (order < order' ∨ (order = order' ∧ p ≤ p')))))

/-- Of every clock record only the own copies may differ. -/
def keepsClocks (s t : State) : Prop :=
  t.clocks.matchSeq = s.clocks.matchSeq ∧
    ∀ c : Fin 4, clockOf t c = { clockOf s c with copies := (clockOf t c).copies }

/-- A frame stands at the head of the receive queue, for at least 2 µs, and is its owner's to take: the station is ACTIVE
or LISTENING, the joining mark is clear, and its sender is a station from 0 to 31 that is not FOREIGN (R1, R145, R146). -/
def standsAtHead (s : State) (e : RxEntry) (f : LineFrame) : Prop :=
  s.rxq.entries.head? = some e ∧ parseFrame e.frame = some f ∧ s.rxq.headSince + 480 ≤ s.now ∧ e.joining = false ∧
    (∃ p, peerOf s (senderOf e.frame) = some p ∧ p.state ≠ .foreign) ∧
    (s.member.state = .active ∨ s.member.state = .listening)

/-- The state once an entry has left the head of the receive queue (R2, R145, R146, R158): the fire order counter is one higher,
the next entry is the head, and the sender's last-heard record has the entry's timestamp. -/
def hasLeft (s : State) (e : RxEntry) (u : State) : Prop :=
  u = { s with
      dispatch := { s.dispatch with fireOrder := s.dispatch.fireOrder + 1 }
      rxq := { entries := s.rxq.entries.tail, headSince := s.now }
      member := { s.member with peers := u.member.peers } } ∧
    ∀ n : Fin 32, u.member.peers[n] = if n.val = (senderOf e.frame).toNat
      then { s.member.peers[n] with lastHeard := some e.edge } else s.member.peers[n]

/-- A fire dispatched in a state, with the block requests and the grant that follow it (Table 1-1, R54, R55). -/
def dispatched (cue : Nat) (trim : Byte) (edge : Word) (u : State) : State :=
  fetchSettle (dispatchFire cue trim edge u.dispatch.fireOrder u).1

/-- The Panel Port is taking a command's characters, and its answer slot is empty (R175). -/
def panelReady (s : State) : Prop := s.panel.rx = .assembling ∧ s.panel.answer = none

/-- The station state allows reading commands (Table 11-2). -/
def readsAllowed (s : State) : Prop := s.member.state ≠ .loading ∧ s.member.state ≠ .imageFault

/-- A command's answer stands in the slot, and the transmitter sends it at once if it is idle; of the Panel Port nothing else
differs from what it was (R175, R176). -/
def panelAnswers (s t : State) (kind : Byte) (body : List Byte) (reload : Bool) : Prop :=
  t.panel = { s.panel with
      rx := .hunting, answer := some { kind := kind, body := body, reload := reload }, tx := t.panel.tx
      resetSeen := t.panel.resetSeen, overrun := t.panel.overrun } ∧
    (s.panel.tx = .idle → t.panel.tx = .answering (withCheck 0xA5 ([kind, statusCharacter s true] ++ body)) ∧
      t.panel.resetSeen = false ∧ t.panel.overrun = false) ∧
    (s.panel.tx ≠ .idle → t.panel.tx = s.panel.tx ∧ t.panel.resetSeen = s.panel.resetSeen ∧
      t.panel.overrun = s.panel.overrun)

/-- A row, brought any frame of a command, answers it and changes nothing else: no register, no counter, no flag. -/
def answersOnly (s : State) (row : List RawChar → Instr) (c : PanelCommand) (kind : Byte) (body : List Byte) : Prop :=
  ∀ frame, judgeCommand frame = some c → ∃ t, exec (row frame) s = .next t ∧ t = { s with panel := t.panel } ∧
    panelAnswers s t kind body false

/-- The row of the table that a completed command's frame comes with. -/
def commandInstr (c : PanelCommand) (frame : List RawChar) : Instr :=
  match c.row with
  | .fire => .fire frame
  | .release => .release frame
  | .hush => .hush frame
  | .arm => .arm frame
  | .clock => .clock frame
  | .status => .status frame
  | .readVoice => .readVoice frame
  | .readStack => .readStack frame
  | .readRound => .readRound frame
  | .readClaim => .readClaim frame
  | .readPeer => .readPeer frame
  | .readClock => .readClock frame
  | .readOutput => .readOutput frame
  | .readFaults => .readFaults frame
  | .clearFaults => .clearFaults frame
  | .reports => .reports frame
  | .reload => .reload frame
  | .badCommand => .badCommand (frame.headD (cleanChar 0))
  | .badCheck => .badCheck frame

/-- A command acted on in a state whose answer slot is empty (R175): its effect is `act`'s, its answer stands in the slot, and
an idle transmitter begins that answer, whose characters sum to 0xA5 and whose start clears the two latches (R176). -/
def actsOn (c : PanelCommand) (s t : State) : Prop :=
  let r := act c s
  let a : Answer := { kind := c.code, body := r.2, reload := decide (c = .reload) }
  t = { r.1 with panel := { r.1.panel with
      answer := some a, tx := t.panel.tx, resetSeen := t.panel.resetSeen, overrun := t.panel.overrun } } ∧
    (r.1.panel.tx = .idle → t.panel.resetSeen = false ∧ t.panel.overrun = false ∧
      t.panel.tx = .answering (withCheck 0xA5 ([a.kind, statusCharacter r.1 true] ++ a.body))) ∧
    (r.1.panel.tx ≠ .idle → t.panel.tx = r.1.panel.tx ∧ t.panel.resetSeen = r.1.panel.resetSeen ∧
      t.panel.overrun = r.1.panel.overrun)

/-! ## Characters read one after another -/

/-- A character as its 176 samples of the line show it, where at each bit the samples 7, 8 and 9 may be disturbed (R116). -/
def sampledChar (bits n7 n8 n9 : BitVec 11) : Samples :=
  (List.range 176).map fun k =>
    bits.getLsbD (k / 16) ^^
      (if k % 16 = 7 then n7.getLsbD (k / 16)
       else if k % 16 = 8 then n8.getLsbD (k / 16)
       else if k % 16 = 9 then n9.getLsbD (k / 16)
       else false)

/-- The characters that a search for characters finds in a run of samples, and the search after it (R116). -/
def charactersIn : Samples → Hunt → Hunt × List ReadChar
  | [], h => (h, [])
  | level :: rest, h =>
    let next := huntSample level h
    let after := charactersIn rest next.1
    match next.2 with
    | .character c => (after.1, c :: after.2)
    | .started => after
    | .nothing => after

/-- The entries left in the transmit queue by the withdrawal of some of them (R151): the frame of the attempt in progress stays,
marked withdrawn, and every other one named has left. -/
def leftByWithdrawal (s : State) (named : List Nat) : List TxEntry :=
  (s.txq.entries.filter fun x => !named.contains x.seq || attempted s x.seq).map fun x =>
    if named.contains x.seq then { x with withdrawn := true } else x

/-- The sequences of the CLAIM and CLOSE frames that the Lockout Unit has queued, which R95 withdraws. -/
def ownRoundFrames (s : State) : List Nat :=
  (s.txq.entries.filter fun x => decide (x.producer = .lockoutUnit ∧
    (kindOf x.frame = some .claim ∨ kindOf x.frame = some .close))).map TxEntry.seq

/-- The transmit queue of `t` is that of `s` after the withdrawal of R95, followed by frames that another producer held (R149):
none where the Segment Clock Unit and Membership hold nothing, and one at least where one of them does and an entry was
freed. -/
def withdrewRound (s t : State) : Prop :=
  ∃ added, t.txq.entries = leftByWithdrawal s (ownRoundFrames s) ++ added ∧
    (∀ x ∈ added, (x.producer = .clockUnit ∨ x.producer = .membership) ∧ holds s x.producer = true) ∧
    ((holds s .clockUnit = true ∨ holds s .membership = true) → (∀ x ∈ s.txq.entries, x.seq < s.txq.nextSeq) →
      s.txq.entries.length ≤ 4 → (leftByWithdrawal s (ownRoundFrames s)).length < s.txq.entries.length → added ≠ [])

end Sys2Proof.Machine
end

