-- ==== Sys2Proof/WellFormed.lean ====
section
/-!
DEFINITION. The commands whose operands can be what the event of their row brings. A command that is not well-formed
names an event that cannot happen.
-/
namespace Sys2Proof

/-- An event of the line comes at a sample. -/
def sampled (line : Samples) : Bool := !line.isEmpty

/-- A frame that completes a command of a row (R174). -/
def frameOf (row : Machine.CommandRow) (frame : List RawChar) : Bool :=
  match Machine.judgeCommand frame with
  | some c => decide (c.row = row)
  | none => false

/-- The check of each command's operands. -/
def Instr.wellFormed : Instr → Bool
  | .imageLoad flash => Machine.Memory.wf flash
  | .syncIdle line => sampled line
  | .breakDetect line => sampled line
  | .gapError line => sampled line
  | .lineStuck line => sampled line
  | .stuckRecovery line => sampled line
  | .attemptStart line => sampled line
  | .arbitrationLost line => sampled line
  | .bitError line => sampled line
  | .jam line => sampled line
  | .vetoSlotStart line => sampled line
  | .frameAccepted line => sampled line
  | .frameVetoed line => sampled line
  | .frameDropped line => sampled line
  | .headerUnusable line => sampled line
  | .strayStartBit line => sampled line
  | .fire frame => frameOf .fire frame
  | .release frame => frameOf .release frame
  | .hush frame => frameOf .hush frame
  | .arm frame => frameOf .arm frame
  | .clock frame => frameOf .clock frame
  | .status frame => frameOf .status frame
  | .readVoice frame => frameOf .readVoice frame
  | .readStack frame => frameOf .readStack frame
  | .readRound frame => frameOf .readRound frame
  | .readClaim frame => frameOf .readClaim frame
  | .readPeer frame => frameOf .readPeer frame
  | .readClock frame => frameOf .readClock frame
  | .readOutput frame => frameOf .readOutput frame
  | .readFaults frame => frameOf .readFaults frame
  | .clearFaults frame => frameOf .clearFaults frame
  | .reports frame => frameOf .reports frame
  | .reload frame => frameOf .reload frame
  | .badCommand code => frameOf .badCommand [code]
  | .badCheck chars => frameOf .badCheck chars
  | .takeFire => true
  | .takeRelease => true
  | .takeHush => true
  | .takeClockFire => true
  | .takeClock => true
  | .takeArm => true
  | .takeClaim => true
  | .takeClose => true
  | .takeJoin => true
  | .removeWithoutEffect => true
  | .frameClock => true
  | .blockCompletion => true
  | .discardedCompletion => true
  | .wordClockEdge => true
  | .substituteFrameClock => true
  | .wclkLost => true
  | .wclkRelock => true
  | .holdoffExpiry => true
  | .windowExpiry => true
  | .settleExpiry => true
  | .reportFault => true
  | .reportVerdict => true
  | .reportCue => true
  | .panelBreak => true
  | .reportSent => true
  | .reset _ => true
  | .lastAcceptedExpiry _ => true
  | .rampEnd _ => true
  | .fadeEnd _ => true
  | .buzzerSample _ => true
  | .clockDecrement _ => true
  | .clockExpiry _ => true
  | .answerSent _ => true
  | .press _ _ => true

end Sys2Proof
end

