-- ==== Sys2Proof/Certificates/Slice0/Obligations.lean ====
section
/-!
DEFINITION. The statements for the provers. OBLIGATIONS.json lists them with their titles and what they rest on. In a
statement about the line, `before` are the samples a command brings but its last, and `u` the state they lead to.
-/
open Sys2Proof Sys2Proof.Machine

/-! ## The queue, time and reset -/

/-- A step takes the command at the front of the queue and runs it on the state with the queue's rest. -/
def Obligations.StepRunsFrontCommand : Prop :=
  ∀ (c : Instr) (rest : List Instr) (s : State),
    step { s with pending := c :: rest } = exec c { s with pending := rest }

/-- On an empty queue a step is one tick of 1/240 µs (the model's choice, log entry 1): the station clock rises by one
when a whole µs has passed, round time comes to be held when it reaches its greatest value, and every event that the block
makes of itself and that is due then waits in the queue (log entry 1), in an order left free (log entry 8): the expiries, the
decrements, the frame clock, the completion of a read, the expiry of records, the taking of a head that has stood for 2 ms
(log entry 21) and the reports. Nothing else changes. -/
def Obligations.IdleStepIsOneTick : Prop :=
  ∀ s : State, s.pending = [] →
    ∃ t, step s = .next t ∧ t.now = s.now + 1 ∧
      t.stationClock = (if (s.now + 1) % 240 = 0 then s.stationClock + 1 else s.stationClock) ∧
      t.lockout = { s.lockout with round := { s.lockout.round with
        timeHeld := s.lockout.round.timeHeld ||
          decide (16777215 ≤ (t.stationClock - s.lockout.round.reference).toNat) } } ∧
      keepsAudio s t ∧ t.line = s.line ∧ t.rxq = s.rxq ∧ t.txq = s.txq ∧ t.member = s.member ∧ t.dispatch = s.dispatch ∧
      t.clocks = s.clocks ∧ t.panel = s.panel ∧ t.tables = s.tables ∧ t.flash = s.flash ∧ t.straps = s.straps ∧
      t.pending.Perm (dueEvents t) ∧
      (let r := t.lockout.round
       let p := profileRecord t r.profile
       (.holdoffExpiry ∈ t.pending ↔ r.state = .holdoff ∧ p.holdoff * 1000 ≤ roundTime t) ∧
         (.windowExpiry ∈ t.pending ↔ r.state = .isOpen ∧ p.window * 1000 ≤ roundTime t) ∧
         (.settleExpiry ∈ t.pending ↔
           r.state = .settling ∧ r.settled = false ∧ (p.window + p.settle) * 1000 ≤ roundTime t)) ∧
      (∀ c : Fin 4, .clockDecrement c ∈ t.pending ↔ (clockOf t c).state = .running ∧
        ∃ phase, (clockOf t c).phase = some phase ∧ (t.stationClock - phase).toNat < 2147483648) ∧
      (.frameClock ∈ t.pending ↔ t.wclk.mode ≠ .locked ∧ 5000 ≤ t.now - t.wclk.reference) ∧
      (.substituteFrameClock ∈ t.pending ↔ t.wclk.mode = .locked ∧ 6250 ≤ t.now - t.wclk.reference) ∧
      (.blockCompletion ∈ t.pending ↔ ∃ f, t.fetch.flight = some f ∧ f.owned = true ∧ f.doneAt ≤ t.now) ∧
      (.discardedCompletion ∈ t.pending ↔ ∃ f, t.fetch.flight = some f ∧ f.owned = false ∧ f.doneAt ≤ t.now) ∧
      (∀ cue : BitVec 10, .lastAcceptedExpiry cue ∈ t.pending ↔ ∃ x ∈ t.dispatch.lastAccepted,
        cue = BitVec.ofNat 10 x.1 ∧ 2147483648 ≤ (t.stationClock - x.2).toNat) ∧
      (∀ e f, standsAtHead t e f → t.rxq.headSince + 480000 ≤ t.now → takingOf f ∈ t.pending) ∧
      (.reportFault ∈ t.pending ↔ t.panel.tx = .idle ∧ t.panel.answer = none ∧ t.panel.faultPending = true ∧
        t.panel.mask.getLsbD 0 = true)

/-- Every command answers a next state, whose queue is the queue the command was run with. That no command stops is the
model's choice (log entry 29), and so is that RESET keeps the queue (log entry 31). -/
def Obligations.ExecAnswersNextAndKeepsQueue : Prop :=
  ∀ (c : Instr) (s : State), ∃ t, exec c s = .next t ∧ t.pending = s.pending

/-- RESET: the values of R154, R163, R27, R168, Table 5-1, Table 6-1 and Table 11-1, the show tables of no image, and the
straps as sampled; the Panel Port's transmit line is high, and the flash chip select is raised, whatever read was in flight.
The flash, which is outside the station, keeps its contents (log entry 31). The miss and the recovery count are 0 for an
internal word clock too by the model's choice (log entry 25). -/
def Obligations.ResetLeavesResetValues : Prop :=
  ∀ (straps : Straps) (s : State), ∃ t, exec (.reset straps) s = .next t ∧ t.straps = straps ∧ t.stationClock = 0 ∧
    t.flash = s.flash ∧ t.member.state = .loading ∧ t.member.identity = 0 ∧ t.member.signature = 0 ∧
    t.member.faultReason = .noReason ∧ t.member.heldJoin = none ∧
    (∀ n : Fin 32, t.member.peers[n] =
      { state := if n.val = straps.stn.toNat then .self else .absent, identity := 0, signature := 0, lastHeard := none }) ∧
    (∀ n, (stationRecord t n).zones = [255, 255, 255, 255] ∧ (stationRecord t n).polarity = 0) ∧
    (∀ cue, (cueRecord t cue).kind = .noCue ∧ knownCue t cue = false) ∧ t.tables.steps = [] ∧ t.tables.clips = [] ∧
    (∀ n i, inputMapCue t n i = none) ∧
    (∀ p, (profileRecord t p).falseCue = none ∧ (profileRecord t p).noClaimCue = none) ∧
    (∀ c p : Fin 4, (comparePoint t c p).enabled = false) ∧
    t.line.rx = .off ∧ t.line.driver = .released ∧ t.line.attempt = none ∧ t.line.idleCount = 0 ∧
    t.line.assembling = false ∧ t.line.frame = [] ∧ t.line.jamWait = false ∧ t.line.vetoOwed = none ∧
    t.rxq.entries = [] ∧ t.txq.entries = [] ∧ t.dispatch.fireOrder = 0 ∧ (∀ cue, lastAccepted t cue = none) ∧
    (∀ i : Fin 16, (voiceOf t i).state = .idle ∧ (voiceOf t i).cue = 0 ∧ (voiceOf t i).level = 0 ∧
      (voiceOf t i).fireOrder = 0 ∧ (voiceOf t i).trim = 0 ∧ (voiceOf t i).step = 0 ∧ (voiceOf t i).pos = 0 ∧
      (voiceOf t i).passes = 0 ∧ (voiceOf t i).path = .noPath ∧ (voiceOf t i).primed = false ∧
      (voiceOf t i).gainNow = 0 ∧ (voiceOf t i).gainTarget = 0 ∧ (voiceOf t i).rampIncrement = 0 ∧
      (voiceOf t i).rampLeft = 0 ∧ (voiceOf t i).ducked = false ∧ (voiceOf t i).buffer0.frames = [] ∧
      (voiceOf t i).buffer1.frames = [] ∧ (voiceOf t i).cursor = none ∧ (voiceOf t i).playCount = 0 ∧
      (voiceOf t i).cursorCount = 0) ∧
    t.pool.stack = [] ∧ (∀ g : Fin 15, t.pool.duck[g] = 0) ∧ t.fetch.requests = [] ∧ t.fetch.flight = none ∧
    (∀ o : Fin 4, t.outputs[o] = { zone := 255, sum := 0, presented := 0, clip := false }) ∧
    t.wclk.mode = (match straps.wsrc with | .intern => .intern | .extern => .lost) ∧ t.wclk.miss = 0 ∧ t.wclk.recovery = 0 ∧
    (∀ i : Fin 8, t.lockout.debounce[i].level = none ∧ t.lockout.debounce[i].run = 0) ∧ t.lockout.roundCounter = 0 ∧
    t.lockout.round.state = .idle ∧ t.lockout.round.identity = none ∧ t.lockout.round.profile = 0 ∧
    t.lockout.round.reference = 0 ∧ t.lockout.round.excluded = [] ∧ t.lockout.round.claims = [] ∧
    t.lockout.round.verdict = none ∧ t.lockout.round.source = .own ∧ t.lockout.round.differed = false ∧
    t.lockout.round.ownClose = .absent ∧
    (∀ i : Fin 8, t.lockout.round.press[i] = .noPress ∧ t.lockout.round.late[i] = 0 ∧
      t.lockout.round.ownClaim[i] = .absent) ∧
    (∀ c : Fin 4, (clockOf t c).state = .unset ∧ (clockOf t c).value = 0 ∧ (clockOf t c).epoch = 0 ∧
      (clockOf t c).phase = none ∧ ∀ p : Fin 4, (clockOf t c).fired[p] = false ∧ (clockOf t c).copies[p] = .absent) ∧
    t.panel = { rx := .hunting, buffer := none, answer := none, tx := .idle, faults := 0, faultPending := false,
                verdictPending := false, outcomes := [], mask := 7, lastVerdict := none, fireCounter := 0,
                resetSeen := true, overrun := false } ∧
    (∀ n, t.panel.tx.level n = true) ∧ chipSelect t = true

/-! ## The load -/

/-- IMAGE_LOAD while LOADING. Of a flash whose image passes every stage: identity, signature and tables are filled, with the
own peer entry and the output zones, the LISTEN strap decides the state, and a JOINING station with room places its JOIN; the
receiver enters SYNC and the inputs begin to be sampled at once (log entry 22). Of one that fails a check: IMAGE_FAULT with the
reason of the first failure, its flag set, and the show tables as they were. In any other state nothing (log entry 2). The
flash is what the command carries (log entry 13). The reason is UNIT_BLOCK where the second word is not the inverse of the
first, HEADER where a check of R165 fails, SIGNATURE where the last word is not the signature of what is before it, and else
that of the first failing check of Table 10-3, where a cue and a step are checked against the section table's counts (log entry
37) and fields are read as log entry 27 says. The signature begins at 1; each byte makes it its value times 131 plus the byte,
modulo 4,294,967,291. -/
def Obligations.ImageLoadFillsTablesOrFails : Prop :=
  (∀ (flash : List Host.Cell) (s : State),
    (s.member.state ≠ .loading → exec (.imageLoad flash) s = .next s) ∧
    (∀ i : LoadedImage, s.member.state = .loading → loadImage (Memory.ofCells flash) = .ok i →
      ∃ t, exec (.imageLoad flash) s = .next t ∧ t.member.identity = i.identity ∧ t.member.signature = i.signature ∧
        t.tables = i.tables ∧ t.flash = Memory.ofCells flash ∧
        t.line = { s.line with rx := .sync, lows := 0, highs := 0 } ∧
        t.member.state = (if s.straps.listen then .listening else .joining) ∧
        ((peerOf t (ownNumber s)).map fun p => (p.identity, p.signature)) = some (i.identity, i.signature) ∧
        (∀ o : Fin 4, t.outputs[o].zone =
          (i.tables.stations.getD s.straps.stn.toNat { zones := [255, 255, 255, 255], polarity := 0 }).zones.getD o.val 255) ∧
        (s.straps.listen = false → s.txq.entries.length < 4 →
          t.txq.entries.map TxEntry.frame = s.txq.entries.map TxEntry.frame ++
            [encodeFrame (ownNumber s) (.join 0 i.identity i.signature)] ∧ t.member.heldJoin = none) ∧
        (s.straps.listen = true → t.txq = s.txq) ∧ t.lockout = { s.lockout with sampleDue := s.now } ∧ t.pool = s.pool ∧
        t.clocks = s.clocks ∧ t.panel = s.panel ∧ t.rxq = s.rxq ∧ t.dispatch = s.dispatch) ∧
    (∀ r : FaultReason, s.member.state = .loading → loadImage (Memory.ofCells flash) = .error r →
      ∃ t, exec (.imageLoad flash) s = .next t ∧ t.member = { s.member with state := .imageFault, faultReason := r } ∧
        t.panel.faultSet .imageFault = true ∧ (s.panel.faultSet .imageFault = false → t.panel.faultPending = true) ∧
        t.tables = s.tables ∧ t.outputs = s.outputs ∧ t.line = s.line ∧ t.txq = s.txq ∧ t.pool = s.pool ∧
        t.lockout = s.lockout ∧ t.clocks = s.clocks ∧ t.flash = Memory.ofCells flash)) ∧
  (∀ flash : List Host.Cell,
    let block := Memory.readRange flash 0 8
    let identity := numberOf (block.take 4)
    let inverse := numberOf ((block.drop 4).take 4)
    let header := imageBytes flash 0 58
    let length := numberOf ((header.drop 4).take 4)
    let sections := (chunks 7 7 (header.drop 9)).map sectionOf
    let headerGood := numberOf (header.take 4) = 0x4E530100 ∧ length ≤ 1048576 ∧ 62 ≤ length ∧
      numberOf ((header.drop 8).take 1) = 7 ∧ (sections.map Section.kind).Nodup ∧
      (∀ e ∈ sections, 1 ≤ e.kind ∧ e.kind ≤ 7 ∧ countAllowed e.kind e.count = true ∧ 58 ≤ e.offset ∧
        e.offset + 2 + e.count * recordSize e.kind ≤ length - 4) ∧
      sections.Pairwise fun a b => b.offset + 2 + b.count * recordSize b.kind ≤ a.offset ∨
        a.offset + 2 + a.count * recordSize a.kind ≤ b.offset
    let signed := numberOf (imageBytes flash (length - 4) 4) = signatureOf (imageBytes flash 0 (length - 4))
    (identity + inverse ≠ 4294967295 → loadImage flash = .error .unitBlock) ∧
    (identity + inverse = 4294967295 → ¬ headerGood → loadImage flash = .error .header) ∧
    (identity + inverse = 4294967295 → headerGood → ¬ signed → loadImage flash = .error .signature) ∧
    (identity + inverse = 4294967295 → headerGood → signed →
      (∀ r, stageFour (stage flash sections) = some r → loadImage flash = .error r) ∧
      (stageFour (stage flash sections) = none → loadImage flash =
        .ok { identity := BitVec.ofNat 32 identity
              signature := BitVec.ofNat 32 (signatureOf (imageBytes flash 0 (length - 4)))
              tables := tablesOf (stage flash sections) }))) ∧
  ((∀ (x : Staged) (check : List Byte → Option FaultReason) (r : FaultReason), checkSection x check = some r ↔
      (x.countField ≠ x.count ∧ r = .limit) ∨
        (x.countField = x.count ∧ ∃ earlier b later, x.records = earlier ++ b :: later ∧ check b = some r ∧
          ∀ y ∈ earlier, check y = none)) ∧
    (∀ (staged : Nat → Staged) (r : FaultReason), stageFour staged = some r ↔
      ∃ earlier later, [checkSection (staged 1) checkStation, checkSection (staged 2) (checkCue (staged 3).count),
          checkSection (staged 3) (checkStep ((staged 4).records.map clipOf)), checkSection (staged 4) checkClip,
          checkSection (staged 5) checkInput, checkSection (staged 6) checkProfile, checkSection (staged 7) checkCompare] =
        earlier ++ some r :: later ∧ ∀ x ∈ earlier, x = none) ∧
    (∀ b, checkStation b = if ∀ z ∈ b.take 4, z.toNat < 8 ∨ z = 255 then none else some .limit) ∧
    (∀ steps b,
      let f := fun k => (recordFieldsOf cueWidths b).getD k 0
      checkCue steps b =
        if 4 < f 0 then some .limit
        else if f 0 = 0 then none
        else if ¬ (1 ≤ f 1 ∧ f 1 ≤ 15 ∧ f 2 ≤ 15 ∧ f 3 ≤ 65535 ∧ f 3 % 2 = 0 ∧ f 4 ≤ 128 ∧ f 5 ≤ 2000 ∧ f 6 ≤ 255 ∧
            f 7 ≤ 4095 ∧ 1 ≤ f 8 ∧ f 8 ≤ 64 ∧ f 9 ≤ 63 ∧ f 10 ≤ 63 ∧ f 11 ≤ 255 ∧ f 12 ≤ 1 ∧ f 13 ≤ 10000 ∧ f 14 ≤ 2000 ∧
            f 15 ≤ 2 ∧ f 16 ≤ 60000) then some .limit
        else if steps < f 7 + f 8 then some .reference
        else if f 9 ≤ f 10 ∧ f 10 < f 8 then none else some .limit) ∧
    (∀ clips b, checkStep clips b =
      if (stepOf b).length < 1 then some .limit
      else if clips.length ≤ (stepOf b).clip then some .reference
      else if (clips.getD (stepOf b).clip { address := 0, length := 0 }).length < (stepOf b).start + (stepOf b).length
        then some .reference
      else none) ∧
    (∀ b, checkClip b =
      if 1 ≤ (clipOf b).length ∧ (clipOf b).length ≤ 8388608 ∧ (clipOf b).address + 2 * (clipOf b).length ≤ 16777216
      then none else some .limit) ∧
    (∀ b, checkInput b = if numberOf b < 1024 ∨ numberOf b = 65535 then none else some .reference) ∧
    (∀ b,
      let p := (profileOf b).1
      let pairs := (profileOf b).2
      checkProfile b =
        if ¬ (p.holdoff ≤ 10000 ∧ 1 ≤ p.window ∧ p.window ≤ 16000 ∧ 1 ≤ p.settle ∧ p.settle ≤ 250 ∧ 1 ≤ pairs ∧
            pairs ≤ 32 ∧ (∀ x ∈ p.eligible, x.1 < 32 ∧ x.2 < 8) ∧ p.eligible.Nodup) then some .limit
        else if ¬ (p.holdoff < p.window ∧ p.window + p.settle ≤ 16000) then some .limit
        else if (∀ n ∈ p.falseCue, n < 1024) ∧ (∀ n ∈ p.noClaimCue, n < 1024) then none else some .reference) ∧
    (∀ b, checkCompare b =
      if (compareOf b).enabled = true ∧ 1024 ≤ (compareOf b).cue.toNat then some .reference else none)) ∧
  signatureOf [] = 1 ∧
    ∀ (l : List Byte) (b : Byte), signatureOf (l ++ [b]) = (signatureOf l * 131 + b.toNat) % 4294967291

/-! ## The Cue Line -/

/-- SYNC_IDLE and STUCK_RECOVERY come at the 224th high sample and enter OUTSIDE with idle holding, at which a station that may
send the head of its transmit queue begins its attempt. OUTSIDE, the idle count rises at a high sample while no start bit is
being tested, and STRAY_START_BIT, a start bit that passes the noise test, sets it to 0 (log entry 35). GAP_ERROR, where a high
has lasted more than 96 samples, from the first one after the break or from the end of the last stop bit, without such a start
bit, discards the frame in assembly and enters OUTSIDE (log entry 36). A row whose event does not happen at the last sample
does nothing (log entry 2). -/
def Obligations.QuietLineEvents : Prop :=
  ∀ (before : Samples) (s : State),
    let u := playLine before 1 s
    (∀ row : Samples → Instr,
      (row = .syncIdle ∧ u.line.rx = .sync) ∨ (row = .stuckRecovery ∧ u.line.rx = .stuck) →
      (u.line.attempt = none → u.line.jamLeft = 0 → u.line.vetoOwed = none → 223 ≤ u.line.highs →
        let idle : LineInterface := { u.line with
          rx := .outside, idleCount := 224, assembling := false, frame := [], jamWait := false, jamReady := false
          hunt := .hunting, highs := u.line.highs + 1, lows := 0, driver := .released }
        ((∀ e, ¬ mayAttempt u e) → exec (row (before ++ [true])) s = .next { u with line := idle }) ∧
        ∀ e, mayAttempt u e → exec (row (before ++ [true])) s = .next { u with line := { idle with
          driver := .attempt, attempt := some { entry := e.seq, phase := .breaking 0, edge := none, clean := true } } }) ∧
      (u.line.highs < 223 → exec (row (before ++ [true])) s = .next s) ∧ exec (row (before ++ [false])) s = .next s) ∧
    (u.line.rx = .outside → u.line.jamLeft = 0 →
      (u.line.hunt = .hunting ∨ u.line.hunt = .waitHigh →
        (playLine [true] 0 u).line.idleCount = u.line.idleCount + 1 ∧
        (shortLow u false → (playLine [false] 0 u).line.idleCount = u.line.idleCount)) ∧
      (∀ (level : Bool) (index highs : Nat) (bits : BitVec 11), u.line.hunt = .reading index highs bits → shortLow u level →
        (index ≠ 9 ∨ 2 ≤ highs + Bool.high level → (playLine [level] 0 u).line.idleCount = u.line.idleCount) ∧
        (index = 9 → highs + Bool.high level < 2 → ∃ t, exec (.strayStartBit (before ++ [level])) s = .next t ∧
          t.line.rx = .outside ∧ t.line.idleCount = 0 ∧ t.line.hunt = .waitHigh ∧ t.line.assembling = u.line.assembling ∧
          (u.line.attempt = none → t = { u with line := t.line })) ∧
        (2 ≤ highs + Bool.high level → exec (.strayStartBit (before ++ [level])) s = .next s))) ∧
    (u.line.rx = .inBreak → u.line.jamLeft = 0 →
      (playLine [true] 0 u).line.rx = .headerWait ∧ (playLine [true] 0 u).line.gapLeft = 96 ∧
        (playLine [true] 0 u).line.hunt = .hunting) ∧
    ((u.line.rx = .headerWait ∨ u.line.rx = .between) → u.line.jamLeft = 0 → u.line.hunt = .hunting → 1 < u.line.gapLeft →
      (playLine [true] 0 u).line.rx = u.line.rx ∧ (playLine [true] 0 u).line.gapLeft = u.line.gapLeft - 1) ∧
    (∀ level : Bool, 1 < u.line.gapLeft → exec (.gapError (before ++ [level])) s = .next s) ∧
    ∀ level : Bool, (u.line.rx = .headerWait ∨ u.line.rx = .between) → u.line.gapLeft ≤ 1 → u.line.jamLeft = 0 →
      shortLow u level →
      ((level = true ∧ (u.line.hunt = .hunting ∨ u.line.hunt = .waitHigh)) ∨
        ∃ highs bits, u.line.hunt = .reading 9 highs bits ∧ 2 ≤ highs + Bool.high level) →
      ∃ t, exec (.gapError (before ++ [level])) s = .next t ∧ t.line.rx = .outside ∧
        t.line.idleCount = (if level then u.line.highs + 1 else 0) ∧ t.line.assembling = false ∧ t.line.frame = [] ∧
        t.line.jamWait = false ∧ t.line.jamReady = false ∧ (u.line.attempt = none → t = { u with line := t.line })

/-- BREAK_DETECT at the 176th sample of a low, in every receiver state but OFF, SYNC and STUCK (SLOT among them), where the
station does not hear its own jam (log entry 7): the frame in assembly is discarded and a new one begins, whose timestamp is
the station clock's value at the first sample of the low (log entry 5); an attempt in progress in its break takes that
timestamp if it has none, and goes on. -/
def Obligations.BreakDetectCapturesEdge : Prop :=
  (∀ (before : Samples) (s : State),
    let u := playLine before 1 s
    u.line.rx ≠ .off → u.line.rx ≠ .sync → u.line.rx ≠ .stuck → u.line.jamLeft = 0 → u.line.lows = 175 →
    ∃ t, exec (.breakDetect (before ++ [false])) s = .next t ∧ t.line.rx = .inBreak ∧
      t.line.breakEdge = u.line.lowEdge ∧ t.line.assembling = true ∧ t.line.frame = [] ∧ t.line.jamWait = false ∧
      t.line.jamReady = false ∧ t.line.slotVeto = false ∧
      (u.line.attempt = none → t = { u with line := t.line } ∧ t.line.attempt = none) ∧
      ∀ a n, u.line.attempt = some a → a.phase = .breaking n → t = { u with line := t.line } ∧
        t.line.attempt.map (fun x => (x.entry, x.edge)) = some (a.entry, some (a.edge.getD u.line.lowEdge))) ∧
  (∀ (n : Nat) (u : State), u.line.rx ≠ .off →
    (u.line.lows = 0 → (playLine [false] n u).line.lows = 1 ∧ (playLine [false] n u).line.lowEdge = clockBefore u n) ∧
    (0 < u.line.lows → (playLine [false] n u).line.lows = u.line.lows + 1 ∧
      (playLine [false] n u).line.lowEdge = u.line.lowEdge) ∧ (playLine [true] n u).line.lows = 0) ∧
  ∀ (n : Nat) (s : State), clockAgrees s → n * sampleTicks s.straps.lrate ≤ s.now →
    clockBefore s n = BitVec.ofNat 32 ((s.now - n * sampleTicks s.straps.lrate) / 240)

/-- LINE_STUCK at the sample at which a low has lasted more than 1024 samples, in every receiver state but OFF and STUCK: the
receiver is STUCK, nothing is in assembly, the driver is released, an attempt that has not begun its characters ends without
counting a failure, a withdrawn frame being removed, and the flag is set. R121 names an attempt in its break or waiting for its
header; that one in a later phase ends too, and one in the slot without counting a failure, is the model's choice (log entry 6).
A row whose event does not happen at the last sample does nothing (log entry 2). -/
def Obligations.LineStuckEndsAttempt : Prop :=
  ∀ (before : Samples) (s : State),
    let u := playLine before 1 s
    u.line.rx ≠ .off → u.line.rx ≠ .stuck →
    (u.line.lows < 1024 → exec (.lineStuck (before ++ [false])) s = .next s) ∧
    (1024 ≤ u.line.lows → ∃ t, exec (.lineStuck (before ++ [false])) s = .next t ∧ t.line.rx = .stuck ∧
      t.line.assembling = false ∧ t.line.frame = [] ∧ t.line.driver = .released ∧ t.line.attempt = none ∧
      t.line.vetoOwed = none ∧ t.line.jamLeft = 0 ∧ t.panel.faultSet .lineStuck = true ∧
      (u.panel.faultSet .lineStuck = false → t.panel.faultPending = true) ∧ t.rxq = u.rxq ∧
      ((∀ a k h, u.line.attempt = some a → a.phase ≠ .sending k h) →
        ((∀ x ∈ u.txq.entries, x.withdrawn = false) → t.txq = u.txq) ∧
        ∀ a e, u.line.attempt = some a → txEntry u a.entry = some e → e.withdrawn = true → (∀ p, holds u p = false) →
          t.txq.entries = u.txq.entries.filter fun x => x.seq != a.entry))

/-- ATTEMPT_START: an ACTIVE station, or a JOINING one whose head is a JOIN, begins the attempt of the head at any sample, of
whatever row, that reads high and at which idle holds (log entry 35), unless an attempt was in progress when the sample came
(log entry 6); no other station does. The head is the entry of the lowest class, and of those the one of the earliest sequence.
A frame placed while idle holds begins at the next sample that reads high, also where the command brings the idle samples
before it: these find none of the entries placed after them (log entry 4). The attempt drives the line low for 192 samples,
releases it until it reads high, and counts 32 high samples of mark, or fewer where the line reads low, which is sample 0 of
its start bit; then it drives the low bits of its characters, and after the last it drives nothing. A row whose event does not
happen at the last sample does nothing (log entry 2). -/
def Obligations.AttemptSendsMostUrgentFrame : Prop :=
  (∀ q : List TxEntry, (q = [] → txHead q = none) ∧ (q ≠ [] → ∃ e, txHead q = some e ∧ e ∈ q ∧
    ∀ x ∈ q, e.cls < x.cls ∨ (e.cls = x.cls ∧ e.seq ≤ x.seq))) ∧
  (∀ (before : Samples) (level : Bool) (s : State),
    let u := playLine before 1 s
    let v := playLine [level] 0 u
    (∀ e, level = true → mayAttempt u e → u.line.attempt = none →
      let attempt : Attempt := { entry := e.seq, phase := .breaking 0, edge := none, clean := true }
      (u.line.rx = .outside → (u.line.hunt = .hunting ∨ u.line.hunt = .waitHigh) → 223 ≤ u.line.idleCount →
        u.line.vetoOwed = none → u.line.jamLeft = 0 →
        exec (.attemptStart (before ++ [level])) s = .next { u with line := { u.line with
          idleCount := u.line.idleCount + 1, hunt := .hunting, highs := u.line.highs + 1, lows := 0
          driver := .attempt, attempt := some attempt } }) ∧
      (v.line.rx = .outside → 224 ≤ v.line.idleCount → v.line.hunt.pending = false → v.line.vetoOwed = none →
        v.line.jamLeft = 0 →
        exec (.attemptStart (before ++ [level])) s = .next v ∧ v.line.driver = .attempt ∧ v.line.attempt = some attempt)) ∧
    (u.line.attempt ≠ none ∨ level = false ∨ (∀ e, ¬ mayAttempt u e) ∨ v.line.rx ≠ .outside ∨ v.line.idleCount < 224 →
      exec (.attemptStart (before ++ [level])) s = .next s)) ∧
  (∀ (k : Nat) (e : TxEntry) (s : State), mayAttempt s e → s.line.attempt = none → s.line.rx = .outside →
    (s.line.hunt = .hunting ∨ s.line.hunt = .waitHigh) → 223 ≤ s.line.idleCount + k → s.line.vetoOwed = none →
    s.line.jamLeft = 0 → (∀ x ∈ s.txq.entries, s.now - sampleTicks s.straps.lrate < x.placedAt) →
    exec (.attemptStart (List.replicate (k + 1) true)) s = .next { s with line := { s.line with
      idleCount := s.line.idleCount + k + 1, hunt := .hunting, highs := s.line.highs + k + 1, lows := 0, driver := .attempt
      attempt := some { entry := e.seq, phase := .breaking 0, edge := none, clean := true } } }) ∧
  ∀ (a : Attempt) (s : State),
    (∀ (n : Nat) (level : Bool), a.phase = .breaking n →
      attemptSample a level s = (setPhase (if n < 191 then .breaking (n + 1) else .waiting) s, [])) ∧
    (a.phase = .waiting → attemptSample a false s = (s, []) ∧ attemptSample a true s = (setPhase (.mark 1) s, [])) ∧
    (∀ n : Nat, a.phase = .mark n → attemptSample a false s = (setPhase (.sending 1 0) s, []) ∧
      attemptSample a true s = (setPhase (if n < 31 then .mark (n + 1) else .sending 0 0) s, [])) ∧
    (∀ (frame : List Byte) (k h : Nat),
      nextPhase frame k h = if k + 1 < 176 * frame.length then .sending (k + 1) h else .slot 0 0 0) ∧
    (s.line.attempt = some a → (∀ n, a.phase = .breaking n → drivesAttempt s = true) ∧
      ((a.phase = .waiting ∨ (∃ n, a.phase = .mark n) ∨ ∃ n x y, a.phase = .slot n x y) → drivesAttempt s = false) ∧
      ∀ (k h : Nat) (e : TxEntry), a.phase = .sending k h → txEntry s a.entry = some e →
        drivesAttempt s = !sentLevel e.frame (k / 176) (k % 176 / 16))

/-- ARBITRATION_LOST at a data or parity bit of the arbitration field that was sent high and is read low by the majority of its
samples, and BIT_ERROR at a bit after the field, or at one sent low and read high: the station stops driving; the first counts
no failure, the second counts one and owes the veto slot when the error is in the check character. A withdrawn frame is
removed. A bit read as sent, and a stop bit of the field read low, are neither; the latter ends the running on of a JOIN's
field (log entry 33). A row whose event does not happen at the last sample does nothing (log entry 2). -/
def Obligations.LostBitsEndTheAttempt : Prop :=
  ∀ (before : Samples) (level : Bool) (s : State),
    let u := playLine before 1 s
    ∀ (a : Attempt) (e : TxEntry) (char bit highs : Nat), readsBack u a e char bit highs →
    let read := decide (2 ≤ highs + Bool.high level)
    (sentLevel e.frame char bit = true → read = false → char < arbitrationField e a → 1 ≤ bit → bit ≤ 9 →
      ∃ t, exec (.arbitrationLost (before ++ [level])) s = .next t ∧ t.line.attempt = none ∧ t.line.driver ≠ .attempt ∧
        (e.withdrawn = false → t.txq = u.txq) ∧
        (e.withdrawn = true → (∀ p, holds u p = false) →
          t.txq.entries = u.txq.entries.filter fun x => x.seq != a.entry) ∧
        ((∃ k h b, u.line.rx = .character ∧ u.line.hunt = .reading k h b ∧ k < 160) → u.line.jamLeft = 0 →
          shortLow u level → e.withdrawn = false → t = { u with line := t.line } ∧ t.line.rx = .character ∧
            t.line.frame = u.line.frame ∧ t.line.assembling = u.line.assembling)) ∧
    (isBitError e a char bit read → char < e.frame.length →
      (e.withdrawn = false → e.fails < 7 →
        ∃ t, exec (.bitError (before ++ [level])) s = .next t ∧ t.line.attempt = none ∧ t.line.driver ≠ .attempt ∧
          t.txq = { u.txq with
            entries := u.txq.entries.map fun x => if x.seq = a.entry then { x with fails := x.fails + 1 } else x } ∧
          (u.line.vetoOwed = none → u.line.lows < 1024 →
            t.line.vetoOwed = if char + 1 = e.frame.length then some (16 * bit + 9) else none)) ∧
      (e.withdrawn = true → (∀ p, holds u p = false) →
        ∃ t, exec (.bitError (before ++ [level])) s = .next t ∧ t.line.attempt = none ∧
          t.txq.entries = u.txq.entries.filter fun x => x.seq != a.entry)) ∧
    (sentLevel e.frame char bit = read ∨ (bit = 10 ∧ char < arbitrationField e a) →
      exec (.arbitrationLost (before ++ [level])) s = .next s ∧ exec (.bitError (before ++ [level])) s = .next s ∧
        (char < 2 → char < e.frame.length → u.line.lows < 1024 →
          (playLine [level] 0 u).line.attempt.map Attempt.clean = some (a.clean && (sentLevel e.frame char bit == read))))

/-- FRAME_VETOED at the end of a slot one of whose bit times reads low by the majority of its samples: every station discards
the frame and its receiver is OUTSIDE with an idle count of 0; the sender counts one failure. A row whose event does not happen
at the last sample does nothing (log entry 2). -/
def Obligations.VetoCountsOneFailure : Prop :=
  ∀ (before : Samples) (level : Bool) (s : State),
    let u := playLine before 1 s
    (slotEnds u level → slotHigh u → exec (.frameVetoed (before ++ [level])) s = .next s) ∧
    (slotEnds u level → ¬ slotHigh u →
      (u.line.attempt = none → ∃ t, exec (.frameVetoed (before ++ [level])) s = .next t ∧ t = { u with line := t.line } ∧
        t.line.rx = .outside ∧ t.line.idleCount = 0 ∧ t.line.assembling = false ∧ t.line.frame = [] ∧
        t.line.slotVeto = false ∧ t.line.attempt = none ∧ (u.line.vetoOwed = none → t.line.driver = .released)) ∧
      ∀ a e n x y, u.line.attempt = some a → a.phase = .slot n x y → txEntry u a.entry = some e → e.withdrawn = false →
        e.fails < 7 → ∃ t, exec (.frameVetoed (before ++ [level])) s = .next t ∧
          t = { u with line := t.line, txq := t.txq } ∧ t.line.rx = .outside ∧ t.line.idleCount = 0 ∧
          t.line.assembling = false ∧ t.line.frame = [] ∧ t.line.slotVeto = false ∧ t.line.attempt = none ∧
          (u.line.vetoOwed = none → t.line.driver = .released) ∧
          t.txq = { u.txq with
            entries := u.txq.entries.map fun x => if x.seq = a.entry then { x with fails := x.fails + 1 } else x }) ∧
    (u.line.rx = .slot → u.line.passed < 31 → u.line.jamLeft = 0 → shortLow u level →
      let k := u.line.passed
      let v := (playLine [level] 0 u).line
      v.rx = .slot ∧ v.passed = k + 1 ∧
        v.slotFirst = (if k = 7 then Bool.high level else if k = 8 ∨ k = 9 then u.line.slotFirst + Bool.high level
          else u.line.slotFirst) ∧
        v.slotSecond = (if k = 23 then Bool.high level else if k = 24 ∨ k = 25 then u.line.slotSecond + Bool.high level
          else u.line.slotSecond))

/-- FRAME_DROPPED, by a veto or by a bit error: at the eighth failure the frame leaves the queue, TX_DROPPED is set, and
the frame of a panel command posts an outcome record DROPPED with the break edge of this attempt. A JOINING station whose JOIN
is dropped offers a new one. -/
def Obligations.EighthFailureDropsFrame : Prop :=
  ∀ (before : Samples) (level : Bool) (s : State),
    let u := playLine before 1 s
    ∀ (a : Attempt) (e : TxEntry) (edge : Word), u.line.attempt = some a → a.edge = some edge →
    txEntry u a.entry = some e → e.withdrawn = false → e.fails = 7 →
    ((slotEnds u level ∧ ¬ slotHigh u ∧ ∃ n x y, a.phase = .slot n x y) ∨
      (u.line.rx ≠ .slot ∧ ∃ char bit highs, readsBack u a e char bit highs ∧ char < e.frame.length ∧
        isBitError e a char bit (decide (2 ≤ highs + Bool.high level)))) →
    ∃ t, exec (.frameDropped (before ++ [level])) s = .next t ∧ t.line.attempt = none ∧ t.line.driver ≠ .attempt ∧
      t.panel.faultSet .txDropped = true ∧ (u.panel.faultSet .txDropped = false → t.panel.faultPending = true) ∧
      (∀ f, parseFrame e.frame = some f →
        (e.producer = .panelPort ∨ f.kind = .arm ∨ f.kind = .clock) →
        t.panel.outcomes.getLast? = some
          { tag := (recordFields f).1, cue := (recordFields f).2, kind := f.kind, outcome := .dropped, edge := edge }) ∧
      ((∀ p, holds u p = false) →
        (¬ (u.member.state = .joining ∧ kindOf e.frame = some .join) →
          t.txq.entries = u.txq.entries.filter fun x => x.seq != a.entry) ∧
        (u.member.state = .joining → kindOf e.frame = some .join → u.txq.entries.length ≤ 4 →
          t.txq.entries.map TxEntry.frame = (u.txq.entries.filter fun x => x.seq != a.entry).map TxEntry.frame ++
            [encodeFrame (ownNumber u) (.join 0 u.member.identity u.member.signature)])) ∧
      t.rxq = u.rxq ∧ t.dispatch = u.dispatch ∧ keepsAudio u t

/-- FRAME_ACCEPTED, both bit times of the slot having read high, at a station that sends no frame of its own in it: a frame
assembled without error enters a receive queue with room at its end, with this station's break edge and a joining mark that is
set while JOINING; a LISTENING station without room sets RX_OVERRUN; a frame with an error is discarded without a flag. A row
whose event does not happen at the last sample does nothing (log entry 2). -/
def Obligations.AcceptedFrameIsQueued : Prop :=
  ∀ (before : Samples) (level : Bool) (s : State),
    let u := playLine before 1 s
    (slotEnds u level → ¬ slotHigh u → exec (.frameAccepted (before ++ [level])) s = .next s) ∧
    (slotEnds u level → slotHigh u → u.line.attempt = none →
      ∃ t, exec (.frameAccepted (before ++ [level])) s = .next t ∧ t.line.rx = .outside ∧ t.line.idleCount = 0 ∧
        t.line.assembling = false ∧ t.line.frame = [] ∧ (u.line.vetoOwed = none → t.line.driver = .released) ∧
        t = { u with line := t.line, rxq := t.rxq, panel := t.panel } ∧
        (frameErrors u.line.frame = false → u.rxq.entries.length < 8 →
          t.rxq.entries = u.rxq.entries ++ [{ frame := u.line.frame.map ReadChar.value, edge := u.line.breakEdge,
                                              joining := decide (u.member.state = .joining) }] ∧
          t.rxq.headSince = (if u.rxq.entries = [] then u.now else u.rxq.headSince) ∧ t.panel = u.panel) ∧
        (frameErrors u.line.frame = false → 8 ≤ u.rxq.entries.length →
          t.rxq = u.rxq ∧ (u.member.state = .listening → t.panel.faultSet .rxOverrun = true) ∧
          (u.member.state ≠ .listening → t.panel = u.panel)) ∧
        (frameErrors u.line.frame = true → t.rxq = u.rxq ∧ t.panel = u.panel))

/-- FRAME_ACCEPTED at the sender: the frame's entry leaves the transmit queue and is named by no own claim, own CLOSE or own
copy, the own frame enters the receive queue, and a JOINING station whose JOIN it is becomes ACTIVE, that JOIN's mark being
clear. The freed entry is offered: a JOIN held alone is placed, and so is of the Lockout Unit's held frames the CLAIM of the
least capture, of equal ones the lowest input's, or with none of those its CLOSE, and of the held copies the first in the order
of R108 (log entry 26), whose record then names the new entry. Of several producers one finds the last free entry, which one is
left free (log entry 8). -/
def Obligations.OwnFrameAcceptedLeavesQueue : Prop :=
  ∀ (before : Samples) (level : Bool) (s : State),
    let u := playLine before 1 s
    ∀ (a : Attempt) (e : TxEntry) (n x y : Nat), slotEnds u level → slotHigh u → u.line.attempt = some a →
    a.phase = .slot n x y → txEntry u a.entry = some e → frameErrors u.line.frame = false → u.rxq.entries.length < 8 →
    ∃ t, exec (.frameAccepted (before ++ [level])) s = .next t ∧ t.line.attempt = none ∧ t.line.rx = .outside ∧
      t.member.state = (if u.member.state = .joining ∧ kindOf e.frame = some .join then .active else u.member.state) ∧
      t.rxq.entries = u.rxq.entries ++ [{ frame := u.line.frame.map ReadChar.value, edge := u.line.breakEdge,
                                          joining := decide (t.member.state = .joining) }] ∧
      ((∀ p, holds u p = false) → t.txq.entries = u.txq.entries.filter (fun x => x.seq != a.entry) ∧
        (∀ i : Fin 8, t.lockout.round.ownClaim[i] ≠ .queued a.entry) ∧ t.lockout.round.ownClose ≠ .queued a.entry ∧
        ∀ (c p : Fin 4) (epoch : Byte), (clockOf t c).copies[p] ≠ .queued epoch a.entry) ∧
      t.panel = u.panel ∧
      (let rest := u.txq.entries.filter fun x => x.seq != a.entry
       let r := u.lockout.round
       let placed := fun f : LineFrame =>
         t.txq.entries.map TxEntry.frame = rest.map TxEntry.frame ++ [encodeFrame (ownNumber u) f] ∧
           t.txq.nextSeq = u.txq.nextSeq + 1
       rest.length < 4 →
       (∀ reply, u.member.heldJoin = some reply → holds u .lockoutUnit = false → holds u .clockUnit = false →
         t.member.heldJoin = none ∧ placed (.join (flagByte reply) u.member.identity u.member.signature)) ∧
       (u.member.heldJoin = none → holds u .clockUnit = false →
         (∀ (i : Fin 8) (fs : Bool) (capture : Nat), r.ownClaim[i] = .held fs capture →
           (∀ (j : Fin 8) (fs' : Bool) (capture' : Nat), r.ownClaim[j] = .held fs' capture' →
             capture < capture' ∨ (capture = capture' ∧ i ≤ j)) →
           t.lockout.round.ownClaim[i] = .queued u.txq.nextSeq ∧
             placed (.claim r.carried.1 r.carried.2 (BitVec.ofNat 8 i.val) (flagByte fs) (BitVec.ofNat 24 capture))) ∧
         ((∀ (i : Fin 8) (fs : Bool) (capture : Nat), r.ownClaim[i] ≠ .held fs capture) → r.ownClose = .held →
           t.lockout.round.ownClose = .queued u.txq.nextSeq ∧ placed (closeFrame r))) ∧
       (u.member.heldJoin = none → holds u .lockoutUnit = false →
         ∀ (c p : Fin 4) (epoch : Byte) (since order : Nat), (clockOf u c).copies[p] = .held epoch since order →
           (∀ (c' p' : Fin 4) (epoch' : Byte) (since' order' : Nat), (clockOf u c').copies[p'] = .held epoch' since' order' →
             heldFirst since order since' order' c p c' p') →
           (clockOf t c).copies[p] = .queued (clockOf u c).epoch u.txq.nextSeq ∧
             placed (.fire (comparePoint u c p).cue 2 (BitVec.ofNat 8 (c.val * 16 + p.val) ++ (clockOf u c).epoch) 128)) ∧
       (rest.length = 3 → (∃ p, holds u p = true) → t.txq.entries.length = 4))

/-- The last character of a frame, as its header gives their number, leads to the mark, and any other to the next start bit.
VETO_SLOT_START at the end of the 1 tb mark: an ACTIVE station vetoes for a character error, a sum other than 0x5A, a station
character above 31 or a receive queue of 8, and drives the slot low; no other station does, but one that owes the slot after a
bit error in its check character, which drives it in its own timing whatever its receiver finds (log entry 34). A row whose
event does not happen at the last sample does nothing (log entry 2). -/
def Obligations.VetoSlotDecision : Prop :=
  (∀ (level : Bool) (highs : Nat) (bits : BitVec 11) (u : State),
    let c := readLineBits (if 2 ≤ highs + Bool.high level then bits ||| (1 <<< 10) else bits)
    let frame := u.line.frame ++ [c]
    let v := (playLine [level] 0 u).line
    u.line.rx = .character → u.line.hunt = .reading 169 highs bits → u.line.assembling = true → u.line.jamLeft = 0 →
    shortLow u level →
    ∀ k, (frame.head?.bind usableHeader) = some k →
      v.frame = frame ∧ v.assembling = true ∧ (frame.length < k.length → v.rx = .between ∧ v.gapLeft = 6 + 96 + 1) ∧
        (k.length ≤ frame.length → v.rx = .endMark ∧ v.passed = 0)) ∧
  (∀ (before : Samples) (level : Bool) (s : State),
    let u := playLine before 1 s
    let reasons := (∃ c ∈ u.line.frame, c.parityError = true ∨ c.framingError = true) ∨
      charSum (u.line.frame.map ReadChar.value) ≠ 0x5A ∨ 31 < (senderOf (u.line.frame.map ReadChar.value)).toNat ∨
      8 ≤ u.rxq.entries.length
    u.line.rx = .endMark → u.line.jamLeft = 0 → shortLow u level →
    (u.line.passed < 21 → exec (.vetoSlotStart (before ++ [level])) s = .next s ∧
      (playLine [level] 0 u).line.rx = .endMark ∧ (playLine [level] 0 u).line.passed = u.line.passed + 1) ∧
    (u.line.passed = 21 → (u.line.attempt = none ∨ ∃ a n x y, u.line.attempt = some a ∧ a.phase = .slot n x y) →
      ∃ t, exec (.vetoSlotStart (before ++ [level])) s = .next t ∧ t = { u with line := t.line } ∧ t.line.rx = .slot ∧
        t.line.passed = 0 ∧ t.line.frame = u.line.frame ∧ t.line.attempt.map Attempt.entry = u.line.attempt.map Attempt.entry ∧
        (u.member.state = .active ∧ reasons → t.line.slotVeto = true ∧ t.line.driver = .veto) ∧
        (¬ (u.member.state = .active ∧ reasons) → t.line.slotVeto = false ∧
          (u.line.vetoOwed = none → t.line.driver = .released)))) ∧
  ∀ (level : Bool) (n : Nat) (u : State), u.line.vetoOwed = some n → u.line.attempt = none → u.line.jamLeft = 0 →
    u.line.jamWait = false → u.line.lows < 1024 → u.line.rx ≠ .off →
    let v := (playLine [level] 0 u).line
    v.vetoOwed = (if n < 222 then some (n + 1) else none) ∧ (190 ≤ n → n < 222 → v.driver = .veto) ∧
      (n < 190 → u.line.rx ≠ .slot → u.line.rx ≠ .endMark → v.driver = .released) ∧
      (222 ≤ n → u.line.rx ≠ .slot → u.line.rx ≠ .endMark →
        v.driver ≠ .veto ∧ (v.attempt = none → v.driver = .released))

/-- HEADER_UNUSABLE at the stop bit of a header that is not usable: an ACTIVE receiver discards the frame and waits to jam it,
any other enters OUTSIDE. JAM at the first low sample after the station character: the ACTIVE receiver that waits drives the
line low for 176 samples, does not hear that low as a break, and is then OUTSIDE (log entry 7). A row whose event does not
happen at the last sample does nothing (log entry 2). -/
def Obligations.UnusableHeaderIsJammed : Prop :=
  ∀ (before : Samples) (s : State),
    let u := playLine before 1 s
    (∀ (level : Bool) (highs : Nat) (bits : BitVec 11), u.line.rx = .character → u.line.hunt = .reading 169 highs bits →
      u.line.jamLeft = 0 → shortLow u level →
      (u.line.assembling = true → u.line.frame = [] →
        usableHeader (readLineBits (if 2 ≤ highs + Bool.high level then bits ||| (1 <<< 10) else bits)) = none →
        ∃ t, exec (.headerUnusable (before ++ [level])) s = .next t ∧ t.line.assembling = false ∧ t.line.frame = [] ∧
          (u.line.attempt = none → t = { u with line := t.line }) ∧
          (u.member.state = .active → t.line.rx = .between ∧ t.line.jamWait = true ∧ t.line.jamReady = false) ∧
          (u.member.state ≠ .active → u.line.attempt = none → t.line.rx = .outside ∧ t.line.jamWait = false ∧
            t.line.idleCount = if level then u.line.highs + 1 else 0)) ∧
      (u.line.assembling = false → (playLine [level] 0 u).line.rx = .between ∧
        (playLine [level] 0 u).line.jamReady = u.line.jamWait)) ∧
    (u.line.jamWait = true → u.line.jamReady = true → u.member.state = .active → u.line.rx = .between →
      u.line.hunt = .hunting → u.line.jamLeft = 0 → u.line.lows = 0 → u.line.attempt = none →
      ∃ t, exec (.jam (before ++ [false])) s = .next t ∧ t = { u with line := t.line } ∧ t.line.rx = .character ∧
        t.line.jamWait = false ∧ t.line.jamReady = false ∧ t.line.jamLeft = 175 ∧ t.line.driver = .jam) ∧
    (∀ level : Bool, 0 < u.line.jamLeft → u.line.lows < 1024 → u.line.attempt = none → u.line.vetoOwed = none →
      u.line.rx = .character →
      exec (.breakDetect (before ++ [level])) s = .next s ∧
      (let v := (playLine [level] 0 u).line
       (1 < u.line.jamLeft → v.rx = .character ∧ v.jamLeft = u.line.jamLeft - 1 ∧ v.driver = .jam) ∧
         (u.line.jamLeft = 1 → v.rx = .outside ∧ v.jamLeft = 0 ∧ v.driver ≠ .jam ∧
           (level = false ∨ u.line.highs < 223 → v.driver = .released) ∧
           v.idleCount = if level then u.line.highs + 1 else 0)))

/-- The line's rows, whatever samples they bring, leave the show, the clocks, the audio and the round's record as they were: of
the other blocks they reach only the queues, the held frames and own copies, the station state, the fault flags and the outcome
FIFO. -/
def Obligations.LineEventsFrame : Prop :=
  ∀ (row : Samples → Instr) (line : Samples) (s t : State),
    row ∈ [Instr.syncIdle, .breakDetect, .gapError, .lineStuck, .stuckRecovery, .attemptStart, .arbitrationLost, .bitError,
      .jam, .vetoSlotStart, .frameAccepted, .frameVetoed, .frameDropped, .headerUnusable, .strayStartBit] →
    exec (row line) s = .next t →
    keepsFixed s t ∧ keepsAudio s t ∧ t.dispatch = s.dispatch ∧ keepsPeers s t ∧ keepsRound s t ∧ keepsClocks s t ∧
      t.panel = { s.panel with
        faults := t.panel.faults, faultPending := t.panel.faultPending, outcomes := t.panel.outcomes }

/-! ## Taking frames -/

/-- Every taking raises the fire order counter by one and gives the sender's last-heard record the entry's timestamp; but
for a JOIN (whose taking may enter DUPLICATE) the entry has left the head. -/
def Obligations.TakingRaisesFireOrder : Prop :=
  ∀ (e : RxEntry) (f : LineFrame) (s : State), standsAtHead s e f →
    ∃ t, exec (takingOf f) s = .next t ∧ t.dispatch.fireOrder = s.dispatch.fireOrder + 1 ∧
      ((peerOf t (senderOf e.frame)).map Peer.lastHeard) = some (some e.edge) ∧
      (f.kind ≠ .join → t.rxq.entries = s.rxq.entries.tail ∧ t.rxq.headSince = s.now) ∧
      t.tables = s.tables ∧ t.flash = s.flash ∧ t.now = s.now ∧ t.stationClock = s.stationClock ∧
      t.outputs = s.outputs ∧ t.wclk = s.wclk

/-- REMOVE_WITHOUT_EFFECT: an entry with the joining mark or from a FOREIGN sender, not a JOIN, or from a station above 31,
leaves the queue; the counter is raised and the last-heard record of a sender of 0 to 31 set, and nothing else changes. -/
def Obligations.RemovalHasNoEffect : Prop :=
  ∀ (e : RxEntry) (s : State), s.rxq.entries.head? = some e → s.rxq.headSince + 480 ≤ s.now →
    (s.member.state = .joining ∨ s.member.state = .active ∨ s.member.state = .listening) →
    ((e.joining = true ∧ kindOf e.frame ≠ some .join) ∨
      (kindOf e.frame ≠ some .join ∧ ∃ p, peerOf s (senderOf e.frame) = some p ∧ p.state = .foreign) ∨
      31 < (senderOf e.frame).toNat) →
    ∃ t, exec .removeWithoutEffect s = .next t ∧
      t = { s with
        dispatch := { s.dispatch with fireOrder := s.dispatch.fireOrder + 1 }
        rxq := { entries := s.rxq.entries.tail, headSince := s.now }
        member := { s.member with peers := t.member.peers } } ∧
      ∀ n : Fin 32, t.member.peers[n] = if n.val = (senderOf e.frame).toNat
        then { s.member.peers[n] with lastHeard := some e.edge } else s.member.peers[n]

/-- TAKE_FIRE of any origin but CLOCK: once the entry has left the head, the fire is dispatched with the raised fire order, and
the Clip Fetch Unit places what the voices then ask for; the outcome is posted exactly for an origin of PANEL at the sender, a
full FIFO losing its oldest record first. A known cue that reaches this station goes through the record, the choke stage and
stages 5 to 7. Of a cue of choke group 0 with no sounding voice, and an IDLE slot, the lowest IDLE slot primes a voice of the
cue. -/
def Obligations.FirePlaysInLowestIdleSlot : Prop :=
  (∀ (e : RxEntry) (cue tag : BitVec 16) (origin trim : Byte) (s : State),
    standsAtHead s e (.fire cue origin tag trim) → origin ≠ 2 →
    ∃ u, hasLeft s e u ∧
      (let outcome := (dispatchFire cue.toNat trim e.edge (s.dispatch.fireOrder + 1) u).2
       let t := dispatched cue.toNat trim e.edge u
       let kept := if t.panel.outcomes.length < 8 then t.panel.outcomes else t.panel.outcomes.drop 1
       (origin = 1 → senderOf e.frame = ownNumber s → exec .takeFire s = .next { t with panel := { t.panel with
         outcomes := kept ++ [{ tag := tag, cue := cue, kind := .fire, outcome := outcome, edge := e.edge }] } }) ∧
       (origin ≠ 1 ∨ senderOf e.frame ≠ ownNumber s → exec .takeFire s = .next t))) ∧
  (∀ (cue : Nat) (trim : Byte) (edge order : Word) (s : State), knownCue s cue = true →
    (∃ o : Fin 4, maskHasZone (cueRecord s cue).zoneMask s.outputs[o].zone = true) →
    let u := setLastAccepted cue edge s
    dispatchFire cue trim edge order s = playStages cue trim order (chokeStage (cueRecord s cue) u) ∧
      lastAccepted u cue = some edge ∧ (∀ d, d ≠ cue → lastAccepted u d = lastAccepted s d) ∧
      u = { s with dispatch := u.dispatch } ∧ u.dispatch.fireOrder = s.dispatch.fireOrder) ∧
  ∀ (e : RxEntry) (cue tag : BitVec 16) (origin trim : Byte) (i : Fin 16) (s : State),
    standsAtHead s e (.fire cue origin tag trim) → origin ≠ 2 → knownCue s cue.toNat = true →
    (cueRecord s cue.toNat).choke = 0 → zoneTest s (cueRecord s cue.toNat).zoneMask = true →
    (∀ j : Fin 16, (voiceOf s j).cue = cue.toNat → (voiceOf s j).sounding = false) →
    (voiceOf s i).state = .idle → (∀ j : Fin 16, j < i → (voiceOf s j).state ≠ .idle) →
    ∃ t, exec .takeFire s = .next t ∧ (voiceOf t i).state = .priming ∧ (voiceOf t i).cue = cue.toNat ∧
      (voiceOf t i).trim = trim ∧ (voiceOf t i).fireOrder = s.dispatch.fireOrder + 1 ∧ (voiceOf t i).step = 0 ∧
      (voiceOf t i).pos = 0 ∧ (voiceOf t i).level = (cueRecord s cue.toNat).level ∧
      lastAccepted t cue.toNat = some e.edge ∧ t.pool.stack = s.pool.stack ∧
      (origin = 1 → senderOf e.frame = ownNumber s →
        t.panel.outcomes.getLast? = some { tag := tag, cue := cue, kind := .fire, outcome := .played, edge := e.edge }) ∧
      t.line = s.line ∧ t.txq = s.txq ∧ t.lockout = s.lockout ∧ t.clocks = s.clocks

/-- Stage 1: a cue number of 1024 or above, or of kind NONE, gives UNKNOWN_CUE and changes nothing. Stage 4: a known cue
whose zones meet none of the station's gives NOT_HERE after the record and the choke stage. The choke stage discards the stack
entries of the cue's choke group, releases the group's sounding voices, each under its own cue's release mode, and leaves every
other voice on its walk; a voice that ends there frees its slot for an entry of another group. For choke group 0 it does
nothing. -/
def Obligations.UnknownAndElsewhere : Prop :=
  (∀ (cue : Nat) (trim : Byte) (edge order : Word) (s : State),
    (1024 ≤ cue ∨ (cueRecord s cue).kind = .noCue → dispatchFire cue trim edge order s = (s, .unknownCue)) ∧
    (cue < 1024 → (cueRecord s cue).kind ≠ .noCue →
      (∀ o : Fin 4, maskHasZone (cueRecord s cue).zoneMask s.outputs[o].zone = false) →
      dispatchFire cue trim edge order s = (chokeStage (cueRecord s cue) (setLastAccepted cue edge s), .notHere))) ∧
  ∀ (c : CueRecord) (s : State),
    (c.choke = 0 → chokeStage c s = s) ∧
    (0 < c.choke →
      let t := chokeStage c s
      t.pool.stack <:+ (s.pool.stack.filter fun e => (cueRecord s e.cue).choke != c.choke) ∧
        releasesVoices s t (fun i => (voiceCue s i).choke = c.choke) (fun i => (voiceCue s i).releaseMode) ∧
        (∀ i : Fin 16, (voiceOf t i).sounding = true → (voiceCue t i).choke ≠ c.choke) ∧
        t = { s with pool := t.pool, fetch := t.fetch })

/-- Where no voice of the cue is sounding, the fire goes on to allocation, with PLAYED. Policy IGNORE with a sounding voice of
the cue gives IGNORED_BUSY and stops; policy LAYER goes on to allocation, gives LAYERED if a voice is started and NO_VOICE if
none can be allocated. Policy RESTART restarts the sounding voice of the greatest fire order (compared over fire orders less
than 2^31 apart, log entry 17): its walk, buffers, cursor, fire order and trim begin anew, its slot, level, gain, ducked flag
and duck contributions stay, and a changed target is ramped to over the attack; no other voice changes. -/
def Obligations.IgnoreAndLayer : Prop :=
  (∀ (cue : Nat) (trim : Byte) (order : Word) (s : State),
    let allocated := fun o : FireOutcome =>
      (∀ j, idleSlot s = some j → playStages cue trim order s = (startVoice j cue trim order s, o)) ∧
      (∀ j, idleSlot s = none → victim s (cueRecord s cue).level = some j →
        playStages cue trim order s = (startVoice j cue trim order (preempt j s), o)) ∧
      (idleSlot s = none → victim s (cueRecord s cue).level = none → playStages cue trim order s = (s, .noVoice))
    ((∀ i : Fin 16, (voiceOf s i).cue = cue → (voiceOf s i).sounding = false) → allocated .played) ∧
    ∀ i : Fin 16, (voiceOf s i).sounding = true → (voiceOf s i).cue = cue →
      ((cueRecord s cue).policy = .ignore → playStages cue trim order s = (s, .ignoredBusy)) ∧
      ((cueRecord s cue).policy = .layer → allocated .layered) ∧
      ((cueRecord s cue).policy = .restart →
        ∃ j : Fin 16, (voiceOf s j).sounding = true ∧ (voiceOf s j).cue = cue ∧
          playStages cue trim order s = (restartVoice j trim order s, .restarted) ∧
          ∀ base : Word, (∀ k : Fin 16, ((voiceOf s k).fireOrder - base).toNat < 2147483648) →
            ∀ k : Fin 16, (voiceOf s k).sounding = true → (voiceOf s k).cue = cue →
              ((voiceOf s k).fireOrder - base).toNat ≤ ((voiceOf s j).fireOrder - base).toNat)) ∧
  ∀ (j : Fin 16) (trim : Byte) (order : Word) (s : State),
    let v := voiceOf s j
    let c := cueRecord s v.cue
    let t := restartVoice j trim order s
    let w := voiceOf t j
    w.state = .priming ∧ w.cue = v.cue ∧ w.level = v.level ∧ w.fireOrder = order ∧ w.trim = trim ∧ w.step = 0 ∧ w.pos = 0 ∧
      w.passes = c.loopCount ∧ w.path = v.path ∧ w.primed = false ∧ w.ducked = v.ducked ∧ w.unplayed = 0 ∧
      w.cursor = some { step := 0, pos := 0, passes := c.loopCount } ∧ w.playCount = 0 ∧ w.cursorCount = 0 ∧
      w.gainTarget = effectiveTarget s w ∧
      (w.gainTarget = v.gainTarget →
        w.gainNow = v.gainNow ∧ w.rampLeft = v.rampLeft ∧ w.rampIncrement = v.rampIncrement) ∧
      (w.gainTarget ≠ v.gainTarget → w.rampLeft = c.attack * 48 ∧
        (c.attack = 0 → w.gainNow = w.gainTarget * 65536) ∧
        (0 < c.attack → w.gainNow = v.gainNow ∧
          w.rampIncrement = ((w.gainTarget : Int) * 65536 - v.gainNow).tdiv ((c.attack : Int) * 48))) ∧
      (∀ k : Fin 16, k ≠ j → voiceOf t k = voiceOf s k) ∧ t.pool.stack = s.pool.stack ∧ t.pool.duck = s.pool.duck ∧
      (∀ r ∈ t.fetch.requests, r.slot ≠ j) ∧
      (∀ f, t.fetch.flight = some f → f.request.slot = j → f.owned = false) ∧
      t = { s with pool := t.pool, fetch := t.fetch }

/-- Stage 6 takes the lowest IDLE slot. With none, the victim is the oldest RELEASING voice; with none of those, the oldest
of the lowest level strictly below the fired cue's; with neither there is no victim. (Ages are compared as R2 gives, over
fire orders less than 2^31 apart, log entry 17.) -/
def Obligations.SlotAndVictimChoice : Prop :=
  ∀ (level : Nat) (s : State),
    (∀ i, idleSlot s = some i ↔ (voiceOf s i).state = .idle ∧ ∀ j : Fin 16, j < i → (voiceOf s j).state ≠ .idle) ∧
    (∀ base : Word, (∀ j : Fin 16, ((voiceOf s j).fireOrder - base).toNat < 2147483648) →
      (∀ i, victim s level = some i → (voiceOf s i).state = .releasing →
        ∀ j : Fin 16, (voiceOf s j).state = .releasing →
          ((voiceOf s i).fireOrder - base).toNat ≤ ((voiceOf s j).fireOrder - base).toNat) ∧
      (∀ i, victim s level = some i → (voiceOf s i).state ≠ .releasing →
        (∀ j : Fin 16, (voiceOf s j).state ≠ .releasing) ∧ (voiceOf s i).level < level ∧
        ∀ j : Fin 16, (voiceOf s i).level < (voiceOf s j).level ∨ ((voiceOf s i).level = (voiceOf s j).level ∧
          ((voiceOf s i).fireOrder - base).toNat ≤ ((voiceOf s j).fireOrder - base).toNat))) ∧
    (victim s level = none ↔
      ∀ j : Fin 16, (voiceOf s j).state ≠ .releasing ∧ level ≤ (voiceOf s j).level)

/-- A voice started in an IDLE slot has the context of R15, its ramp included, and raises the duck counts of its cue's
groups other than its own. A preempted voice that is not RELEASING and is of kind BED or APPLAUSE is suspended: its context is
pushed on the stack, whose bottom entry is lost, with STACK_DROP set, where it held 8; any other is cut. Either way its slot is
IDLE, no entry popped into it, its duck contributions are removed and its request is cancelled; the end of a voice vacates its
slot in the same way and then offers it to the stack. A slot offered to the stack
takes the first entry from the top of choke group 0 or of a group without a sounding voice, those above it being discarded: the
entry resumes there at its saved position, RESUMING, with an attack ramp from gain 0, where an attack of 0 ms has the gain at
its target at once (log entry 38). The duck depth applied to a group is the least among those of the voices that contribute to
its count, none while that is 0; at a start, an end, a suspension and a pop the other voices of a group whose depth changed
follow it, over the duck ramp of the voice whose contribution began or ended. -/
def Obligations.VoiceStartSetsContext : Prop :=
  (∀ (i : Fin 16) (cue : Nat) (trim : Byte) (order : Word) (s : State), (voiceOf s i).state = .idle →
    let c := cueRecord s cue
    let t := startVoice i cue trim order s
    let v := voiceOf t i
    v.state = .priming ∧ v.cue = cue ∧ v.level = c.level ∧ v.fireOrder = order ∧ v.trim = trim ∧ v.step = 0 ∧ v.pos = 0 ∧
      v.passes = c.loopCount ∧ v.path = .noPath ∧ v.primed = false ∧ v.unplayed = 0 ∧
      v.cursor = some { step := 0, pos := 0, passes := c.loopCount } ∧
      (v.ducked = true ↔ 0 < duckCount s c.choke) ∧ v.gainTarget = effectiveTarget s v ∧ v.gainTarget ≤ 255 ∧
      v.rampLeft = c.attack * 48 ∧ v.gainNow = (if c.attack = 0 then v.gainTarget * 65536 else 0) ∧
      (0 < c.attack → v.rampIncrement = ((v.gainTarget : Int) * 65536).tdiv ((c.attack : Int) * 48)) ∧
      (∀ g : Fin 15, t.pool.duck[g] =
        if c.duckMask.getLsbD (g.val + 1) ∧ c.choke ≠ g.val + 1 then s.pool.duck[g] + 1 else s.pool.duck[g]) ∧
      (∀ j : Fin 16, j ≠ i → (voiceOf t j).state = (voiceOf s j).state ∧ (voiceOf t j).pos = (voiceOf s j).pos) ∧
      duckFollows s t c i ∧ t.pool.stack = s.pool.stack ∧ t = { s with pool := t.pool }) ∧
  (∀ (i : Fin 16) (s : State), (voiceOf s i).state ≠ .idle →
    let v := voiceOf s i
    let c := voiceCue s i
    let t := preempt i s
    let entry : StackEntry :=
      { cue := v.cue, level := v.level, fireOrder := v.fireOrder, trim := v.trim, step := v.step, pos := v.pos
        passes := v.passes, gainTarget := effectiveTarget s v }
    (v.state ≠ .releasing ∧ (c.kind = .bed ∨ c.kind = .applause) →
      t.pool.stack = (entry :: s.pool.stack).take 8 ∧ (s.pool.stack.length < 8 → t.panel = s.panel) ∧
        (8 ≤ s.pool.stack.length → t.panel.faultSet .stackDrop = true ∧
          (s.panel.faultSet .stackDrop = false → t.panel.faultPending = true))) ∧
    (v.state = .releasing ∨ ¬ (c.kind = .bed ∨ c.kind = .applause) →
      t.pool.stack = s.pool.stack ∧ t.panel = s.panel) ∧
    (voiceOf t i).state = .idle ∧ (voiceOf t i).unplayed = 0 ∧ (voiceOf t i).cursor = none ∧ (voiceOf t i).gainNow = 0 ∧
    (∀ g : Fin 15, t.pool.duck[g] =
      if c.duckMask.getLsbD (g.val + 1) ∧ c.choke ≠ g.val + 1 then s.pool.duck[g] - 1 else s.pool.duck[g]) ∧
    (∀ r ∈ t.fetch.requests, r.slot ≠ i) ∧ (∀ f, t.fetch.flight = some f → f.request.slot = i → f.owned = false) ∧
    (∀ j : Fin 16, j ≠ i → sameWalk (voiceOf s j) (voiceOf t j)) ∧ duckFollows s t c i ∧
    (v.state = .releasing ∨ ¬ (c.kind = .bed ∨ c.kind = .applause) → endVoice i s = offerSlot i t)) ∧
  (∀ (g : Nat) (s : State),
    let ducker := fun i : Fin 16 => (voiceOf s i).state ≠ .idle ∧ (voiceCue s i).duckMask.getLsbD g = true ∧
      (voiceCue s i).choke ≠ g
    (duckCount s g = 0 → appliedDepth s g = none) ∧
    (0 < duckCount s g → ∃ d, appliedDepth s g = some d ∧ d ≤ 128 ∧ (∀ i, ducker i → d ≤ (voiceCue s i).duckDepth) ∧
      (d = 128 ∨ ∃ i, ducker i ∧ d = (voiceCue s i).duckDepth))) ∧
  ∀ (i : Fin 16) (s : State), (voiceOf s i).state = .idle →
    let blocked := fun e : StackEntry => (cueRecord s e.cue).choke ≠ 0 ∧
      ∃ j : Fin 16, (voiceOf s j).sounding = true ∧ (voiceCue s j).choke = (cueRecord s e.cue).choke
    ((∀ e ∈ s.pool.stack, blocked e) → offerSlot i s = { s with pool := { s.pool with stack := [] } }) ∧
    ∀ (above : List StackEntry) (e : StackEntry) (rest : List StackEntry), s.pool.stack = above ++ e :: rest →
      (∀ x ∈ above, blocked x) → ¬ blocked e →
      let c := cueRecord s e.cue
      let t := offerSlot i s
      let w := voiceOf t i
      t.pool.stack = rest ∧ w.state = .resuming ∧ w.cue = e.cue ∧ w.level = e.level ∧ w.fireOrder = e.fireOrder ∧
        w.trim = e.trim ∧ w.step = e.step ∧ w.pos = e.pos ∧ w.passes = e.passes ∧ w.path = .noPath ∧ w.primed = false ∧
        w.unplayed = 0 ∧ w.cursor = some { step := e.step, pos := e.pos, passes := e.passes } ∧
        (w.ducked = true ↔ 0 < duckCount t c.choke) ∧ w.gainTarget = effectiveTarget t w ∧ w.rampLeft = c.attack * 48 ∧
        w.gainNow = (if c.attack = 0 then w.gainTarget * 65536 else 0) ∧
        (∀ g : Fin 15, t.pool.duck[g] =
          if c.duckMask.getLsbD (g.val + 1) ∧ c.choke ≠ g.val + 1 then s.pool.duck[g] + 1 else s.pool.duck[g]) ∧
        (∀ j : Fin 16, j ≠ i → sameWalk (voiceOf s j) (voiceOf t j)) ∧ duckFollows s t c i ∧ t = { s with pool := t.pool }

/-- TAKE_RELEASE of a known cue: the entries of the cue leave the stack, and each sounding voice of it takes the path of the
frame's mode, TAIL or FADE, or ends by CUT; a mode from 3 on is the cue's own. No voice of the cue is left sounding; every other
voice keeps its walk; at the sender the outcome is RELEASED exactly when there was a voice or an entry. Of an unknown cue: no
voice and no entry changes. A single release under FADE ramps to 0 over the release time; under TAIL a PRIMING voice goes to
the first tail step, and a voice in a step before the tail keeps the frames of that step and moves its cursor to the first of
them that no buffer holds, or to the first tail step. -/
def Obligations.ReleaseLeavesNoSoundingVoice : Prop :=
  (∀ (e : RxEntry) (cue : BitVec 16) (mode : Byte) (s : State), standsAtHead s e (.release cue mode) →
    ∃ t, exec .takeRelease s = .next t ∧ t.dispatch.lastAccepted = s.dispatch.lastAccepted ∧
      t.line = s.line ∧ t.txq = s.txq ∧ t.lockout = s.lockout ∧ t.clocks = s.clocks ∧
      (knownCue s cue.toNat = true →
        (∀ i : Fin 16, (voiceOf t i).cue = cue.toNat → (voiceOf t i).sounding = false) ∧
        t.pool.stack <:+ (s.pool.stack.filter fun x => x.cue != cue.toNat) ∧
        (mode ≠ 2 → releasesVoices s t (fun i => (voiceOf s i).cue = cue.toNat) fun _ =>
          if mode = 0 then .tail else if mode = 1 then .fade else (cueRecord s cue.toNat).releaseMode) ∧
        (mode = 2 → ∀ i : Fin 16,
          ((voiceOf s i).cue = cue.toNat ∧ (voiceOf s i).sounding = true → endedVoice s (voiceOf s i) (voiceOf t i)) ∧
          (¬ ((voiceOf s i).cue = cue.toNat ∧ (voiceOf s i).sounding = true) →
            sameWalk (voiceOf s i) (voiceOf t i))) ∧
        (senderOf e.frame = ownNumber s → t.panel.outcomes.getLast? = some
          { tag := 0, cue := cue, kind := .release, edge := e.edge
            outcome := if (∃ x ∈ s.pool.stack, x.cue = cue.toNat) ∨
                (∃ i : Fin 16, (voiceOf s i).cue = cue.toNat ∧ (voiceOf s i).sounding = true)
              then .released else .notPlaying })) ∧
      (knownCue s cue.toNat = false → t.pool = s.pool ∧ t.fetch = s.fetch ∧
        (senderOf e.frame = ownNumber s → t.panel.outcomes.getLast? = some
          { tag := 0, cue := cue, kind := .release, outcome := .unknownCue, edge := e.edge }))) ∧
  ∀ (i : Fin 16) (s : State),
    let v := voiceOf s i
    let c := voiceCue s i
    let rest := (stepRecord s c v.step).length - v.pos
    (v.state = .playing ∨ v.state = .resuming →
      (let t := releaseFade i s
       let w := voiceOf t i
       w = { v with
         state := .releasing, path := .fade, gainTarget := 0, rampLeft := c.releaseTime * 48
         gainNow := if c.releaseTime = 0 then 0 else v.gainNow, rampIncrement := w.rampIncrement } ∧
       (0 < c.releaseTime → w.rampIncrement = (-(v.gainNow : Int)).tdiv ((c.releaseTime : Int) * 48)) ∧
       t = { s with pool := { s.pool with voices := t.pool.voices } } ∧ ∀ j : Fin 16, j ≠ i → voiceOf t j = voiceOf s j) ∧
      (c.loopLast < v.step → ∀ t, t = releaseTail i s →
        voiceOf t i = { v with state := .releasing, path := .tail } ∧ t.fetch = s.fetch) ∧
      (v.step ≤ c.loopLast → v.buffer0.frames.length ≤ 256 → v.buffer1.frames.length ≤ 256 →
        ∃ held : Nat, held ≤ rest ∧
          (let t := releaseTail i s
           let w := voiceOf t i
           let holds := fun n : Nat => (w.buffer0.at (v.playCount + BitVec.ofNat 32 n)).isSome ∨
             (w.buffer1.at (v.playCount + BitVec.ofNat 32 n)).isSome
           w = { v with
             state := .releasing, path := .tail, buffer0 := w.buffer0, buffer1 := w.buffer1
             cursorCount := v.playCount + BitVec.ofNat 32 held
             cursor := if held < rest then some { step := v.step, pos := v.pos + held, passes := v.passes }
               else if c.loopLast + 1 < c.stepCount then some { step := c.loopLast + 1, pos := 0, passes := v.passes }
               else none } ∧
           keptRun v.buffer0 w.buffer0 v.playCount rest ∧ keptRun v.buffer1 w.buffer1 v.playCount rest ∧
           (∀ n, n < held → holds n) ∧ (held < rest → ¬ holds held) ∧
           (∀ r ∈ t.fetch.requests, r.slot ≠ i) ∧
           ∀ f, t.fetch.flight = some f → f.request.slot = i → f.owned = false))) ∧
    (v.state = .priming → c.loopLast + 1 < c.stepCount →
      let t := releaseTail i s
      voiceOf t i = { v with
        state := .releasing, path := .tail, primed := false, tailGlide := true, step := c.loopLast + 1, pos := 0
        passes := 0, buffer0 := Buffer.empty, buffer1 := Buffer.empty, playCount := 0, cursorCount := 0
        cursor := some { step := c.loopLast + 1, pos := 0, passes := 0 } } ∧
      (∀ r ∈ t.fetch.requests, r.slot ≠ i) ∧
      ∀ f, t.fetch.flight = some f → f.request.slot = i → f.owned = false) ∧
    (v.state = .priming → releaseFade i s = endVoice i s ∧
      (c.stepCount ≤ c.loopLast + 1 → releaseTail i s = endVoice i s)) ∧
    (v.state = .releasing ∨ v.state = .idle → releaseTail i s = s ∧ releaseFade i s = s)

/-- TAKE_HUSH: every voice, whatever its state but IDLE, whose cue reaches a hushed zone of this station is cut, its slot left
IDLE or taken by an entry of the stack; every other voice keeps its walk; the stack entries that reach none are left, in their
order, but for those that the freed slots took from the top. So no voice that is not IDLE and no stack entry has a cue that
reaches a hushed zone. Clocks, round and last-accepted records run on. -/
def Obligations.HushCutsReachedVoices : Prop :=
  ∀ (e : RxEntry) (mask : Byte) (s : State), standsAtHead s e (.hush mask) →
    ∃ t, exec .takeHush s = .next t ∧
      (∀ (i : Fin 16) (o : Fin 4), (voiceOf t i).state ≠ .idle → maskHasZone mask s.outputs[o].zone = true →
        maskHasZone (voiceCue t i).zoneMask s.outputs[o].zone = false) ∧
      (∀ x ∈ t.pool.stack, ∀ o : Fin 4, maskHasZone mask s.outputs[o].zone = true →
        maskHasZone (cueRecord s x.cue).zoneMask s.outputs[o].zone = false) ∧
      (∀ cue, hushed s mask cue = true ↔ ∃ o : Fin 4, maskHasZone mask s.outputs[o].zone = true ∧
        maskHasZone (cueRecord s cue).zoneMask s.outputs[o].zone = true) ∧
      (∀ i : Fin 16,
        ((voiceOf s i).state ≠ .idle ∧ hushed s mask (voiceOf s i).cue = true →
          endedVoice s (voiceOf s i) (voiceOf t i)) ∧
        ((voiceOf s i).state = .idle ∨ hushed s mask (voiceOf s i).cue = false →
          sameWalk (voiceOf s i) (voiceOf t i))) ∧
      t.pool.stack <:+ (s.pool.stack.filter fun x => !hushed s mask x.cue) ∧
      (senderOf e.frame = ownNumber s → t.panel.outcomes.getLast? = some
        { tag := 0, cue := 0, kind := .hush, outcome := .hushed, edge := e.edge }) ∧
      t.dispatch.lastAccepted = s.dispatch.lastAccepted ∧ t.line = s.line ∧ t.txq = s.txq ∧ t.lockout = s.lockout ∧
      t.clocks = s.clocks

/-- LAST_ACCEPTED_EXPIRY: a record returns to none once the station clock is 2,147,483,648 µs past it, and not before; the
records of other cues stay. A row brought while its event does not happen does nothing (log entry 2). -/
def Obligations.LastAcceptedExpires : Prop :=
  ∀ (cue : BitVec 10) (w : Word) (s : State), lastAccepted s cue.toNat = some w →
    (2147483648 ≤ (s.stationClock - w).toNat →
      ∃ t, exec (.lastAcceptedExpiry cue) s = .next t ∧ lastAccepted t cue.toNat = none ∧
        (∀ d, d ≠ cue.toNat → lastAccepted t d = lastAccepted s d) ∧ t = { s with dispatch := t.dispatch } ∧
        t.dispatch.fireOrder = s.dispatch.fireOrder) ∧
    ((s.stationClock - w).toNat < 2147483648 → exec (.lastAcceptedExpiry cue) s = .next s)

/-- TAKE_CLOCK_FIRE, Table 6-3: STALE and DUPLICATE frames reach no dispatcher and change no clock; any other sets the point's
fired flag, leaves no own copy of the point, and is dispatched with its cue and trim and the fire order of its own taking. A
queued own copy leaves the transmit queue, or stays and is marked withdrawn when it is being attempted; the entry it frees
goes to a held frame, if there is one, whichever producer is first (log entry 8). A copy held or absent leaves the queue as it
was. -/
def Obligations.ClockFireTable : Prop :=
  ∀ (e : RxEntry) (cue : BitVec 16) (name epoch trim : Byte) (s : State),
    standsAtHead s e (.fire cue 2 (name ++ epoch) trim) →
    (3 < name.toNat / 16 ∨ 3 < name.toNat % 16 →
      ∃ t, exec .takeClockFire s = .next t ∧ t.clocks = s.clocks ∧ t.pool = s.pool ∧
        t.dispatch.lastAccepted = s.dispatch.lastAccepted ∧ t.panel = s.panel) ∧
    ∀ c p : Fin 4, name.toNat = c.val * 16 + p.val →
      ((clockOf s c).state = .unset ∨ epoch ≠ (clockOf s c).epoch ∨ (clockOf s c).fired[p] = true →
        ∃ t, exec .takeClockFire s = .next t ∧ t.clocks = s.clocks ∧ t.pool = s.pool ∧
          t.dispatch.lastAccepted = s.dispatch.lastAccepted ∧ t.panel = s.panel) ∧
      ((clockOf s c).state ≠ .unset → epoch = (clockOf s c).epoch → (clockOf s c).fired[p] = false →
        ∃ t, exec .takeClockFire s = .next t ∧ (clockOf t c).fired[p] = true ∧ (clockOf t c).copies[p] = .absent ∧
          (clockOf t c).value = (clockOf s c).value ∧ (clockOf t c).state = (clockOf s c).state ∧
          (knownCue s cue.toNat = true → lastAccepted t cue.toNat = some e.edge) ∧
          t.panel.outcomes = s.panel.outcomes ∧
          ((∀ held n, (clockOf s c).copies[p] ≠ .queued held n) → t.txq = s.txq) ∧
          (∀ held n, (clockOf s c).copies[p] = .queued held n →
            ∃ added, t.txq.entries = leftByWithdrawal s [n] ++ added ∧ t.txq.entries.length ≤ max 4 s.txq.entries.length ∧
              (∀ x ∈ added, holds s x.producer = true ∧ x.withdrawn = false ∧ s.txq.nextSeq ≤ x.seq) ∧
              (attempted s n = true → added = []) ∧
              (attempted s n = false → (∃ q, holds s q = true) → (∃ x ∈ s.txq.entries, x.seq = n) →
                s.txq.entries.length ≤ 4 → added ≠ [])) ∧
          ∃ u v, hasLeft s e u ∧
            v = { u with
              clocks := v.clocks, txq := v.txq, lockout := v.lockout, freeCount := v.freeCount
              member := { u.member with heldJoin := v.member.heldJoin } } ∧
            t = dispatched cue.toNat trim e.edge v)

/-- TAKE_CLOCK, Table 6-2: value and epoch are adopted together, a changed epoch clears the fired flags, LOAD and STOP leave
the clock STOPPED, and START sets it RUNNING from the break edge with every decrement already due applied, or EXPIRED. A
changed epoch leaves the clock no own copy, but those that a START's own decrements offer in the new epoch, and an epoch that
stays keeps every copy that names it; every queued frame stays, withdrawn or not, ahead of the copies so offered. No other
clock changes. A frame with another clock, another op or an epoch behind the held one changes no clock. -/
def Obligations.ClockFrameSetsRecord : Prop :=
  ∀ (e : RxEntry) (clk op epoch : Byte) (value : Triple) (s : State), standsAtHead s e (.clock clk op epoch value) →
    (3 < clk.toNat ∨ (op ≠ 1 ∧ op ≠ 2 ∧ op ≠ 3) →
      ∃ t, exec .takeClock s = .next t ∧ t.clocks = s.clocks ∧ t.txq = s.txq ∧ keepsAudio s t ∧ t.panel = s.panel) ∧
    ∀ c : Fin 4, clk.toNat = c.val →
      ((clockOf s c).state ≠ .unset →
        (0 < ((clockOf s c).epoch - epoch).toNat ∧ ((clockOf s c).epoch - epoch).toNat < 128) →
        ∃ t, exec .takeClock s = .next t ∧ t.clocks = s.clocks ∧ t.txq = s.txq) ∧
      ((clockOf s c).state = .unset ∨
          ¬ (0 < ((clockOf s c).epoch - epoch).toNat ∧ ((clockOf s c).epoch - epoch).toNat < 128) →
        ∃ t, exec .takeClock s = .next t ∧
          (op = 1 ∨ op = 2 ∨ op = 3 → (clockOf t c).epoch = epoch ∧
            (∀ p : Fin 4, (clockOf t c).fired[p] = (if epoch = (clockOf s c).epoch then (clockOf s c).fired[p] else false))) ∧
          (op = 1 ∨ op = 3 → (clockOf t c).state = .stopped ∧ (clockOf t c).value = value ∧ (clockOf t c).phase = none) ∧
          (op = 2 → value = 0 → (clockOf t c).state = .expired ∧ (clockOf t c).value = 0 ∧ (clockOf t c).phase = none) ∧
          (op = 2 → value ≠ 0 → (s.stationClock - e.edge).toNat < 2147483648 →
            let due := (s.stationClock - e.edge).toNat / 10000
            (due < value.toNat → (clockOf t c).state = .running ∧ (clockOf t c).value.toNat = value.toNat - due ∧
              (clockOf t c).phase = some (e.edge + BitVec.ofNat 32 (10000 * (due + 1)))) ∧
            (value.toNat ≤ due →
              (clockOf t c).state = .expired ∧ (clockOf t c).value = 0 ∧ (clockOf t c).phase = none)) ∧
          (op = 1 ∨ op = 3 ∨ (op = 2 ∧ (value = 0 ∨ (s.stationClock - e.edge).toNat < 10000)) →
            t.txq = s.txq ∧
            ∀ p : Fin 4, (clockOf t c).copies[p] = (if epoch = (clockOf s c).epoch then (clockOf s c).copies[p] else .absent)) ∧
          (op = 1 ∨ op = 2 ∨ op = 3 → epoch ≠ (clockOf s c).epoch →
            ∀ p : Fin 4, (clockOf t c).copies[p] = .absent ∨ (clockOf t c).copies[p].current epoch = true) ∧
          (∀ p : Fin 4, epoch = (clockOf s c).epoch → (clockOf s c).copies[p].current epoch = true →
            (clockOf t c).copies[p] = (clockOf s c).copies[p]) ∧
          (∃ added, t.txq.entries = s.txq.entries ++ added ∧
            ∀ x ∈ added, x.producer = .clockUnit ∧ x.withdrawn = false ∧ s.txq.nextSeq ≤ x.seq) ∧
          (∀ d : Fin 4, d ≠ c → clockOf t d = clockOf s d) ∧ keepsAudio s t ∧ t.panel = s.panel)

/-- TAKE_ARM: of a profile of 0 to 7 whose holdoff is below its window, a new round begins from the break edge, with every
expiry already due applied; of a profile of 8 to 255 the record is IDLE with profile 0. Until the new round's own CLOSE is
due, the own CLAIM and CLOSE frames have left the transmit queue, but the one being attempted, which is marked withdrawn;
every other frame stays, and the entries freed go to frames that other producers hold (log entry 8). -/
def Obligations.ArmStartsRound : Prop :=
  ∀ (e : RxEntry) (number profile : Byte) (s : State), standsAtHead s e (.arm number profile) →
    ∃ t, exec .takeArm s = .next t ∧
      t.lockout.round.identity = some (senderOf e.frame, number) ∧ t.lockout.round.reference = e.edge ∧
      t.lockout.round.excluded = [] ∧ t.lockout.round.claims = [] ∧ t.lockout.round.verdict = none ∧
      t.lockout.round.source = .own ∧ t.lockout.round.differed = false ∧
      (∀ i : Fin 8, t.lockout.round.press[i] = .noPress ∧ t.lockout.round.late[i] = 0 ∧
        t.lockout.round.ownClaim[i] = .absent) ∧
      t.lockout.debounce = s.lockout.debounce ∧ t.lockout.roundCounter = s.lockout.roundCounter ∧ keepsAudio s t ∧
      t.panel = s.panel ∧ t.dispatch.lastAccepted = s.dispatch.lastAccepted ∧
      (8 ≤ profile.toNat → t.lockout.round.state = .idle ∧ t.lockout.round.profile = 0 ∧
        t.lockout.round.ownClose = .absent ∧ withdrewRound s t) ∧
      (profile.toNat < 8 → (profileRecord s profile.toNat).holdoff < (profileRecord s profile.toNat).window →
        let p := profileRecord s profile.toNat
        let time := min 16777215 (s.stationClock - e.edge).toNat
        t.lockout.round.profile = profile.toNat ∧
        t.lockout.round.state =
          (if time < p.holdoff * 1000 then .holdoff else if time < p.window * 1000 then .isOpen else .settling) ∧
        (time < (p.window + p.settle) * 1000 → t.lockout.round.ownClose = .absent ∧ withdrewRound s t))

/-- TAKE_CLAIM: a stale claim changes neither the record nor a voice; a valid one that meets the four conditions joins the
end of the list; a first FALSE_START of a pair excludes the pair and removes its entry, and a second changes nothing. The
verdict is computed again while its source is OWN. The false-start cue is dispatched with trim 128, and the break edge and fire
order of the claim. -/
def Obligations.ClaimJoinsListOrExcludes : Prop :=
  ∀ (e : RxEntry) (rs rn input flags : Byte) (capture : Triple) (s : State),
    standsAtHead s e (.claim rs rn input flags capture) →
    let r := s.lockout.round
    let p := profileRecord s r.profile
    let pair := ((senderOf e.frame).toNat, input.toNat)
    ∃ t, exec .takeClaim s = .next t ∧
      (r.state = .idle ∨ r.state = .closed ∨ r.identity ≠ some (rs, rn) ∨ 7 < input.toNat →
        t.lockout = s.lockout ∧ keepsAudio s t ∧ t.panel = s.panel) ∧
      (r.state ≠ .idle → r.state ≠ .closed → r.identity = some (rs, rn) → input.toNat < 8 →
        (flags.getLsbD 0 = false →
          (p.holdoff * 1000 ≤ capture.toNat → capture.toNat ≤ p.window * 1000 → pair ∈ p.eligible → pair ∉ r.excluded →
            (∀ c ∈ r.claims, (c.station, c.input) ≠ pair) →
            t.lockout.round.claims = r.claims ++ [{ station := pair.1, input := pair.2, capture := capture.toNat }] ∧
            (r.source = .own → t.lockout.round.verdict = verdictOf t.lockout.round.claims)) ∧
          (capture.toNat < p.holdoff * 1000 ∨ p.window * 1000 < capture.toNat ∨ pair ∉ p.eligible ∨ pair ∈ r.excluded ∨
            (∃ c ∈ r.claims, (c.station, c.input) = pair) → t.lockout = s.lockout)) ∧
        (flags.getLsbD 0 = true →
          (pair ∈ r.excluded → t.lockout = s.lockout ∧ t.pool = s.pool) ∧
          (pair ∉ r.excluded →
            t.lockout.round.excluded = r.excluded ++ [pair] ∧
            t.lockout.round.claims = r.claims.filter (fun c => (c.station, c.input) != pair) ∧
            (r.source = .own → t.lockout.round.verdict = verdictOf t.lockout.round.claims) ∧
            (∀ cue, p.falseCue = some cue → (knownCue s cue = true → lastAccepted t cue = some e.edge) ∧
              ∃ u, hasLeft s e u ∧ t = { dispatched cue 128 e.edge { u with lockout := { s.lockout with
                round := { r with excluded := r.excluded ++ [pair] } } } with lockout := t.lockout }) ∧
            (p.falseCue = none → t.pool = s.pool ∧ t.dispatch.lastAccepted = s.dispatch.lastAccepted))))

/-- The verdict of a claim list is none when the list is empty, and else the entry of least capture, among those the lower
station, and among those the lower input. -/
def Obligations.VerdictIsLeastCapture : Prop :=
  verdictOf [] = none ∧ ∀ l : List Claim, l ≠ [] → ∃ w, verdictOf l = some w ∧ w ∈ l ∧
    ∀ c ∈ l, w.capture < c.capture ∨ (w.capture = c.capture ∧ (w.station < c.station ∨
      (w.station = c.station ∧ w.input ≤ c.input)))

/-- TAKE_CLOSE: the first CLOSE for a round that runs decides it, with the line's verdict, and the VERDICT report and its copy
follow; VERDICT_DIFFERS is set when it is not the station's own. The cue of the verdict is dispatched with trim 128, and the
break edge and fire order of the CLOSE. The own CLAIM and CLOSE frames leave the transmit queue, but the one being attempted,
which is marked withdrawn; every other frame stays, and the entries freed go to frames that other producers hold (log entry
8). Any other CLOSE changes no record, voice, queued frame or report. -/
def Obligations.CloseDecidesRound : Prop :=
  ∀ (e : RxEntry) (rs rn ws wi : Byte) (capture : Triple) (s : State),
    standsAtHead s e (.close rs rn ws wi capture) →
    let r := s.lockout.round
    let w : Option Claim :=
      if ws = 255 then none else some { station := ws.toNat, input := wi.toNat, capture := capture.toNat }
    ∃ t, exec .takeClose s = .next t ∧
      (r.state = .idle ∨ r.state = .closed ∨ r.identity ≠ some (rs, rn) →
        t.lockout = s.lockout ∧ keepsAudio s t ∧ t.panel = s.panel ∧ t.txq = s.txq) ∧
      (r.state ≠ .idle → r.state ≠ .closed → r.identity = some (rs, rn) →
        t.lockout.round.state = .closed ∧ t.lockout.round.verdict = w ∧ t.lockout.round.source = .line ∧
        t.lockout.round.differed = decide (w ≠ r.verdict) ∧ t.lockout.round.claims = r.claims ∧
        t.lockout.round.excluded = r.excluded ∧ t.lockout.round.ownClose = .absent ∧
        (∀ i : Fin 8, t.lockout.round.ownClaim[i] = .absent) ∧
        withdrewRound s t ∧
        t.panel.verdictPending = true ∧
        t.panel.lastVerdict = some { station := rs, number := rn, verdict := w, differed := decide (w ≠ r.verdict) } ∧
        (w ≠ r.verdict → t.panel.faultSet .verdictDiffers = true) ∧
        t.panel.outcomes = s.panel.outcomes ∧
        (let verdictCue : Option Nat := match w with
            | some c => if c.station < 32 ∧ c.input < 8 then s.tables.inputMap.getD (c.station * 8 + c.input) none else none
            | none => (profileRecord s r.profile).noClaimCue
         (verdictCue = none → t.pool = s.pool ∧ t.fetch = s.fetch ∧ t.dispatch.lastAccepted = s.dispatch.lastAccepted) ∧
          ∀ cue, verdictCue = some cue → (knownCue s cue = true → lastAccepted t cue = some e.edge) ∧
            ∃ u, hasLeft s e u ∧
              (let closed : Round :=
                { r with verdict := w, source := .line, differed := decide (w ≠ r.verdict), state := .closed }
               let v : State := { u with
                 lockout := { s.lockout with round := closed }
                 panel := if w = r.verdict then s.panel else s.panel.raise .verdictDiffers }
               let d := dispatched cue 128 e.edge v
               t.pool = d.pool ∧ t.fetch = d.fetch ∧ t.dispatch = d.dispatch)))

/-- TAKE_JOIN: another station's JOIN records its identity and signature as PRESENT or FOREIGN; the own JOIN changes nothing
more. To a JOIN of REPLY 0 from another station, or of the own number with another identity, an ACTIVE station owes a JOIN of
REPLY 1: placed where there is room, else held, and none while a JOIN waits. A JOIN of the own number with another identity
makes a JOINING station, or with REPLY 1 an ACTIVE one, DUPLICATE: silent on the line, with empty queues, no voice, no own
copy (log entry 28) and no round, nor a hold of its time (log entry 41); a LISTENING station goes on. -/
def Obligations.JoinRecordsPeerOrDuplicate : Prop :=
  ∀ (e : RxEntry) (flags : Byte) (identity signature : Word) (s : State), s.rxq.entries.head? = some e →
    parseFrame e.frame = some (.join flags identity signature) → s.rxq.headSince + 480 ≤ s.now →
    (senderOf e.frame).toNat < 32 →
    (s.member.state = .joining ∨ s.member.state = .active ∨ s.member.state = .listening) →
    ∃ t, exec .takeJoin s = .next t ∧
      let replies : Prop :=
        (s.member.heldJoin = none → txHoldsJoin s = false →
          (s.txq.entries.length < 4 → t.member.heldJoin = none ∧
            t.txq.entries.map TxEntry.frame = s.txq.entries.map TxEntry.frame ++
              [encodeFrame (ownNumber s) (.join 1 s.member.identity s.member.signature)]) ∧
          (4 ≤ s.txq.entries.length → t.member.heldJoin = some true ∧ t.txq = s.txq)) ∧
        (s.member.heldJoin ≠ none ∨ txHoldsJoin s = true → t.member.heldJoin = s.member.heldJoin ∧ t.txq = s.txq)
      (senderOf e.frame ≠ ownNumber s →
        peerOf t (senderOf e.frame) = some
          { state := if signature = s.member.signature then .present else .foreign
            identity := identity, signature := signature, lastHeard := some e.edge } ∧
        t.member.state = s.member.state ∧ t.lockout = s.lockout ∧ t.clocks = s.clocks ∧ keepsAudio s t ∧
        t.panel = s.panel ∧
        (s.member.state = .active → flags.getLsbD 0 = false → replies) ∧
        (s.member.state ≠ .active ∨ flags.getLsbD 0 = true → t.member.heldJoin = s.member.heldJoin ∧ t.txq = s.txq)) ∧
      (senderOf e.frame = ownNumber s → identity = s.member.identity →
        t.member.state = s.member.state ∧ t.txq = s.txq ∧ t.lockout = s.lockout) ∧
      (senderOf e.frame = ownNumber s → identity ≠ s.member.identity →
        (s.member.state = .listening → t.member.state = .listening ∧ t.txq = s.txq) ∧
        (s.member.state = .active → flags.getLsbD 0 = false → t.member.state = .active ∧ t.lockout = s.lockout ∧
          t.clocks = s.clocks ∧ keepsAudio s t ∧ t.panel = s.panel ∧ replies) ∧
        ((s.member.state = .joining ∨ (s.member.state = .active ∧ flags.getLsbD 0 = true)) →
          t.member.state = .duplicate ∧ t.panel.faultSet .duplicateStation = true ∧ t.line.rx = .off ∧
          t.line.driver = .released ∧ t.line.attempt = none ∧ t.rxq.entries = [] ∧ t.txq.entries = [] ∧
          t.member.heldJoin = none ∧ t.pool.stack = [] ∧ (∀ i : Fin 16, (voiceOf t i).state = .idle) ∧
          t.lockout.round = Round.reset ∧
          ∀ c : Fin 4, (clockOf t c).state = (if (clockOf s c).state = .running then .stopped else (clockOf s c).state) ∧
            (clockOf t c).phase = none ∧ (clockOf t c).value = (clockOf s c).value ∧
            (clockOf t c).epoch = (clockOf s c).epoch ∧ (clockOf t c).fired = (clockOf s c).fired ∧
            ∀ p : Fin 4, (clockOf t c).copies[p] = .absent))

/-! ## The frame clock, the fetch unit and the word clock -/

/-- FRAME_CLOCK by the internal timer: each output presents its former sum and forms the saturated total of the voices that
feed it, each by its frame, or silence, times the whole part of its gain, over 128; a consuming voice that goes on within its
step moves one frame, one at the end of its step moves to the next step of its walk or ends, in the order of R31, on the TAIL
path in that of R35; a voice that consumes nothing stands; UNDERRUN is set when a frame is missing. Where no voice ends, a move
to a step of another effective target starts a glide of 240 frames, and the glide of a voice released while PRIMING starts at
its first frame (log entry 16). -/
def Obligations.FrameClockMixesAndSteps : Prop :=
  (∀ s : State, s.wclk.mode ≠ .locked → 5000 ≤ s.now - s.wclk.reference →
    ∃ t, exec .frameClock s = .next t ∧ t.wclk = { s.wclk with reference := s.now } ∧
      (∀ o : Fin 4, t.outputs[o].zone = s.outputs[o].zone ∧ t.outputs[o].presented = s.outputs[o].sum ∧
        t.outputs[o].sum = max (-32768) (min 32767 (outputTotal s s.outputs[o].zone)) ∧
        (t.outputs[o].clip = true ↔ s.outputs[o].clip = true ∨ outputTotal s s.outputs[o].zone < -32768 ∨
          32767 < outputTotal s s.outputs[o].zone)) ∧
      ((∃ o : Fin 4, outputTotal s s.outputs[o].zone < -32768 ∨ 32767 < outputTotal s s.outputs[o].zone) →
        t.panel.faultSet .clip = true) ∧
      (∀ i : Fin 16, (voiceOf s i).consumes = true → (consumeFrame s (voiceOf s i)).fadeOver = false →
        (voiceOf s i).pos + 1 < (stepRecord s (voiceCue s i) (voiceOf s i).step).length →
        (voiceOf t i).pos = (voiceOf s i).pos + 1 ∧ (voiceOf t i).playCount = (voiceOf s i).playCount + 1 ∧
          (voiceOf t i).step = (voiceOf s i).step ∧ (voiceOf t i).state = (voiceOf s i).state) ∧
      (∀ i : Fin 16, (voiceOf s i).consumes = true → (consumeFrame s (voiceOf s i)).fadeOver = false →
        (stepRecord s (voiceCue s i) (voiceOf s i).step).length ≤ (voiceOf s i).pos + 1 →
        match nextStep (voiceCue s i) (decide ((voiceOf s i).path = .tail)) (voiceOf s i).step (voiceOf s i).passes with
        | none => (voiceOf t i).state = .idle ∨ (voiceOf t i).state = .resuming
        | some (step, passes) => (voiceOf t i).step = step ∧ (voiceOf t i).passes = passes ∧ (voiceOf t i).pos = 0 ∧
          (voiceOf t i).playCount = (voiceOf s i).playCount + 1 ∧ (voiceOf t i).state = (voiceOf s i).state) ∧
      ((∀ j : Fin 16, j ∉ endingSlots s) → ∀ i : Fin 16, (voiceOf s i).consumes = true →
        let w := advanceRamp (startTailGlide s (voiceOf s i))
        let target := effectiveTarget s { w with step := (voiceOf t i).step }
        let moved := (stepRecord s (voiceCue s i) (voiceOf s i).step).length ≤ (voiceOf s i).pos + 1
        (¬ moved ∨ (voiceOf s i).path = .fade ∨ target = w.gainTarget →
          (voiceOf t i).gainNow = w.gainNow ∧ (voiceOf t i).gainTarget = w.gainTarget ∧
            (voiceOf t i).rampLeft = w.rampLeft ∧ (voiceOf t i).rampIncrement = w.rampIncrement) ∧
        (moved → (voiceOf s i).path ≠ .fade → target ≠ w.gainTarget →
          (voiceOf t i).gainNow = w.gainNow ∧ (voiceOf t i).gainTarget = target ∧ (voiceOf t i).rampLeft = 240 ∧
            (voiceOf t i).rampIncrement = ((target : Int) * 65536 - w.gainNow).tdiv 240)) ∧
      (∀ i : Fin 16, (voiceOf s i).consumes = false →
        (voiceOf t i).pos = (voiceOf s i).pos ∧ (voiceOf t i).state = (voiceOf s i).state) ∧
      ((∃ i : Fin 16, (voiceOf s i).consumes = true ∧ (voiceOf s i).frame = none) →
        t.panel.faultSet .underrun = true) ∧
      keepsFixed s t ∧ t.line = s.line ∧ t.rxq = s.rxq ∧ t.txq = s.txq ∧ t.member = s.member ∧ t.dispatch = s.dispatch ∧
      t.lockout = s.lockout ∧ t.clocks = s.clocks ∧ keepsPanelButFaults s t) ∧
  (∀ (zone : Byte) (s : State), outputTotal s zone = (slots.map fun i =>
    if (voiceOf s i).consumes = true ∧ zone.toNat < 8 ∧ (voiceCue s i).zoneMask.getLsbD zone.toNat = true then
      (match (voiceOf s i).frame with
      | some x => (x.toInt * ((voiceOf s i).gainNow / 65536 : Nat)).tdiv 128
      | none => 0)
    else 0).sum) ∧
  (∀ (c : CueRecord) (step passes : Nat),
    nextStep c false step passes =
      (if step = c.loopLast then
        if passes = 255 then some (c.loopFirst, 255)
        else if passes ≠ 0 then some (c.loopFirst, passes - 1)
        else if c.loopLast + 1 < c.stepCount then some (c.loopLast + 1, 0)
        else none
       else if step + 1 < c.stepCount then some (step + 1, passes) else none) ∧
    nextStep c true step passes =
      (if c.loopLast < step then if step + 1 < c.stepCount then some (step + 1, passes) else none
       else if c.loopLast + 1 < c.stepCount then some (c.loopLast + 1, passes) else none)) ∧
  ∀ (v : Voice) (s : State),
    (v.tailGlide = false → startTailGlide s v = v) ∧
    (v.tailGlide = true → effectiveTarget s v = v.gainTarget → startTailGlide s v = { v with tailGlide := false }) ∧
    (v.tailGlide = true → effectiveTarget s v ≠ v.gainTarget → startTailGlide s v = { v with
      tailGlide := false, gainTarget := effectiveTarget s v, rampLeft := 240
      rampIncrement := ((effectiveTarget s v : Int) * 65536 - v.gainNow).tdiv 240 })

/-- RAMP_END: at the frame clock that is the last of a ramp, gain now is the target exactly, where the voice goes on within its
step and no voice ends. FADE_END: at the frame clock at which a fade reaches its end its voice is IDLE, its gain 0 and its
buffers empty, where no entry waits on the suspend stack. Each is the frame clock itself (log entry 3). A row brought while its
event does not happen does nothing (log entry 2). -/
def Obligations.RampAndFadeEnd : Prop :=
  ∀ (i : Fin 16) (s : State), s.wclk.mode ≠ .locked → 5000 ≤ s.now - s.wclk.reference →
    (voiceOf s i).consumes = true →
    let v := voiceOf s i
    let left := (startTailGlide s v).rampLeft
    (left = 1 → exec (.rampEnd i) s = exec .frameClock s ∧
      ((∀ j : Fin 16, j ∉ endingSlots s) → v.pos + 1 < (stepRecord s (voiceCue s i) v.step).length →
        ∃ t, exec (.rampEnd i) s = .next t ∧ (voiceOf t i).gainNow = v.gainTarget * 65536 ∧
          (voiceOf t i).rampLeft = 0 ∧ (voiceOf t i).pos = v.pos + 1)) ∧
    (left ≠ 1 → exec (.rampEnd i) s = .next s) ∧
    (v.path = .fade → left ≤ 1 → exec (.fadeEnd i) s = exec .frameClock s ∧
      (s.pool.stack = [] →
        ∃ t, exec (.fadeEnd i) s = .next t ∧ (voiceOf t i).state = .idle ∧ (voiceOf t i).gainNow = 0 ∧
          (voiceOf t i).unplayed = 0 ∧ (voiceOf t i).cursor = none ∧ (voiceOf t i).cue = v.cue)) ∧
    (v.path ≠ .fade ∨ 1 < left → exec (.fadeEnd i) s = .next s)

/-- WORD_CLOCK_EDGE: not observed in INTERNAL; in LOCKED ignored before 0.5 T and a frame clock up to 1.25 T; in LOST a good
period raises the recovery count and a bad one clears it, and the 480th (WCLK_RELOCK) makes the monitor LOCKED.
SUBSTITUTE_FRAME_CLOCK in LOCKED from 1.25 T on: a frame clock that raises the miss count; the fourth in a row (WCLK_LOST)
leaves the monitor LOST with both counts 0 and sets WCLK_LOST. The rows WCLK_RELOCK and WCLK_LOST name the edge and the
substitute themselves and answer the same state (log entry 3). -/
def Obligations.WordClockEdgesAndSubstitutes : Prop :=
  ∀ s : State,
    (s.wclk.mode = .intern → exec .wordClockEdge s = .next s) ∧
    (s.wclk.mode = .locked → s.now - s.wclk.reference < 2500 →
      exec .wordClockEdge s = .next { s with wclk := { s.wclk with lastEdge := some s.now } }) ∧
    (s.wclk.mode = .locked → 2500 ≤ s.now - s.wclk.reference → s.now - s.wclk.reference ≤ 6250 →
      ∃ t, exec .wordClockEdge s = .next t ∧ t.wclk.reference = s.now ∧ t.wclk.miss = 0 ∧ t.wclk.mode = .locked ∧
        ∀ o : Fin 4, t.outputs[o].presented = s.outputs[o].sum) ∧
    (s.wclk.mode = .lost → s.wclk.lastEdge = none → s.wclk.recovery < 480 →
      exec .wordClockEdge s = .next { s with wclk := { s.wclk with lastEdge := some s.now } }) ∧
    (∀ e, s.wclk.mode = .lost → s.wclk.lastEdge = some e → ¬ (4750 ≤ s.now - e ∧ s.now - e ≤ 5250) →
      exec .wordClockEdge s = .next { s with wclk := { s.wclk with recovery := 0, lastEdge := some s.now } }) ∧
    (∀ e, s.wclk.mode = .lost → s.wclk.lastEdge = some e → 4750 ≤ s.now - e → s.now - e ≤ 5250 →
      (s.wclk.recovery < 479 → exec .wordClockEdge s = .next { s with wclk := { s.wclk with
        recovery := s.wclk.recovery + 1, lastEdge := some s.now } }) ∧
      (s.wclk.recovery = 479 → ∃ t, exec .wclkRelock s = .next t ∧ exec .wordClockEdge s = .next t ∧
        t.wclk.mode = .locked ∧ t.wclk.miss = 0 ∧ t.wclk.recovery = 0 ∧ t.wclk.reference = s.now ∧
        t.panel.faultSet .wclkLost = s.panel.faultSet .wclkLost ∧
        (s.now - s.wclk.reference < 2500 → t.outputs = s.outputs ∧ t.pool = s.pool) ∧
        (2500 ≤ s.now - s.wclk.reference → ∀ o : Fin 4, t.outputs[o].presented = s.outputs[o].sum))) ∧
    (s.wclk.mode = .locked → 6250 ≤ s.now - s.wclk.reference →
      (s.wclk.miss < 3 → ∃ t, exec .substituteFrameClock s = .next t ∧ t.wclk.mode = .locked ∧
        t.wclk.miss = s.wclk.miss + 1 ∧ t.wclk.reference = s.now ∧
        ∀ o : Fin 4, t.outputs[o].presented = s.outputs[o].sum) ∧
      (s.wclk.miss = 3 → ∃ t, exec .wclkLost s = .next t ∧ exec .substituteFrameClock s = .next t ∧ t.wclk.mode = .lost ∧
        t.wclk.miss = 0 ∧ t.wclk.recovery = 0 ∧ t.wclk.reference = s.now ∧ t.panel.faultSet .wclkLost = true ∧
        ∀ o : Fin 4, t.outputs[o].presented = s.outputs[o].sum))

/-- BLOCK_COMPLETION enters the block by the three cases of R57, and a PRIMING or RESUMING voice whose play position it holds
becomes PLAYING. DISCARDED_COMPLETION changes no buffer, state or flag of any voice. Then each voice in slot order places a
request where it is not IDLE, owns none, has an empty buffer and frames left at its cursor: for up to 256 frames of its walk
from the cursor, or from the play position where the cursor is behind it, the cursor being none once it has passed the end of
the walk (the model's choice, log entry 45); and an idle arbiter grants the request that ranks first by the four keys of Table
3-1. A read is one transfer after another: with chip select low the part sends 0x03 and the three characters of the segment's
address and clocks in its bytes, 48 ticks a character, and chip select is high for 48 ticks between two; its samples are the
bytes clocked in, two to a sample. With no read in flight chip select is high, which of a state in LOADING, where the Image
Loader has the port, is the model's choice (log entry 42). -/
def Obligations.CompletionEntersOrDiscards : Prop :=
  (∀ (f : Flight) (s : State), s.fetch.flight = some f → f.doneAt ≤ s.now →
    (f.owned = true →
      let i := f.request.slot
      let v := voiceOf s i
      let frames := blockSamples s f.request.segments
      let skipped := (v.playCount - f.request.first).toNat
      ∃ t, exec .blockCompletion s = .next t ∧
        (let b := if f.request.second then (voiceOf t i).buffer1 else (voiceOf t i).buffer0
         let other := if f.request.second then (voiceOf t i).buffer0 else (voiceOf t i).buffer1
         other = (if f.request.second then v.buffer0 else v.buffer1) ∧
         (skipped = 0 ∨ 2147483648 ≤ skipped → b.first = f.request.first ∧ b.frames = frames) ∧
         (0 < skipped → skipped < 2147483648 → skipped < frames.length →
           b.first = v.playCount ∧ b.frames = frames.drop skipped) ∧
         (0 < skipped → skipped < 2147483648 → frames.length ≤ skipped → b.frames = [])) ∧
        (skipped < frames.length → (v.state = .priming ∨ v.state = .resuming) → v.primed = false →
          (voiceOf t i).state = .playing ∧ (voiceOf t i).primed = true) ∧
        (skipped < frames.length → v.state = .releasing → (voiceOf t i).state = .releasing ∧ (voiceOf t i).primed = true) ∧
        t.outputs = s.outputs ∧ t.panel = s.panel ∧ t.line = s.line ∧ t.txq = s.txq ∧ t.lockout = s.lockout ∧
        t.clocks = s.clocks ∧ keepsFixed s t) ∧
    (f.owned = false →
      ∃ t, exec .discardedCompletion s = .next t ∧
        (∀ i : Fin 16, (voiceOf t i).state = (voiceOf s i).state ∧ (voiceOf t i).primed = (voiceOf s i).primed ∧
          (voiceOf t i).buffer0 = (voiceOf s i).buffer0 ∧ (voiceOf t i).buffer1 = (voiceOf s i).buffer1 ∧
          (voiceOf t i).playCount = (voiceOf s i).playCount) ∧
        t.outputs = s.outputs ∧ t.panel = s.panel ∧ t.line = s.line ∧ t.txq = s.txq ∧ t.lockout = s.lockout ∧
        t.clocks = s.clocks ∧ keepsFixed s t)) ∧
  (∀ s : State, fetchSettle s = grant (slots.foldl (fun t i => placeRequest i t) s)) ∧
  (∀ (s : State) (c : CueRecord) (tail : Bool) (cur : Cursor),
    segmentWalk (walkBlock s c tail 256 256 cur).1 = walkFrames s c tail 256 cur) ∧
  (∀ (i : Fin 16) (s : State),
    let v := voiceOf s i
    let owns := (∃ r ∈ s.fetch.requests, r.slot = i) ∨
      ∃ f, s.fetch.flight = some f ∧ f.owned = true ∧ f.request.slot = i
    (v.state = .idle ∨ owns ∨ (v.buffer0.frames ≠ [] ∧ v.buffer1.frames ≠ []) ∨ v.cursor = none →
      placeRequest i s = s) ∧
    ∀ cur, v.state ≠ .idle → ¬ owns → (v.buffer0.frames = [] ∨ v.buffer1.frames = []) → v.cursor = some cur →
      let late := behind v.cursorCount v.playCount
      let start := if late then v.playCount else v.cursorCount
      let at_ : Cursor := if late then { step := v.step, pos := v.pos, passes := v.passes } else cur
      let block := walkBlock s (voiceCue s i) (decide (v.path = .tail)) 256 256 at_
      let n := segmentFrames block.1
      let moved : Voice := { v with cursor := block.2, cursorCount := start + BitVec.ofNat 32 n }
      let request : Request :=
        { slot := i, second := decide (v.buffer0.frames ≠ []), first := start, length := n, segments := block.1
          seq := s.fetch.nextSeq }
      n ≤ 256 ∧ (0 < n →
        placeRequest i s = { s with
          pool := { s.pool with voices := s.pool.voices.set i moved }
          fetch := { s.fetch with requests := s.fetch.requests ++ [request], nextSeq := s.fetch.nextSeq + 1 } })) ∧
  ∀ s : State,
    ((s.fetch.flight ≠ none ∨ s.fetch.requests = []) → grant s = s) ∧
    (s.fetch.flight = none → s.fetch.requests ≠ [] →
      ∃ r ∈ s.fetch.requests, (∀ q ∈ s.fetch.requests, ranksFirst s r q) ∧
        (grant s).fetch.requests = s.fetch.requests.filter (fun q => q.seq != r.seq) ∧
        (grant s).fetch.flight = some
          { request := r, owned := true, doneAt := max s.now s.fetch.portFree + readTicks r.segments } ∧
        (grant s).fetch.portFree = max s.now s.fetch.portFree + readTicks r.segments + 48 ∧
        grant s = { s with fetch := (grant s).fetch }) ∧
    (s.fetch.flight = none → chipSelect s = true ∧ flashSends s = none ∧ flashReturns s = none) ∧
    (∀ l : List Segment, l ≠ [] → readTicks l + 48 = (l.map fun g => (4 + 2 * g.count) * 48 + 48).sum) ∧
    (∀ l : List Segment, blockSamples s l = l.flatMap fun g => samplesOf (transferReturns s g)) ∧
    (∀ b c : Byte, samplesOf [b, c] = [b ++ c]) ∧
    (∀ (b c : Byte) (rest : List Byte), samplesOf (b :: c :: rest) = (b ++ c) :: samplesOf rest) ∧
    ∀ (f : Flight) (earlier later : List Segment) (g : Segment) (k t : Nat), s.fetch.flight = some f →
      f.request.segments = earlier ++ g :: later → t < 48 →
      s.now = f.doneAt - readTicks f.request.segments +
        (earlier.map fun h => (4 + 2 * h.count) * 48 + 48).sum + 48 * k + t →
      let address := (clipRecord s g.clip).address + 2 * g.first
      let sent : List Byte := [0x03, BitVec.ofNat 8 (address / 65536), BitVec.ofNat 8 (address / 256), BitVec.ofNat 8 address]
      (k < 4 + 2 * g.count → chipSelect s = false ∧ flashSends s = sent[k]? ∧
        (k < 4 → flashReturns s = none) ∧
        (4 ≤ k → flashReturns s = (Memory.readRange s.flash address (2 * g.count))[k - 4]?)) ∧
      (k = 4 + 2 * g.count → chipSelect s = true ∧ flashSends s = none ∧ flashReturns s = none)

/-! ## Buzzers, expiries and segment clocks -/

/-- BUZZER_SAMPLE at a station that samples its inputs, where no press is completed: each input's debounce state follows its
sample. Three differing samples in a row change a debounced level, two do not, and three equal first samples set it. -/
def Obligations.BuzzersAreDebounced : Prop :=
  (∀ (levels : Byte) (s : State), (s.member.state = .joining ∨ s.member.state = .active ∨ s.member.state = .listening) →
    s.lockout.sampleDue ≤ s.now →
    (∀ i : Fin 8, ¬ (s.lockout.debounce[i].level = some false ∧ s.lockout.debounce[i].run = 2)) →
    ∃ t, exec (.buzzerSample levels) s = .next t ∧ t = { s with lockout := t.lockout } ∧
      t.lockout.round = s.lockout.round ∧ t.lockout.sampleDue = s.now + 2400 ∧
      ∀ i : Fin 8, t.lockout.debounce[i] = (s.lockout.debounce[i]).sample (sampleActive s levels i) s.stationClock) ∧
  (∀ (d : Debounce) (l : Bool) (x y z : Word), d.level = some l → d.run = 0 →
    ((d.sample (!l) x).sample (!l) y).level = some l ∧
    (((d.sample (!l) x).sample (!l) y).sample (!l) z).level = some (!l) ∧
    (((d.sample (!l) x).sample (!l) y).sample (!l) z).run = 0 ∧
    (((d.sample (!l) x).sample (!l) y).sample (!l) z).runStart = x) ∧
  (∀ (l : Bool) (x y z : Word),
    (((Debounce.reset.sample l x).sample l y).sample l z).level = some l ∧
    ((Debounce.reset.sample l x).sample l y).level = none)

/-- PRESS of the one input whose run a sample completes: at a station that is not ACTIVE it is late; at an ACTIVE one it is
a false start before the holdoff, valid from the holdoff to the window, and offers its CLAIM; anything else is late, the pairs
that Table 5-3 does not name among it (log entry 24). -/
def Obligations.PressIsClassified : Prop :=
  ∀ (i : Fin 8) (levels : Byte) (s : State), s.lockout.sampleDue ≤ s.now → pressedInputs s levels = [i] →
    let r := s.lockout.round
    let p := roundProfile s
    let time := pressTime s s.lockout.debounce[i].runStart
    let mayClaim := (s.straps.stn.toNat, i.val) ∈ p.eligible ∧ r.press[i] = .noPress
    let others := fun t : State => keepsFixed s t ∧ keepsAudio s t ∧ t.line = s.line ∧ t.rxq = s.rxq ∧
      t.member = s.member ∧ t.dispatch = s.dispatch ∧ t.clocks = s.clocks ∧ t.panel = s.panel
    let wasLate := fun t : State => others t ∧ t.lockout.round.late[i] = min 65535 (r.late[i] + 1) ∧
      t.lockout.round.press = r.press ∧ t.txq = s.txq ∧ t.lockout.round.claims = r.claims
    let offered := fun (t : State) (fs : Byte) => others t ∧
      t.lockout.round.late = r.late ∧ t.lockout.round.claims = r.claims ∧
      (s.txq.entries.length < 4 → t.lockout.round.ownClaim[i] = .queued s.txq.nextSeq ∧
        t.txq.entries.map TxEntry.frame = s.txq.entries.map TxEntry.frame ++ [encodeFrame (ownNumber s)
          (.claim r.carried.1 r.carried.2 (BitVec.ofNat 8 i.val) fs (BitVec.ofNat 24 time))]) ∧
      (4 ≤ s.txq.entries.length → t.txq = s.txq ∧ t.lockout.round.ownClaim[i] = .held (decide (fs = 1)) time)
    ((s.member.state = .joining ∨ s.member.state = .listening) →
      ∃ t, exec (.press i levels) s = .next t ∧ wasLate t) ∧
    (s.member.state = .active →
      ((r.state = .holdoff ∨ r.state = .isOpen) → mayClaim → time < p.holdoff * 1000 →
        ∃ t, exec (.press i levels) s = .next t ∧ t.lockout.round.press[i] = .falseStart ∧ offered t 1) ∧
      ((r.state = .isOpen ∨ r.state = .settling) → mayClaim → p.holdoff * 1000 ≤ time → time ≤ p.window * 1000 →
        ∃ t, exec (.press i levels) s = .next t ∧ t.lockout.round.press[i] = .claimed ∧ offered t 0) ∧
      (r.state = .idle ∨ r.state = .closed ∨ ¬ mayClaim ∨ (r.state = .holdoff ∧ p.holdoff * 1000 ≤ time) ∨
          (r.state = .isOpen ∧ p.holdoff * 1000 ≤ time ∧ p.window * 1000 < time) ∨
          (r.state = .settling ∧ (time < p.holdoff * 1000 ∨ p.window * 1000 < time)) →
        ∃ t, exec (.press i levels) s = .next t ∧ wasLate t))

/-- HOLDOFF_EXPIRY, WINDOW_EXPIRY and SETTLE_EXPIRY act when the round time has reached the holdoff, the window and the window
plus the settle, and not before; at the last an ACTIVE station with room offers its CLOSE, once, and a LISTENING one nothing. A
row brought while its event does not happen does nothing (log entry 2). -/
def Obligations.ExpiriesMoveTheRound : Prop :=
  ∀ s : State,
    let r := s.lockout.round
    let p := roundProfile s
    (r.state = .holdoff → p.holdoff * 1000 ≤ roundTime s →
      exec .holdoffExpiry s = .next { s with lockout := { s.lockout with round := { r with state := .isOpen } } }) ∧
    (roundTime s < p.holdoff * 1000 → exec .holdoffExpiry s = .next s) ∧
    (r.state = .isOpen → p.window * 1000 ≤ roundTime s →
      exec .windowExpiry s = .next { s with lockout := { s.lockout with round := { r with state := .settling } } }) ∧
    (roundTime s < p.window * 1000 → exec .windowExpiry s = .next s) ∧
    (r.state = .settling → r.settled = false → (p.window + p.settle) * 1000 ≤ roundTime s →
      (s.member.state = .active → s.txq.entries.length < 4 →
        ∃ t, exec .settleExpiry s = .next t ∧ t.lockout.round.state = .settling ∧ t.lockout.round.settled = true ∧
          t.lockout.round.ownClose = .queued s.txq.nextSeq ∧
          t.txq.entries.map TxEntry.frame = s.txq.entries.map TxEntry.frame ++ [encodeFrame (ownNumber s) (closeFrame r)]) ∧
      (s.member.state = .active → 4 ≤ s.txq.entries.length →
        ∃ t, exec .settleExpiry s = .next t ∧ t.lockout.round.ownClose = .held ∧ t.txq = s.txq) ∧
      (s.member.state ≠ .active →
        exec .settleExpiry s = .next { s with lockout := { s.lockout with round := { r with settled := true } } })) ∧
    (r.state ≠ .holdoff → exec .holdoffExpiry s = .next s) ∧ (r.state ≠ .isOpen → exec .windowExpiry s = .next s) ∧
    (r.state ≠ .settling ∨ r.settled = true ∨ roundTime s < (p.window + p.settle) * 1000 →
      exec .settleExpiry s = .next s)

/-- CLOCK_DECREMENT at a RUNNING clock whose phase has been reached: the value falls by one and the phase moves 10,000 µs
later; the value 0 makes the clock EXPIRED with no phase. CLOCK_EXPIRY is that decrement and answers the same state (log entry
3). A clock that is not RUNNING does not count. A row brought while its event does not happen does nothing (log entry 2). -/
def Obligations.ClockCountsDown : Prop :=
  ∀ (c : Fin 4) (s : State),
    ((clockOf s c).state ≠ .running → exec (.clockDecrement c) s = .next s) ∧
    ∀ phase : Word, (clockOf s c).state = .running → (clockOf s c).phase = some phase →
      (2147483648 ≤ (s.stationClock - phase).toNat → exec (.clockDecrement c) s = .next s) ∧
      ((s.stationClock - phase).toNat < 2147483648 → (clockOf s c).value ≠ 0 →
        (∃ t, exec (.clockDecrement c) s = .next t ∧ (∀ d : Fin 4, d ≠ c → clockOf t d = clockOf s d) ∧ keepsFixed s t ∧
          keepsAudio s t ∧ t.line = s.line ∧ t.rxq = s.rxq ∧ t.member = s.member ∧ t.dispatch = s.dispatch ∧
          t.lockout = s.lockout ∧ t.panel = s.panel) ∧
        (1 < (clockOf s c).value.toNat → ∃ t, exec (.clockDecrement c) s = .next t ∧ (clockOf t c).state = .running ∧
          (clockOf t c).value = (clockOf s c).value - 1 ∧ (clockOf t c).phase = some (phase + 10000) ∧
          (clockOf t c).epoch = (clockOf s c).epoch ∧ (clockOf t c).fired = (clockOf s c).fired) ∧
        ((clockOf s c).value = 1 → ∃ t, exec (.clockExpiry c) s = .next t ∧ exec (.clockDecrement c) s = .next t ∧
          (clockOf t c).state = .expired ∧ (clockOf t c).value = 0 ∧ (clockOf t c).phase = none ∧
          (clockOf t c).epoch = (clockOf s c).epoch ∧ (clockOf t c).fired = (clockOf s c).fired))

/-- The decrement that brings a clock to the value of its one enabled point there: an ACTIVE station with room and no own
copy places a clock-origin FIRE with the point's cue, its tag and trim 128; a LISTENING station, or one whose fired flag is
set, offers nothing. -/
def Obligations.CompareMatchOffersFire : Prop :=
  ∀ (c p : Fin 4) (phase : Word) (s : State), (clockOf s c).state = .running → (clockOf s c).phase = some phase →
    (s.stationClock - phase).toNat < 2147483648 → (clockOf s c).value ≠ 0 →
    (comparePoint s c p).enabled = true → (comparePoint s c p).value = (clockOf s c).value - 1 →
    (∀ q : Fin 4, q ≠ p → (comparePoint s c q).enabled = false) →
    (s.member.state = .active → (clockOf s c).fired[p] = false → (clockOf s c).copies[p] = .absent →
      s.txq.entries.length < 4 →
      ∃ t, exec (.clockDecrement c) s = .next t ∧
        (clockOf t c).copies[p] = .queued (clockOf s c).epoch s.txq.nextSeq ∧
        t.txq.entries.map TxEntry.frame = s.txq.entries.map TxEntry.frame ++ [encodeFrame (ownNumber s)
          (.fire (comparePoint s c p).cue 2 (BitVec.ofNat 8 (c.val * 16 + p.val) ++ (clockOf s c).epoch) 128)] ∧
        (clockOf t c).fired = (clockOf s c).fired) ∧
    (s.member.state ≠ .active ∨ (clockOf s c).fired[p] = true →
      ∃ t, exec (.clockDecrement c) s = .next t ∧ t.txq = s.txq ∧ (clockOf t c).copies = (clockOf s c).copies)

/-! ## The Panel Port -/

/-- FIRE, RELEASE, HUSH, ARM and CLOCK at an ACTIVE station with room, each of their tests passed: the frame is placed as the
rules form it, the counter of FIRE and of ARM is raised, and the answer is QUEUED with its data. A command comes as any frame
that completes it. -/
def Obligations.LineCommandsQueueFrames : Prop :=
  ∀ s : State, panelReady s → s.member.state = .active → s.txq.entries.length < 4 →
    let placed := fun (t : State) (p : Producer) (f : LineFrame) => t.txq.entries = s.txq.entries ++
      [{ frame := encodeFrame (ownNumber s) f, producer := p, cls := f.kind.cls, seq := s.txq.nextSeq, fails := 0,
         withdrawn := false, placedAt := s.now }] ∧
      t = { s with txq := t.txq, panel := t.panel, lockout := t.lockout } ∧ (p ≠ .lockoutUnit → t.lockout = s.lockout)
    (∀ (cue : BitVec 16) (trim : Byte) (frame : List RawChar), judgeCommand frame = some (.fire cue trim) →
      knownCue s cue.toNat = true → txHoldsFire s cue = false →
      (∀ w, lastAccepted s cue.toNat = some w →
        (cueRecord s cue.toNat).refire * 1000 ≤ (s.stationClock - w).toNat) →
      ∃ t, exec (.fire frame) s = .next t ∧ placed t .panelPort (.fire cue 1 (s.panel.fireCounter + 1) trim) ∧
        t.panel.fireCounter = s.panel.fireCounter + 1 ∧
        t.panel.answer = some { kind := 0x02, body := 0 :: bytes2 (s.panel.fireCounter + 1), reload := false }) ∧
    (∀ (cue : BitVec 16) (mode : Byte) (frame : List RawChar), judgeCommand frame = some (.release cue mode) →
      cue.toNat < 1024 → mode.toNat < 3 →
      ∃ t, exec (.release frame) s = .next t ∧ placed t .panelPort (.release cue mode) ∧
        t.panel.answer = some { kind := 0x03, body := [0, 0, 0], reload := false }) ∧
    (∀ (mask : Byte) (frame : List RawChar), judgeCommand frame = some (.hush mask) →
      ∃ t, exec (.hush frame) s = .next t ∧ placed t .panelPort (.hush mask) ∧
      t.panel.answer = some { kind := 0x04, body := [0, 0, 0], reload := false }) ∧
    (∀ (profile : Byte) (frame : List RawChar), judgeCommand frame = some (.arm profile) → profile.toNat < 8 →
      ∃ t, exec (.arm frame) s = .next t ∧ placed t .lockoutUnit (.arm (s.lockout.roundCounter + 1) profile) ∧
        t.lockout = { s.lockout with roundCounter := s.lockout.roundCounter + 1 } ∧
        t.panel.answer = some { kind := 0x05, body := [0, s.lockout.roundCounter + 1], reload := false }) ∧
    (∀ (c : Fin 4) (clk op : Byte) (value : Triple) (frame : List RawChar),
      judgeCommand frame = some (.clock clk op value) → clk.toNat = c.val →
      (op = 1 → ∃ t, exec (.clock frame) s = .next t ∧
        placed t .clockUnit (.clock clk 1 ((clockOf s c).epoch + 1) value) ∧ t.clocks = s.clocks ∧
        t.panel.answer = some { kind := 0x06, body := [0, (clockOf s c).epoch + 1] ++ bytes3 value, reload := false }) ∧
      (op = 2 ∨ op = 3 → (clockOf s c).state ≠ .unset → ∃ t, exec (.clock frame) s = .next t ∧
        placed t .clockUnit (.clock clk op (clockOf s c).epoch (clockOf s c).value) ∧ t.clocks = s.clocks ∧
        t.panel.answer = some
          { kind := 0x06, body := [0, (clockOf s c).epoch] ++ bytes3 (clockOf s c).value, reload := false }))

/-- The refusals of R177, in their order, change nothing but the Panel Port's own answer, and no counter, FIFO, flag or mask:
NOT_ACTIVE, BAD_ARGUMENT, UNKNOWN_CUE, NOT_SET, TOO_SOON, QUEUE_FULL. -/
def Obligations.RefusedCommandsChangeNothing : Prop :=
  ∀ s : State, panelReady s →
    let fired := fun cue trim code => answersOnly s .fire (.fire cue trim) 0x02 [code]
    let released := fun cue mode code => answersOnly s .release (.release cue mode) 0x03 [code]
    let hushed := fun mask code => answersOnly s .hush (.hush mask) 0x04 [code]
    let armed := fun profile code => answersOnly s .arm (.arm profile) 0x05 [code]
    let clocked := fun clk op value code => answersOnly s .clock (.clock clk op value) 0x06 [code]
    (s.member.state ≠ .active → ∀ (cue : BitVec 16) (a b c : Byte) (value : Triple),
      fired cue a 4 ∧ released cue a 4 ∧ hushed a 4 ∧ armed a 4 ∧ clocked b c value 4) ∧
    (s.member.state = .active → ∀ (cue : BitVec 16) (a b c : Byte) (value : Triple),
      (1024 ≤ cue.toNat ∨ 3 ≤ a.toNat → released cue a 3) ∧ (8 ≤ a.toNat → armed a 3) ∧
      (4 ≤ b.toNat ∨ (c ≠ 1 ∧ c ≠ 2 ∧ c ≠ 3) → clocked b c value 3) ∧
      (knownCue s cue.toNat = false → fired cue a 7) ∧
      (∀ k : Fin 4, b.toNat = k.val → (c = 2 ∨ c = 3) → (clockOf s k).state = .unset → clocked b c value 8) ∧
      (knownCue s cue.toNat = true → (txHoldsFire s cue = true ∨ ∃ w, lastAccepted s cue.toNat = some w ∧
          (s.stationClock - w).toNat < (cueRecord s cue.toNat).refire * 1000) → fired cue a 6) ∧
      (4 ≤ s.txq.entries.length → hushed a 5 ∧ (a.toNat < 8 → armed a 5) ∧
        (cue.toNat < 1024 → a.toNat < 3 → released cue a 5) ∧ (b.toNat < 4 → clocked b 1 value 5) ∧
        (∀ k : Fin 4, b.toNat = k.val → (c = 2 ∨ c = 3) → (clockOf s k).state ≠ .unset → clocked b c value 5) ∧
        (knownCue s cue.toNat = true → txHoldsFire s cue = false →
          (∀ w, lastAccepted s cue.toNat = some w →
            (cueRecord s cue.toNat).refire * 1000 ≤ (s.stationClock - w).toNat) → fired cue a 5)))

/-- The read commands answer OK with the record they name, laid out as Tables 12-5 and 12-6 give, and change nothing they read
(READ_VOICE of a voice with a fetch cursor and READ_ROUND of a round; the characters of an absent one are free, log entry 10; a
verdict of none is 255 with input and capture 0, log entry 11). An argument out of range is BAD_ARGUMENT, and LOADING and
IMAGE_FAULT refuse them. -/
def Obligations.ReadsAnswerTheRecord : Prop :=
  (∀ s : State, panelReady s → readsAllowed s →
    (∀ (i : Fin 16) (slot : Byte) (x : Cursor), slot.toNat = i.val → (voiceOf s i).cursor = some x →
      let v := voiceOf s i
      answersOnly s .readVoice (.readVoice slot) 0x10
        ([0, v.state.code, (if v.primed then 1 else 0) + (if v.ducked then 2 else 0) + 4] ++
          bytes2 (BitVec.ofNat 16 v.cue) ++ [BitVec.ofNat 8 v.level] ++ bytes4 v.fireOrder ++
          [v.trim, BitVec.ofNat 8 v.step] ++ bytes3 (BitVec.ofNat 24 v.pos) ++
          [BitVec.ofNat 8 v.passes, v.path.code, BitVec.ofNat 8 (v.gainNow / 65536), BitVec.ofNat 8 v.gainTarget] ++
          bytes4 (BitVec.ofInt 32 v.rampIncrement) ++ bytes3 (BitVec.ofNat 24 v.rampLeft) ++
          bytes2 (BitVec.ofNat 16 v.buffer0.frames.length) ++ bytes2 (BitVec.ofNat 16 v.buffer1.frames.length) ++
          [BitVec.ofNat 8 x.step] ++ bytes3 (BitVec.ofNat 24 x.pos) ++ [BitVec.ofNat 8 x.passes])) ∧
    (∀ index : Byte, index.toNat < 8 → s.pool.stack.length ≤ index.toNat →
      answersOnly s .readStack (.readStack index) 0x11 (0 :: List.replicate 15 0)) ∧
    (∀ (index : Byte) (x : StackEntry), index.toNat < 8 → s.pool.stack[index.toNat]? = some x →
      answersOnly s .readStack (.readStack index) 0x11
        ([0, 1] ++ bytes2 (BitVec.ofNat 16 x.cue) ++ [BitVec.ofNat 8 x.level] ++ bytes4 x.fireOrder ++
          [x.trim, BitVec.ofNat 8 x.step] ++ bytes3 (BitVec.ofNat 24 x.pos) ++
          [BitVec.ofNat 8 x.passes, BitVec.ofNat 8 x.gainTarget])) ∧
    (∀ id, s.lockout.round.identity = some id →
      answersOnly s .readRound .readRound 0x12
        ([0, s.lockout.round.state.code, id.1, id.2, BitVec.ofNat 8 s.lockout.round.profile] ++
          bytes3 (BitVec.ofNat 24 (roundTime s)) ++ [BitVec.ofNat 8 s.lockout.round.claims.length] ++
          bytes2 (BitVec.ofNat 16 s.lockout.round.excluded.length) ++ verdictData s.lockout.round.verdict ++
          [(if s.lockout.round.source = .line then 1 else 0) + (if s.lockout.round.differed then 2 else 0)] ++
          s.lockout.round.press.toList.map PressState.code ++
          s.lockout.round.late.toList.flatMap fun n => bytes2 (BitVec.ofNat 16 n))) ∧
    (∀ index : Byte, index.toNat < 32 → s.lockout.round.claims.length ≤ index.toNat →
      answersOnly s .readClaim (.readClaim index) 0x13 [0, 0, 0, 0, 0, 0, 0]) ∧
    (∀ (index : Byte) (x : Claim), index.toNat < 32 → s.lockout.round.claims[index.toNat]? = some x →
      answersOnly s .readClaim (.readClaim index) 0x13
        ([0, 1, BitVec.ofNat 8 x.station, BitVec.ofNat 8 x.input] ++ bytes3 (BitVec.ofNat 24 x.capture))) ∧
    (∀ (n : Fin 32) (station : Byte), station.toNat = n.val →
      let p := s.member.peers[n]
      answersOnly s .readPeer (.readPeer station) 0x14
        ([0, p.state.code] ++ bytes4 p.identity ++ bytes4 p.signature ++
          (if p.lastHeard = none then [0, 0, 0, 0, 0] else 1 :: bytes4 (p.lastHeard.getD 0)))) ∧
    (∀ (c : Fin 4) (clk : Byte), clk.toNat = c.val →
      let r := clockOf s c
      answersOnly s .readClock (.readClock clk) 0x15
        ([0, r.state.code] ++ bytes3 r.value ++ [r.epoch, (if r.fired[0] then 1 else 0) + (if r.fired[1] then 2 else 0) +
          (if r.fired[2] then 4 else 0) + (if r.fired[3] then 8 else 0)])) ∧
    (∀ (o : Fin 4) (output : Byte), output.toNat = o.val →
      answersOnly s .readOutput (.readOutput output) 0x16 [0, s.outputs[o].zone, if s.outputs[o].clip then 1 else 0]) ∧
    (∀ x : Byte, (16 ≤ x.toNat → answersOnly s .readVoice (.readVoice x) 0x10 [3]) ∧
      (8 ≤ x.toNat → answersOnly s .readStack (.readStack x) 0x11 [3]) ∧ (32 ≤ x.toNat → answersOnly s .readClaim (.readClaim x) 0x13 [3]) ∧
      (32 ≤ x.toNat → answersOnly s .readPeer (.readPeer x) 0x14 [3]) ∧ (4 ≤ x.toNat → answersOnly s .readClock (.readClock x) 0x15 [3]) ∧
      (4 ≤ x.toNat → answersOnly s .readOutput (.readOutput x) 0x16 [3]))) ∧
  ∀ (s : State) (x : Byte), panelReady s → ¬ readsAllowed s → answersOnly s .readVoice (.readVoice x) 0x10 [4] ∧
    answersOnly s .readStack (.readStack x) 0x11 [4] ∧ answersOnly s .readRound .readRound 0x12 [4] ∧ answersOnly s .readClaim (.readClaim x) 0x13 [4] ∧
    answersOnly s .readPeer (.readPeer x) 0x14 [4] ∧ answersOnly s .readClock (.readClock x) 0x15 [4] ∧ answersOnly s .readOutput (.readOutput x) 0x16 [4]

/-- STATUS is accepted in every state, answers OK with the state code and, in IMAGE_FAULT alone, the fault reason, after the
status character, and changes nothing but the Panel Port's receiver, slot and transmitter and the latches that its answer
clears. -/
def Obligations.StatusAnswersStateAndReason : Prop :=
  ∀ s : State, panelReady s →
    let state : Byte := match s.member.state with
      | .loading => 0 | .imageFault => 1 | .joining => 2 | .active => 3 | .listening => 4 | .duplicate => 5
    let reason : Byte := if s.member.state = .imageFault then
      (match s.member.faultReason with
        | .noReason => 0 | .unitBlock => 1 | .header => 2 | .signature => 3 | .limit => 4 | .reference => 5) else 0
    let status : Byte := (if s.panel.resetSeen then 128 else 0) + (if s.panel.faultPending then 64 else 0) +
      (if s.panel.verdictPending then 32 else 0) + (if s.panel.outcomes = [] then 0 else 16) +
      (if s.panel.overrun then 8 else 0) + state
    let answered : PanelPort := { s.panel with
      rx := .hunting, answer := some { kind := 0x01, body := [0, state, reason], reload := false } }
    ∀ frame, judgeCommand frame = some .status →
      (s.panel.tx = .idle → exec (.status frame) s = .next { s with panel := { answered with
        tx := .answering (withCheck 0xA5 [0x01, status, 0, state, reason]), resetSeen := false, overrun := false } }) ∧
      (s.panel.tx ≠ .idle → exec (.status frame) s = .next { s with panel := answered })

/-- READ_FAULTS, in every station state, answers OK with the ten fault flags in their bits, clears none and leaves a pending
FAULT report pending. -/
def Obligations.ReadFaultsClearsNothing : Prop :=
  ∀ (frame : List RawChar) (s : State), panelReady s → judgeCommand frame = some .readFaults →
    ∃ t, exec (.readFaults frame) s = .next t ∧
    t.panel.answer = some { kind := 0x20, body := 0 :: bytes2 s.panel.faults, reload := false } ∧
    (∀ f : FaultFlag, (s.panel.faults.getLsbD f.bit = true ↔ s.panel.faultSet f = true)) ∧
    t.panel.faults = s.panel.faults ∧ t.panel.faultPending = s.panel.faultPending ∧ t = { s with panel := t.panel }

/-- REPORTS replaces the report mask and is answered OK; a mask with another bit is BAD_ARGUMENT, and LOADING and IMAGE_FAULT
refuse it; pending reports are kept; the mask is all enabled after a reset. -/
def Obligations.ReportsReplacesTheMask : Prop :=
  (∀ (mask : Byte) (frame : List RawChar) (s : State), panelReady s → judgeCommand frame = some (.reports mask) →
    (readsAllowed s → mask.toNat < 8 → ∃ t, exec (.reports frame) s = .next t ∧ t.panel.mask = mask.setWidth 3 ∧
      t.panel.answer = some { kind := 0x22, body := [0], reload := false } ∧
      t.panel.faultPending = s.panel.faultPending ∧ t.panel.verdictPending = s.panel.verdictPending ∧
      t.panel.outcomes = s.panel.outcomes ∧ t.panel.faults = s.panel.faults ∧ t = { s with panel := t.panel }) ∧
    (readsAllowed s → 8 ≤ mask.toNat → answersOnly s .reports (.reports mask) 0x22 [3]) ∧
    (¬ readsAllowed s → answersOnly s .reports (.reports mask) 0x22 [4])) ∧
  ∀ (straps : Straps) (s : State), ∃ t, exec (.reset straps) s = .next t ∧ t.panel.mask = 7

/-- CLEAR_FAULTS clears every flag but a LINE_STUCK of a STUCK receiver, a WCLK_LOST of a LOST monitor and a
DUPLICATE_STATION of a DUPLICATE station, clears every CLIP flag, ends a pending FAULT report, and answers with the flags left;
a cleared flag set again makes a report pending. LOADING and IMAGE_FAULT refuse the command. -/
def Obligations.ClearFaultsKeepsWhatStands : Prop :=
  ∀ (frame : List RawChar) (s : State), panelReady s → judgeCommand frame = some .clearFaults →
    (readsAllowed s → ∃ t, exec (.clearFaults frame) s = .next t ∧
      (∀ f : FaultFlag, t.panel.faultSet f = true ↔ s.panel.faultSet f = true ∧
        ((f = .duplicateStation ∧ s.member.state = .duplicate) ∨ (f = .lineStuck ∧ s.line.rx = .stuck) ∨
          (f = .wclkLost ∧ s.wclk.mode = .lost))) ∧
      t.panel.faultPending = false ∧ (∀ o : Fin 4, t.outputs[o] = { s.outputs[o] with clip := false }) ∧
      t.panel.answer = some { kind := 0x21, body := 0 :: bytes2 t.panel.faults, reload := false } ∧
      t = { s with panel := t.panel, outputs := t.outputs } ∧
      ∀ f : FaultFlag, t.panel.faultSet f = false → (setFault f t).panel.faultPending = true) ∧
    (¬ readsAllowed s → answersOnly s .clearFaults .clearFaults 0x21 [4])

/-- PANEL_BREAK begins a command frame, and any command that completes ends it. While the answer slot is empty the command is
acted on and its answer formed; while it is full the command waits in the empty buffer, and is discarded with PANEL_OVERRUN set
where the buffer is full too, also at the moment of an answer's end, where its row comes first (the model's choice, log entry
43). A frame that no break began has no effect (log entry 18), nor one of another row (log entry 2). An idle transmitter sends
a formed answer, whose characters sum to 0xA5 and carry the status character, and clears the two latches. ANSWER_SENT empties
the slot and acts on the command that waits; the answer of a RELOAD, which is answered OK in every state, is followed by the
reset, with the straps sampled again (log entry 30). With nothing buffered it leaves the transmitter idle, also where a report
is pending, which begins by its own row (log entry 19); while no answer is being sent it does nothing (log entry 2). -/
def Obligations.AnswersLeaveInOrder : Prop :=
  (∀ (c : PanelCommand) (frame : List RawChar) (s : State), judgeCommand frame = some c →
    (s.panel.rx = .hunting → exec (commandInstr c frame) s = .next s) ∧
    (s.panel.rx = .assembling →
      (s.panel.answer = none → ∃ t, exec (commandInstr c frame) s = .next t ∧
        actsOn c { s with panel := { s.panel with rx := .hunting } } t) ∧
      (∀ a, s.panel.answer = some a → s.panel.buffer = none →
        exec (commandInstr c frame) s = .next { s with panel := { s.panel with rx := .hunting, buffer := some c } }) ∧
      (∀ a b, s.panel.answer = some a → s.panel.buffer = some b →
        exec (commandInstr c frame) s = .next { s with panel := { s.panel with rx := .hunting, overrun := true } })) ∧
    (∀ d : PanelCommand, d.row ≠ c.row → d.row ≠ .badCommand → exec (commandInstr d frame) s = .next s)) ∧
  (∀ (straps : Straps) (a : Answer) (chars : List Byte) (s : State), s.panel.tx = .answering chars →
    s.panel.answer = some a →
    (a.reload = false → s.panel.buffer = none →
      exec (.answerSent straps) s = .next { s with panel := { s.panel with answer := none, tx := .idle } }) ∧
    (∀ c, a.reload = false → s.panel.buffer = some c → ∃ t, exec (.answerSent straps) s = .next t ∧
      actsOn c { s with panel := { s.panel with answer := none, tx := .idle, buffer := none } } t) ∧
    (a.reload = true → ∃ t, exec (.answerSent straps) s = .next t ∧ exec (.reset straps) s = .next t)) ∧
  (∀ (chars : List Byte) (straps : Straps) (s : State), s.panel.tx = .idle ∨ s.panel.tx = .reporting chars →
    exec (.answerSent straps) s = .next s) ∧
  (∀ (frame : List RawChar) (s : State), judgeCommand frame = some .reload → panelReady s →
    ∃ t, exec (.reload frame) s = .next t ∧
      t.panel.answer = some { kind := 0x30, body := [0], reload := true } ∧ t = { s with panel := t.panel }) ∧
  (∀ l : List Byte, charSum (withCheck 0xA5 l) = 0xA5) ∧
  ∀ s : State, exec .panelBreak s = .next { s with panel := { s.panel with rx := .assembling } }

/-- A report begins when the transmitter is idle and no answer is formed: the first kind, of FAULT, VERDICT and CUE, that is
pending and enabled. FAULT carries the flags, VERDICT the last copy, a verdict of none as 255 with input and capture 0 (log
entry 11), CUE the oldest outcome record, which leaves the FIFO. The status character carries no RESET_SEEN, whose latch stays,
and the PANEL_OVERRUN latch, which is cleared; whether it is formed before or after the report's own kind stops pending is left
free (log entry 8). REPORT_SENT sends the answer that was formed meanwhile, with its own status character, and leaves the
transmitter idle when nothing else waits (log entry 19). The row of a kind that is not the one to send does nothing (log entry
2). -/
def Obligations.ReportsGoInOrder : Prop :=
  (∀ (s : State) (answer : Bool), statusCharacter s answer =
    (if answer = true ∧ s.panel.resetSeen = true then 128 else 0) + (if s.panel.faultPending then 64 else 0) +
      (if s.panel.verdictPending then 32 else 0) + (if s.panel.outcomes = [] then 0 else 16) +
      (if s.panel.overrun then 8 else 0) + s.member.state.code) ∧
  ∀ s : State,
    let begun := fun (t : State) (status : Byte) (ended : PanelPort) (chars : List Byte) =>
      (status = statusCharacter s false ∨ status = statusCharacter { s with panel := ended } false) ∧
        t = { s with freeCount := t.freeCount, panel := { ended with
          tx := .reporting (withCheck 0xA5 chars), overrun := false } }
    (s.panel.tx = .idle → s.panel.answer = none →
      (s.panel.faultPending = true → s.panel.mask.getLsbD 0 = true →
        ∃ t status, exec .reportFault s = .next t ∧
          begun t status { s.panel with faultPending := false } ([0x80, status] ++ bytes2 s.panel.faults) ∧
          exec .reportVerdict s = .next s ∧ exec .reportCue s = .next s) ∧
      (∀ v, (s.panel.faultPending = false ∨ s.panel.mask.getLsbD 0 = false) → s.panel.verdictPending = true →
        s.panel.mask.getLsbD 1 = true → s.panel.lastVerdict = some v →
        ∃ t status, exec .reportVerdict s = .next t ∧
          begun t status { s.panel with verdictPending := false } ([0x81, status, v.station, v.number] ++
            verdictData v.verdict ++ [if v.differed then 1 else 0])) ∧
      (∀ r rest, (s.panel.faultPending = false ∨ s.panel.mask.getLsbD 0 = false) →
        (s.panel.verdictPending = false ∨ s.panel.mask.getLsbD 1 = false) → s.panel.mask.getLsbD 2 = true →
        s.panel.outcomes = r :: rest →
        ∃ t status, exec .reportCue s = .next t ∧
          begun t status { s.panel with outcomes := rest } ([0x82, status] ++ bytes2 r.tag ++ bytes2 r.cue ++
            [r.kind.header, r.outcome.code] ++ bytes4 r.edge))) ∧
    (∀ chars, s.panel.tx = .reporting chars → s.panel.answer = none → s.panel.faultPending = false →
      s.panel.verdictPending = false → s.panel.outcomes = [] →
      exec .reportSent s = .next { s with panel := { s.panel with tx := .idle } }) ∧
    (∀ chars a, s.panel.tx = .reporting chars → s.panel.answer = some a →
      exec .reportSent s = .next { s with panel := { s.panel with
        tx := .answering (withCheck 0xA5 ([a.kind, statusCharacter s true] ++ a.body)), resetSeen := false
        overrun := false } })

/-- BAD_COMMAND: a code without error that names no command is answered with that code alone. BAD_CHECK: a code with an
error, or a whole frame with a character error or a sum that is not 0xA5, likewise; the kind character echoes the data bits
as received. A whole frame without such an error, of a code that names a command, is that command, whose fields are its body
characters, most significant first; brought as BAD_CHECK it does nothing (log entry 2). A brought character all of whose bits
read low is a character with a framing error, and no break (the model's choice, log entry 44). -/
def Obligations.BadFramesAreAnswered : Prop :=
  ∀ s : State, panelReady s →
    let answered := fun (row : Instr) (kind code : Byte) =>
      ∃ t, exec row s = .next t ∧ t = { s with panel := t.panel } ∧ panelAnswers s t kind [code] false
    (∀ code : RawChar, startBitLow code = true → (readPanelChar code).parityError = false →
      (readPanelChar code).framingError = false → commandBody (readPanelChar code).value = none →
      answered (.badCommand code) (readPanelChar code).value 1) ∧
    (∀ code : RawChar, startBitLow code = true →
      ((readPanelChar code).parityError = true ∨ (readPanelChar code).framingError = true) →
      answered (.badCheck [code]) (readPanelChar code).value 2) ∧
    (∀ (code : RawChar) (rest : List RawChar) (n : Nat), (∀ c ∈ code :: rest, startBitLow c = true) →
      (readPanelChar code).parityError = false → (readPanelChar code).framingError = false →
      commandBody (readPanelChar code).value = some n → rest.length = n + 1 →
      ((∃ c ∈ rest, (readPanelChar c).parityError = true ∨ (readPanelChar c).framingError = true) ∨
        charSum ((code :: rest).map fun c => (readPanelChar c).value) ≠ 0xA5 →
        answered (.badCheck (code :: rest)) (readPanelChar code).value 2) ∧
      ((∀ c ∈ rest, (readPanelChar c).parityError = false ∧ (readPanelChar c).framingError = false) →
        charSum ((code :: rest).map fun c => (readPanelChar c).value) = 0xA5 →
        exec (.badCheck (code :: rest)) s = .next s ∧
        ∃ c, judgeCommand (code :: rest) = some c ∧ c.code = (readPanelChar code).value ∧ c.row ≠ .badCommand ∧
          c.row ≠ .badCheck ∧ c.body ++ [(readPanelChar (rest.getLastD code)).value] =
            rest.map fun x => (readPanelChar x).value))

/-! ## Encodings -/

/-- Every line frame, with every value of every field, is read back from its characters; its characters sum to 0x5A and are
as many as its header gives; its header names its kind. Every character sent on the Cue Line, with its start bit low, its stop
bit high and an odd count of highs among data and parity, is found in its 176 samples and read as sent with no error, though at
each bit one of the samples 7, 8 and 9 be disturbed. Every character of the Panel Port, of an even count, is read as sent
likewise, and the frame of every command, as a host sends it, completes that command. -/
def Obligations.LineFramesReadBack : Prop :=
  (∀ (station : Byte) (f : LineFrame), parseFrame (encodeFrame station f) = some f ∧
    charSum (encodeFrame station f) = 0x5A ∧ (encodeFrame station f).length = f.kind.length ∧
    senderOf (encodeFrame station f) = station ∧ kindOf (encodeFrame station f) = some f.kind) ∧
  (∀ v : Byte, (lineBits v).getLsbD 0 = false ∧ (lineBits v).getLsbD 10 = true ∧ oddHighs (lineBits v) = true ∧
    readLineBits (lineBits v) = { value := v, parityError := false, framingError := false }) ∧
  (∀ (v : Byte) (n7 n8 n9 : BitVec 11), n7 &&& n8 = 0 → n7 &&& n9 = 0 → n8 &&& n9 = 0 →
    charactersIn (sampledChar (lineBits v) n7 n8 n9) .hunting =
      (.hunting, [{ value := v, parityError := false, framingError := false }]) ∧
    (let c : RawChar := { s7 := panelBits v ^^^ n7, s8 := panelBits v ^^^ n8, s9 := panelBits v ^^^ n9 }
     startBitLow c = true ∧ readPanelChar c = { value := v, parityError := false, framingError := false })) ∧
  (∀ v : Byte, (panelBits v).getLsbD 0 = false ∧ (panelBits v).getLsbD 10 = true ∧ oddHighs (panelBits v) = false) ∧
  ∀ c : PanelCommand, c.row ≠ .badCommand → c.row ≠ .badCheck → judgeCommand (commandFrame c) = some c ∧
    charSum (commandChars c) = 0xA5

/-! ## What every step keeps -/

/-- State.reset has every invariant that the statements below say each step keeps: the basic invariant, the driver law, the
quiet of LOADING, the duck law, the choke law and the claim law. -/
def Obligations.ResetStateIsBasic : Prop :=
  basicInv State.reset ∧ driverLaw State.reset ∧ loadingQuiet State.reset ∧ duckLaw State.reset ∧ chokeLaw State.reset ∧
    claimsInv State.reset

/-- Every step keeps the basic invariant: the receive queue holds at most 8 entries, the transmit queue at most 4, the suspend
stack and the outcome FIFO at most 8, no block buffer or request more than 256 frames; the flash is canonical (log entry 13),
the station clock counts the µs (log entry 1), and no output leaves the range of a 16-bit sample. -/
def Obligations.StepKeepsBasicInvariant : Prop :=
  ∀ s t : State, basicInv s → step s = .next t → basicInv t

/-- Every step keeps the law that a station that is neither ACTIVE nor JOINING does not drive the line, and that a JOINING one
jams nothing and drives no veto but the one it owes (log entries 7 and 34); a receiver that is OFF, in SYNC or STUCK has no
attempt, no jam and owes no veto. -/
def Obligations.StepKeepsDriverLaw : Prop :=
  ∀ s t : State, driverLaw s → step s = .next t → driverLaw t

/-- Every step keeps two laws together: while LOADING every slot is IDLE, the suspend stack is empty and the claim list is
empty; and each duck count equals the number of voices that contribute to it. -/
def Obligations.StepKeepsDuckLaw : Prop :=
  ∀ s t : State, loadingQuiet s → duckLaw s → step s = .next t → loadingQuiet t ∧ duckLaw t

/-- From a state that is quiet while LOADING (every slot IDLE, suspend stack and claim list empty), every step keeps the law
that at most one context of a nonzero choke group is sounding or suspended. -/
def Obligations.StepKeepsChokeLaw : Prop :=
  ∀ s t : State, loadingQuiet s → chokeLaw s → step s = .next t → chokeLaw t

/-- Every step keeps the law of the claim list: at most one entry for a pair and at most 32 entries, each capture from the
holdoff to the window of the round's profile, no entry for an excluded pair; kept together with what makes it last, that every
entry's pair is eligible, that no profile names more than 32 pairs, and the quiet of LOADING. -/
def Obligations.StepKeepsClaimsLaw : Prop :=
  ∀ s t : State, claimsInv s → step s = .next t → claimsInv t
end

