-- ==== Sys2Proof/Laws/Fetch.lean ====
section
/-!
SUPPORT. Where in a read the flash port stands: what the provers cite about the port instead of unfolding it.
-/
namespace Sys2Proof.Machine

/-- With no read in flight, chip select is high and nothing is sent. -/
theorem flashPort_noRead {s : State} (h : s.fetch.flight = none) : flashPort s = none := by simp [flashPort, h]

/-- A reset abandons the read in flight and raises chip select (R51). -/
@[simp] theorem chipSelect_afterReset (straps : Straps) (flash : List Host.Cell) (n : Nat) (q : List Instr) :
    chipSelect (State.afterReset straps flash n q) = true := rfl

/-- The place within the first transfer of a read. -/
theorem transferAt_first {g : Segment} {rest : List Segment} {k t : Nat} (hk : k < transferChars g) (ht : t < flashCharTicks) :
    transferAt (g :: rest) (flashCharTicks * k + t) = some (g, k) := by
  simp only [flashCharTicks] at ht
  have h1 : 48 * k + t < transferTicks g := by simp only [transferTicks, flashCharTicks]; omega
  have h2 : (48 * k + t) / 48 = k := by omega
  simp [transferAt, flashCharTicks, h1, h2]

/-- Chip select is high after the first transfer of a read. -/
theorem transferAt_gap {g : Segment} {rest : List Segment} {t : Nat} (ht : t < flashCharTicks) :
    transferAt (g :: rest) (transferTicks g + t) = none := by
  simp [transferAt, ht]

/-- After the first transfer and the high that follows it, the rest of the read runs as a read of its own. -/
theorem transferAt_next (g : Segment) (rest : List Segment) (t : Nat) :
    transferAt (g :: rest) (transferTicks g + flashCharTicks + t) = transferAt rest t := by
  have h1 : ¬ transferTicks g + flashCharTicks + t < transferTicks g := by omega
  have h2 : ¬ transferTicks g + flashCharTicks + t < transferTicks g + flashCharTicks := by omega
  rw [transferAt, if_neg h1, if_neg h2]
  congr 1
  omega

/-- The transfers before a place in a read pass one after another. -/
theorem transferAt_append (earlier rest : List Segment) (t : Nat) :
    transferAt (earlier ++ rest) ((earlier.map fun g => transferTicks g + flashCharTicks).sum + t) = transferAt rest t := by
  induction earlier with
  | nil => simp
  | cons g l ih =>
    rw [List.cons_append, List.map_cons, List.sum_cons, Nat.add_assoc, transferAt_next, ih]

end Sys2Proof.Machine
end

