-- ==== Sys2Proof/Laws/State.lean ====
section
/-!
SUPPORT. What the state updates leave as it was: one lemma per field per update, so that no proof unfolds a record
update.
-/
namespace Sys2Proof.Machine

/-! ### withLine -/

@[simp] theorem withLine_straps (f : LineInterface → LineInterface) (s : State) : (withLine f s).straps = s.straps := rfl
@[simp] theorem withLine_stationClock (f : LineInterface → LineInterface) (s : State) : (withLine f s).stationClock = s.stationClock := rfl
@[simp] theorem withLine_now (f : LineInterface → LineInterface) (s : State) : (withLine f s).now = s.now := rfl
@[simp] theorem withLine_rxq (f : LineInterface → LineInterface) (s : State) : (withLine f s).rxq = s.rxq := rfl
@[simp] theorem withLine_txq (f : LineInterface → LineInterface) (s : State) : (withLine f s).txq = s.txq := rfl
@[simp] theorem withLine_member (f : LineInterface → LineInterface) (s : State) : (withLine f s).member = s.member := rfl
@[simp] theorem withLine_tables (f : LineInterface → LineInterface) (s : State) : (withLine f s).tables = s.tables := rfl
@[simp] theorem withLine_flash (f : LineInterface → LineInterface) (s : State) : (withLine f s).flash = s.flash := rfl
@[simp] theorem withLine_dispatch (f : LineInterface → LineInterface) (s : State) : (withLine f s).dispatch = s.dispatch := rfl
@[simp] theorem withLine_pool (f : LineInterface → LineInterface) (s : State) : (withLine f s).pool = s.pool := rfl
@[simp] theorem withLine_fetch (f : LineInterface → LineInterface) (s : State) : (withLine f s).fetch = s.fetch := rfl
@[simp] theorem withLine_outputs (f : LineInterface → LineInterface) (s : State) : (withLine f s).outputs = s.outputs := rfl
@[simp] theorem withLine_wclk (f : LineInterface → LineInterface) (s : State) : (withLine f s).wclk = s.wclk := rfl
@[simp] theorem withLine_lockout (f : LineInterface → LineInterface) (s : State) : (withLine f s).lockout = s.lockout := rfl
@[simp] theorem withLine_clocks (f : LineInterface → LineInterface) (s : State) : (withLine f s).clocks = s.clocks := rfl
@[simp] theorem withLine_panel (f : LineInterface → LineInterface) (s : State) : (withLine f s).panel = s.panel := rfl
@[simp] theorem withLine_freeCount (f : LineInterface → LineInterface) (s : State) : (withLine f s).freeCount = s.freeCount := rfl
@[simp] theorem withLine_pending (f : LineInterface → LineInterface) (s : State) : (withLine f s).pending = s.pending := rfl

/-! ### withRound -/

@[simp] theorem withRound_straps (f : Round → Round) (s : State) : (withRound f s).straps = s.straps := rfl
@[simp] theorem withRound_stationClock (f : Round → Round) (s : State) : (withRound f s).stationClock = s.stationClock := rfl
@[simp] theorem withRound_now (f : Round → Round) (s : State) : (withRound f s).now = s.now := rfl
@[simp] theorem withRound_line (f : Round → Round) (s : State) : (withRound f s).line = s.line := rfl
@[simp] theorem withRound_rxq (f : Round → Round) (s : State) : (withRound f s).rxq = s.rxq := rfl
@[simp] theorem withRound_txq (f : Round → Round) (s : State) : (withRound f s).txq = s.txq := rfl
@[simp] theorem withRound_member (f : Round → Round) (s : State) : (withRound f s).member = s.member := rfl
@[simp] theorem withRound_tables (f : Round → Round) (s : State) : (withRound f s).tables = s.tables := rfl
@[simp] theorem withRound_flash (f : Round → Round) (s : State) : (withRound f s).flash = s.flash := rfl
@[simp] theorem withRound_dispatch (f : Round → Round) (s : State) : (withRound f s).dispatch = s.dispatch := rfl
@[simp] theorem withRound_pool (f : Round → Round) (s : State) : (withRound f s).pool = s.pool := rfl
@[simp] theorem withRound_fetch (f : Round → Round) (s : State) : (withRound f s).fetch = s.fetch := rfl
@[simp] theorem withRound_outputs (f : Round → Round) (s : State) : (withRound f s).outputs = s.outputs := rfl
@[simp] theorem withRound_wclk (f : Round → Round) (s : State) : (withRound f s).wclk = s.wclk := rfl
@[simp] theorem withRound_clocks (f : Round → Round) (s : State) : (withRound f s).clocks = s.clocks := rfl
@[simp] theorem withRound_panel (f : Round → Round) (s : State) : (withRound f s).panel = s.panel := rfl
@[simp] theorem withRound_freeCount (f : Round → Round) (s : State) : (withRound f s).freeCount = s.freeCount := rfl
@[simp] theorem withRound_pending (f : Round → Round) (s : State) : (withRound f s).pending = s.pending := rfl

/-! ### withClock -/

@[simp] theorem withClock_straps (c : Fin 4) (f : ClockRecord → ClockRecord) (s : State) : (withClock c f s).straps = s.straps := rfl
@[simp] theorem withClock_stationClock (c : Fin 4) (f : ClockRecord → ClockRecord) (s : State) : (withClock c f s).stationClock = s.stationClock := rfl
@[simp] theorem withClock_now (c : Fin 4) (f : ClockRecord → ClockRecord) (s : State) : (withClock c f s).now = s.now := rfl
@[simp] theorem withClock_line (c : Fin 4) (f : ClockRecord → ClockRecord) (s : State) : (withClock c f s).line = s.line := rfl
@[simp] theorem withClock_rxq (c : Fin 4) (f : ClockRecord → ClockRecord) (s : State) : (withClock c f s).rxq = s.rxq := rfl
@[simp] theorem withClock_txq (c : Fin 4) (f : ClockRecord → ClockRecord) (s : State) : (withClock c f s).txq = s.txq := rfl
@[simp] theorem withClock_member (c : Fin 4) (f : ClockRecord → ClockRecord) (s : State) : (withClock c f s).member = s.member := rfl
@[simp] theorem withClock_tables (c : Fin 4) (f : ClockRecord → ClockRecord) (s : State) : (withClock c f s).tables = s.tables := rfl
@[simp] theorem withClock_flash (c : Fin 4) (f : ClockRecord → ClockRecord) (s : State) : (withClock c f s).flash = s.flash := rfl
@[simp] theorem withClock_dispatch (c : Fin 4) (f : ClockRecord → ClockRecord) (s : State) : (withClock c f s).dispatch = s.dispatch := rfl
@[simp] theorem withClock_pool (c : Fin 4) (f : ClockRecord → ClockRecord) (s : State) : (withClock c f s).pool = s.pool := rfl
@[simp] theorem withClock_fetch (c : Fin 4) (f : ClockRecord → ClockRecord) (s : State) : (withClock c f s).fetch = s.fetch := rfl
@[simp] theorem withClock_outputs (c : Fin 4) (f : ClockRecord → ClockRecord) (s : State) : (withClock c f s).outputs = s.outputs := rfl
@[simp] theorem withClock_wclk (c : Fin 4) (f : ClockRecord → ClockRecord) (s : State) : (withClock c f s).wclk = s.wclk := rfl
@[simp] theorem withClock_lockout (c : Fin 4) (f : ClockRecord → ClockRecord) (s : State) : (withClock c f s).lockout = s.lockout := rfl
@[simp] theorem withClock_panel (c : Fin 4) (f : ClockRecord → ClockRecord) (s : State) : (withClock c f s).panel = s.panel := rfl
@[simp] theorem withClock_freeCount (c : Fin 4) (f : ClockRecord → ClockRecord) (s : State) : (withClock c f s).freeCount = s.freeCount := rfl
@[simp] theorem withClock_pending (c : Fin 4) (f : ClockRecord → ClockRecord) (s : State) : (withClock c f s).pending = s.pending := rfl

/-! ### withPanel -/

@[simp] theorem withPanel_straps (f : PanelPort → PanelPort) (s : State) : (withPanel f s).straps = s.straps := rfl
@[simp] theorem withPanel_stationClock (f : PanelPort → PanelPort) (s : State) : (withPanel f s).stationClock = s.stationClock := rfl
@[simp] theorem withPanel_now (f : PanelPort → PanelPort) (s : State) : (withPanel f s).now = s.now := rfl
@[simp] theorem withPanel_line (f : PanelPort → PanelPort) (s : State) : (withPanel f s).line = s.line := rfl
@[simp] theorem withPanel_rxq (f : PanelPort → PanelPort) (s : State) : (withPanel f s).rxq = s.rxq := rfl
@[simp] theorem withPanel_txq (f : PanelPort → PanelPort) (s : State) : (withPanel f s).txq = s.txq := rfl
@[simp] theorem withPanel_member (f : PanelPort → PanelPort) (s : State) : (withPanel f s).member = s.member := rfl
@[simp] theorem withPanel_tables (f : PanelPort → PanelPort) (s : State) : (withPanel f s).tables = s.tables := rfl
@[simp] theorem withPanel_flash (f : PanelPort → PanelPort) (s : State) : (withPanel f s).flash = s.flash := rfl
@[simp] theorem withPanel_dispatch (f : PanelPort → PanelPort) (s : State) : (withPanel f s).dispatch = s.dispatch := rfl
@[simp] theorem withPanel_pool (f : PanelPort → PanelPort) (s : State) : (withPanel f s).pool = s.pool := rfl
@[simp] theorem withPanel_fetch (f : PanelPort → PanelPort) (s : State) : (withPanel f s).fetch = s.fetch := rfl
@[simp] theorem withPanel_outputs (f : PanelPort → PanelPort) (s : State) : (withPanel f s).outputs = s.outputs := rfl
@[simp] theorem withPanel_wclk (f : PanelPort → PanelPort) (s : State) : (withPanel f s).wclk = s.wclk := rfl
@[simp] theorem withPanel_lockout (f : PanelPort → PanelPort) (s : State) : (withPanel f s).lockout = s.lockout := rfl
@[simp] theorem withPanel_clocks (f : PanelPort → PanelPort) (s : State) : (withPanel f s).clocks = s.clocks := rfl
@[simp] theorem withPanel_freeCount (f : PanelPort → PanelPort) (s : State) : (withPanel f s).freeCount = s.freeCount := rfl
@[simp] theorem withPanel_pending (f : PanelPort → PanelPort) (s : State) : (withPanel f s).pending = s.pending := rfl

/-! ### withWclk -/

@[simp] theorem withWclk_straps (f : WordClock → WordClock) (s : State) : (withWclk f s).straps = s.straps := rfl
@[simp] theorem withWclk_stationClock (f : WordClock → WordClock) (s : State) : (withWclk f s).stationClock = s.stationClock := rfl
@[simp] theorem withWclk_now (f : WordClock → WordClock) (s : State) : (withWclk f s).now = s.now := rfl
@[simp] theorem withWclk_line (f : WordClock → WordClock) (s : State) : (withWclk f s).line = s.line := rfl
@[simp] theorem withWclk_rxq (f : WordClock → WordClock) (s : State) : (withWclk f s).rxq = s.rxq := rfl
@[simp] theorem withWclk_txq (f : WordClock → WordClock) (s : State) : (withWclk f s).txq = s.txq := rfl
@[simp] theorem withWclk_member (f : WordClock → WordClock) (s : State) : (withWclk f s).member = s.member := rfl
@[simp] theorem withWclk_tables (f : WordClock → WordClock) (s : State) : (withWclk f s).tables = s.tables := rfl
@[simp] theorem withWclk_flash (f : WordClock → WordClock) (s : State) : (withWclk f s).flash = s.flash := rfl
@[simp] theorem withWclk_dispatch (f : WordClock → WordClock) (s : State) : (withWclk f s).dispatch = s.dispatch := rfl
@[simp] theorem withWclk_pool (f : WordClock → WordClock) (s : State) : (withWclk f s).pool = s.pool := rfl
@[simp] theorem withWclk_fetch (f : WordClock → WordClock) (s : State) : (withWclk f s).fetch = s.fetch := rfl
@[simp] theorem withWclk_outputs (f : WordClock → WordClock) (s : State) : (withWclk f s).outputs = s.outputs := rfl
@[simp] theorem withWclk_lockout (f : WordClock → WordClock) (s : State) : (withWclk f s).lockout = s.lockout := rfl
@[simp] theorem withWclk_clocks (f : WordClock → WordClock) (s : State) : (withWclk f s).clocks = s.clocks := rfl
@[simp] theorem withWclk_panel (f : WordClock → WordClock) (s : State) : (withWclk f s).panel = s.panel := rfl
@[simp] theorem withWclk_freeCount (f : WordClock → WordClock) (s : State) : (withWclk f s).freeCount = s.freeCount := rfl
@[simp] theorem withWclk_pending (f : WordClock → WordClock) (s : State) : (withWclk f s).pending = s.pending := rfl

/-! ### setVoice -/

@[simp] theorem setVoice_straps (i : Fin 16) (v : Voice) (s : State) : (setVoice i v s).straps = s.straps := rfl
@[simp] theorem setVoice_stationClock (i : Fin 16) (v : Voice) (s : State) : (setVoice i v s).stationClock = s.stationClock := rfl
@[simp] theorem setVoice_now (i : Fin 16) (v : Voice) (s : State) : (setVoice i v s).now = s.now := rfl
@[simp] theorem setVoice_line (i : Fin 16) (v : Voice) (s : State) : (setVoice i v s).line = s.line := rfl
@[simp] theorem setVoice_rxq (i : Fin 16) (v : Voice) (s : State) : (setVoice i v s).rxq = s.rxq := rfl
@[simp] theorem setVoice_txq (i : Fin 16) (v : Voice) (s : State) : (setVoice i v s).txq = s.txq := rfl
@[simp] theorem setVoice_member (i : Fin 16) (v : Voice) (s : State) : (setVoice i v s).member = s.member := rfl
@[simp] theorem setVoice_tables (i : Fin 16) (v : Voice) (s : State) : (setVoice i v s).tables = s.tables := rfl
@[simp] theorem setVoice_flash (i : Fin 16) (v : Voice) (s : State) : (setVoice i v s).flash = s.flash := rfl
@[simp] theorem setVoice_dispatch (i : Fin 16) (v : Voice) (s : State) : (setVoice i v s).dispatch = s.dispatch := rfl
@[simp] theorem setVoice_fetch (i : Fin 16) (v : Voice) (s : State) : (setVoice i v s).fetch = s.fetch := rfl
@[simp] theorem setVoice_outputs (i : Fin 16) (v : Voice) (s : State) : (setVoice i v s).outputs = s.outputs := rfl
@[simp] theorem setVoice_wclk (i : Fin 16) (v : Voice) (s : State) : (setVoice i v s).wclk = s.wclk := rfl
@[simp] theorem setVoice_lockout (i : Fin 16) (v : Voice) (s : State) : (setVoice i v s).lockout = s.lockout := rfl
@[simp] theorem setVoice_clocks (i : Fin 16) (v : Voice) (s : State) : (setVoice i v s).clocks = s.clocks := rfl
@[simp] theorem setVoice_panel (i : Fin 16) (v : Voice) (s : State) : (setVoice i v s).panel = s.panel := rfl
@[simp] theorem setVoice_freeCount (i : Fin 16) (v : Voice) (s : State) : (setVoice i v s).freeCount = s.freeCount := rfl
@[simp] theorem setVoice_pending (i : Fin 16) (v : Voice) (s : State) : (setVoice i v s).pending = s.pending := rfl

/-! ### setFault -/

@[simp] theorem setFault_straps (f : FaultFlag) (s : State) : (setFault f s).straps = s.straps := rfl
@[simp] theorem setFault_stationClock (f : FaultFlag) (s : State) : (setFault f s).stationClock = s.stationClock := rfl
@[simp] theorem setFault_now (f : FaultFlag) (s : State) : (setFault f s).now = s.now := rfl
@[simp] theorem setFault_line (f : FaultFlag) (s : State) : (setFault f s).line = s.line := rfl
@[simp] theorem setFault_rxq (f : FaultFlag) (s : State) : (setFault f s).rxq = s.rxq := rfl
@[simp] theorem setFault_txq (f : FaultFlag) (s : State) : (setFault f s).txq = s.txq := rfl
@[simp] theorem setFault_member (f : FaultFlag) (s : State) : (setFault f s).member = s.member := rfl
@[simp] theorem setFault_tables (f : FaultFlag) (s : State) : (setFault f s).tables = s.tables := rfl
@[simp] theorem setFault_flash (f : FaultFlag) (s : State) : (setFault f s).flash = s.flash := rfl
@[simp] theorem setFault_dispatch (f : FaultFlag) (s : State) : (setFault f s).dispatch = s.dispatch := rfl
@[simp] theorem setFault_pool (f : FaultFlag) (s : State) : (setFault f s).pool = s.pool := rfl
@[simp] theorem setFault_fetch (f : FaultFlag) (s : State) : (setFault f s).fetch = s.fetch := rfl
@[simp] theorem setFault_outputs (f : FaultFlag) (s : State) : (setFault f s).outputs = s.outputs := rfl
@[simp] theorem setFault_wclk (f : FaultFlag) (s : State) : (setFault f s).wclk = s.wclk := rfl
@[simp] theorem setFault_lockout (f : FaultFlag) (s : State) : (setFault f s).lockout = s.lockout := rfl
@[simp] theorem setFault_clocks (f : FaultFlag) (s : State) : (setFault f s).clocks = s.clocks := rfl
@[simp] theorem setFault_freeCount (f : FaultFlag) (s : State) : (setFault f s).freeCount = s.freeCount := rfl
@[simp] theorem setFault_pending (f : FaultFlag) (s : State) : (setFault f s).pending = s.pending := rfl

/-! ### postOutcome -/

@[simp] theorem postOutcome_straps (r : OutcomeRecord) (s : State) : (postOutcome r s).straps = s.straps := rfl
@[simp] theorem postOutcome_stationClock (r : OutcomeRecord) (s : State) : (postOutcome r s).stationClock = s.stationClock := rfl
@[simp] theorem postOutcome_now (r : OutcomeRecord) (s : State) : (postOutcome r s).now = s.now := rfl
@[simp] theorem postOutcome_line (r : OutcomeRecord) (s : State) : (postOutcome r s).line = s.line := rfl
@[simp] theorem postOutcome_rxq (r : OutcomeRecord) (s : State) : (postOutcome r s).rxq = s.rxq := rfl
@[simp] theorem postOutcome_txq (r : OutcomeRecord) (s : State) : (postOutcome r s).txq = s.txq := rfl
@[simp] theorem postOutcome_member (r : OutcomeRecord) (s : State) : (postOutcome r s).member = s.member := rfl
@[simp] theorem postOutcome_tables (r : OutcomeRecord) (s : State) : (postOutcome r s).tables = s.tables := rfl
@[simp] theorem postOutcome_flash (r : OutcomeRecord) (s : State) : (postOutcome r s).flash = s.flash := rfl
@[simp] theorem postOutcome_dispatch (r : OutcomeRecord) (s : State) : (postOutcome r s).dispatch = s.dispatch := rfl
@[simp] theorem postOutcome_pool (r : OutcomeRecord) (s : State) : (postOutcome r s).pool = s.pool := rfl
@[simp] theorem postOutcome_fetch (r : OutcomeRecord) (s : State) : (postOutcome r s).fetch = s.fetch := rfl
@[simp] theorem postOutcome_outputs (r : OutcomeRecord) (s : State) : (postOutcome r s).outputs = s.outputs := rfl
@[simp] theorem postOutcome_wclk (r : OutcomeRecord) (s : State) : (postOutcome r s).wclk = s.wclk := rfl
@[simp] theorem postOutcome_lockout (r : OutcomeRecord) (s : State) : (postOutcome r s).lockout = s.lockout := rfl
@[simp] theorem postOutcome_clocks (r : OutcomeRecord) (s : State) : (postOutcome r s).clocks = s.clocks := rfl
@[simp] theorem postOutcome_freeCount (r : OutcomeRecord) (s : State) : (postOutcome r s).freeCount = s.freeCount := rfl
@[simp] theorem postOutcome_pending (r : OutcomeRecord) (s : State) : (postOutcome r s).pending = s.pending := rfl

/-! ### setLastAccepted -/

@[simp] theorem setLastAccepted_straps (n : Nat) (w : Word) (s : State) : (setLastAccepted n w s).straps = s.straps := rfl
@[simp] theorem setLastAccepted_stationClock (n : Nat) (w : Word) (s : State) : (setLastAccepted n w s).stationClock = s.stationClock := rfl
@[simp] theorem setLastAccepted_now (n : Nat) (w : Word) (s : State) : (setLastAccepted n w s).now = s.now := rfl
@[simp] theorem setLastAccepted_line (n : Nat) (w : Word) (s : State) : (setLastAccepted n w s).line = s.line := rfl
@[simp] theorem setLastAccepted_rxq (n : Nat) (w : Word) (s : State) : (setLastAccepted n w s).rxq = s.rxq := rfl
@[simp] theorem setLastAccepted_txq (n : Nat) (w : Word) (s : State) : (setLastAccepted n w s).txq = s.txq := rfl
@[simp] theorem setLastAccepted_member (n : Nat) (w : Word) (s : State) : (setLastAccepted n w s).member = s.member := rfl
@[simp] theorem setLastAccepted_tables (n : Nat) (w : Word) (s : State) : (setLastAccepted n w s).tables = s.tables := rfl
@[simp] theorem setLastAccepted_flash (n : Nat) (w : Word) (s : State) : (setLastAccepted n w s).flash = s.flash := rfl
@[simp] theorem setLastAccepted_pool (n : Nat) (w : Word) (s : State) : (setLastAccepted n w s).pool = s.pool := rfl
@[simp] theorem setLastAccepted_fetch (n : Nat) (w : Word) (s : State) : (setLastAccepted n w s).fetch = s.fetch := rfl
@[simp] theorem setLastAccepted_outputs (n : Nat) (w : Word) (s : State) : (setLastAccepted n w s).outputs = s.outputs := rfl
@[simp] theorem setLastAccepted_wclk (n : Nat) (w : Word) (s : State) : (setLastAccepted n w s).wclk = s.wclk := rfl
@[simp] theorem setLastAccepted_lockout (n : Nat) (w : Word) (s : State) : (setLastAccepted n w s).lockout = s.lockout := rfl
@[simp] theorem setLastAccepted_clocks (n : Nat) (w : Word) (s : State) : (setLastAccepted n w s).clocks = s.clocks := rfl
@[simp] theorem setLastAccepted_panel (n : Nat) (w : Word) (s : State) : (setLastAccepted n w s).panel = s.panel := rfl
@[simp] theorem setLastAccepted_freeCount (n : Nat) (w : Word) (s : State) : (setLastAccepted n w s).freeCount = s.freeCount := rfl
@[simp] theorem setLastAccepted_pending (n : Nat) (w : Word) (s : State) : (setLastAccepted n w s).pending = s.pending := rfl

/-! ### clearLastAccepted -/

@[simp] theorem clearLastAccepted_straps (n : Nat) (s : State) : (clearLastAccepted n s).straps = s.straps := rfl
@[simp] theorem clearLastAccepted_stationClock (n : Nat) (s : State) : (clearLastAccepted n s).stationClock = s.stationClock := rfl
@[simp] theorem clearLastAccepted_now (n : Nat) (s : State) : (clearLastAccepted n s).now = s.now := rfl
@[simp] theorem clearLastAccepted_line (n : Nat) (s : State) : (clearLastAccepted n s).line = s.line := rfl
@[simp] theorem clearLastAccepted_rxq (n : Nat) (s : State) : (clearLastAccepted n s).rxq = s.rxq := rfl
@[simp] theorem clearLastAccepted_txq (n : Nat) (s : State) : (clearLastAccepted n s).txq = s.txq := rfl
@[simp] theorem clearLastAccepted_member (n : Nat) (s : State) : (clearLastAccepted n s).member = s.member := rfl
@[simp] theorem clearLastAccepted_tables (n : Nat) (s : State) : (clearLastAccepted n s).tables = s.tables := rfl
@[simp] theorem clearLastAccepted_flash (n : Nat) (s : State) : (clearLastAccepted n s).flash = s.flash := rfl
@[simp] theorem clearLastAccepted_pool (n : Nat) (s : State) : (clearLastAccepted n s).pool = s.pool := rfl
@[simp] theorem clearLastAccepted_fetch (n : Nat) (s : State) : (clearLastAccepted n s).fetch = s.fetch := rfl
@[simp] theorem clearLastAccepted_outputs (n : Nat) (s : State) : (clearLastAccepted n s).outputs = s.outputs := rfl
@[simp] theorem clearLastAccepted_wclk (n : Nat) (s : State) : (clearLastAccepted n s).wclk = s.wclk := rfl
@[simp] theorem clearLastAccepted_lockout (n : Nat) (s : State) : (clearLastAccepted n s).lockout = s.lockout := rfl
@[simp] theorem clearLastAccepted_clocks (n : Nat) (s : State) : (clearLastAccepted n s).clocks = s.clocks := rfl
@[simp] theorem clearLastAccepted_panel (n : Nat) (s : State) : (clearLastAccepted n s).panel = s.panel := rfl
@[simp] theorem clearLastAccepted_freeCount (n : Nat) (s : State) : (clearLastAccepted n s).freeCount = s.freeCount := rfl
@[simp] theorem clearLastAccepted_pending (n : Nat) (s : State) : (clearLastAccepted n s).pending = s.pending := rfl

/-! ### pushRx -/

@[simp] theorem pushRx_straps (e : RxEntry) (s : State) : (pushRx e s).straps = s.straps := rfl
@[simp] theorem pushRx_stationClock (e : RxEntry) (s : State) : (pushRx e s).stationClock = s.stationClock := rfl
@[simp] theorem pushRx_now (e : RxEntry) (s : State) : (pushRx e s).now = s.now := rfl
@[simp] theorem pushRx_line (e : RxEntry) (s : State) : (pushRx e s).line = s.line := rfl
@[simp] theorem pushRx_txq (e : RxEntry) (s : State) : (pushRx e s).txq = s.txq := rfl
@[simp] theorem pushRx_member (e : RxEntry) (s : State) : (pushRx e s).member = s.member := rfl
@[simp] theorem pushRx_tables (e : RxEntry) (s : State) : (pushRx e s).tables = s.tables := rfl
@[simp] theorem pushRx_flash (e : RxEntry) (s : State) : (pushRx e s).flash = s.flash := rfl
@[simp] theorem pushRx_dispatch (e : RxEntry) (s : State) : (pushRx e s).dispatch = s.dispatch := rfl
@[simp] theorem pushRx_pool (e : RxEntry) (s : State) : (pushRx e s).pool = s.pool := rfl
@[simp] theorem pushRx_fetch (e : RxEntry) (s : State) : (pushRx e s).fetch = s.fetch := rfl
@[simp] theorem pushRx_outputs (e : RxEntry) (s : State) : (pushRx e s).outputs = s.outputs := rfl
@[simp] theorem pushRx_wclk (e : RxEntry) (s : State) : (pushRx e s).wclk = s.wclk := rfl
@[simp] theorem pushRx_lockout (e : RxEntry) (s : State) : (pushRx e s).lockout = s.lockout := rfl
@[simp] theorem pushRx_clocks (e : RxEntry) (s : State) : (pushRx e s).clocks = s.clocks := rfl
@[simp] theorem pushRx_panel (e : RxEntry) (s : State) : (pushRx e s).panel = s.panel := rfl
@[simp] theorem pushRx_freeCount (e : RxEntry) (s : State) : (pushRx e s).freeCount = s.freeCount := rfl
@[simp] theorem pushRx_pending (e : RxEntry) (s : State) : (pushRx e s).pending = s.pending := rfl

/-! ### placeFrame -/

@[simp] theorem placeFrame_straps (p : Producer) (f : LineFrame) (s : State) : (placeFrame p f s).straps = s.straps := rfl
@[simp] theorem placeFrame_stationClock (p : Producer) (f : LineFrame) (s : State) : (placeFrame p f s).stationClock = s.stationClock := rfl
@[simp] theorem placeFrame_now (p : Producer) (f : LineFrame) (s : State) : (placeFrame p f s).now = s.now := rfl
@[simp] theorem placeFrame_line (p : Producer) (f : LineFrame) (s : State) : (placeFrame p f s).line = s.line := rfl
@[simp] theorem placeFrame_rxq (p : Producer) (f : LineFrame) (s : State) : (placeFrame p f s).rxq = s.rxq := rfl
@[simp] theorem placeFrame_member (p : Producer) (f : LineFrame) (s : State) : (placeFrame p f s).member = s.member := rfl
@[simp] theorem placeFrame_tables (p : Producer) (f : LineFrame) (s : State) : (placeFrame p f s).tables = s.tables := rfl
@[simp] theorem placeFrame_flash (p : Producer) (f : LineFrame) (s : State) : (placeFrame p f s).flash = s.flash := rfl
@[simp] theorem placeFrame_dispatch (p : Producer) (f : LineFrame) (s : State) : (placeFrame p f s).dispatch = s.dispatch := rfl
@[simp] theorem placeFrame_pool (p : Producer) (f : LineFrame) (s : State) : (placeFrame p f s).pool = s.pool := rfl
@[simp] theorem placeFrame_fetch (p : Producer) (f : LineFrame) (s : State) : (placeFrame p f s).fetch = s.fetch := rfl
@[simp] theorem placeFrame_outputs (p : Producer) (f : LineFrame) (s : State) : (placeFrame p f s).outputs = s.outputs := rfl
@[simp] theorem placeFrame_wclk (p : Producer) (f : LineFrame) (s : State) : (placeFrame p f s).wclk = s.wclk := rfl
@[simp] theorem placeFrame_lockout (p : Producer) (f : LineFrame) (s : State) : (placeFrame p f s).lockout = s.lockout := rfl
@[simp] theorem placeFrame_clocks (p : Producer) (f : LineFrame) (s : State) : (placeFrame p f s).clocks = s.clocks := rfl
@[simp] theorem placeFrame_panel (p : Producer) (f : LineFrame) (s : State) : (placeFrame p f s).panel = s.panel := rfl
@[simp] theorem placeFrame_freeCount (p : Producer) (f : LineFrame) (s : State) : (placeFrame p f s).freeCount = s.freeCount := rfl
@[simp] theorem placeFrame_pending (p : Producer) (f : LineFrame) (s : State) : (placeFrame p f s).pending = s.pending := rfl

/-! ### removeTx -/

@[simp] theorem removeTx_straps (n : Nat) (s : State) : (removeTx n s).straps = s.straps := rfl
@[simp] theorem removeTx_stationClock (n : Nat) (s : State) : (removeTx n s).stationClock = s.stationClock := rfl
@[simp] theorem removeTx_now (n : Nat) (s : State) : (removeTx n s).now = s.now := rfl
@[simp] theorem removeTx_line (n : Nat) (s : State) : (removeTx n s).line = s.line := rfl
@[simp] theorem removeTx_rxq (n : Nat) (s : State) : (removeTx n s).rxq = s.rxq := rfl
@[simp] theorem removeTx_member (n : Nat) (s : State) : (removeTx n s).member = s.member := rfl
@[simp] theorem removeTx_tables (n : Nat) (s : State) : (removeTx n s).tables = s.tables := rfl
@[simp] theorem removeTx_flash (n : Nat) (s : State) : (removeTx n s).flash = s.flash := rfl
@[simp] theorem removeTx_dispatch (n : Nat) (s : State) : (removeTx n s).dispatch = s.dispatch := rfl
@[simp] theorem removeTx_pool (n : Nat) (s : State) : (removeTx n s).pool = s.pool := rfl
@[simp] theorem removeTx_fetch (n : Nat) (s : State) : (removeTx n s).fetch = s.fetch := rfl
@[simp] theorem removeTx_outputs (n : Nat) (s : State) : (removeTx n s).outputs = s.outputs := rfl
@[simp] theorem removeTx_wclk (n : Nat) (s : State) : (removeTx n s).wclk = s.wclk := rfl
@[simp] theorem removeTx_lockout (n : Nat) (s : State) : (removeTx n s).lockout = s.lockout := rfl
@[simp] theorem removeTx_clocks (n : Nat) (s : State) : (removeTx n s).clocks = s.clocks := rfl
@[simp] theorem removeTx_panel (n : Nat) (s : State) : (removeTx n s).panel = s.panel := rfl
@[simp] theorem removeTx_freeCount (n : Nat) (s : State) : (removeTx n s).freeCount = s.freeCount := rfl
@[simp] theorem removeTx_pending (n : Nat) (s : State) : (removeTx n s).pending = s.pending := rfl

/-! ### countFailure -/

@[simp] theorem countFailure_straps (n : Nat) (s : State) : (countFailure n s).straps = s.straps := rfl
@[simp] theorem countFailure_stationClock (n : Nat) (s : State) : (countFailure n s).stationClock = s.stationClock := rfl
@[simp] theorem countFailure_now (n : Nat) (s : State) : (countFailure n s).now = s.now := rfl
@[simp] theorem countFailure_line (n : Nat) (s : State) : (countFailure n s).line = s.line := rfl
@[simp] theorem countFailure_rxq (n : Nat) (s : State) : (countFailure n s).rxq = s.rxq := rfl
@[simp] theorem countFailure_member (n : Nat) (s : State) : (countFailure n s).member = s.member := rfl
@[simp] theorem countFailure_tables (n : Nat) (s : State) : (countFailure n s).tables = s.tables := rfl
@[simp] theorem countFailure_flash (n : Nat) (s : State) : (countFailure n s).flash = s.flash := rfl
@[simp] theorem countFailure_dispatch (n : Nat) (s : State) : (countFailure n s).dispatch = s.dispatch := rfl
@[simp] theorem countFailure_pool (n : Nat) (s : State) : (countFailure n s).pool = s.pool := rfl
@[simp] theorem countFailure_fetch (n : Nat) (s : State) : (countFailure n s).fetch = s.fetch := rfl
@[simp] theorem countFailure_outputs (n : Nat) (s : State) : (countFailure n s).outputs = s.outputs := rfl
@[simp] theorem countFailure_wclk (n : Nat) (s : State) : (countFailure n s).wclk = s.wclk := rfl
@[simp] theorem countFailure_lockout (n : Nat) (s : State) : (countFailure n s).lockout = s.lockout := rfl
@[simp] theorem countFailure_clocks (n : Nat) (s : State) : (countFailure n s).clocks = s.clocks := rfl
@[simp] theorem countFailure_panel (n : Nat) (s : State) : (countFailure n s).panel = s.panel := rfl
@[simp] theorem countFailure_freeCount (n : Nat) (s : State) : (countFailure n s).freeCount = s.freeCount := rfl
@[simp] theorem countFailure_pending (n : Nat) (s : State) : (countFailure n s).pending = s.pending := rfl

/-! ### markWithdrawn -/

@[simp] theorem markWithdrawn_straps (n : Nat) (s : State) : (markWithdrawn n s).straps = s.straps := rfl
@[simp] theorem markWithdrawn_stationClock (n : Nat) (s : State) : (markWithdrawn n s).stationClock = s.stationClock := rfl
@[simp] theorem markWithdrawn_now (n : Nat) (s : State) : (markWithdrawn n s).now = s.now := rfl
@[simp] theorem markWithdrawn_line (n : Nat) (s : State) : (markWithdrawn n s).line = s.line := rfl
@[simp] theorem markWithdrawn_rxq (n : Nat) (s : State) : (markWithdrawn n s).rxq = s.rxq := rfl
@[simp] theorem markWithdrawn_member (n : Nat) (s : State) : (markWithdrawn n s).member = s.member := rfl
@[simp] theorem markWithdrawn_tables (n : Nat) (s : State) : (markWithdrawn n s).tables = s.tables := rfl
@[simp] theorem markWithdrawn_flash (n : Nat) (s : State) : (markWithdrawn n s).flash = s.flash := rfl
@[simp] theorem markWithdrawn_dispatch (n : Nat) (s : State) : (markWithdrawn n s).dispatch = s.dispatch := rfl
@[simp] theorem markWithdrawn_pool (n : Nat) (s : State) : (markWithdrawn n s).pool = s.pool := rfl
@[simp] theorem markWithdrawn_fetch (n : Nat) (s : State) : (markWithdrawn n s).fetch = s.fetch := rfl
@[simp] theorem markWithdrawn_outputs (n : Nat) (s : State) : (markWithdrawn n s).outputs = s.outputs := rfl
@[simp] theorem markWithdrawn_wclk (n : Nat) (s : State) : (markWithdrawn n s).wclk = s.wclk := rfl
@[simp] theorem markWithdrawn_lockout (n : Nat) (s : State) : (markWithdrawn n s).lockout = s.lockout := rfl
@[simp] theorem markWithdrawn_clocks (n : Nat) (s : State) : (markWithdrawn n s).clocks = s.clocks := rfl
@[simp] theorem markWithdrawn_panel (n : Nat) (s : State) : (markWithdrawn n s).panel = s.panel := rfl
@[simp] theorem markWithdrawn_freeCount (n : Nat) (s : State) : (markWithdrawn n s).freeCount = s.freeCount := rfl
@[simp] theorem markWithdrawn_pending (n : Nat) (s : State) : (markWithdrawn n s).pending = s.pending := rfl

/-! ### clearOwn -/

@[simp] theorem clearOwn_straps (s : State) : (clearOwn s).straps = s.straps := rfl
@[simp] theorem clearOwn_stationClock (s : State) : (clearOwn s).stationClock = s.stationClock := rfl
@[simp] theorem clearOwn_now (s : State) : (clearOwn s).now = s.now := rfl
@[simp] theorem clearOwn_line (s : State) : (clearOwn s).line = s.line := rfl
@[simp] theorem clearOwn_rxq (s : State) : (clearOwn s).rxq = s.rxq := rfl
@[simp] theorem clearOwn_txq (s : State) : (clearOwn s).txq = s.txq := rfl
@[simp] theorem clearOwn_member (s : State) : (clearOwn s).member = s.member := rfl
@[simp] theorem clearOwn_tables (s : State) : (clearOwn s).tables = s.tables := rfl
@[simp] theorem clearOwn_flash (s : State) : (clearOwn s).flash = s.flash := rfl
@[simp] theorem clearOwn_dispatch (s : State) : (clearOwn s).dispatch = s.dispatch := rfl
@[simp] theorem clearOwn_pool (s : State) : (clearOwn s).pool = s.pool := rfl
@[simp] theorem clearOwn_fetch (s : State) : (clearOwn s).fetch = s.fetch := rfl
@[simp] theorem clearOwn_outputs (s : State) : (clearOwn s).outputs = s.outputs := rfl
@[simp] theorem clearOwn_wclk (s : State) : (clearOwn s).wclk = s.wclk := rfl
@[simp] theorem clearOwn_clocks (s : State) : (clearOwn s).clocks = s.clocks := rfl
@[simp] theorem clearOwn_panel (s : State) : (clearOwn s).panel = s.panel := rfl
@[simp] theorem clearOwn_freeCount (s : State) : (clearOwn s).freeCount = s.freeCount := rfl
@[simp] theorem clearOwn_pending (s : State) : (clearOwn s).pending = s.pending := rfl

/-! ### drive -/

@[simp] theorem drive_straps (s : State) : (drive s).straps = s.straps := rfl
@[simp] theorem drive_stationClock (s : State) : (drive s).stationClock = s.stationClock := rfl
@[simp] theorem drive_now (s : State) : (drive s).now = s.now := rfl
@[simp] theorem drive_rxq (s : State) : (drive s).rxq = s.rxq := rfl
@[simp] theorem drive_txq (s : State) : (drive s).txq = s.txq := rfl
@[simp] theorem drive_member (s : State) : (drive s).member = s.member := rfl
@[simp] theorem drive_tables (s : State) : (drive s).tables = s.tables := rfl
@[simp] theorem drive_flash (s : State) : (drive s).flash = s.flash := rfl
@[simp] theorem drive_dispatch (s : State) : (drive s).dispatch = s.dispatch := rfl
@[simp] theorem drive_pool (s : State) : (drive s).pool = s.pool := rfl
@[simp] theorem drive_fetch (s : State) : (drive s).fetch = s.fetch := rfl
@[simp] theorem drive_outputs (s : State) : (drive s).outputs = s.outputs := rfl
@[simp] theorem drive_wclk (s : State) : (drive s).wclk = s.wclk := rfl
@[simp] theorem drive_lockout (s : State) : (drive s).lockout = s.lockout := rfl
@[simp] theorem drive_clocks (s : State) : (drive s).clocks = s.clocks := rfl
@[simp] theorem drive_panel (s : State) : (drive s).panel = s.panel := rfl
@[simp] theorem drive_freeCount (s : State) : (drive s).freeCount = s.freeCount := rfl
@[simp] theorem drive_pending (s : State) : (drive s).pending = s.pending := rfl

/-! ### setPhase -/

@[simp] theorem setPhase_straps (p : AttemptPhase) (s : State) : (setPhase p s).straps = s.straps := rfl
@[simp] theorem setPhase_stationClock (p : AttemptPhase) (s : State) : (setPhase p s).stationClock = s.stationClock := rfl
@[simp] theorem setPhase_now (p : AttemptPhase) (s : State) : (setPhase p s).now = s.now := rfl
@[simp] theorem setPhase_rxq (p : AttemptPhase) (s : State) : (setPhase p s).rxq = s.rxq := rfl
@[simp] theorem setPhase_txq (p : AttemptPhase) (s : State) : (setPhase p s).txq = s.txq := rfl
@[simp] theorem setPhase_member (p : AttemptPhase) (s : State) : (setPhase p s).member = s.member := rfl
@[simp] theorem setPhase_tables (p : AttemptPhase) (s : State) : (setPhase p s).tables = s.tables := rfl
@[simp] theorem setPhase_flash (p : AttemptPhase) (s : State) : (setPhase p s).flash = s.flash := rfl
@[simp] theorem setPhase_dispatch (p : AttemptPhase) (s : State) : (setPhase p s).dispatch = s.dispatch := rfl
@[simp] theorem setPhase_pool (p : AttemptPhase) (s : State) : (setPhase p s).pool = s.pool := rfl
@[simp] theorem setPhase_fetch (p : AttemptPhase) (s : State) : (setPhase p s).fetch = s.fetch := rfl
@[simp] theorem setPhase_outputs (p : AttemptPhase) (s : State) : (setPhase p s).outputs = s.outputs := rfl
@[simp] theorem setPhase_wclk (p : AttemptPhase) (s : State) : (setPhase p s).wclk = s.wclk := rfl
@[simp] theorem setPhase_lockout (p : AttemptPhase) (s : State) : (setPhase p s).lockout = s.lockout := rfl
@[simp] theorem setPhase_clocks (p : AttemptPhase) (s : State) : (setPhase p s).clocks = s.clocks := rfl
@[simp] theorem setPhase_panel (p : AttemptPhase) (s : State) : (setPhase p s).panel = s.panel := rfl
@[simp] theorem setPhase_freeCount (p : AttemptPhase) (s : State) : (setPhase p s).freeCount = s.freeCount := rfl
@[simp] theorem setPhase_pending (p : AttemptPhase) (s : State) : (setPhase p s).pending = s.pending := rfl

/-! ### goOn -/

@[simp] theorem goOn_straps (b : Bool) (n : Nat) (p : AttemptPhase) (s : State) : (goOn b n p s).straps = s.straps := rfl
@[simp] theorem goOn_stationClock (b : Bool) (n : Nat) (p : AttemptPhase) (s : State) : (goOn b n p s).stationClock = s.stationClock := rfl
@[simp] theorem goOn_now (b : Bool) (n : Nat) (p : AttemptPhase) (s : State) : (goOn b n p s).now = s.now := rfl
@[simp] theorem goOn_rxq (b : Bool) (n : Nat) (p : AttemptPhase) (s : State) : (goOn b n p s).rxq = s.rxq := rfl
@[simp] theorem goOn_txq (b : Bool) (n : Nat) (p : AttemptPhase) (s : State) : (goOn b n p s).txq = s.txq := rfl
@[simp] theorem goOn_member (b : Bool) (n : Nat) (p : AttemptPhase) (s : State) : (goOn b n p s).member = s.member := rfl
@[simp] theorem goOn_tables (b : Bool) (n : Nat) (p : AttemptPhase) (s : State) : (goOn b n p s).tables = s.tables := rfl
@[simp] theorem goOn_flash (b : Bool) (n : Nat) (p : AttemptPhase) (s : State) : (goOn b n p s).flash = s.flash := rfl
@[simp] theorem goOn_dispatch (b : Bool) (n : Nat) (p : AttemptPhase) (s : State) : (goOn b n p s).dispatch = s.dispatch := rfl
@[simp] theorem goOn_pool (b : Bool) (n : Nat) (p : AttemptPhase) (s : State) : (goOn b n p s).pool = s.pool := rfl
@[simp] theorem goOn_fetch (b : Bool) (n : Nat) (p : AttemptPhase) (s : State) : (goOn b n p s).fetch = s.fetch := rfl
@[simp] theorem goOn_outputs (b : Bool) (n : Nat) (p : AttemptPhase) (s : State) : (goOn b n p s).outputs = s.outputs := rfl
@[simp] theorem goOn_wclk (b : Bool) (n : Nat) (p : AttemptPhase) (s : State) : (goOn b n p s).wclk = s.wclk := rfl
@[simp] theorem goOn_lockout (b : Bool) (n : Nat) (p : AttemptPhase) (s : State) : (goOn b n p s).lockout = s.lockout := rfl
@[simp] theorem goOn_clocks (b : Bool) (n : Nat) (p : AttemptPhase) (s : State) : (goOn b n p s).clocks = s.clocks := rfl
@[simp] theorem goOn_panel (b : Bool) (n : Nat) (p : AttemptPhase) (s : State) : (goOn b n p s).panel = s.panel := rfl
@[simp] theorem goOn_freeCount (b : Bool) (n : Nat) (p : AttemptPhase) (s : State) : (goOn b n p s).freeCount = s.freeCount := rfl
@[simp] theorem goOn_pending (b : Bool) (n : Nat) (p : AttemptPhase) (s : State) : (goOn b n p s).pending = s.pending := rfl

/-! ### raiseDuck -/

@[simp] theorem raiseDuck_straps (c : CueRecord) (s : State) : (raiseDuck c s).straps = s.straps := by unfold raiseDuck; rfl
@[simp] theorem raiseDuck_stationClock (c : CueRecord) (s : State) : (raiseDuck c s).stationClock = s.stationClock := by unfold raiseDuck; rfl
@[simp] theorem raiseDuck_now (c : CueRecord) (s : State) : (raiseDuck c s).now = s.now := by unfold raiseDuck; rfl
@[simp] theorem raiseDuck_line (c : CueRecord) (s : State) : (raiseDuck c s).line = s.line := by unfold raiseDuck; rfl
@[simp] theorem raiseDuck_rxq (c : CueRecord) (s : State) : (raiseDuck c s).rxq = s.rxq := by unfold raiseDuck; rfl
@[simp] theorem raiseDuck_txq (c : CueRecord) (s : State) : (raiseDuck c s).txq = s.txq := by unfold raiseDuck; rfl
@[simp] theorem raiseDuck_member (c : CueRecord) (s : State) : (raiseDuck c s).member = s.member := by unfold raiseDuck; rfl
@[simp] theorem raiseDuck_tables (c : CueRecord) (s : State) : (raiseDuck c s).tables = s.tables := by unfold raiseDuck; rfl
@[simp] theorem raiseDuck_flash (c : CueRecord) (s : State) : (raiseDuck c s).flash = s.flash := by unfold raiseDuck; rfl
@[simp] theorem raiseDuck_dispatch (c : CueRecord) (s : State) : (raiseDuck c s).dispatch = s.dispatch := by unfold raiseDuck; rfl
@[simp] theorem raiseDuck_fetch (c : CueRecord) (s : State) : (raiseDuck c s).fetch = s.fetch := by unfold raiseDuck; rfl
@[simp] theorem raiseDuck_outputs (c : CueRecord) (s : State) : (raiseDuck c s).outputs = s.outputs := by unfold raiseDuck; rfl
@[simp] theorem raiseDuck_wclk (c : CueRecord) (s : State) : (raiseDuck c s).wclk = s.wclk := by unfold raiseDuck; rfl
@[simp] theorem raiseDuck_lockout (c : CueRecord) (s : State) : (raiseDuck c s).lockout = s.lockout := by unfold raiseDuck; rfl
@[simp] theorem raiseDuck_clocks (c : CueRecord) (s : State) : (raiseDuck c s).clocks = s.clocks := by unfold raiseDuck; rfl
@[simp] theorem raiseDuck_panel (c : CueRecord) (s : State) : (raiseDuck c s).panel = s.panel := by unfold raiseDuck; rfl
@[simp] theorem raiseDuck_freeCount (c : CueRecord) (s : State) : (raiseDuck c s).freeCount = s.freeCount := by unfold raiseDuck; rfl
@[simp] theorem raiseDuck_pending (c : CueRecord) (s : State) : (raiseDuck c s).pending = s.pending := by unfold raiseDuck; rfl

/-! ### lowerDuck -/

@[simp] theorem lowerDuck_straps (c : CueRecord) (s : State) : (lowerDuck c s).straps = s.straps := by unfold lowerDuck; rfl
@[simp] theorem lowerDuck_stationClock (c : CueRecord) (s : State) : (lowerDuck c s).stationClock = s.stationClock := by unfold lowerDuck; rfl
@[simp] theorem lowerDuck_now (c : CueRecord) (s : State) : (lowerDuck c s).now = s.now := by unfold lowerDuck; rfl
@[simp] theorem lowerDuck_line (c : CueRecord) (s : State) : (lowerDuck c s).line = s.line := by unfold lowerDuck; rfl
@[simp] theorem lowerDuck_rxq (c : CueRecord) (s : State) : (lowerDuck c s).rxq = s.rxq := by unfold lowerDuck; rfl
@[simp] theorem lowerDuck_txq (c : CueRecord) (s : State) : (lowerDuck c s).txq = s.txq := by unfold lowerDuck; rfl
@[simp] theorem lowerDuck_member (c : CueRecord) (s : State) : (lowerDuck c s).member = s.member := by unfold lowerDuck; rfl
@[simp] theorem lowerDuck_tables (c : CueRecord) (s : State) : (lowerDuck c s).tables = s.tables := by unfold lowerDuck; rfl
@[simp] theorem lowerDuck_flash (c : CueRecord) (s : State) : (lowerDuck c s).flash = s.flash := by unfold lowerDuck; rfl
@[simp] theorem lowerDuck_dispatch (c : CueRecord) (s : State) : (lowerDuck c s).dispatch = s.dispatch := by unfold lowerDuck; rfl
@[simp] theorem lowerDuck_fetch (c : CueRecord) (s : State) : (lowerDuck c s).fetch = s.fetch := by unfold lowerDuck; rfl
@[simp] theorem lowerDuck_outputs (c : CueRecord) (s : State) : (lowerDuck c s).outputs = s.outputs := by unfold lowerDuck; rfl
@[simp] theorem lowerDuck_wclk (c : CueRecord) (s : State) : (lowerDuck c s).wclk = s.wclk := by unfold lowerDuck; rfl
@[simp] theorem lowerDuck_lockout (c : CueRecord) (s : State) : (lowerDuck c s).lockout = s.lockout := by unfold lowerDuck; rfl
@[simp] theorem lowerDuck_clocks (c : CueRecord) (s : State) : (lowerDuck c s).clocks = s.clocks := by unfold lowerDuck; rfl
@[simp] theorem lowerDuck_panel (c : CueRecord) (s : State) : (lowerDuck c s).panel = s.panel := by unfold lowerDuck; rfl
@[simp] theorem lowerDuck_freeCount (c : CueRecord) (s : State) : (lowerDuck c s).freeCount = s.freeCount := by unfold lowerDuck; rfl
@[simp] theorem lowerDuck_pending (c : CueRecord) (s : State) : (lowerDuck c s).pending = s.pending := by unfold lowerDuck; rfl

/-! ### purgeStack -/

@[simp] theorem purgeStack_straps (test : StackEntry → Bool) (s : State) : (purgeStack test s).straps = s.straps := rfl
@[simp] theorem purgeStack_stationClock (test : StackEntry → Bool) (s : State) : (purgeStack test s).stationClock = s.stationClock := rfl
@[simp] theorem purgeStack_now (test : StackEntry → Bool) (s : State) : (purgeStack test s).now = s.now := rfl
@[simp] theorem purgeStack_line (test : StackEntry → Bool) (s : State) : (purgeStack test s).line = s.line := rfl
@[simp] theorem purgeStack_rxq (test : StackEntry → Bool) (s : State) : (purgeStack test s).rxq = s.rxq := rfl
@[simp] theorem purgeStack_txq (test : StackEntry → Bool) (s : State) : (purgeStack test s).txq = s.txq := rfl
@[simp] theorem purgeStack_member (test : StackEntry → Bool) (s : State) : (purgeStack test s).member = s.member := rfl
@[simp] theorem purgeStack_tables (test : StackEntry → Bool) (s : State) : (purgeStack test s).tables = s.tables := rfl
@[simp] theorem purgeStack_flash (test : StackEntry → Bool) (s : State) : (purgeStack test s).flash = s.flash := rfl
@[simp] theorem purgeStack_dispatch (test : StackEntry → Bool) (s : State) : (purgeStack test s).dispatch = s.dispatch := rfl
@[simp] theorem purgeStack_fetch (test : StackEntry → Bool) (s : State) : (purgeStack test s).fetch = s.fetch := rfl
@[simp] theorem purgeStack_outputs (test : StackEntry → Bool) (s : State) : (purgeStack test s).outputs = s.outputs := rfl
@[simp] theorem purgeStack_wclk (test : StackEntry → Bool) (s : State) : (purgeStack test s).wclk = s.wclk := rfl
@[simp] theorem purgeStack_lockout (test : StackEntry → Bool) (s : State) : (purgeStack test s).lockout = s.lockout := rfl
@[simp] theorem purgeStack_clocks (test : StackEntry → Bool) (s : State) : (purgeStack test s).clocks = s.clocks := rfl
@[simp] theorem purgeStack_panel (test : StackEntry → Bool) (s : State) : (purgeStack test s).panel = s.panel := rfl
@[simp] theorem purgeStack_freeCount (test : StackEntry → Bool) (s : State) : (purgeStack test s).freeCount = s.freeCount := rfl
@[simp] theorem purgeStack_pending (test : StackEntry → Bool) (s : State) : (purgeStack test s).pending = s.pending := rfl

/-! ### cancelRequest -/

@[simp] theorem cancelRequest_straps (i : Fin 16) (s : State) : (cancelRequest i s).straps = s.straps := rfl
@[simp] theorem cancelRequest_stationClock (i : Fin 16) (s : State) : (cancelRequest i s).stationClock = s.stationClock := rfl
@[simp] theorem cancelRequest_now (i : Fin 16) (s : State) : (cancelRequest i s).now = s.now := rfl
@[simp] theorem cancelRequest_line (i : Fin 16) (s : State) : (cancelRequest i s).line = s.line := rfl
@[simp] theorem cancelRequest_rxq (i : Fin 16) (s : State) : (cancelRequest i s).rxq = s.rxq := rfl
@[simp] theorem cancelRequest_txq (i : Fin 16) (s : State) : (cancelRequest i s).txq = s.txq := rfl
@[simp] theorem cancelRequest_member (i : Fin 16) (s : State) : (cancelRequest i s).member = s.member := rfl
@[simp] theorem cancelRequest_tables (i : Fin 16) (s : State) : (cancelRequest i s).tables = s.tables := rfl
@[simp] theorem cancelRequest_flash (i : Fin 16) (s : State) : (cancelRequest i s).flash = s.flash := rfl
@[simp] theorem cancelRequest_dispatch (i : Fin 16) (s : State) : (cancelRequest i s).dispatch = s.dispatch := rfl
@[simp] theorem cancelRequest_pool (i : Fin 16) (s : State) : (cancelRequest i s).pool = s.pool := rfl
@[simp] theorem cancelRequest_outputs (i : Fin 16) (s : State) : (cancelRequest i s).outputs = s.outputs := rfl
@[simp] theorem cancelRequest_wclk (i : Fin 16) (s : State) : (cancelRequest i s).wclk = s.wclk := rfl
@[simp] theorem cancelRequest_lockout (i : Fin 16) (s : State) : (cancelRequest i s).lockout = s.lockout := rfl
@[simp] theorem cancelRequest_clocks (i : Fin 16) (s : State) : (cancelRequest i s).clocks = s.clocks := rfl
@[simp] theorem cancelRequest_panel (i : Fin 16) (s : State) : (cancelRequest i s).panel = s.panel := rfl
@[simp] theorem cancelRequest_freeCount (i : Fin 16) (s : State) : (cancelRequest i s).freeCount = s.freeCount := rfl
@[simp] theorem cancelRequest_pending (i : Fin 16) (s : State) : (cancelRequest i s).pending = s.pending := rfl

/-! ### endRead -/

@[simp] theorem endRead_straps (s : State) : (endRead s).straps = s.straps := rfl
@[simp] theorem endRead_stationClock (s : State) : (endRead s).stationClock = s.stationClock := rfl
@[simp] theorem endRead_now (s : State) : (endRead s).now = s.now := rfl
@[simp] theorem endRead_line (s : State) : (endRead s).line = s.line := rfl
@[simp] theorem endRead_rxq (s : State) : (endRead s).rxq = s.rxq := rfl
@[simp] theorem endRead_txq (s : State) : (endRead s).txq = s.txq := rfl
@[simp] theorem endRead_member (s : State) : (endRead s).member = s.member := rfl
@[simp] theorem endRead_tables (s : State) : (endRead s).tables = s.tables := rfl
@[simp] theorem endRead_flash (s : State) : (endRead s).flash = s.flash := rfl
@[simp] theorem endRead_dispatch (s : State) : (endRead s).dispatch = s.dispatch := rfl
@[simp] theorem endRead_pool (s : State) : (endRead s).pool = s.pool := rfl
@[simp] theorem endRead_outputs (s : State) : (endRead s).outputs = s.outputs := rfl
@[simp] theorem endRead_wclk (s : State) : (endRead s).wclk = s.wclk := rfl
@[simp] theorem endRead_lockout (s : State) : (endRead s).lockout = s.lockout := rfl
@[simp] theorem endRead_clocks (s : State) : (endRead s).clocks = s.clocks := rfl
@[simp] theorem endRead_panel (s : State) : (endRead s).panel = s.panel := rfl
@[simp] theorem endRead_freeCount (s : State) : (endRead s).freeCount = s.freeCount := rfl
@[simp] theorem endRead_pending (s : State) : (endRead s).pending = s.pending := rfl

/-! ### endAttempt -/

@[simp] theorem endAttempt_straps (s : State) : (endAttempt s).straps = s.straps := rfl
@[simp] theorem endAttempt_stationClock (s : State) : (endAttempt s).stationClock = s.stationClock := rfl
@[simp] theorem endAttempt_now (s : State) : (endAttempt s).now = s.now := rfl
@[simp] theorem endAttempt_rxq (s : State) : (endAttempt s).rxq = s.rxq := rfl
@[simp] theorem endAttempt_txq (s : State) : (endAttempt s).txq = s.txq := rfl
@[simp] theorem endAttempt_member (s : State) : (endAttempt s).member = s.member := rfl
@[simp] theorem endAttempt_tables (s : State) : (endAttempt s).tables = s.tables := rfl
@[simp] theorem endAttempt_flash (s : State) : (endAttempt s).flash = s.flash := rfl
@[simp] theorem endAttempt_dispatch (s : State) : (endAttempt s).dispatch = s.dispatch := rfl
@[simp] theorem endAttempt_pool (s : State) : (endAttempt s).pool = s.pool := rfl
@[simp] theorem endAttempt_fetch (s : State) : (endAttempt s).fetch = s.fetch := rfl
@[simp] theorem endAttempt_outputs (s : State) : (endAttempt s).outputs = s.outputs := rfl
@[simp] theorem endAttempt_wclk (s : State) : (endAttempt s).wclk = s.wclk := rfl
@[simp] theorem endAttempt_lockout (s : State) : (endAttempt s).lockout = s.lockout := rfl
@[simp] theorem endAttempt_clocks (s : State) : (endAttempt s).clocks = s.clocks := rfl
@[simp] theorem endAttempt_panel (s : State) : (endAttempt s).panel = s.panel := rfl
@[simp] theorem endAttempt_freeCount (s : State) : (endAttempt s).freeCount = s.freeCount := rfl
@[simp] theorem endAttempt_pending (s : State) : (endAttempt s).pending = s.pending := rfl

/-! ### setCopy -/

@[simp] theorem setCopy_straps (c p : Fin 4) (o : OwnCopy) (s : State) : (setCopy c p o s).straps = s.straps := rfl
@[simp] theorem setCopy_stationClock (c p : Fin 4) (o : OwnCopy) (s : State) : (setCopy c p o s).stationClock = s.stationClock := rfl
@[simp] theorem setCopy_now (c p : Fin 4) (o : OwnCopy) (s : State) : (setCopy c p o s).now = s.now := rfl
@[simp] theorem setCopy_line (c p : Fin 4) (o : OwnCopy) (s : State) : (setCopy c p o s).line = s.line := rfl
@[simp] theorem setCopy_rxq (c p : Fin 4) (o : OwnCopy) (s : State) : (setCopy c p o s).rxq = s.rxq := rfl
@[simp] theorem setCopy_txq (c p : Fin 4) (o : OwnCopy) (s : State) : (setCopy c p o s).txq = s.txq := rfl
@[simp] theorem setCopy_member (c p : Fin 4) (o : OwnCopy) (s : State) : (setCopy c p o s).member = s.member := rfl
@[simp] theorem setCopy_tables (c p : Fin 4) (o : OwnCopy) (s : State) : (setCopy c p o s).tables = s.tables := rfl
@[simp] theorem setCopy_flash (c p : Fin 4) (o : OwnCopy) (s : State) : (setCopy c p o s).flash = s.flash := rfl
@[simp] theorem setCopy_dispatch (c p : Fin 4) (o : OwnCopy) (s : State) : (setCopy c p o s).dispatch = s.dispatch := rfl
@[simp] theorem setCopy_pool (c p : Fin 4) (o : OwnCopy) (s : State) : (setCopy c p o s).pool = s.pool := rfl
@[simp] theorem setCopy_fetch (c p : Fin 4) (o : OwnCopy) (s : State) : (setCopy c p o s).fetch = s.fetch := rfl
@[simp] theorem setCopy_outputs (c p : Fin 4) (o : OwnCopy) (s : State) : (setCopy c p o s).outputs = s.outputs := rfl
@[simp] theorem setCopy_wclk (c p : Fin 4) (o : OwnCopy) (s : State) : (setCopy c p o s).wclk = s.wclk := rfl
@[simp] theorem setCopy_lockout (c p : Fin 4) (o : OwnCopy) (s : State) : (setCopy c p o s).lockout = s.lockout := rfl
@[simp] theorem setCopy_panel (c p : Fin 4) (o : OwnCopy) (s : State) : (setCopy c p o s).panel = s.panel := rfl
@[simp] theorem setCopy_freeCount (c p : Fin 4) (o : OwnCopy) (s : State) : (setCopy c p o s).freeCount = s.freeCount := rfl
@[simp] theorem setCopy_pending (c p : Fin 4) (o : OwnCopy) (s : State) : (setCopy c p o s).pending = s.pending := rfl

/-! ### forgetEntry -/

@[simp] theorem forgetEntry_straps (n : Nat) (s : State) : (forgetEntry n s).straps = s.straps := by unfold forgetEntry; rfl
@[simp] theorem forgetEntry_stationClock (n : Nat) (s : State) : (forgetEntry n s).stationClock = s.stationClock := by unfold forgetEntry; rfl
@[simp] theorem forgetEntry_now (n : Nat) (s : State) : (forgetEntry n s).now = s.now := by unfold forgetEntry; rfl
@[simp] theorem forgetEntry_line (n : Nat) (s : State) : (forgetEntry n s).line = s.line := by unfold forgetEntry; rfl
@[simp] theorem forgetEntry_rxq (n : Nat) (s : State) : (forgetEntry n s).rxq = s.rxq := by unfold forgetEntry; rfl
@[simp] theorem forgetEntry_txq (n : Nat) (s : State) : (forgetEntry n s).txq = s.txq := by unfold forgetEntry; rfl
@[simp] theorem forgetEntry_member (n : Nat) (s : State) : (forgetEntry n s).member = s.member := by unfold forgetEntry; rfl
@[simp] theorem forgetEntry_tables (n : Nat) (s : State) : (forgetEntry n s).tables = s.tables := by unfold forgetEntry; rfl
@[simp] theorem forgetEntry_flash (n : Nat) (s : State) : (forgetEntry n s).flash = s.flash := by unfold forgetEntry; rfl
@[simp] theorem forgetEntry_dispatch (n : Nat) (s : State) : (forgetEntry n s).dispatch = s.dispatch := by unfold forgetEntry; rfl
@[simp] theorem forgetEntry_pool (n : Nat) (s : State) : (forgetEntry n s).pool = s.pool := by unfold forgetEntry; rfl
@[simp] theorem forgetEntry_fetch (n : Nat) (s : State) : (forgetEntry n s).fetch = s.fetch := by unfold forgetEntry; rfl
@[simp] theorem forgetEntry_outputs (n : Nat) (s : State) : (forgetEntry n s).outputs = s.outputs := by unfold forgetEntry; rfl
@[simp] theorem forgetEntry_wclk (n : Nat) (s : State) : (forgetEntry n s).wclk = s.wclk := by unfold forgetEntry; rfl
@[simp] theorem forgetEntry_panel (n : Nat) (s : State) : (forgetEntry n s).panel = s.panel := by unfold forgetEntry; rfl
@[simp] theorem forgetEntry_freeCount (n : Nat) (s : State) : (forgetEntry n s).freeCount = s.freeCount := by unfold forgetEntry; rfl
@[simp] theorem forgetEntry_pending (n : Nat) (s : State) : (forgetEntry n s).pending = s.pending := by unfold forgetEntry; rfl

/-! ### clearPassed -/

@[simp] theorem clearPassed_straps (s : State) : (clearPassed s).straps = s.straps := rfl
@[simp] theorem clearPassed_stationClock (s : State) : (clearPassed s).stationClock = s.stationClock := rfl
@[simp] theorem clearPassed_now (s : State) : (clearPassed s).now = s.now := rfl
@[simp] theorem clearPassed_line (s : State) : (clearPassed s).line = s.line := rfl
@[simp] theorem clearPassed_rxq (s : State) : (clearPassed s).rxq = s.rxq := rfl
@[simp] theorem clearPassed_txq (s : State) : (clearPassed s).txq = s.txq := rfl
@[simp] theorem clearPassed_member (s : State) : (clearPassed s).member = s.member := rfl
@[simp] theorem clearPassed_tables (s : State) : (clearPassed s).tables = s.tables := rfl
@[simp] theorem clearPassed_flash (s : State) : (clearPassed s).flash = s.flash := rfl
@[simp] theorem clearPassed_dispatch (s : State) : (clearPassed s).dispatch = s.dispatch := rfl
@[simp] theorem clearPassed_pool (s : State) : (clearPassed s).pool = s.pool := rfl
@[simp] theorem clearPassed_fetch (s : State) : (clearPassed s).fetch = s.fetch := rfl
@[simp] theorem clearPassed_wclk (s : State) : (clearPassed s).wclk = s.wclk := rfl
@[simp] theorem clearPassed_lockout (s : State) : (clearPassed s).lockout = s.lockout := rfl
@[simp] theorem clearPassed_clocks (s : State) : (clearPassed s).clocks = s.clocks := rfl
@[simp] theorem clearPassed_freeCount (s : State) : (clearPassed s).freeCount = s.freeCount := rfl
@[simp] theorem clearPassed_pending (s : State) : (clearPassed s).pending = s.pending := rfl

/-! ### leaveLine -/

@[simp] theorem leaveLine_straps (s : State) : (leaveLine s).straps = s.straps := rfl
@[simp] theorem leaveLine_stationClock (s : State) : (leaveLine s).stationClock = s.stationClock := rfl
@[simp] theorem leaveLine_now (s : State) : (leaveLine s).now = s.now := rfl
@[simp] theorem leaveLine_member (s : State) : (leaveLine s).member = s.member := rfl
@[simp] theorem leaveLine_tables (s : State) : (leaveLine s).tables = s.tables := rfl
@[simp] theorem leaveLine_flash (s : State) : (leaveLine s).flash = s.flash := rfl
@[simp] theorem leaveLine_dispatch (s : State) : (leaveLine s).dispatch = s.dispatch := rfl
@[simp] theorem leaveLine_pool (s : State) : (leaveLine s).pool = s.pool := rfl
@[simp] theorem leaveLine_fetch (s : State) : (leaveLine s).fetch = s.fetch := rfl
@[simp] theorem leaveLine_outputs (s : State) : (leaveLine s).outputs = s.outputs := rfl
@[simp] theorem leaveLine_wclk (s : State) : (leaveLine s).wclk = s.wclk := rfl
@[simp] theorem leaveLine_lockout (s : State) : (leaveLine s).lockout = s.lockout := rfl
@[simp] theorem leaveLine_clocks (s : State) : (leaveLine s).clocks = s.clocks := rfl
@[simp] theorem leaveLine_panel (s : State) : (leaveLine s).panel = s.panel := rfl
@[simp] theorem leaveLine_freeCount (s : State) : (leaveLine s).freeCount = s.freeCount := rfl
@[simp] theorem leaveLine_pending (s : State) : (leaveLine s).pending = s.pending := rfl

/-! ### clockTick -/

@[simp] theorem clockTick_straps (s : State) : (clockTick s).straps = s.straps := rfl
@[simp] theorem clockTick_line (s : State) : (clockTick s).line = s.line := rfl
@[simp] theorem clockTick_rxq (s : State) : (clockTick s).rxq = s.rxq := rfl
@[simp] theorem clockTick_txq (s : State) : (clockTick s).txq = s.txq := rfl
@[simp] theorem clockTick_member (s : State) : (clockTick s).member = s.member := rfl
@[simp] theorem clockTick_tables (s : State) : (clockTick s).tables = s.tables := rfl
@[simp] theorem clockTick_flash (s : State) : (clockTick s).flash = s.flash := rfl
@[simp] theorem clockTick_dispatch (s : State) : (clockTick s).dispatch = s.dispatch := rfl
@[simp] theorem clockTick_pool (s : State) : (clockTick s).pool = s.pool := rfl
@[simp] theorem clockTick_fetch (s : State) : (clockTick s).fetch = s.fetch := rfl
@[simp] theorem clockTick_outputs (s : State) : (clockTick s).outputs = s.outputs := rfl
@[simp] theorem clockTick_wclk (s : State) : (clockTick s).wclk = s.wclk := rfl
@[simp] theorem clockTick_lockout (s : State) : (clockTick s).lockout = s.lockout := rfl
@[simp] theorem clockTick_clocks (s : State) : (clockTick s).clocks = s.clocks := rfl
@[simp] theorem clockTick_panel (s : State) : (clockTick s).panel = s.panel := rfl
@[simp] theorem clockTick_freeCount (s : State) : (clockTick s).freeCount = s.freeCount := rfl
@[simp] theorem clockTick_pending (s : State) : (clockTick s).pending = s.pending := rfl

/-! ### debounceSample -/

@[simp] theorem debounceSample_straps (levels : Byte) (s : State) : (debounceSample levels s).straps = s.straps := rfl
@[simp] theorem debounceSample_stationClock (levels : Byte) (s : State) : (debounceSample levels s).stationClock = s.stationClock := rfl
@[simp] theorem debounceSample_now (levels : Byte) (s : State) : (debounceSample levels s).now = s.now := rfl
@[simp] theorem debounceSample_line (levels : Byte) (s : State) : (debounceSample levels s).line = s.line := rfl
@[simp] theorem debounceSample_rxq (levels : Byte) (s : State) : (debounceSample levels s).rxq = s.rxq := rfl
@[simp] theorem debounceSample_txq (levels : Byte) (s : State) : (debounceSample levels s).txq = s.txq := rfl
@[simp] theorem debounceSample_member (levels : Byte) (s : State) : (debounceSample levels s).member = s.member := rfl
@[simp] theorem debounceSample_tables (levels : Byte) (s : State) : (debounceSample levels s).tables = s.tables := rfl
@[simp] theorem debounceSample_flash (levels : Byte) (s : State) : (debounceSample levels s).flash = s.flash := rfl
@[simp] theorem debounceSample_dispatch (levels : Byte) (s : State) : (debounceSample levels s).dispatch = s.dispatch := rfl
@[simp] theorem debounceSample_pool (levels : Byte) (s : State) : (debounceSample levels s).pool = s.pool := rfl
@[simp] theorem debounceSample_fetch (levels : Byte) (s : State) : (debounceSample levels s).fetch = s.fetch := rfl
@[simp] theorem debounceSample_outputs (levels : Byte) (s : State) : (debounceSample levels s).outputs = s.outputs := rfl
@[simp] theorem debounceSample_wclk (levels : Byte) (s : State) : (debounceSample levels s).wclk = s.wclk := rfl
@[simp] theorem debounceSample_clocks (levels : Byte) (s : State) : (debounceSample levels s).clocks = s.clocks := rfl
@[simp] theorem debounceSample_panel (levels : Byte) (s : State) : (debounceSample levels s).panel = s.panel := rfl
@[simp] theorem debounceSample_freeCount (levels : Byte) (s : State) : (debounceSample levels s).freeCount = s.freeCount := rfl
@[simp] theorem debounceSample_pending (levels : Byte) (s : State) : (debounceSample levels s).pending = s.pending := rfl

/-! ### stepVoices -/

@[simp] theorem stepVoices_straps (s : State) : (stepVoices s).straps = s.straps := by unfold stepVoices; rfl
@[simp] theorem stepVoices_stationClock (s : State) : (stepVoices s).stationClock = s.stationClock := by unfold stepVoices; rfl
@[simp] theorem stepVoices_now (s : State) : (stepVoices s).now = s.now := by unfold stepVoices; rfl
@[simp] theorem stepVoices_line (s : State) : (stepVoices s).line = s.line := by unfold stepVoices; rfl
@[simp] theorem stepVoices_rxq (s : State) : (stepVoices s).rxq = s.rxq := by unfold stepVoices; rfl
@[simp] theorem stepVoices_txq (s : State) : (stepVoices s).txq = s.txq := by unfold stepVoices; rfl
@[simp] theorem stepVoices_member (s : State) : (stepVoices s).member = s.member := by unfold stepVoices; rfl
@[simp] theorem stepVoices_tables (s : State) : (stepVoices s).tables = s.tables := by unfold stepVoices; rfl
@[simp] theorem stepVoices_flash (s : State) : (stepVoices s).flash = s.flash := by unfold stepVoices; rfl
@[simp] theorem stepVoices_dispatch (s : State) : (stepVoices s).dispatch = s.dispatch := by unfold stepVoices; rfl
@[simp] theorem stepVoices_fetch (s : State) : (stepVoices s).fetch = s.fetch := by unfold stepVoices; rfl
@[simp] theorem stepVoices_outputs (s : State) : (stepVoices s).outputs = s.outputs := by unfold stepVoices; rfl
@[simp] theorem stepVoices_wclk (s : State) : (stepVoices s).wclk = s.wclk := by unfold stepVoices; rfl
@[simp] theorem stepVoices_lockout (s : State) : (stepVoices s).lockout = s.lockout := by unfold stepVoices; rfl
@[simp] theorem stepVoices_clocks (s : State) : (stepVoices s).clocks = s.clocks := by unfold stepVoices; rfl
@[simp] theorem stepVoices_panel (s : State) : (stepVoices s).panel = s.panel := by unfold stepVoices; rfl
@[simp] theorem stepVoices_freeCount (s : State) : (stepVoices s).freeCount = s.freeCount := by unfold stepVoices; rfl
@[simp] theorem stepVoices_pending (s : State) : (stepVoices s).pending = s.pending := by unfold stepVoices; rfl

@[simp] theorem withLine_line (f : LineInterface → LineInterface) (s : State) : (withLine f s).line = f s.line := rfl
@[simp] theorem withRound_lockout (f : Round → Round) (s : State) : (withRound f s).lockout = { s.lockout with round := f s.lockout.round } := rfl
@[simp] theorem withPanel_panel (f : PanelPort → PanelPort) (s : State) : (withPanel f s).panel = f s.panel := rfl
@[simp] theorem withWclk_wclk (f : WordClock → WordClock) (s : State) : (withWclk f s).wclk = f s.wclk := rfl
@[simp] theorem setFault_panel (f : FaultFlag) (s : State) : (setFault f s).panel = s.panel.raise f := rfl
@[simp] theorem setVoice_pool (i : Fin 16) (v : Voice) (s : State) : (setVoice i v s).pool = { s.pool with voices := s.pool.voices.set i v } := rfl
@[simp] theorem setCopy_clocks (c p : Fin 4) (o : OwnCopy) (s : State) : (setCopy c p o s).clocks = (withClock c (fun r => { r with copies := r.copies.set p o }) s).clocks := rfl

/-! ### A voice slot after a write -/

@[simp] theorem voiceOf_setVoice_same (i : Fin 16) (v : Voice) (s : State) : voiceOf (setVoice i v s) i = v := by
  simp [voiceOf]

theorem voiceOf_setVoice_other (i j : Fin 16) (v : Voice) (s : State) (h : j ≠ i) :
    voiceOf (setVoice i v s) j = voiceOf s j := by
  have : (i : Nat) ≠ (j : Nat) := fun e => h (Fin.ext e.symm)
  simp [voiceOf, this]

/-! ### A clock record after a write -/

@[simp] theorem clockOf_withClock_same (c : Fin 4) (f : ClockRecord → ClockRecord) (s : State) :
    clockOf (withClock c f s) c = f (clockOf s c) := by
  simp [clockOf, withClock]

theorem clockOf_withClock_other (c d : Fin 4) (f : ClockRecord → ClockRecord) (s : State) (h : d ≠ c) :
    clockOf (withClock c f s) d = clockOf s d := by
  have : (c : Nat) ≠ (d : Nat) := fun e => h (Fin.ext e.symm)
  simp [clockOf, withClock, this]

end Sys2Proof.Machine
end

