-- ==== Sys2Proof/Laws/Frames.lean ====
section
/-!
SUPPORT. What each shared operation can change, said once: the voice pool's operations, the requests and grants, and the
offers at a freeing.
-/
namespace Sys2Proof.Machine

/-- `t` is `s` but for what the dispatcher's requests reach: the voice pool, the requests, and the fault flags with
their pending report. -/
def VoiceFrame (s t : State) : Prop :=
  ∃ pool fetch faults pend,
    t = { s with pool := pool, fetch := fetch, panel := { s.panel with faults := faults, faultPending := pend } }

/-- `t` is `s` but for what offers at a freeing reach: the transmit queue, the held JOIN, the own claims and CLOSE, the
clock records and the counter of free values. -/
def OfferFrame (s t : State) : Prop :=
  ∃ txq held claims close records free,
    t = { s with
          txq := txq, member := { s.member with heldJoin := held },
          lockout := { s.lockout with round := { s.lockout.round with ownClaim := claims, ownClose := close } },
          clocks := { s.clocks with records := records }, freeCount := free }

theorem VoiceFrame.refl (s : State) : VoiceFrame s s :=
  ⟨s.pool, s.fetch, s.panel.faults, s.panel.faultPending, rfl⟩

theorem VoiceFrame.trans {s t u : State} (h : VoiceFrame s t) (k : VoiceFrame t u) : VoiceFrame s u := by
  obtain ⟨p, f, a, b, rfl⟩ := h
  obtain ⟨p', f', a', b', rfl⟩ := k
  exact ⟨p', f', a', b', rfl⟩

theorem OfferFrame.refl (s : State) : OfferFrame s s :=
  ⟨s.txq, s.member.heldJoin, s.lockout.round.ownClaim, s.lockout.round.ownClose, s.clocks.records, s.freeCount, rfl⟩

theorem OfferFrame.trans {s t u : State} (h : OfferFrame s t) (k : OfferFrame t u) : OfferFrame s u := by
  obtain ⟨a, b, c, d, e, f, rfl⟩ := h
  obtain ⟨a', b', c', d', e', f', rfl⟩ := k
  exact ⟨a', b', c', d', e', f', rfl⟩

/-- A fold whose every step keeps a transitive relation keeps it. -/
theorem foldl_keeps {α : Type} (R : State → State → Prop) (refl : ∀ s, R s s)
    (trans : ∀ {s t u}, R s t → R t u → R s u) (f : State → α → State) (step : ∀ s a, R s (f s a)) :
    ∀ (l : List α) (s : State), R s (l.foldl f s)
  | [], s => refl s
  | a :: l, s => trans (step s a) (foldl_keeps R refl trans f step l (f s a))

theorem foldl_voiceFrame {α : Type} (f : State → α → State) (step : ∀ s a, VoiceFrame s (f s a)) (l : List α)
    (s : State) : VoiceFrame s (l.foldl f s) :=
  foldl_keeps VoiceFrame VoiceFrame.refl VoiceFrame.trans f step l s

theorem foldl_offerFrame {α : Type} (f : State → α → State) (step : ∀ s a, OfferFrame s (f s a)) (l : List α)
    (s : State) : OfferFrame s (l.foldl f s) :=
  foldl_keeps OfferFrame OfferFrame.refl OfferFrame.trans f step l s

/-! ## The voice pool -/

theorem setVoice_frame (i : Fin 16) (v : Voice) (s : State) : VoiceFrame s (setVoice i v s) :=
  ⟨_, s.fetch, s.panel.faults, s.panel.faultPending, rfl⟩

theorem raiseDuck_frame (c : CueRecord) (s : State) : VoiceFrame s (raiseDuck c s) :=
  ⟨_, s.fetch, s.panel.faults, s.panel.faultPending, rfl⟩

theorem lowerDuck_frame (c : CueRecord) (s : State) : VoiceFrame s (lowerDuck c s) :=
  ⟨_, s.fetch, s.panel.faults, s.panel.faultPending, rfl⟩

theorem cancelRequest_frame (i : Fin 16) (s : State) : VoiceFrame s (cancelRequest i s) :=
  ⟨s.pool, _, s.panel.faults, s.panel.faultPending, rfl⟩

theorem purgeStack_frame (test : StackEntry → Bool) (s : State) : VoiceFrame s (purgeStack test s) :=
  ⟨_, s.fetch, s.panel.faults, s.panel.faultPending, rfl⟩

theorem setFault_frame (f : FaultFlag) (s : State) : VoiceFrame s (setFault f s) := by
  unfold setFault PanelPort.raise
  split
  · exact VoiceFrame.refl s
  · exact ⟨s.pool, s.fetch, _, true, rfl⟩

theorem duckChange_frame (before : State) (c : CueRecord) (s : State) : VoiceFrame s (duckChange before c s) := by
  apply foldl_voiceFrame
  intro t i
  dsimp only
  split
  · exact VoiceFrame.refl t
  · exact setVoice_frame _ _ _

theorem resumeVoice_frame (i : Fin 16) (e : StackEntry) (s : State) : VoiceFrame s (resumeVoice i e s) := by
  unfold resumeVoice
  dsimp only
  exact ((setVoice_frame _ _ _).trans ((raiseDuck_frame _ _).trans (duckChange_frame _ _ _))).trans (setVoice_frame _ _ _)

theorem offerSlot_frame (i : Fin 16) (s : State) : VoiceFrame s (offerSlot i s) := by
  unfold offerSlot
  split
  · exact ⟨_, s.fetch, s.panel.faults, s.panel.faultPending, rfl⟩
  · refine VoiceFrame.trans ?_ (resumeVoice_frame _ _ _)
    exact ⟨_, s.fetch, s.panel.faults, s.panel.faultPending, rfl⟩

theorem vacate_frame (i : Fin 16) (s : State) : VoiceFrame s (vacate i s) := by
  unfold vacate
  dsimp only
  exact (setVoice_frame _ _ _).trans ((cancelRequest_frame _ _).trans ((lowerDuck_frame _ _).trans (duckChange_frame _ _ _)))

theorem endVoice_frame (i : Fin 16) (s : State) : VoiceFrame s (endVoice i s) :=
  (vacate_frame i s).trans (offerSlot_frame i _)

theorem pushStack_frame (e : StackEntry) (s : State) : VoiceFrame s (pushStack e s) := by
  unfold pushStack
  split
  · exact ⟨_, s.fetch, s.panel.faults, s.panel.faultPending, rfl⟩
  · refine VoiceFrame.trans ?_ (setFault_frame _ _)
    exact ⟨_, s.fetch, s.panel.faults, s.panel.faultPending, rfl⟩

theorem suspendVoice_frame (i : Fin 16) (s : State) : VoiceFrame s (suspendVoice i s) :=
  (pushStack_frame _ _).trans (vacate_frame i _)

theorem startVoice_frame (i : Fin 16) (cue : Nat) (trim : Byte) (order : Word) (s : State) :
    VoiceFrame s (startVoice i cue trim order s) := by
  unfold startVoice
  dsimp only
  exact (setVoice_frame _ _ _).trans ((raiseDuck_frame _ _).trans (duckChange_frame _ _ _))

theorem restartVoice_frame (i : Fin 16) (trim : Byte) (order : Word) (s : State) :
    VoiceFrame s (restartVoice i trim order s) := by
  unfold restartVoice
  dsimp only
  exact (setVoice_frame _ _ _).trans (cancelRequest_frame _ _)

theorem releaseTail_frame (i : Fin 16) (s : State) : VoiceFrame s (releaseTail i s) := by
  unfold releaseTail
  dsimp only
  split
  · split
    · exact (setVoice_frame _ _ _).trans (cancelRequest_frame _ _)
    · exact endVoice_frame _ _
  · split
    · exact setVoice_frame _ _ _
    · exact (setVoice_frame _ _ _).trans (cancelRequest_frame _ _)
  · split
    · exact setVoice_frame _ _ _
    · exact (setVoice_frame _ _ _).trans (cancelRequest_frame _ _)
  · exact VoiceFrame.refl s
  · exact VoiceFrame.refl s

theorem releaseFade_frame (i : Fin 16) (s : State) : VoiceFrame s (releaseFade i s) := by
  unfold releaseFade
  dsimp only
  split
  · exact endVoice_frame _ _
  · exact setVoice_frame _ _ _
  · exact setVoice_frame _ _ _
  · exact VoiceFrame.refl s
  · exact VoiceFrame.refl s

theorem releaseVoice_frame (m : ReleaseMode) (i : Fin 16) (s : State) : VoiceFrame s (releaseVoice m i s) := by
  cases m
  · exact releaseTail_frame i s
  · exact releaseFade_frame i s

theorem stepVoices_frame (s : State) : VoiceFrame s (stepVoices s) :=
  ⟨_, s.fetch, s.panel.faults, s.panel.faultPending, rfl⟩

/-! ## Requests and grants -/

theorem placeBlock_frame (i : Fin 16) (v : Voice) (cur : Cursor) (s : State) : VoiceFrame s (placeBlock i v cur s) := by
  unfold placeBlock
  dsimp only
  split
  · exact VoiceFrame.refl s
  · exact ⟨_, _, s.panel.faults, s.panel.faultPending, rfl⟩

theorem placeRequest_frame (i : Fin 16) (s : State) : VoiceFrame s (placeRequest i s) := by
  unfold placeRequest
  dsimp only
  split
  · exact VoiceFrame.refl s
  · split
    · exact VoiceFrame.refl s
    · exact placeBlock_frame _ _ _ _

theorem grant_frame (s : State) : VoiceFrame s (grant s) := by
  unfold grant
  split
  · exact VoiceFrame.refl s
  · split
    · exact VoiceFrame.refl s
    · exact ⟨s.pool, _, s.panel.faults, s.panel.faultPending, rfl⟩

theorem fetchSettle_frame (s : State) : VoiceFrame s (fetchSettle s) :=
  (foldl_voiceFrame _ (fun t i => placeRequest_frame i t) slots s).trans (grant_frame _)

theorem endRead_frame (s : State) : VoiceFrame s (endRead s) :=
  ⟨s.pool, _, s.panel.faults, s.panel.faultPending, rfl⟩

theorem blockCompletion_frame (s : State) : VoiceFrame s (blockCompletion s) := by
  unfold blockCompletion
  split
  · exact VoiceFrame.refl s
  · split
    · exact (endRead_frame s).trans ((setVoice_frame _ _ _).trans (fetchSettle_frame _))
    · exact VoiceFrame.refl s

theorem discardedCompletion_frame (s : State) : VoiceFrame s (discardedCompletion s) := by
  unfold discardedCompletion
  split
  · exact VoiceFrame.refl s
  · split
    · exact VoiceFrame.refl s
    · exact (endRead_frame s).trans (fetchSettle_frame _)

/-! ## The dispatcher's stages -/

theorem chokeStage_frame (c : CueRecord) (s : State) : VoiceFrame s (chokeStage c s) := by
  unfold chokeStage
  split
  · exact VoiceFrame.refl s
  · refine (purgeStack_frame _ s).trans (foldl_voiceFrame _ ?_ slots _)
    intro t i
    split
    · exact releaseVoice_frame _ _ _
    · exact VoiceFrame.refl t

theorem preempt_frame (i : Fin 16) (s : State) : VoiceFrame s (preempt i s) := by
  unfold preempt
  split
  · exact suspendVoice_frame i s
  · exact vacate_frame i s

theorem allocate_frame (cue : Nat) (trim : Byte) (order : Word) (o : FireOutcome) (s : State) :
    VoiceFrame s (allocate cue trim order o s).1 := by
  unfold allocate
  split
  · dsimp only
    exact startVoice_frame _ _ _ _ _
  · split
    · dsimp only
      exact (preempt_frame _ _).trans (startVoice_frame _ _ _ _ _)
    · exact VoiceFrame.refl s

theorem playStages_frame (cue : Nat) (trim : Byte) (order : Word) (s : State) :
    VoiceFrame s (playStages cue trim order s).1 := by
  unfold playStages
  split
  · exact allocate_frame _ _ _ _ _
  · split
    · dsimp only
      exact restartVoice_frame _ _ _ _
    · exact VoiceFrame.refl s
    · exact allocate_frame _ _ _ _ _

/-- A fire changes the last-accepted records, and else only what the dispatcher's requests reach. -/
theorem fireNow_frame (cue : Nat) (trim : Byte) (edge : Word) (s : State) :
    VoiceFrame s (fireNow cue trim edge s).1 ∨
      VoiceFrame (setLastAccepted cue edge s) (fireNow cue trim edge s).1 := by
  unfold fireNow dispatchFire
  dsimp only
  split
  · right
    split
    · exact (chokeStage_frame _ _).trans ((playStages_frame _ _ _ _).trans (fetchSettle_frame _))
    · exact (chokeStage_frame _ _).trans (fetchSettle_frame _)
  · left
    exact fetchSettle_frame s

theorem releaseByMode_frame (m : Byte) (i : Fin 16) (s : State) : VoiceFrame s (releaseByMode m i s) := by
  unfold releaseByMode
  split
  · exact releaseTail_frame i s
  · split
    · exact releaseFade_frame i s
    · split
      · exact endVoice_frame i s
      · exact releaseVoice_frame _ i s

theorem releaseCue_frame (cue : Nat) (m : Byte) (s : State) : VoiceFrame s (releaseCue cue m s) := by
  refine (purgeStack_frame _ s).trans (foldl_voiceFrame _ ?_ slots _)
  intro t i
  split
  · exact releaseByMode_frame _ _ _
  · exact VoiceFrame.refl t

theorem hushZones_frame (m : Byte) (s : State) : VoiceFrame s (hushZones m s) := by
  refine (purgeStack_frame _ s).trans (foldl_voiceFrame _ ?_ slots _)
  intro t i
  split
  · exact endVoice_frame _ _
  · exact VoiceFrame.refl t

/-- A frame clock changes the outputs beside what the voice pool's operations reach. -/
theorem frameClock_frame (s : State) :
    ∃ outputs, VoiceFrame { s with outputs := outputs } (frameClock s) := by
  refine ⟨mapVec (mixOutput s) s.outputs, ?_⟩
  refine VoiceFrame.trans ?_ ((stepVoices_frame _).trans
    ((foldl_voiceFrame _ (fun t i => endVoice_frame i t) _ _).trans (fetchSettle_frame _)))
  unfold mix
  dsimp only
  split <;> split <;>
    first
    | exact VoiceFrame.refl _
    | exact setFault_frame _ _
    | exact (setFault_frame _ _).trans (setFault_frame _ _)

/-! ## Offers at a freeing -/

theorem placeFrame_frame (p : Producer) (f : LineFrame) (s : State) : OfferFrame s (placeFrame p f s) :=
  ⟨_, s.member.heldJoin, s.lockout.round.ownClaim, s.lockout.round.ownClose, s.clocks.records, s.freeCount, rfl⟩

theorem offerClaim_frame (i : Fin 8) (fs : Bool) (n : Nat) (s : State) : OfferFrame s (offerClaim i fs n s) := by
  unfold offerClaim
  split <;> exact ⟨_, s.member.heldJoin, _, s.lockout.round.ownClose, s.clocks.records, s.freeCount, rfl⟩

theorem offerClose_frame (s : State) : OfferFrame s (offerClose s) := by
  unfold offerClose
  split <;> exact ⟨_, s.member.heldJoin, s.lockout.round.ownClaim, _, s.clocks.records, s.freeCount, rfl⟩

theorem offerJoin_frame (r : Bool) (s : State) : OfferFrame s (offerJoin r s) := by
  unfold offerJoin
  split <;>
    exact ⟨_, _, s.lockout.round.ownClaim, s.lockout.round.ownClose, s.clocks.records, s.freeCount, rfl⟩

theorem setCopy_frame (c p : Fin 4) (o : OwnCopy) (s : State) : OfferFrame s (setCopy c p o s) :=
  ⟨s.txq, s.member.heldJoin, s.lockout.round.ownClaim, s.lockout.round.ownClose, _, s.freeCount, rfl⟩

theorem placeClockFire_frame (c p : Fin 4) (s : State) : OfferFrame s (placeClockFire c p s) :=
  (placeFrame_frame _ _ s).trans (setCopy_frame _ _ _ _)

theorem offerHeld_frame (s : State) (p : Producer) : OfferFrame s (offerHeld s p) := by
  cases p
  · exact OfferFrame.refl s
  · simp only [offerHeld]
    unfold offerHeldJoin
    split
    · split
      · exact offerJoin_frame _ s
      · exact OfferFrame.refl s
    · exact OfferFrame.refl s
  · simp only [offerHeld]
    unfold offerHeldLockout
    split
    · split
      · exact offerClaim_frame _ _ _ s
      · exact OfferFrame.refl s
    · split
      · exact offerClose_frame s
      · exact OfferFrame.refl s
  · simp only [offerHeld]
    unfold offerHeldClock
    split
    · split
      · exact placeClockFire_frame _ _ s
      · exact OfferFrame.refl s
    · exact OfferFrame.refl s

theorem offerRound_frame (s : State) : OfferFrame s (offerRound s) := by
  unfold offerRound
  dsimp only
  split
  · exact foldl_offerFrame _ offerHeld_frame _ s
  · refine OfferFrame.trans ?_ (foldl_offerFrame _ offerHeld_frame _ _)
    exact ⟨s.txq, s.member.heldJoin, s.lockout.round.ownClaim, s.lockout.round.ownClose, s.clocks.records, _, rfl⟩

theorem offerRounds_frame : ∀ (n : Nat) (s : State), OfferFrame s (offerRounds n s)
  | 0, s => OfferFrame.refl s
  | n + 1, s => (offerRound_frame s).trans (offerRounds_frame n _)

theorem removeTx_frame (n : Nat) (s : State) : OfferFrame s (removeTx n s) :=
  ⟨_, s.member.heldJoin, s.lockout.round.ownClaim, s.lockout.round.ownClose, s.clocks.records, s.freeCount, rfl⟩

theorem forgetEntry_frame (n : Nat) (s : State) : OfferFrame s (forgetEntry n s) :=
  ⟨s.txq, s.member.heldJoin, _, _, _, s.freeCount, rfl⟩

theorem markWithdrawn_frame (n : Nat) (s : State) : OfferFrame s (markWithdrawn n s) :=
  ⟨_, s.member.heldJoin, s.lockout.round.ownClaim, s.lockout.round.ownClose, s.clocks.records, s.freeCount, rfl⟩

theorem withdrawEntry_frame (n : Nat) (s : State) : OfferFrame s (withdrawEntry n s) := by
  unfold withdrawEntry
  split
  · exact markWithdrawn_frame n s
  · split
    · exact (removeTx_frame n s).trans (offerRounds_frame 1 _)
    · exact OfferFrame.refl s

theorem withdrawEntries_frame (l : List Nat) (s : State) : OfferFrame s (withdrawEntries l s) :=
  foldl_offerFrame _ (fun t n => withdrawEntry_frame n t) l s

theorem clearOwn_frame (s : State) : OfferFrame s (clearOwn s) :=
  ⟨s.txq, s.member.heldJoin, _, _, s.clocks.records, s.freeCount, rfl⟩

theorem withdrawRound_frame (s : State) : OfferFrame s (withdrawRound s) :=
  (clearOwn_frame s).trans (withdrawEntries_frame _ _)

/-! ## A sample of the line -/

/-- `t` is `s` but for what a sample of the line reaches: the line, the queues, the station state and the held JOIN, the own
claims and CLOSE, the clock records, the fault flags, the outcome FIFO and the counter of free values. -/
def SampleFrame (s t : State) : Prop :=
  ∃ line rxq txq state held claims close records faults pend outcomes free,
    t = { s with
          line := line, rxq := rxq, txq := txq, member := { s.member with state := state, heldJoin := held },
          lockout := { s.lockout with round := { s.lockout.round with ownClaim := claims, ownClose := close } },
          clocks := { s.clocks with records := records },
          panel := { s.panel with faults := faults, faultPending := pend, outcomes := outcomes }, freeCount := free }

theorem SampleFrame.refl (s : State) : SampleFrame s s :=
  ⟨s.line, s.rxq, s.txq, s.member.state, s.member.heldJoin, s.lockout.round.ownClaim, s.lockout.round.ownClose,
    s.clocks.records, s.panel.faults, s.panel.faultPending, s.panel.outcomes, s.freeCount, rfl⟩

theorem SampleFrame.trans {s t u : State} (h : SampleFrame s t) (k : SampleFrame t u) : SampleFrame s u := by
  obtain ⟨a, b, c, d, e, f, g, h, i, j, k, l, rfl⟩ := h
  obtain ⟨a', b', c', d', e', f', g', h', i', j', k', l', rfl⟩ := k
  exact ⟨a', b', c', d', e', f', g', h', i', j', k', l', rfl⟩

theorem OfferFrame.sample {s t : State} (h : OfferFrame s t) : SampleFrame s t := by
  obtain ⟨a, b, c, d, e, f, rfl⟩ := h
  exact ⟨s.line, s.rxq, a, s.member.state, b, c, d, e, s.panel.faults, s.panel.faultPending, s.panel.outcomes, f, rfl⟩

theorem withLine_frame (f : LineInterface → LineInterface) (s : State) : SampleFrame s (withLine f s) :=
  ⟨_, s.rxq, s.txq, s.member.state, s.member.heldJoin, s.lockout.round.ownClaim, s.lockout.round.ownClose,
    s.clocks.records, s.panel.faults, s.panel.faultPending, s.panel.outcomes, s.freeCount, rfl⟩

theorem setPhase_frame (p : AttemptPhase) (s : State) : SampleFrame s (setPhase p s) := withLine_frame _ s

theorem goOn_frame (b : Bool) (n : Nat) (p : AttemptPhase) (s : State) : SampleFrame s (goOn b n p s) := withLine_frame _ s

theorem toBetween_frame (s : State) : SampleFrame s (toBetween s) := withLine_frame _ s

theorem leaveSlot_frame (s : State) : SampleFrame s (leaveSlot s) := withLine_frame _ s

theorem drive_frame (s : State) : SampleFrame s (drive s) := withLine_frame _ s

theorem gapError_frame (s : State) : SampleFrame s (gapError s) := withLine_frame _ s

theorem breakDetect_frame (s : State) : SampleFrame s (breakDetect s) := withLine_frame _ s

theorem idleLine_frame (s : State) : SampleFrame s (idleLine s) := withLine_frame _ s

theorem vetoSlotStart_frame (s : State) : SampleFrame s (vetoSlotStart s) := withLine_frame _ s

theorem jam_frame (s : State) : SampleFrame s (jam s) := withLine_frame _ s

theorem setFault_sampleFrame (f : FaultFlag) (s : State) : SampleFrame s (setFault f s) := by
  unfold setFault PanelPort.raise
  split
  · exact SampleFrame.refl s
  · exact ⟨s.line, s.rxq, s.txq, s.member.state, s.member.heldJoin, s.lockout.round.ownClaim, s.lockout.round.ownClose,
      s.clocks.records, _, _, s.panel.outcomes, s.freeCount, rfl⟩

theorem pushRx_sampleFrame (e : RxEntry) (s : State) : SampleFrame s (pushRx e s) :=
  ⟨s.line, _, s.txq, s.member.state, s.member.heldJoin, s.lockout.round.ownClaim, s.lockout.round.ownClose,
    s.clocks.records, s.panel.faults, s.panel.faultPending, s.panel.outcomes, s.freeCount, rfl⟩

theorem postOutcome_sampleFrame (r : OutcomeRecord) (s : State) : SampleFrame s (postOutcome r s) :=
  ⟨s.line, s.rxq, s.txq, s.member.state, s.member.heldJoin, s.lockout.round.ownClaim, s.lockout.round.ownClose,
    s.clocks.records, s.panel.faults, s.panel.faultPending, _, s.freeCount, rfl⟩

theorem countFailure_sampleFrame (n : Nat) (s : State) : SampleFrame s (countFailure n s) :=
  ⟨s.line, s.rxq, _, s.member.state, s.member.heldJoin, s.lockout.round.ownClaim, s.lockout.round.ownClose,
    s.clocks.records, s.panel.faults, s.panel.faultPending, s.panel.outcomes, s.freeCount, rfl⟩

theorem endAttempt_sampleFrame (s : State) : SampleFrame s (endAttempt s) := withLine_frame _ s

theorem removed_sampleFrame (n : Nat) (s : State) : SampleFrame s (offerRounds 1 (removeTx n (endAttempt s))) :=
  (endAttempt_sampleFrame s).trans ((removeTx_frame n _).trans (offerRounds_frame 1 _)).sample

theorem endUncounted_frame (a : Attempt) (s : State) : SampleFrame s (endUncounted a s) := by
  unfold endUncounted
  split
  · split
    · exact removed_sampleFrame _ s
    · exact endAttempt_sampleFrame s
  · exact endAttempt_sampleFrame s

theorem postDropped_frame (e : TxEntry) (w : Word) (s : State) : SampleFrame s (postDropped e w s) := by
  unfold postDropped
  split
  · split
    · exact postOutcome_sampleFrame _ s
    · exact SampleFrame.refl s
  · exact SampleFrame.refl s

theorem rejoin_frame (e : TxEntry) (s : State) : SampleFrame s (rejoin e s) := by
  unfold rejoin
  split
  · exact (offerJoin_frame _ s).sample
  · exact SampleFrame.refl s

theorem dropFrame_frame (a : Attempt) (e : TxEntry) (s : State) : SampleFrame s (dropFrame a e s) :=
  ((endAttempt_sampleFrame s).trans ((removeTx_frame _ _).trans (forgetEntry_frame _ _)).sample).trans
    ((setFault_sampleFrame _ _).trans ((postDropped_frame _ _ _).trans ((rejoin_frame _ _).trans (offerRounds_frame 1 _).sample)))

theorem endFailed_frame (a : Attempt) (s : State) : SampleFrame s (endFailed a s) := by
  unfold endFailed
  split
  · split
    · exact removed_sampleFrame _ s
    · split
      · exact dropFrame_frame a _ s
      · exact (endAttempt_sampleFrame s).trans (countFailure_sampleFrame _ _)
  · exact endAttempt_sampleFrame s

theorem joinAccepted_frame (e : TxEntry) (s : State) : SampleFrame s (joinAccepted e s) := by
  unfold joinAccepted
  split
  · exact ⟨s.line, s.rxq, s.txq, _, s.member.heldJoin, s.lockout.round.ownClaim, s.lockout.round.ownClose,
      s.clocks.records, s.panel.faults, s.panel.faultPending, s.panel.outcomes, s.freeCount, rfl⟩
  · exact SampleFrame.refl s

theorem endAccepted_frame (a : Attempt) (s : State) : SampleFrame s (endAccepted a s) := by
  unfold endAccepted
  split
  · exact (endAttempt_sampleFrame s).trans
      (((removeTx_frame _ _).trans (forgetEntry_frame _ _)).sample.trans (joinAccepted_frame _ _))
  · exact endAttempt_sampleFrame s

theorem failAttempt_frame (a : Attempt) (frame : List Byte) (n : Nat) (s : State) : SampleFrame s (failAttempt a frame n s) := by
  unfold failAttempt
  split
  · exact (withLine_frame _ s).trans (endFailed_frame a _)
  · exact endFailed_frame a s

theorem sendSample_frame (a : Attempt) (frame : List Byte) (n k : Nat) (level : Bool) (s : State) :
    SampleFrame s (sendSample a frame n k level s).1 := by
  unfold sendSample
  dsimp only
  split
  · split
    · exact goOn_frame _ _ _ s
    · exact endUncounted_frame _ s
    · exact failAttempt_frame _ _ _ s
  · exact setPhase_frame _ s

theorem attemptSample_frame (a : Attempt) (level : Bool) (s : State) : SampleFrame s (attemptSample a level s).1 := by
  unfold attemptSample
  split
  · exact setPhase_frame _ s
  · dsimp only
    split
    · exact setPhase_frame _ s
    · exact SampleFrame.refl s
  · exact setPhase_frame _ s
  · split
    · exact sendSample_frame _ _ _ _ _ s
    · exact SampleFrame.refl s
  · exact setPhase_frame _ s

theorem sendingSample_frame (level : Bool) (s : State) : SampleFrame s (sendingSample level s).1 := by
  unfold sendingSample
  split
  · exact attemptSample_frame _ level s
  · exact SampleFrame.refl s

theorem lineStuck_frame (s : State) : SampleFrame s (lineStuck s) := by
  have h := (withLine_frame (fun l =>
      { l with
        rx := .stuck, idleCount := 0, assembling := false, frame := [], jamWait := false, jamReady := false, jamLeft := 0,
        slotVeto := false, vetoOwed := none, hunt := .hunting }) s).trans (setFault_sampleFrame .lineStuck _)
  unfold lineStuck
  dsimp only
  split
  · exact h.trans (endUncounted_frame _ _)
  · exact h

theorem enqueueAccepted_frame (chars : List ReadChar) (w : Word) (s : State) : SampleFrame s (enqueueAccepted chars w s) := by
  unfold enqueueAccepted
  split
  · exact SampleFrame.refl s
  · split
    · split
      · exact setFault_sampleFrame _ s
      · exact SampleFrame.refl s
    · exact pushRx_sampleFrame _ s

theorem frameAccepted_frame (s : State) : SampleFrame s (frameAccepted s) := by
  unfold frameAccepted
  split
  · exact (withLine_frame _ s).trans ((endAccepted_frame _ _).trans
      ((enqueueAccepted_frame _ _ _).trans (offerRounds_frame 1 _).sample))
  · exact (withLine_frame _ s).trans (enqueueAccepted_frame _ _ _)

theorem frameVetoed_frame (s : State) : SampleFrame s (frameVetoed s).1 := by
  unfold frameVetoed
  split
  · exact (leaveSlot_frame s).trans (endFailed_frame _ _)
  · exact leaveSlot_frame s

theorem headerUnusable_frame (s : State) : SampleFrame s (headerUnusable s) := by
  unfold headerUnusable
  split
  · exact (withLine_frame _ s).trans (toBetween_frame _)
  · exact withLine_frame _ s

theorem frameChar_frame (c : ReadChar) (s : State) : SampleFrame s (frameChar c s).1 := by
  unfold frameChar
  dsimp only
  split
  · exact headerUnusable_frame s
  · split <;> dsimp only
    · exact (withLine_frame _ s).trans (toBetween_frame _)
    · exact withLine_frame _ s

theorem charDone_frame (c : ReadChar) (s : State) : SampleFrame s (charDone c s).1 := by
  unfold charDone
  split
  · exact frameChar_frame c s
  · dsimp only
    exact (withLine_frame _ s).trans (toBetween_frame _)

theorem gapSample_frame (level : Bool) (h k : Hunt) (s : State) : SampleFrame s (gapSample level h k s).1 := by
  unfold gapSample
  dsimp only
  split <;> dsimp only
  · exact gapError_frame s
  · exact withLine_frame _ s

theorem frameSample_frame (level : Bool) (s : State) : SampleFrame s (frameSample level s).1 := by
  unfold frameSample
  split <;> dsimp only
  · exact jam_frame s
  · split
    · dsimp only
      exact (withLine_frame _ s).trans (withLine_frame _ _)
    · exact (withLine_frame _ s).trans (charDone_frame _ _)
    · split
      · dsimp only
        exact withLine_frame _ s
      · exact (withLine_frame _ s).trans (gapSample_frame _ _ _ _)

theorem outsideSample_frame (level : Bool) (s : State) : SampleFrame s (outsideSample level s).1 := by
  unfold outsideSample
  split <;> exact (by dsimp only; exact withLine_frame _ s)

theorem endMarkSample_frame (s : State) : SampleFrame s (endMarkSample s).1 := by
  unfold endMarkSample
  split <;> dsimp only
  · exact withLine_frame _ s
  · exact vetoSlotStart_frame s

theorem slotSample_frame (level : Bool) (s : State) : SampleFrame s (slotSample level s).1 := by
  unfold slotSample
  extract_lets n first second
  split
  · dsimp only
    exact withLine_frame _ s
  · split
    · exact frameAccepted_frame s
    · exact frameVetoed_frame s

theorem jamSample_frame (s : State) : SampleFrame s (jamSample s) := by
  unfold jamSample
  split <;> exact withLine_frame _ s

theorem stateSample_frame (level : Bool) (s : State) : SampleFrame s (stateSample level s).1 := by
  unfold stateSample
  split
  · exact SampleFrame.refl s
  · split
    · exact idleLine_frame s
    · exact SampleFrame.refl s
  · split
    · exact idleLine_frame s
    · exact SampleFrame.refl s
  · exact outsideSample_frame level s
  · dsimp only
    split
    · exact withLine_frame _ s
    · exact SampleFrame.refl s
  · exact frameSample_frame level s
  · exact frameSample_frame level s
  · exact frameSample_frame level s
  · exact endMarkSample_frame s
  · exact slotSample_frame level s

theorem receiverSample_frame (level : Bool) (s : State) : SampleFrame s (receiverSample level s).1 := by
  unfold receiverSample
  split
  · exact lineStuck_frame s
  · split
    · exact breakDetect_frame s
    · split
      · exact jamSample_frame s
      · exact stateSample_frame level s

theorem ownSlotEnd_frame (s : State) : SampleFrame s (ownSlotEnd s).1 := by
  unfold ownSlotEnd
  split
  · exact SampleFrame.refl s
  · split
    · split
      · exact SampleFrame.refl s
      · split <;> dsimp only
        · exact (endAccepted_frame _ s).trans (offerRounds_frame 1 _).sample
        · exact endFailed_frame _ s
    · exact SampleFrame.refl s

/-- The beginning of an attempt changes the driver and the attempt of the line, and nothing else. -/
theorem beginSample_eq (s : State) :
    (beginSample s).1 = { s with line := { s.line with
      driver := (beginSample s).1.line.driver, attempt := (beginSample s).1.line.attempt } } := by
  unfold beginSample
  split <;> rfl

/-- An attempt begins only OUTSIDE with idle holding, at a station that may send the head of its queue. -/
theorem nextAttempt_some {s : State} {e : TxEntry} (h : nextAttempt s = some e) :
    txHead (placedEntries s) = some e ∧ maySend s e = true ∧ idleHolds s = true ∧ s.line.attempt = none ∧
      s.line.vetoOwed = none ∧ s.line.driver = .released := by
  unfold nextAttempt at h
  split at h
  · exact absurd h (by simp)
  · rename_i x hx
    split at h
    · rename_i hc
      cases h
      simp only [Bool.and_eq_true, decide_eq_true_eq, Option.isNone_iff_eq_none] at hc
      exact ⟨hx, hc.1.1.1.1, hc.1.1.1.2, hc.1.1.2, hc.1.2, hc.2⟩
    · exact absurd h (by simp)

theorem beginSample_frame (s : State) : SampleFrame s (beginSample s).1 := by
  unfold beginSample
  split <;> dsimp only
  · exact SampleFrame.refl s
  · exact withLine_frame _ s

theorem followSample_frame (clk : Word) (level : Bool) (s : State) : SampleFrame s (followSample clk level s).1 :=
  (withLine_frame _ s).trans ((sendingSample_frame _ _).trans ((receiverSample_frame _ _).trans
    ((ownSlotEnd_frame _).trans (drive_frame _))))

/-- A sample that comes while an attempt is in progress begins none (entry 6). -/
theorem lineSample_of_attempt {clk : Word} {level : Bool} {s : State} (h : s.line.rx ≠ .off) {a : Attempt}
    (ha : s.line.attempt = some a) : lineSample clk level s = followSample clk level s := by
  simp [lineSample, h, ha]

theorem lineSample_frame (clk : Word) (level : Bool) (s : State) : SampleFrame s (lineSample clk level s).1 := by
  unfold lineSample
  split
  · exact SampleFrame.refl s
  · dsimp only
    split
    · exact (followSample_frame clk level s).trans (beginSample_frame _)
    · exact followSample_frame clk level s

/-- The last sample of a command is taken in the state as it is. -/
theorem sampleAt_zero (level : Bool) (s : State) : sampleAt 0 level s = lineSample s.stationClock level s := by
  have hc : clockBefore s 0 = s.stationClock := by
    have h : (239 - s.now % 240) / 240 = 0 := by omega
    simp [clockBefore, h]
  have hn : ({ s with now := momentBefore s 0 } : State) = s := by simp [momentBefore]
  have hk : (lineSample s.stationClock level s).1.now = s.now := by
    obtain ⟨_, _, _, _, _, _, _, _, _, _, _, _, h⟩ := lineSample_frame s.stationClock level s
    rw [h]
  unfold sampleAt
  rw [hc, hn, ← hk]

theorem sampleAt_frame (n : Nat) (level : Bool) (s : State) : SampleFrame s (sampleAt n level s).1 := by
  obtain ⟨a, b, c, d, e, f, g, h, i, j, k, l, hl⟩ :=
    lineSample_frame (clockBefore s n) level { s with now := momentBefore s n }
  exact ⟨a, b, c, d, e, f, g, h, i, j, k, l, congrArg (fun t : State => { t with now := s.now }) hl⟩

theorem playLine_frame : ∀ (line : Samples) (n : Nat) (s : State), SampleFrame s (playLine line n s)
  | [], _, s => SampleFrame.refl s
  | level :: rest, n, s => (sampleAt_frame _ level s).trans (playLine_frame rest n _)

/-- A command of the line is its samples but the last, and then the last. -/
theorem runLine_concat (before : Samples) (level : Bool) (s : State) :
    runLine (before ++ [level]) s = lineSample (playLine before 1 s).stationClock level (playLine before 1 s) := by
  simp [runLine, sampleAt_zero]

theorem runLine_frame (line : Samples) (s : State) : SampleFrame s (runLine line s).1 := by
  unfold runLine
  split
  · exact SampleFrame.refl s
  · exact (playLine_frame _ 1 s).trans (sampleAt_frame _ _ _)

theorem lineCommand_frame (e : LineEvent) (line : Samples) (s : State) : SampleFrame s (lineCommand e line s) := by
  unfold lineCommand
  split
  · exact runLine_frame line s
  · exact SampleFrame.refl s

/-! ## Bounds of the queues -/

theorem offerClaim_bound (i : Fin 8) (fs : Bool) (n : Nat) (s : State) (h : s.txq.entries.length ≤ 4) :
    (offerClaim i fs n s).txq.entries.length ≤ 4 := by
  unfold offerClaim txRoom
  split
  · rename_i hr
    simp only [decide_eq_true_eq] at hr
    simp only [withRound_txq, placeFrame, List.length_append, List.length_cons, List.length_nil]
    omega
  · exact h

theorem offerClose_bound (s : State) (h : s.txq.entries.length ≤ 4) : (offerClose s).txq.entries.length ≤ 4 := by
  unfold offerClose txRoom
  split
  · rename_i hr
    simp only [decide_eq_true_eq] at hr
    simp only [withRound_txq, placeFrame, List.length_append, List.length_cons, List.length_nil]
    omega
  · exact h

theorem offerJoin_bound (r : Bool) (s : State) (h : s.txq.entries.length ≤ 4) :
    (offerJoin r s).txq.entries.length ≤ 4 := by
  unfold offerJoin txRoom
  split
  · rename_i hr
    simp only [decide_eq_true_eq] at hr
    simp only [placeFrame, List.length_append, List.length_cons, List.length_nil]
    omega
  · exact h

theorem placeClockFire_bound (c p : Fin 4) (s : State) (h : txRoom s = true) :
    (placeClockFire c p s).txq.entries.length ≤ 4 := by
  simp only [txRoom, decide_eq_true_eq] at h
  simp only [placeClockFire, setCopy_txq, placeFrame, List.length_append, List.length_cons, List.length_nil]
  omega

theorem offerHeld_bound (s : State) (p : Producer) (h : s.txq.entries.length ≤ 4) :
    (offerHeld s p).txq.entries.length ≤ 4 := by
  cases p
  · exact h
  · simp only [offerHeld]
    unfold offerHeldJoin
    split
    · split
      · exact offerJoin_bound _ s h
      · exact h
    · exact h
  · simp only [offerHeld]
    unfold offerHeldLockout
    split
    · split
      · exact offerClaim_bound _ _ _ s h
      · exact h
    · split
      · exact offerClose_bound s h
      · exact h
  · simp only [offerHeld]
    unfold offerHeldClock
    split
    · split
      · rename_i hr
        exact placeClockFire_bound _ _ s hr
      · exact h
    · exact h

theorem foldl_offerHeld_bound : ∀ (l : List Producer) (s : State), s.txq.entries.length ≤ 4 →
    (l.foldl offerHeld s).txq.entries.length ≤ 4
  | [], _, h => h
  | p :: l, s, h => foldl_offerHeld_bound l _ (offerHeld_bound s p h)

theorem offerRounds_bound : ∀ (n : Nat) (s : State), s.txq.entries.length ≤ 4 →
    (offerRounds n s).txq.entries.length ≤ 4
  | 0, _, h => h
  | n + 1, s, h => by
    refine offerRounds_bound n _ ?_
    unfold offerRound
    dsimp only
    split
    · exact foldl_offerHeld_bound _ s h
    · exact foldl_offerHeld_bound _ _ h

theorem withdrawEntry_bound (n : Nat) (s : State) (h : s.txq.entries.length ≤ 4) :
    (withdrawEntry n s).txq.entries.length ≤ 4 := by
  unfold withdrawEntry
  split
  · simpa [markWithdrawn] using h
  · split
    · refine offerRounds_bound 1 _ ?_
      simp only [removeTx]
      exact Nat.le_trans (List.length_filter_le _ _) h
    · exact h

theorem withdrawEntries_bound : ∀ (l : List Nat) (s : State), s.txq.entries.length ≤ 4 →
    (withdrawEntries l s).txq.entries.length ≤ 4
  | [], _, h => h
  | n :: l, _, h => withdrawEntries_bound l _ (withdrawEntry_bound n _ h)

theorem postOutcome_bound (r : OutcomeRecord) (s : State) (h : s.panel.outcomes.length ≤ 8) :
    (postOutcome r s).panel.outcomes.length ≤ 8 := by
  unfold postOutcome
  dsimp only
  split <;> simp only [List.length_append, List.length_cons, List.length_nil, List.length_drop] <;> omega

theorem pushStack_bound (e : StackEntry) (s : State) : (pushStack e s).pool.stack.length ≤ 8 := by
  unfold pushStack
  split
  · simp only [List.length_cons]
    omega
  · simp only [setFault_pool, List.length_take]
    omega

theorem popEntry_bound (s : State) : ∀ (l : List StackEntry) (x : StackEntry × List StackEntry),
    popEntry s l = some x → x.2.length < l.length
  | [], _, h => by simp [popEntry] at h
  | e :: rest, x, h => by
    unfold popEntry at h
    split at h
    · cases h
      simp
    · have := popEntry_bound s rest x h
      simp only [List.length_cons]
      omega

end Sys2Proof.Machine
end

