-- ==== Sys2Proof/Laws/Memory.lean ====
section
/-!
SUPPORT. The flash keeps its canonical form under every operation, and reads what was written last.
-/
namespace Sys2Proof.Machine

theorem Memory.wfFrom_mono {lo lo' : Nat} (h : lo ≤ lo') :
    ∀ {m : List Host.Cell}, Memory.wfFrom lo' m = true → Memory.wfFrom lo m = true
  | [], _ => rfl
  | (k, v) :: m, hm => by
    simp only [Memory.wfFrom, Bool.and_eq_true, decide_eq_true_eq] at hm ⊢
    exact ⟨⟨⟨Nat.le_trans h hm.1.1.1, hm.1.1.2⟩, hm.1.2⟩, hm.2⟩

theorem Memory.write_wfFrom (a : Nat) (v : Byte) (ha : a < flashSize) :
    ∀ (m : List Host.Cell) (lo : Nat), lo ≤ a → Memory.wfFrom lo m = true → Memory.wfFrom lo (Memory.write m a v) = true
  | [], lo, hlo, _ => by
    unfold Memory.write
    split
    · rfl
    · rename_i h
      simp only [Memory.wfFrom, Bool.and_eq_true, decide_eq_true_eq]
      exact ⟨⟨⟨hlo, ha⟩, h⟩, trivial⟩
  | (k, w) :: m, lo, hlo, hm => by
    have hm' := hm
    simp only [Memory.wfFrom, Bool.and_eq_true, decide_eq_true_eq] at hm
    obtain ⟨⟨⟨h1, h2⟩, h3⟩, h4⟩ := hm
    unfold Memory.write
    split
    · rename_i hak
      split
      · exact hm'
      · rename_i hv
        simp only [Memory.wfFrom, Bool.and_eq_true, decide_eq_true_eq]
        exact ⟨⟨⟨hlo, ha⟩, hv⟩, ⟨⟨Nat.succ_le_of_lt hak, h2⟩, h3⟩, h4⟩
    · rename_i hak
      split
      · rename_i he
        split
        · exact Memory.wfFrom_mono (Nat.le_succ_of_le h1) h4
        · rename_i hv
          subst he
          simp only [Memory.wfFrom, Bool.and_eq_true, decide_eq_true_eq]
          exact ⟨⟨⟨hlo, ha⟩, hv⟩, h4⟩
      · rename_i he
        simp only [Memory.wfFrom, Bool.and_eq_true, decide_eq_true_eq]
        exact ⟨⟨⟨h1, h2⟩, h3⟩, Memory.write_wfFrom a v ha m (k + 1) (by omega) h4⟩

/-- A write inside the flash keeps the canonical form. -/
theorem Memory.write_wf {m : List Host.Cell} (a : Nat) (v : Byte) (ha : a < flashSize) (h : Memory.wf m = true) :
    Memory.wf (Memory.write m a v) = true := Memory.write_wfFrom a v ha m 0 (Nat.zero_le a) h

/-- The memory made of any list of cells is canonical. -/
theorem Memory.ofCells_wf : ∀ cells : List Host.Cell, Memory.wf (Memory.ofCells cells) = true
  | [] => rfl
  | c :: cells => by
    have ih := Memory.ofCells_wf cells
    show Memory.wf (if c.1 < flashSize then Memory.write (Memory.ofCells cells) c.1 c.2 else Memory.ofCells cells) = true
    split
    · rename_i h
      exact Memory.write_wf c.1 c.2 h ih
    · exact ih

/-- An address below every listed one reads as an unlisted byte. -/
theorem Memory.read_below : ∀ (m : List Host.Cell) (lo a : Nat), Memory.wfFrom lo m = true → a < lo →
    Memory.read m a = Memory.unlisted
  | [], _, _, _, _ => rfl
  | (k, v) :: m, lo, a, h, ha => by
    simp only [Memory.wfFrom, Bool.and_eq_true, decide_eq_true_eq] at h
    obtain ⟨⟨⟨h1, _⟩, _⟩, h4⟩ := h
    have hk : k ≠ a := by omega
    simp only [Memory.read, hk, if_false]
    exact Memory.read_below m (k + 1) a h4 (by omega)

/-- A byte reads as written, and every other byte as before. -/
theorem Memory.read_write (a b : Nat) (v : Byte) : ∀ (m : List Host.Cell) (lo : Nat), Memory.wfFrom lo m = true →
    Memory.read (Memory.write m a v) b = if b = a then v else Memory.read m b
  | [], lo, _ => by
    unfold Memory.write
    by_cases hv : v = Memory.unlisted <;> by_cases hb : b = a
    · simp [hv, hb, Memory.read]
    · simp [hv, hb, Memory.read]
    · simp [hv, hb, Memory.read]
    · have : a ≠ b := fun e => hb e.symm
      simp [hv, hb, Memory.read, this]
  | (k, w) :: m, lo, h => by
    have h' := h
    simp only [Memory.wfFrom, Bool.and_eq_true, decide_eq_true_eq] at h
    obtain ⟨⟨⟨h1, h2⟩, h3⟩, h4⟩ := h
    unfold Memory.write
    by_cases hak : a < k
    · simp only [hak, if_true]
      by_cases hv : v = Memory.unlisted
      · simp only [hv, if_true]
        by_cases hb : b = a
        · subst hb
          simp only [if_true]
          have hk : k ≠ b := by omega
          simp only [Memory.read, hk, if_false]
          exact Memory.read_below m (k + 1) b h4 (by omega)
        · simp [hb]
      · simp only [hv, if_false]
        by_cases hb : b = a
        · simp [hb, Memory.read]
        · have : a ≠ b := fun e => hb e.symm
          simp [hb, Memory.read, this]
    · simp only [hak, if_false]
      by_cases he : a = k
      · subst he
        simp only [if_true]
        by_cases hv : v = Memory.unlisted
        · simp only [hv, if_true]
          by_cases hb : b = a
          · subst hb
            simp only [if_true]
            exact Memory.read_below m (b + 1) b h4 (by omega)
          · have : a ≠ b := fun e => hb e.symm
            simp [hb, Memory.read, this]
        · simp only [hv, if_false]
          by_cases hb : b = a
          · simp [hb, Memory.read]
          · have : a ≠ b := fun e => hb e.symm
            simp [hb, Memory.read, this]
      · simp only [he, if_false, Memory.read]
        by_cases hkb : k = b
        · subst hkb
          have : ¬ k = a := fun e => he e.symm
          simp [this]
        · simp only [hkb, if_false]
          exact Memory.read_write a b v m (k + 1) h4

end Sys2Proof.Machine
end

