-- ==== Sys2Proof/Tests/Slice0.lean ====
section
/-!
SUPPORT. The model's own tests: an ill-formed command for each check of `Instr.wellFormed`, the manual's worked numbers,
and for every obligation with hypotheses a concrete state and operands that meet them, for a statement of several clauses at
the values where the clauses meet. A statement about the line is met with no sample before the last: the state `u` is `s`.
-/
namespace Sys2Proof.Tests

-- One test after another: elaborated side by side, their threads' stacks pass the limit of check.sh.
set_option Elab.async false

open Sys2Proof.Machine

/-! ## States to test on -/

/-- Consecutive bytes from an address, those that an erased flash reads left out. -/
def cellsAt (a : Nat) : List Nat → List Host.Cell
  | [] => []
  | b :: rest => if b = 255 then cellsAt (a + 1) rest else (a, BitVec.ofNat 8 b) :: cellsAt (a + 1) rest

/-- A flash with unit identity 7 and the least image: no cue, and eight profiles of holdoff 1, window 3 and settle 2. -/
def goodFlash : List Host.Cell :=
  cellsAt 0 [0, 0, 0, 7, 255, 255, 255, 248] ++
    cellsAt 4096
      [0x4E, 0x53, 1, 0, 0, 0, 5, 156, 7, 1, 0, 32, 0, 0, 0, 58, 2, 0, 0, 0, 0, 0, 220, 3, 0, 0, 0, 0, 0, 222, 4, 0, 0, 0, 0, 0,
        224, 5, 1, 0, 0, 0, 0, 226, 6, 0, 8, 0, 0, 2, 228, 7, 0, 16, 0, 0, 5, 54, 0, 32] ++
    cellsAt 4316 [0, 0, 0, 0, 0, 0, 1, 0] ++ cellsAt 4836 [0, 8] ++
    ([0, 1, 2, 3, 4, 5, 6, 7].flatMap fun p => cellsAt (4838 + 74 * p) [0, 1, 0, 3, 2, 255, 255, 255, 255, 1, 0, 0]) ++
    cellsAt 5430 [0, 16] ++
    ([0, 1, 2, 3, 4, 5, 6, 7, 8, 9, 10, 11, 12, 13, 14, 15].flatMap fun p => cellsAt (5432 + 6 * p) [0]) ++
    cellsAt 5528 [0xE2, 0x14, 0xB8, 0x4C]

/-- Cue 0, of one step of ten frames, which ducks group 2. -/
def cue0 : CueRecord :=
  { CueRecord.noCue with
    kind := .sting, level := 5, zoneMask := 1, stepCount := 1, policy := .layer, attack := 1, refire := 2, duckMask := 4 }

/-- Cue 2: a bed of choke group 2 with policy RESTART, whose first step loops and whose second is its tail. -/
def cue2 : CueRecord :=
  { cue0 with
    kind := .bed, level := 2, choke := 2, policy := .restart, duckMask := 0, stepCount := 2, releaseMode := .fade
    releaseTime := 2 }

/-- Show tables of three cues, two steps, one clip, one profile and one compare point. -/
def show_ : ShowTables :=
  { ShowTables.reset with
    cues := [cue0, { cue0 with kind := .bed, level := 2, choke := 1, policy := .ignore }, cue2]
    steps := [{ clip := 0, start := 0, length := 10, gain := 128 }, { clip := 0, start := 10, length := 10, gain := 64 }]
    clips := [{ address := 0x100000, length := 100 }]
    profiles :=
      [{ holdoff := 1, window := 3, settle := 2, falseCue := some 0, noClaimCue := some 0, eligible := [(0, 0), (3, 0)] }]
    inputMap := List.replicate 24 none ++ [some 0]
    compare := [{ enabled := true, value := 4, cue := 0 }] }

/-- Station 0 in a state, with its receiver OUTSIDE, an idle line, and output 0 in zone 0, at 100 ms. -/
def station (st : StationState) : State :=
  { State.reset with
    now := 24000000, stationClock := 100000, tables := show_
    member := { State.reset.member with state := st, identity := 7, signature := 9 }
    line := { State.reset.line with rx := .outside, idleCount := 300, highs := 300 }
    outputs := State.reset.outputs.set 0 { Output.reset with zone := 0 } }

/-- The receive queue holds one frame of a station, which became the head at moment 0. -/
def rxOf (sender : Byte) (f : LineFrame) : RxEntry := { frame := encodeFrame sender f, edge := 99000, joining := false }

/-- The station with one frame of another at the head of its receive queue. -/
def hearing (st : StationState) (sender : Byte) (f : LineFrame) : State :=
  { station st with rxq := { entries := [rxOf sender f], headSince := 0 } }

/-- An entry of the transmit queue. -/
def txOf (f : LineFrame) (fails : Nat) : TxEntry :=
  { frame := encodeFrame 0 f, producer := .panelPort, cls := f.kind.cls, seq := 0, fails := fails, withdrawn := false,
    placedAt := 0 }

/-- A frame's characters as read without error. -/
def readChars (l : List Byte) : List ReadChar := l.map fun b => readLineBits (lineBits b)

/-- The station with its line changed. -/
def lineOf (f : LineInterface → LineInterface) (s : State) : State := { s with line := f s.line }

/-- An attempt of the entry 0 in a phase. -/
def attemptIn (p : AttemptPhase) : Attempt := { entry := 0, phase := p, edge := some 5, clean := true }

/-- An ACTIVE station whose receiver is in a state, in the middle of an attempt of a HUSH that has failed `fails` times. -/
def sending (rx : RxState) (phase : AttemptPhase) (fails : Nat) : State :=
  { lineOf (fun l =>
      { l with
        rx := rx, driver := .attempt, assembling := true, breakEdge := 5, attempt := some (attemptIn phase)
        frame := readChars (encodeFrame 0 (.hush 1)) }) (station .active) with
    txq := { entries := [txOf (.hush 1) fails], nextSeq := 1 } }

/-- A PLAYING voice of cue 0 at its first frame. -/
def voice0 : Voice :=
  { Voice.reset with
    state := .playing, level := 5, primed := true, buffer0 := { first := 0, frames := [100, 200] }
    cursor := some { step := 0, pos := 2, passes := 0 } }

/-- A voice of cue 2, whose first step is before its tail. -/
def voice2 : Voice := { voice0 with cue := 2, level := 2, trim := 128, gainTarget := 128, gainNow := 128 * 65536 }

/-- The station with a voice in a slot. -/
def withVoice (i : Fin 16) (v : Voice) (s : State) : State := setVoice i v s

/-- The station with a round of station 3, number 1, in a state. -/
def inRound (state : RoundState) (s : State) : State :=
  withRound (fun r => { r with state := state, identity := some (3, 1), reference := 97000 }) s

/-- The round with a reference. -/
def since (w : Word) (s : State) : State := withRound (fun r => { r with reference := w }) s

/-- The station whose Panel Port is taking a command's characters. -/
def atPanel (s : State) : State := { s with panel := { s.panel with rx := .assembling } }

/-- Clock 0 RUNNING at a value, with its phase reached. -/
def running (value : Triple) (s : State) : State :=
  withClock 0 (fun r => { r with state := .running, value := value, phase := some 99999 }) s

/-- The station whose monitor has a mode and whose last frame clock was some time ago. -/
def clocked (mode : ClockMode) (ago : Nat) (s : State) : State :=
  { s with wclk := { mode := mode, reference := s.now - ago, miss := 3, recovery := 479, lastEdge := some (s.now - 4750) } }

/-- A request for two frames of the voice of slot 0. -/
def twoFrames : Request :=
  { slot := 0, second := false, first := 0, length := 2, seq := 0, segments := [{ clip := 0, first := 0, count := 2 }] }

/-- The station with the read of these two frames in flight, complete now. -/
def reading (owned : Bool) (v : Voice) : State :=
  let s := withVoice 0 v (station .active)
  { s with fetch := { s.fetch with flight := some { request := twoFrames, owned := owned, doneAt := s.now } } }

/-- A PRIMING voice of cue 0. -/
def priming : Voice := { voice0 with state := .priming, primed := false, buffer0 := Buffer.empty }

/-- The station with a full receive queue. -/
def fullRx (s : State) : State := { s with rxq := { entries := List.replicate 8 (rxOf 3 (.hush 1)), headSince := 0 } }

/-- The station with a full transmit queue. -/
def fullTx (s : State) : State := { s with txq := { entries := List.replicate 4 (txOf (.hush 1) 0), nextSeq := 4 } }

/-- The station with voice 0 of cue 0 in every slot. -/
def fullPool : State := slots.foldl (fun s i => withVoice i voice0 s) (station .active)

/-- A frame stands at the head, when all that this asks for is so and its sender is ABSENT. -/
theorem stands_of (s : State) (e : RxEntry) (f : LineFrame)
    (h : s.rxq.entries.head? = some e ∧ parseFrame e.frame = some f ∧ s.rxq.headSince + 480 ≤ s.now ∧ e.joining = false ∧
      (peerOf s (senderOf e.frame)).map Peer.state = some .absent ∧
      (s.member.state = .active ∨ s.member.state = .listening)) : standsAtHead s e f := by
  obtain ⟨h1, h2, h3, h4, h5, h6⟩ := h
  refine ⟨h1, h2, h3, h4, ?_, h6⟩
  cases hp : peerOf s (senderOf e.frame) with
  | none => rw [hp] at h5; exact absurd h5 (by simp)
  | some p =>
    rw [hp] at h5
    have h7 : p.state = .absent := by simpa using h5
    exact ⟨p, rfl, by rw [h7]; decide⟩

/-! ## Ill-formed commands -/

theorem test_illFormed_imageLoad : (Instr.imageLoad [(5, 0xFF)]).wellFormed = false := by decide

/-- A line row without a sample. -/
theorem test_illFormed_line : [Instr.syncIdle [], .breakDetect [], .gapError [], .lineStuck [], .stuckRecovery [],
    .attemptStart [], .arbitrationLost [], .bitError [], .jam [], .vetoSlotStart [], .frameAccepted [], .frameVetoed [],
    .frameDropped [], .headerUnusable [], .strayStartBit []].all (fun c => !c.wellFormed) = true := by decide

/-- A panel row with no character, and with a frame of another command. -/
theorem test_illFormed_panel :
    ([[], commandFrame .readRound].all fun f => [Instr.fire f, .release f, .hush f, .arm f, .clock f, .status f, .readVoice f,
      .readStack f, .readClaim f, .readPeer f, .readClock f, .readOutput f, .readFaults f, .clearFaults f, .reports f,
      .reload f, .badCheck f].all (fun c => !c.wellFormed)) = true ∧
    (Instr.readRound []).wellFormed = false ∧ (Instr.readRound (commandFrame .status)).wellFormed = false ∧
    (Instr.badCommand (cleanChar (panelBits 0x01))).wellFormed = false := by decide +kernel

/-- A well-formed command for each of the same checks. -/
theorem test_wellFormed : [Instr.imageLoad goodFlash, .syncIdle [true], .breakDetect [false], .gapError [true],
    .lineStuck [false], .stuckRecovery [true], .attemptStart [true], .arbitrationLost [false], .bitError [true], .jam [false],
    .vetoSlotStart [true], .frameAccepted [true], .frameVetoed [false], .frameDropped [false], .headerUnusable [true],
    .strayStartBit [false]].all Instr.wellFormed = true := by decide +kernel

/-- The frames that a host sends are well-formed at their rows. -/
theorem test_wellFormed_panel : [PanelCommand.status, .fire 300 128, .release 300 1, .hush 3, .arm 2, .clock 1 2 4000,
    .readVoice 3, .readStack 0, .readRound, .readClaim 31, .readPeer 4, .readClock 1, .readOutput 2, .readFaults, .clearFaults,
    .reports 5, .reload].all (fun c => (commandInstr c (commandFrame c)).wellFormed) = true ∧
    (Instr.badCommand (cleanChar (panelBits 7))).wellFormed = true ∧
    (Instr.badCheck [cleanChar (panelBits 0x01 ^^^ 2)]).wellFormed = true ∧
    (Instr.badCheck [cleanChar (panelBits 0x01), cleanChar (panelBits 0)]).wellFormed = true := by decide +kernel

/-! ## The manual's worked numbers -/

/-- R135: a FIRE from station 4 for cue 300, origin PANEL, tag 17 and trim 128 has the check 0xA8. -/
theorem test_fireCheck :
    encodeFrame 4 (.fire 300 1 17 128) = [239, 4, 1, 44, 1, 0, 17, 128, 0xA8] := by decide

/-- R193: READ_CLOCK for clock 1 has the check 0x8F. -/
theorem test_readClockCheck : commandChars (.readClock 1) = [0x15, 0x01, 0x8F] := by decide

/-- Table 10-2: the signature after the bytes 78, 83 and 1. -/
theorem test_signature : signatureOf [78] = 209 ∧ signatureOf [78, 83] = 27462 ∧ signatureOf [78, 83, 1] = 3597523 := by decide

/-- R115: 0xA7 as it is sent, start bit first, most significant data bit first, five highs and so a low parity bit. -/
theorem test_lineBits : lineBits 0xA7 = 0b10111001010 := by decide

/-- R173: 0xA7 on the Panel Port, least significant data bit first, five highs and so a high parity bit. -/
theorem test_panelBits : panelBits 0xA7 = 0b11101001110 := by decide

/-- The least image passes every stage, and its station enters JOINING with its JOIN placed. -/
theorem test_goodImage :
    (match loadImage (Memory.ofCells goodFlash) with
    | .ok i => decide (i.identity = 7) && decide (i.signature = 0xE214B84C)
    | .error _ => false) = true := by decide +kernel

/-- A reset block takes no image from an erased flash: the unit block fails. -/
theorem test_erasedFlash : loadImage (Memory.ofCells []) = .error .unitBlock := by
  have h : unitIdentity (Memory.ofCells []) = none := by decide +kernel
  unfold loadImage
  rw [h]

/-- R117: 176 low samples are a break, whose edge is the clock value of the first; 175 are not. -/
theorem test_breakSamples :
    (runLine (List.replicate 176 false) (station .active)).2 = [.breakDetect] ∧
    (runLine (List.replicate 175 false) (station .active)).2 = [] ∧
    (runLine (List.replicate 176 false) (station .active)).1.line.breakEdge = 100000 - 88 := by decide +kernel

/-- R116: the header of an ARM, read from its 176 samples, with a sample of three bits disturbed. -/
theorem test_characterSamples :
    charactersIn (sampledChar (lineBits 0xA7) 4 8 256) .hunting =
      (.hunting, [{ value := 0xA7, parityError := false, framingError := false }]) := by decide +kernel

/-! ## States and operands that meet the hypotheses of the obligations -/

/-- Events come to be due: an expiry, a decrement, a frame clock, a completion, an old record, a head that has stood for 2 ms
and a report. -/
theorem test_hyps_IdleStepIsOneTick :
    (station .active).pending = [] ∧ (({ station .active with now := 119 }).now + 1) % 240 ≠ 0 ∧
    (({ station .active with now := 239 }).now + 1) % 240 = 0 ∧
    16777215 ≤ ({ station .active with stationClock := 16777215 }.stationClock -
      (station .active).lockout.round.reference).toNat ∧
    dueEvents (inRound .holdoff (station .active)) = [.holdoffExpiry, .frameClock] ∧
    dueEvents (inRound .isOpen (station .active)) = [.windowExpiry, .frameClock] ∧
    dueEvents (since 95000 (inRound .settling (station .active))) = [.settleExpiry, .frameClock] ∧
    dueEvents (running 5 (clocked .locked 6249 (station .active))) = [.clockDecrement 0] ∧
    dueEvents (clocked .locked 6250 (station .active)) = [.substituteFrameClock] ∧
    dueEvents (clocked .intern 4999 (reading true priming)) = [.blockCompletion] ∧
    dueEvents (clocked .intern 4999 (reading false priming)) = [.discardedCompletion] ∧
    dueEvents (clocked .intern 0 (setLastAccepted 2 (100000 - 2147483648) (station .active))) = [.lastAcceptedExpiry 2] ∧
    dueEvents (clocked .intern 0 (hearing .active 3 (.arm 1 0))) = [.takeArm] ∧
    dueEvents (clocked .intern 0 (setFault .clip (station .active))) = [.reportFault] := by decide +kernel

theorem test_hyps_ImageLoadFillsTablesOrFails :
    (station .active).member.state ≠ .loading ∧ State.reset.member.state = .loading ∧
    (∃ i, loadImage (Memory.ofCells goodFlash) = .ok i) ∧ State.reset.straps.listen = false ∧ State.reset.txq.entries = [] ∧
    ∃ r, loadImage (Memory.ofCells []) = .error r := by
  refine ⟨by decide, by decide, ?_, by decide, by decide, _, test_erasedFlash⟩
  have h := test_goodImage
  revert h
  cases loadImage (Memory.ofCells goodFlash) with
  | ok i => exact fun _ => ⟨i, rfl⟩
  | error r => exact fun h => absurd h Bool.false_ne_true

/-- The least image with one byte of its flash changed. -/
def spoiled (a : Nat) (v : Byte) : List Host.Cell := Memory.write goodFlash a v

/-- One check of each kind fails: the unit block, the header, the signature; and of the record checks a value out of its range
and a reference to nothing. -/
theorem test_hyps_loadReasons :
    numberOf ((Memory.readRange (spoiled 3 8) 0 8).take 4) +
      numberOf (((Memory.readRange (spoiled 3 8) 0 8).drop 4).take 4) ≠ 4294967295 ∧
    numberOf ((Memory.readRange goodFlash 0 8).take 4) + numberOf (((Memory.readRange goodFlash 0 8).drop 4).take 4) =
      4294967295 ∧
    numberOf ((imageBytes (spoiled 4096 0) 0 58).take 4) ≠ 0x4E530100 ∧
    numberOf ((imageBytes goodFlash 0 58).take 4) = 0x4E530100 ∧
    numberOf (imageBytes (spoiled 5531 0) (numberOf (((imageBytes goodFlash 0 58).drop 4).take 4) - 4) 4) ≠ 0xE214B84C ∧
    checkStation [0, 8, 255, 255, 0] = some .limit ∧ checkInput [4, 0] = some .reference ∧ checkInput [3, 255] = none ∧
    checkCompare [1, 0, 0, 4, 4, 0] = some .reference ∧ checkCompare [0, 0, 0, 4, 4, 0] = none := by decide +kernel

/-- The station with a HUSH to send. -/
def toSend (s : State) : State := { s with txq := { entries := [txOf (.hush 1) 0], nextSeq := 1 } }

/-- SYNC and STUCK at 223 and 222 highs, with and without a frame to send, OUTSIDE with each of its searches, a break's
end, and a gap at its last sample. -/
theorem test_hyps_QuietLineEvents :
    let at_ := fun rx hunt highs gap =>
      lineOf (fun l => { l with rx := rx, hunt := hunt, highs := highs, gapLeft := gap }) (station .active)
    (at_ .sync .hunting 223 0).line.rx = .sync ∧ (at_ .stuck .hunting 223 0).line.rx = .stuck ∧
    223 ≤ (at_ .sync .hunting 223 0).line.highs ∧ (at_ .sync .hunting 222 0).line.highs < 223 ∧
    (station .active).line.attempt = none ∧ (station .active).line.jamLeft = 0 ∧ (station .active).line.vetoOwed = none ∧
    (station .active).line.rx = .outside ∧ (station .active).line.hunt = .hunting ∧ shortLow (station .active) false ∧
    (at_ .outside (.reading 9 1 0) 0 0).line.hunt = .reading 9 1 0 ∧ 1 + Bool.high false < 2 ∧ 2 ≤ 1 + Bool.high true ∧
    (at_ .inBreak .hunting 0 0).line.rx = .inBreak ∧ (at_ .between .hunting 7 1).line.rx = .between ∧
    mayAttempt (toSend (at_ .sync .hunting 223 0)) (txOf (.hush 1) 0) ∧ (∀ e, ¬ mayAttempt (station .active) e) ∧
    (at_ .headerWait .hunting 7 2).line.gapLeft = 2 ∧ (at_ .between .hunting 7 1).line.gapLeft ≤ 1 ∧
    (at_ .between (.reading 9 2 1) 7 1).line.hunt = .reading 9 2 1 := by
  refine ⟨rfl, rfl, ?_⟩
  exact ⟨by decide, by decide, rfl, rfl, rfl, rfl, rfl, Or.inr (by decide), rfl, by decide, by decide, rfl, rfl,
    ⟨by decide, Or.inl rfl⟩, fun e h => (nofun : (none : Option TxEntry) ≠ some e) h.1, rfl, by decide, rfl⟩

theorem test_hyps_BreakDetectCapturesEdge :
    let s := lineOf (fun l => { l with rx := .slot, lows := 175 }) (station .active)
    let a := lineOf (fun l => { l with lows := 175, attempt := some { attemptIn (.breaking 176) with edge := none } })
      (station .active)
    s.line.rx ≠ .off ∧ s.line.rx ≠ .sync ∧ s.line.rx ≠ .stuck ∧ s.line.jamLeft = 0 ∧ s.line.lows = 175 ∧
    s.line.attempt = none ∧ a.line.attempt = some { attemptIn (.breaking 176) with edge := none } ∧
    (station .active).line.lows = 0 ∧ 0 < s.line.lows ∧ (station .active).line.rx ≠ .off ∧
    s.stationClock = BitVec.ofNat 32 (s.now / 240) ∧ 175 * sampleTicks s.straps.lrate ≤ s.now := by decide +kernel

/-- The 1024th and the 1025th low, without and with a withdrawn frame in its break. -/
theorem test_hyps_LineStuckEndsAttempt :
    let low := fun n => lineOf (fun l => { l with lows := n }) (sending .inBreak .waiting 0)
    let w := { low 1024 with txq := { entries := [{ txOf (.hush 1) 0 with withdrawn := true }], nextSeq := 1 } }
    (low 1024).line.rx ≠ .off ∧ (low 1024).line.rx ≠ .stuck ∧ (low 1023).line.lows < 1024 ∧ 1024 ≤ (low 1024).line.lows ∧
    (low 1024).panel.faultSet .lineStuck = false ∧ (∀ x ∈ (low 1024).txq.entries, x.withdrawn = false) ∧
    (low 1024).line.attempt = some (attemptIn .waiting) ∧
    txEntry w 0 = some { txOf (.hush 1) 0 with withdrawn := true } ∧
    [Producer.panelPort, .membership, .lockoutUnit, .clockUnit].all (fun p => !holds w p) = true := by decide +kernel

/-- Idle comes to hold at the next high sample, and not one before; a stray start bit of noise; a LISTENING and a JOINING station;
and the last sample of each part of an attempt. -/
theorem test_hyps_AttemptSendsMostUrgentFrame :
    let at_ := fun n => lineOf (fun l => { l with idleCount := n }) (toSend (station .active))
    let noise := lineOf (fun l => { l with idleCount := 224, hunt := .reading 9 1 0 }) (toSend (station .active))
    let v := playLine [true] 0 noise
    mayAttempt (at_ 223) (txOf (.hush 1) 0) ∧ (at_ 223).line.rx = .outside ∧ (at_ 223).line.hunt = .hunting ∧
    223 ≤ (at_ 223).line.idleCount ∧ (at_ 223).line.attempt = none ∧ (at_ 223).line.vetoOwed = none ∧
    (at_ 223).line.jamLeft = 0 ∧ v.line.rx = .outside ∧ 224 ≤ v.line.idleCount ∧ v.line.hunt.pending = false ∧
    v.line.vetoOwed = none ∧ v.line.jamLeft = 0 ∧ (playLine [true] 0 (at_ 222)).line.idleCount < 224 ∧
    (∀ e, ¬ mayAttempt (toSend (station .listening)) e) ∧ (∀ e, ¬ mayAttempt (toSend (station .joining)) e) ∧
    (sending .outside (.breaking 191) 0).line.attempt = some (attemptIn (.breaking 191)) ∧
    (sending .outside (.mark 31) 0).line.attempt = some (attemptIn (.mark 31)) ∧
    (sending .outside (.sending 703 0) 0).line.attempt = some (attemptIn (.sending 703 0)) := by
  refine ⟨⟨by decide, Or.inl rfl⟩, rfl, rfl, by decide, rfl, rfl, rfl, by decide +kernel, by decide +kernel, by decide +kernel,
    by decide +kernel, by decide +kernel, by decide +kernel, ?_, ?_, rfl, rfl, rfl⟩
  · rintro e ⟨_, h | h⟩
    · exact absurd h (by decide)
    · exact absurd h.1 (by decide)
  · rintro e ⟨he, h | h⟩
    · exact absurd h (by decide)
    · have hd : txHead (placedEntries (toSend (station .joining))) = some (txOf (.hush 1) 0) := by decide
      cases hd.symm.trans he
      exact absurd h.2 (by decide)

/-- The station with a frame placed at this moment. -/
def placedNow (s : State) : State :=
  { s with txq := { entries := [{ txOf (.hush 1) 0 with placedAt := s.now }], nextSeq := 1 } }

/-- R122: a frame placed while idle holds begins at the next high sample, here the last of five; one that was there at the first of
them begins there. -/
theorem test_attemptAfterPlacing :
    let s := placedNow (station .active)
    mayAttempt s { txOf (.hush 1) 0 with placedAt := s.now } ∧ 223 ≤ s.line.idleCount ∧
    (∀ x ∈ s.txq.entries, s.now - sampleTicks s.straps.lrate < x.placedAt) ∧
    (runLine (List.replicate 5 true) s).2 = [.attemptStart] ∧
    (runLine (List.replicate 5 true) (toSend (station .active))).2 = [] ∧
    (playLine (List.replicate 5 true) 0 (toSend (station .active))).line.driver = .attempt :=
  ⟨⟨by decide, Or.inl rfl⟩, by decide, by decide, by decide +kernel, by decide +kernel, by decide +kernel⟩

/-- R122: the sample at which idle comes to hold begins the attempt of the head, whatever row it comes with; with nothing to send,
or a sample earlier, none begins. -/
theorem test_attemptBegins :
    let sync := fun n => lineOf (fun l => { l with rx := .sync, highs := n }) (toSend (station .active))
    (runLine [true] (sync 223)).2 = [.syncIdle, .attemptStart] ∧ (runLine [true] (sync 222)).2 = [] ∧
    (lineCommand .syncIdle [true] (sync 223)).line.driver = .attempt ∧
    (runLine [true] (station .active)).2 = [] := by decide +kernel

/-- The bits of a HUSH's attempt: bit 8 of the header sent high; its stop bit; bit 9 of the station character sent high; the
start bit and the stop bit of the check character; and a JOIN's field, which runs to the check. -/
theorem test_hyps_LostBitsEndTheAttempt :
    let e := txOf (.hush 1) 6
    let at_ := fun k => sending .character (.sending k 1) 6
    let a := fun k => attemptIn (.sending k 1)
    readsBack (at_ 137) (a 137) e 0 8 1 ∧ readsBack (at_ 169) (a 169) e 0 10 1 ∧ readsBack (at_ 329) (a 329) e 1 9 1 ∧
    readsBack (at_ 537) (a 537) e 3 0 1 ∧ readsBack (at_ 697) (a 697) e 3 10 1 ∧
    sentLevel e.frame 0 8 = true ∧ sentLevel e.frame 1 9 = true ∧ sentLevel e.frame 3 0 = false ∧
    sentLevel e.frame 3 10 = true ∧ sentLevel e.frame 0 10 = true ∧ arbitrationField e (a 0) = 2 ∧
    arbitrationField (txOf (.join 0 7 9) 0) (a 0) = 11 ∧ (txOf (.join 0 7 9) 0).frame.length = 12 ∧
    isBitError e (a 537) 3 0 true ∧ isBitError e (a 697) 3 10 false ∧ ¬ isBitError e (a 169) 0 10 false ∧
    e.withdrawn = false ∧ e.fails < 7 ∧ e.frame.length = 4 ∧ (at_ 537).line.vetoOwed = none ∧
    (at_ 537).line.lows < 1024 := by
  refine ⟨⟨by decide, rfl, by decide, by decide, rfl⟩, ⟨by decide, rfl, by decide, by decide, rfl⟩,
    ⟨by decide, rfl, by decide, by decide, rfl⟩, ⟨by decide, rfl, by decide, by decide, rfl⟩,
    ⟨by decide, rfl, by decide, by decide, rfl⟩, by decide, by decide, by decide, by decide, by decide, by decide, by decide,
    by decide, ⟨by decide, Or.inl (by decide)⟩, ⟨by decide, Or.inr (by decide)⟩, ?_, rfl, by decide, by decide, rfl, by decide⟩
  rintro ⟨_, h | h⟩
  · exact absurd h (by decide)
  · exact absurd h (by decide)

/-- An attempt that has sent its frame, in the last sample of a slot whose second bit time has read high `high` times. -/
def atSlotEnd (high fails : Nat) : State :=
  lineOf (fun l => { l with passed := 31, slotFirst := 3, slotSecond := high }) (sending .slot (.slot 47 3 high) fails)

/-- A receiver in the last sample of a slot, with a HUSH assembled and no attempt of its own. -/
def inSlot (st : StationState) (check : Byte) (high : Nat) : State :=
  lineOf (fun l =>
    { l with rx := .slot, passed := 31, slotFirst := 3, slotSecond := high, frame := readChars [7, 4, 3, check] }) (station st)

theorem test_hyps_VetoCountsOneFailure :
    let s := atSlotEnd 1 6
    let n := inSlot .active 0x4C 1
    slotEnds s true ∧ ¬ slotHigh s ∧ slotHigh (atSlotEnd 2 6) ∧ slotEnds n false ∧ ¬ slotHigh n ∧ n.line.attempt = none ∧
    s.line.attempt = some (attemptIn (.slot 47 3 1)) ∧ txEntry s 0 = some (txOf (.hush 1) 6) ∧
    (txOf (.hush 1) 6).withdrawn = false ∧ (txOf (.hush 1) 6).fails < 7 ∧ s.line.vetoOwed = none ∧
    (lineOf (fun l => { l with passed := 30 }) n).line.passed < 31 := by
  refine ⟨⟨rfl, rfl, rfl, Or.inl rfl⟩, ?_, ⟨by decide, by decide⟩, ⟨rfl, rfl, rfl, Or.inr (by decide)⟩, ?_, rfl, rfl, by decide,
    rfl, by decide, rfl, by decide⟩
  · exact fun h => absurd h.2 (by decide)
  · exact fun h => absurd h.2 (by decide)

/-- Both causes: the veto of a slot, and a bit error in the check character; and a JOINING station's JOIN. -/
theorem test_hyps_EighthFailureDropsFrame :
    let s := atSlotEnd 1 7
    let t := sending .character (.sending 537 1) 7
    let e := txOf (.hush 1) 7
    let j := { s with
      member := { s.member with state := .joining }, txq := { entries := [txOf (.join 0 7 9) 7], nextSeq := 1 } }
    s.line.attempt = some (attemptIn (.slot 47 3 1)) ∧ txEntry s 0 = some e ∧ e.withdrawn = false ∧ e.fails = 7 ∧
    slotEnds s true ∧ ¬ slotHigh s ∧ t.line.rx ≠ .slot ∧ txEntry t 0 = some e ∧
    readsBack t (attemptIn (.sending 537 1)) e 3 0 1 ∧ isBitError e (attemptIn (.sending 537 1)) 3 0 true ∧
    s.panel.faultSet .txDropped = false ∧ parseFrame e.frame = some (.hush 1) ∧ e.producer = .panelPort ∧
    s.member.state ≠ .joining ∧ [Producer.panelPort, .membership, .lockoutUnit, .clockUnit].all (fun p => !holds s p) = true ∧
    j.member.state = .joining ∧ txEntry j 0 = some (txOf (.join 0 7 9) 7) ∧ slotEnds j true ∧
    kindOf (txOf (.join 0 7 9) 7).frame = some .join ∧ j.txq.entries.length ≤ 4 := by
  refine ⟨rfl, by decide, rfl, rfl, ⟨rfl, rfl, rfl, Or.inl rfl⟩, ?_, by decide, by decide,
    ⟨by decide, rfl, by decide, by decide, rfl⟩, ⟨by decide, Or.inl (by decide)⟩, by decide, by decide, rfl, by decide,
    by decide, rfl, by decide, ⟨rfl, rfl, rfl, Or.inl rfl⟩, by decide, by decide⟩
  exact fun h => absurd h.2 (by decide)

theorem test_hyps_AcceptedFrameIsQueued :
    let s := inSlot .active 0x4C 2
    slotEnds s true ∧ slotHigh s ∧ ¬ slotHigh (inSlot .active 0x4C 1) ∧ s.line.attempt = none ∧ s.line.vetoOwed = none ∧
    frameErrors s.line.frame = false ∧ s.rxq.entries.length < 8 ∧
    8 ≤ (fullRx (inSlot .listening 0x4C 2)).rxq.entries.length ∧
    (inSlot .listening 0x4C 2).member.state = .listening ∧ frameErrors (inSlot .listening 0x4D 2).line.frame = true := by
  refine ⟨⟨rfl, rfl, rfl, Or.inl rfl⟩, ⟨by decide, by decide⟩, ?_, rfl, rfl, by decide, by decide, by decide, rfl, by decide⟩
  exact fun h => absurd h.2 (by decide)

/-- A sender with no held frame, and one with a JOIN held, two CLAIMs of one capture, a CLOSE or two copies of one moment alone,
and with a JOIN and a CLOSE while three other entries stay. -/
theorem test_hyps_OwnFrameAcceptedLeavesQueue :
    let s := atSlotEnd 3 0
    let others := { s with txq := { entries := txOf (.hush 1) 0 :: [1, 2, 3].map fun n => { txOf (.hush 1) 0 with seq := n }
                                    nextSeq := 4 } }
    let join := fun s : State => { s with member := { s.member with heldJoin := some true } }
    let claims := withRound (fun r =>
      { r with ownClaim := (r.ownClaim.set 0 (.held false 1000)).set 1 (.held true 1000) }) s
    let close := withRound (fun r => { r with ownClose := .held })
    let copies := setCopy 0 0 (.held 0 5 1) (setCopy 1 0 (.held 0 5 0) s)
    slotEnds s true ∧ slotHigh s ∧ s.line.attempt = some (attemptIn (.slot 47 3 3)) ∧
    txEntry s 0 = some (txOf (.hush 1) 0) ∧ frameErrors s.line.frame = false ∧ s.rxq.entries.length < 8 ∧
    [Producer.panelPort, .membership, .lockoutUnit, .clockUnit].all (fun p => !holds s p) = true ∧
    (s.txq.entries.filter fun x => x.seq != 0).length < 4 ∧ (others.txq.entries.filter fun x => x.seq != 0).length = 3 ∧
    (join s).member.heldJoin = some true ∧ holds (join s) .lockoutUnit = false ∧ holds (join s) .clockUnit = false ∧
    claims.lockout.round.ownClaim[(0 : Fin 8)] = .held false 1000 ∧ bestClaim claims.lockout.round = some (0, false, 1000) ∧
    claims.member.heldJoin = none ∧ holds claims .clockUnit = false ∧ (close s).lockout.round.ownClose = .held ∧
    bestClaim (close s).lockout.round = none ∧ (clockOf copies 0).copies[(0 : Fin 4)] = .held 0 5 1 ∧
    bestCopy copies = some (0, 0) ∧ holds copies .lockoutUnit = false ∧
    holds (join (close others)) .membership = true ∧ holds (join (close others)) .lockoutUnit = true := by
  refine ⟨⟨rfl, rfl, rfl, Or.inl rfl⟩, ⟨by decide, by decide⟩, rfl, ?_⟩
  decide +kernel

/-- The stop bit of a header and of a check character; the mark at its last sample and the one before, with each reason to veto;
and an owed veto where it begins and ends. -/
theorem test_hyps_VetoSlotDecision :
    let c := lineOf (fun l => { l with rx := .character, hunt := .reading 169 2 (lineBits 0x4C), assembling := true })
      (station .active)
    let last := lineOf (fun l => { l with frame := readChars [7, 4, 3] }) c
    let mark := fun frame : List Byte =>
      lineOf (fun l => { l with rx := .endMark, passed := 21, frame := readChars frame }) (station .active)
    let own := lineOf (fun l => { l with passed := 21 }) (sending .endMark (.slot 15 0 0) 0)
    let owed := fun n => lineOf (fun l => { l with vetoOwed := some n }) (station .active)
    c.line.hunt = .reading 169 2 (lineBits 0x4C) ∧ c.line.rx = .character ∧ shortLow c true ∧
    ((readChars [7, 4, 3]).head?.bind usableHeader) = some .hush ∧ last.line.frame.length + 1 = FrameKind.length .hush ∧
    (mark []).line.rx = .endMark ∧ (mark []).line.passed = 21 ∧
    (lineOf (fun l => { l with passed := 20 }) (mark [])).line.passed < 21 ∧ own.line.attempt = some (attemptIn (.slot 15 0 0)) ∧
    charSum [7, 32, 3, 0x30] = 0x5A ∧ 31 < (senderOf [7, 32, 3, 0x30]).toNat ∧ charSum [7, 31, 3, 0x4C] ≠ 0x5A ∧
    charSum [7, 31, 3, 0x31] = 0x5A ∧ 8 ≤ (fullRx (mark [])).rxq.entries.length ∧
    (readLineBits (lineBits 7 ^^^ 2)).parityError = true ∧ (mark []).line.vetoOwed = none ∧
    (owed 189).line.vetoOwed = some 189 ∧ (owed 190).line.vetoOwed = some 190 ∧ (owed 221).line.vetoOwed = some 221 ∧
    (owed 222).line.vetoOwed = some 222 ∧ (owed 222).line.attempt = none ∧ (owed 222).line.jamLeft = 0 ∧
    (owed 222).line.jamWait = false ∧ (owed 222).line.lows < 1024 ∧ (owed 222).line.rx ≠ .off ∧ (owed 222).line.rx ≠ .slot ∧
    (owed 222).line.rx ≠ .endMark := by
  refine ⟨rfl, rfl, Or.inl rfl, ?_⟩
  decide +kernel

theorem test_hyps_UnusableHeaderIsJammed :
    let s := fun st => lineOf (fun l => { l with rx := .character, hunt := .reading 169 2 (lineBits 8), assembling := true })
      (station st)
    let w := lineOf (fun l => { l with rx := .between, jamWait := true, jamReady := true }) (station .active)
    let j := fun n => lineOf (fun l => { l with rx := .character, driver := .jam, jamLeft := n, lows := 100 }) (station .active)
    (s .active).line.rx = .character ∧ (s .active).line.hunt = .reading 169 2 (lineBits 8) ∧ shortLow (s .active) false ∧
    usableHeader (readLineBits (lineBits 8)) = none ∧ (s .active).line.frame = [] ∧ (s .listening).member.state ≠ .active ∧
    (s .listening).line.attempt = none ∧
    (lineOf (fun l => { l with assembling := false, jamWait := true }) (s .active)).line.assembling = false ∧
    w.line.jamWait = true ∧ w.line.jamReady = true ∧ w.member.state = .active ∧ w.line.rx = .between ∧
    w.line.hunt = .hunting ∧ w.line.jamLeft = 0 ∧ w.line.lows = 0 ∧ w.line.attempt = none ∧
    (j 175).line.jamLeft = 175 ∧ (j 1).line.jamLeft = 1 ∧ (j 1).line.lows < 1024 ∧ (j 1).line.vetoOwed = none ∧
    (j 1).line.attempt = none ∧ (j 1).line.rx = .character := by
  refine ⟨rfl, rfl, Or.inr (by decide), ?_⟩
  decide +kernel

theorem test_hyps_LineEventsFrame :
    ∃ t, exec (.syncIdle [true]) (station .active) = .next t := ⟨_, rfl⟩

/-! ### Takings -/

/-- Some state stands at its head with each kind of frame. -/
theorem test_heads : ∀ f ∈ [LineFrame.hush 1, .join 0 5 9, .close 3 1 3 0 1000, .claim 3 1 0 0 1000, .arm 1 0, .fire 0 1 1 128,
      .release 0 0, .clock 0 2 1 4, .fire 0 2 1 128], standsAtHead (hearing .active 3 f) (rxOf 3 f) f := by
  intro f hf
  apply stands_of
  revert f
  decide +kernel

theorem test_hyps_TakingRaisesFireOrder :
    standsAtHead (hearing .active 3 (.fire 0 1 1 128)) (rxOf 3 (.fire 0 1 1 128)) (.fire 0 1 1 128) :=
  test_heads _ (by decide)

/-- A frame of the joining mark, one of a station above 31 and one of a FOREIGN station. -/
theorem test_hyps_RemovalHasNoEffect :
    let e := { rxOf 3 (.hush 1) with joining := true }
    let s := { station .active with rxq := { entries := [e], headSince := 0 } }
    let far := { station .active with rxq := { entries := [rxOf 32 (.hush 1)], headSince := 0 } }
    s.rxq.entries.head? = some e ∧ s.rxq.headSince + 480 ≤ s.now ∧ s.member.state = .active ∧ e.joining = true ∧
    kindOf e.frame ≠ some .join ∧ 31 < (senderOf (rxOf 32 (.hush 1)).frame).toNat ∧
    far.rxq.entries.head? = some (rxOf 32 (.hush 1)) ∧
    (let g := updatePeer 3 (fun p => { p with state := .foreign }) (hearing .active 3 (.hush 1))
     (peerOf g (senderOf (rxOf 3 (.hush 1)).frame)).map Peer.state = some .foreign ∧
     kindOf (rxOf 3 (.hush 1)).frame ≠ some .join) := by decide +kernel

/-- The own station's frame stands at the head. -/
theorem test_ownHead : standsAtHead (hearing .active 0 (.fire 0 1 1 128)) (rxOf 0 (.fire 0 1 1 128)) (.fire 0 1 1 128) :=
  ⟨by decide +kernel, by decide +kernel, by decide, rfl, ⟨_, rfl, by decide⟩, Or.inl rfl⟩

/-- A FIRE of origin PANEL at its sender, and one at another station. -/
theorem test_hyps_FirePlaysInLowestIdleSlot :
    let s := hearing .active 0 (.fire 0 1 1 128)
    standsAtHead s (rxOf 0 (.fire 0 1 1 128)) (.fire 0 1 1 128) ∧ knownCue s 0 = true ∧ (cueRecord s 0).choke = 0 ∧
    zoneTest s (cueRecord s 0).zoneMask = true ∧ (∀ j : Fin 16, (voiceOf s j).cue = 0 → (voiceOf s j).sounding = false) ∧
    senderOf (rxOf 0 (.fire 0 1 1 128)).frame = ownNumber s ∧ senderOf (rxOf 3 (.fire 0 1 1 128)).frame ≠ ownNumber s ∧
    maskHasZone (cueRecord s 0).zoneMask s.outputs[(0 : Fin 4)].zone = true ∧
    (voiceOf s 0).state = .idle ∧ ∀ j : Fin 16, j < 0 → (voiceOf s j).state ≠ .idle := by
  refine ⟨test_ownHead, ?_⟩
  decide +kernel

/-- Unknown cues, a cue of no zone here, and a group of a sounding voice and of a stack entry. -/
theorem test_hyps_UnknownAndElsewhere :
    let s := withVoice 3 voice2 (station .active)
    let entry : StackEntry :=
      { cue := 2, level := 2, fireOrder := 0, trim := 128, step := 0, pos := 0, passes := 0, gainTarget := 128 }
    let p := { s with pool := { s.pool with stack := [entry] } }
    (1024 : Nat) ≤ 1024 ∧ (cueRecord (station .active) 3).kind = .noCue ∧ (cueRecord (station .active) 0).kind ≠ .noCue ∧
    (∀ o : Fin 4, maskHasZone (cueRecord { station .active with outputs := State.reset.outputs } 0).zoneMask
      ({ station .active with outputs := State.reset.outputs }.outputs[o].zone) = false) ∧
    cue0.choke = 0 ∧ 0 < cue2.choke ∧ (voiceCue s 3).choke = cue2.choke ∧ (voiceOf s 3).sounding = true ∧
    (voiceOf (chokeStage cue2 p) 3).state = .releasing ∧ (chokeStage cue2 p).pool.stack = [] := by decide +kernel

theorem test_hyps_IgnoreAndLayer :
    let s := withVoice 0 voice0 (station .active)
    let u := withVoice 0 { voice0 with cue := 1 } (station .active)
    let r := withVoice 0 voice2 (station .active)
    (voiceOf s 0).sounding = true ∧ (voiceOf s 0).cue = 0 ∧ (cueRecord s 0).policy = .layer ∧ idleSlot s = some 1 ∧
    (voiceOf u 0).cue = 1 ∧ (cueRecord u 1).policy = .ignore ∧
    (voiceOf r 0).cue = 2 ∧ (cueRecord r 2).policy = .restart ∧ (voiceOf r 0).sounding = true ∧
    (∀ k : Fin 16, ((voiceOf r k).fireOrder - 0).toNat < 2147483648) ∧
    (∀ i : Fin 16, (voiceOf s i).cue = 2 → (voiceOf s i).sounding = false) ∧
    effectiveTarget r voice2 = voice2.gainTarget ∧ effectiveTarget s voice0 = voice0.gainTarget ∧
    effectiveTarget r { voice2 with trim := 64 } ≠ voice2.gainTarget ∧
    idleSlot fullPool = none ∧ victim fullPool (cueRecord fullPool 0).level = none ∧
    (let low := withVoice 9 { voice0 with level := 4 } fullPool
     idleSlot low = none ∧ victim low (cueRecord low 0).level = some 9) := by decide +kernel

theorem test_hyps_SlotAndVictimChoice :
    (∀ j : Fin 16, ((voiceOf fullPool j).fireOrder - 0).toNat < 2147483648) ∧
    victim (withVoice 3 { voice0 with state := .releasing } fullPool) 5 = some 3 ∧
    victim fullPool 6 = some 0 ∧ (voiceOf fullPool 0).state ≠ .releasing ∧ victim fullPool 5 = none := by decide +kernel

/-- A stack entry of cue 2, in its second step. -/
def entry2 : StackEntry :=
  { cue := 2, level := 2, fireOrder := 7, trim := 128, step := 1, pos := 3, passes := 0, gainTarget := 64 }

/-- The station with entries on its suspend stack. -/
def stacked (l : List StackEntry) (s : State) : State := { s with pool := { s.pool with stack := l } }

/-- A voice suspended on a stack of 7 and of 8, one cut for its kind and one cut while RELEASING; a stack whose top entry is
blocked by a sounding voice of its group, alone and over one that is not. -/
theorem test_hyps_VoiceStartSetsContext :
    let s := withVoice 0 voice2 (station .active)
    (voiceOf (station .active) 0).state = .idle ∧ (voiceOf s 0).state ≠ .idle ∧ (voiceOf s 0).state ≠ .releasing ∧
    (voiceCue s 0).kind = .bed ∧ (stacked (List.replicate 7 entry2) s).pool.stack.length < 8 ∧
    8 ≤ (stacked (List.replicate 8 entry2) s).pool.stack.length ∧ s.panel.faultSet .stackDrop = false ∧
    ¬ ((voiceCue (withVoice 0 voice0 s) 0).kind = .bed ∨ (voiceCue (withVoice 0 voice0 s) 0).kind = .applause) ∧
    (voiceOf (withVoice 0 { voice2 with state := .releasing } s) 0).state = .releasing ∧
    (voiceOf s 1).state = .idle ∧ (cueRecord s entry2.cue).choke ≠ 0 ∧ (voiceOf s 0).sounding = true ∧
    (voiceCue s 0).choke = (cueRecord s entry2.cue).choke ∧
    (let e := { entry2 with cue := 1 }
     (stacked [entry2, e] s).pool.stack = [entry2] ++ e :: [] ∧
     ∀ j : Fin 16, ¬ ((voiceOf s j).sounding = true ∧ (voiceCue s j).choke = (cueRecord s e.cue).choke)) := by decide +kernel

/-- A voice of group 2 while a voice that ducks it starts in slot 0 and ends there, at a gain target that is the ducked one, at
another, on the FADE path, and with its glide to the tail still to start. -/
theorem test_hyps_duckFollows :
    let s := fun v : Voice => withVoice 1 v (station .active)
    let t := fun v : Voice => startVoice 0 0 128 1 (s v)
    (voiceCue (s voice2) 1).choke = 2 ∧ appliedDepth (s voice2) 2 = none ∧ appliedDepth (t voice2) 2 = some 128 ∧
    appliedDepth (vacate 0 (t voice2)) 2 = none ∧ duckCount (s voice2) 2 = 0 ∧ duckCount (t voice2) 2 = 1 ∧
    voice2.path ≠ .fade ∧ effectiveTarget (t voice2) { voice2 with ducked := true } = voice2.gainTarget ∧
    effectiveTarget (t voice2) { voice2 with ducked := true } ≠ { voice2 with gainTarget := 100 }.gainTarget ∧
    (voiceOf (t { voice2 with path := .fade }) 1).path = .fade ∧
    (voiceOf (s { voice2 with tailGlide := true }) 1).tailGlide = true := by decide +kernel

/-- A known and an unknown cue, and voices PLAYING before and in the tail, PRIMING with and without tail, and RELEASING. -/
theorem test_hyps_ReleaseLeavesNoSoundingVoice :
    let s := withVoice 0 voice2 (station .active)
    let tail := withVoice 0 { voice2 with step := 1 } s
    let prime := withVoice 0 { voice2 with state := .priming, primed := false } s
    knownCue s 2 = true ∧ knownCue s 3 = false ∧ senderOf (rxOf 0 (.release 2 0)).frame = ownNumber s ∧
    (voiceOf s 0).state = .playing ∧ (voiceOf s 0).step ≤ (voiceCue s 0).loopLast ∧
    (voiceOf s 0).buffer0.frames.length ≤ 256 ∧ (voiceOf s 0).buffer1.frames.length ≤ 256 ∧
    (voiceCue s 0).loopLast < (voiceOf tail 0).step ∧ (voiceOf prime 0).state = .priming ∧
    (voiceCue prime 0).loopLast + 1 < (voiceCue prime 0).stepCount ∧
    (voiceOf (withVoice 0 priming s) 0).state = .priming ∧
    (voiceCue (withVoice 0 priming s) 0).stepCount ≤ (voiceCue (withVoice 0 priming s) 0).loopLast + 1 ∧
    0 < (voiceCue s 0).releaseTime ∧ (voiceCue (withVoice 0 voice0 s) 0).releaseTime = 0 ∧ (voiceOf s 1).state = .idle := by
  decide +kernel

theorem test_hyps_HushCutsReachedVoices :
    let s := withVoice 0 voice0 (hearing .active 0 (.hush 1))
    (voiceOf s 0).state ≠ .idle ∧ hushed s 1 (voiceOf s 0).cue = true ∧ hushed s 2 (voiceOf s 0).cue = false ∧
    (voiceOf s 1).state = .idle ∧ maskHasZone 1 s.outputs[(0 : Fin 4)].zone = true ∧ senderOf (rxOf 0 (.hush 1)).frame = ownNumber s := by decide +kernel

theorem test_hyps_LastAcceptedExpires :
    let s := setLastAccepted 0 100000 (station .active)
    lastAccepted s 0 = some 100000 ∧ ({ s with stationClock := 100000 + 2147483647 }.stationClock - 100000).toNat < 2147483648 ∧
    2147483648 ≤ ({ s with stationClock := 100000 + 2147483648 }.stationClock - 100000).toNat := by decide +kernel

/-- The last clauses: an own copy that is queued, held and absent; a queued one attempted or not, with a frame held. -/
theorem test_hyps_ClockFireTable :
    let s := running 9 (hearing .active 3 (.fire 0 2 1 128))
    (3 < (0x40 : Byte).toNat / 16 ∧ 3 < (0x04 : Byte).toNat % 16) ∧ (0x33 : Byte).toNat = (3 : Fin 4).val * 16 + (3 : Fin 4).val ∧
    (clockOf (hearing .active 3 (.fire 0 2 1 128)) 0).state = .unset ∧ (clockOf s 0).state ≠ .unset ∧
    (clockOf s 0).epoch = 0 ∧ (clockOf s 0).fired[(0 : Fin 4)] = false ∧ knownCue s 0 = true ∧
    (let q := setCopy 0 0 (.queued 0 0) (toSend s)
     (clockOf q 0).copies[(0 : Fin 4)] = .queued 0 0 ∧ attempted q 0 = false ∧
     holds (setCopy 0 1 (.held 0 5 0) q) .clockUnit = true ∧ q.txq.entries.map TxEntry.seq = [0] ∧
     attempted (lineOf (fun l => { l with attempt := some (attemptIn (.breaking 0)) }) q) 0 = true) ∧
    (clockOf s 0).copies[(0 : Fin 4)] = .absent ∧
    (clockOf (setCopy 0 0 (.held 0 5 0) s) 0).copies[(0 : Fin 4)] = .held 0 5 0 := by decide +kernel

/-- The last clauses: a START with a decrement due and with none, and a copy of the epoch that stays. -/
theorem test_hyps_ClockFrameSetsRecord :
    let s := running 9 (hearing .active 3 (.clock 0 2 1 4))
    3 < (4 : Byte).toNat ∧ (clockOf s 0).state ≠ .unset ∧
    (0 < ((clockOf s 0).epoch - 129).toNat ∧ ((clockOf s 0).epoch - 129).toNat < 128) ∧
    ¬ (0 < ((clockOf s 0).epoch - 128).toNat ∧ ((clockOf s 0).epoch - 128).toNat < 128) ∧
    (s.stationClock - (rxOf 3 (.clock 0 2 1 4)).edge).toNat < 2147483648 ∧
    (s.stationClock - 60000).toNat / 10000 = 4 ∧ (s.stationClock - 60001).toNat / 10000 < 4 ∧
    (s.stationClock - 90001).toNat < 10000 ∧ ¬ (s.stationClock - 90000).toNat < 10000 ∧
    (1 : Byte) ≠ (clockOf s 0).epoch ∧ (0 : Byte) = (clockOf s 0).epoch ∧
    (clockOf (setCopy 0 3 (.queued 0 0) s) 0).copies[(3 : Fin 4)].current 0 = true ∧
    (clockOf (setCopy 0 3 (.held 0 5 0) s) 0).copies[(3 : Fin 4)].current 0 = true := by decide +kernel

/-- An own CLAIM is queued, and the Segment Clock Unit holds a copy. -/
def holdingOne (s : State) : State :=
  setCopy 0 1 (.held 0 5 0)
    { s with txq := { entries := [{ txOf (.claim 3 1 0 0 1000) 0 with producer := .lockoutUnit }], nextSeq := 1 } }

/-- Round times at the holdoff and at the window, one below each, and one below the settle's end. -/
theorem test_hyps_ArmStartsRound :
    let s := station .active
    let time := fun edge : Word => min 16777215 (s.stationClock - edge).toNat
    (7 : Byte).toNat < 8 ∧ 8 ≤ (8 : Byte).toNat ∧ (profileRecord s 0).holdoff < (profileRecord s 0).window ∧
    time 99000 = (profileRecord s 0).holdoff * 1000 ∧ time 99001 < (profileRecord s 0).holdoff * 1000 ∧
    time 97000 = (profileRecord s 0).window * 1000 ∧ time 97001 < (profileRecord s 0).window * 1000 ∧
    time 95001 < ((profileRecord s 0).window + (profileRecord s 0).settle) * 1000 ∧
    (let own := holdingOne s
     holds own .clockUnit = true ∧ ownRoundFrames own = [0] ∧ (leftByWithdrawal own [0]).length < own.txq.entries.length ∧
     ∀ x ∈ own.txq.entries, x.seq < own.txq.nextSeq) := by decide +kernel

theorem test_hyps_ClaimJoinsListOrExcludes :
    let s := inRound .isOpen (hearing .active 3 (.claim 3 1 0 0 1000))
    let p := profileRecord s s.lockout.round.profile
    (station .active).lockout.round.state = .idle ∧ s.lockout.round.state ≠ .idle ∧ s.lockout.round.state ≠ .closed ∧
    s.lockout.round.identity = some (3, 1) ∧ p.holdoff * 1000 ≤ (1000 : Triple).toNat ∧
    (3000 : Triple).toNat ≤ p.window * 1000 ∧ p.window * 1000 < (3001 : Triple).toNat ∧
    (999 : Triple).toNat < p.holdoff * 1000 ∧ (3, 0) ∈ p.eligible ∧ (3, 1) ∉ p.eligible ∧
    (3, 0) ∉ s.lockout.round.excluded ∧ (∀ c ∈ s.lockout.round.claims, (c.station, c.input) ≠ (3, 0)) ∧
    s.lockout.round.source = .own ∧ p.falseCue = some 0 ∧ knownCue s 0 = true ∧
    (profileRecord s 1).falseCue = none ∧
    (3, 0) ∈ (withRound (fun r => { r with excluded := [(3, 0)] }) s).lockout.round.excluded ∧
    ((0 : Byte).getLsbD 0 = false ∧ (1 : Byte).getLsbD 0 = true) ∧ 7 < (8 : Byte).toNat := by decide +kernel

theorem test_hyps_VerdictIsLeastCapture : [({ station := 3, input := 0, capture := 5 } : Claim)] ≠ [] := by decide

theorem test_hyps_CloseDecidesRound :
    let s := inRound .settling (hearing .active 3 (.close 3 1 3 0 1000))
    (station .active).lockout.round.state = .idle ∧ s.lockout.round.state ≠ .idle ∧ s.lockout.round.state ≠ .closed ∧
    s.lockout.round.identity = some (3, 1) ∧ s.lockout.round.verdict = none ∧ knownCue s 0 = true ∧
    s.tables.inputMap.getD (3 * 8 + 0) none = some 0 ∧ (profileRecord s 0).noClaimCue = some 0 ∧
    (let own := holdingOne s
     holds own .clockUnit = true ∧ ownRoundFrames own = [0] ∧ leftByWithdrawal own [0] = [] ∧ own.txq.entries.length = 1 ∧
     (∀ x ∈ own.txq.entries, x.seq < own.txq.nextSeq) ∧
     (leftByWithdrawal (lineOf (fun l => { l with attempt := some (attemptIn (.breaking 0)) }) own) [0]).map (·.withdrawn) =
       [true]) := by decide +kernel

theorem test_hyps_JoinRecordsPeerOrDuplicate :
    let s := hearing .active 3 (.join 0 5 9)
    let o := hearing .joining 0 (.join 1 5 9)
    s.rxq.entries.head? = some (rxOf 3 (.join 0 5 9)) ∧ parseFrame (rxOf 3 (.join 0 5 9)).frame = some (.join 0 5 9) ∧
    s.rxq.headSince + 480 ≤ s.now ∧ (senderOf (rxOf 3 (.join 0 5 9)).frame).toNat < 32 ∧ s.member.state = .active ∧
    senderOf (rxOf 3 (.join 0 5 9)).frame ≠ ownNumber s ∧ (0 : Byte).getLsbD 0 = false ∧ s.member.heldJoin = none ∧
    txHoldsJoin s = false ∧ s.txq.entries.length < 4 ∧ senderOf (rxOf 0 (.join 1 5 9)).frame = ownNumber o ∧
    (7 : Word) = s.member.identity ∧ (5 : Word) ≠ o.member.identity ∧ o.member.state = .joining ∧
    o.rxq.entries.head? = some (rxOf 0 (.join 1 5 9)) ∧ (1 : Byte).getLsbD 0 = true ∧
    (let own := hearing .active 0 (.join 0 5 9)
     senderOf (rxOf 0 (.join 0 5 9)).frame = ownNumber own ∧ (5 : Word) ≠ own.member.identity ∧
     own.member.state = .active ∧ own.member.heldJoin = none ∧ txHoldsJoin own = false ∧ own.txq.entries.length < 4 ∧
     4 ≤ (fullTx own).txq.entries.length ∧ txHoldsJoin (fullTx own) = false ∧ (fullTx own).member.heldJoin = none ∧
     (offerJoin true (fullTx own)).member.heldJoin ≠ none ∧ txHoldsJoin (offerJoin true own) = true) := by decide +kernel

/-! ### The frame clock, the fetch unit and the word clock -/

/-- Cue 2's voice within its step, at the end of it with and without a further step, at a changed target, and with the glide to
the tail still to start. -/
theorem test_hyps_FrameClockMixesAndSteps :
    let at_ := fun v : Voice => clocked .intern 5000 (withVoice 0 v (station .active))
    let s := at_ voice2
    let last := at_ { voice2 with pos := 9 }
    let end_ := at_ { voice2 with step := 1, pos := 9 }
    let glide := at_ { voice2 with state := .releasing, path := .tail, step := 1, tailGlide := true }
    let bare := at_ { voice0 with buffer0 := Buffer.empty }
    s.wclk.mode ≠ .locked ∧ 5000 ≤ s.now - s.wclk.reference ∧ (voiceOf s 0).consumes = true ∧
    (consumeFrame s (voiceOf s 0)).fadeOver = false ∧
    (voiceOf s 0).pos + 1 < (stepRecord s (voiceCue s 0) (voiceOf s 0).step).length ∧ (voiceOf s 1).consumes = false ∧
    (stepRecord last (voiceCue last 0) (voiceOf last 0).step).length ≤ (voiceOf last 0).pos + 1 ∧
    nextStep (voiceCue last 0) false 0 0 = some (1, 0) ∧ (∀ j : Fin 16, j ∉ endingSlots last) ∧
    effectiveTarget last { voice2 with step := 1 } ≠ voice2.gainTarget ∧ (voiceOf last 0).path ≠ .fade ∧
    nextStep (voiceCue end_ 0) false 1 0 = none ∧ (0 : Fin 16) ∈ endingSlots end_ ∧
    (voiceOf glide 0).tailGlide = true ∧ effectiveTarget glide (voiceOf glide 0) ≠ (voiceOf glide 0).gainTarget ∧
    (voiceOf s 0).tailGlide = false ∧ effectiveTarget s { voice2 with tailGlide := true } = voice2.gainTarget ∧
    (voiceOf bare 0).consumes = true ∧ (voiceOf bare 0).frame = none ∧
    (let loud := at_ { voice2 with gainNow := 255 * 65536, buffer0 := { first := 0, frames := [32767] } }
     32767 < outputTotal loud 0) := by decide +kernel

theorem test_hyps_RampAndFadeEnd :
    let s := clocked .intern 5000 (withVoice 0 { voice0 with rampLeft := 1 } (station .active))
    let f := clocked .intern 5000 (withVoice 0 { voice0 with rampLeft := 1, path := .fade, state := .releasing } (station .active))
    s.wclk.mode ≠ .locked ∧ 5000 ≤ s.now - s.wclk.reference ∧ (voiceOf s 0).consumes = true ∧
    (startTailGlide s (voiceOf s 0)).rampLeft = 1 ∧ (∀ j : Fin 16, j ∉ endingSlots s) ∧
    (voiceOf s 0).pos + 1 < (stepRecord s (voiceCue s 0) (voiceOf s 0).step).length ∧
    (voiceOf f 0).consumes = true ∧ (voiceOf f 0).path = .fade ∧ (startTailGlide f (voiceOf f 0)).rampLeft ≤ 1 ∧
    f.pool.stack = [] ∧ (startTailGlide s { voice0 with rampLeft := 2 }).rampLeft ≠ 1 := by decide +kernel

/-- Each side of 0.5 T, 1.25 T and a good period; the third miss and the 479th good period. -/
theorem test_hyps_WordClockEdgesAndSubstitutes :
    let s := station .active
    let lost := fun period : Nat =>
      { s with wclk := { (clocked .lost 0 s).wclk with lastEdge := some (s.now - period) } }
    (clocked .intern 0 s).wclk.mode = .intern ∧ (clocked .locked 2499 s).now - (clocked .locked 2499 s).wclk.reference < 2500 ∧
    2500 ≤ (clocked .locked 2500 s).now - (clocked .locked 2500 s).wclk.reference ∧
    (clocked .locked 6250 s).now - (clocked .locked 6250 s).wclk.reference ≤ 6250 ∧
    6250 ≤ (clocked .locked 6250 s).now - (clocked .locked 6250 s).wclk.reference ∧
    (lost 4750).wclk.lastEdge = some (24000000 - 4750) ∧ (lost 4750).now - (24000000 - 4750) = 4750 ∧
    (lost 5250).now - (24000000 - 5250) = 5250 ∧ (lost 4749).now - (24000000 - 4749) < 4750 ∧
    5250 < (lost 5251).now - (24000000 - 5251) ∧ (lost 4750).wclk.mode = .lost ∧
    (clocked .lost 0 s).wclk.recovery = 479 ∧ (clocked .locked 6250 s).wclk.miss = 3 ∧ s.wclk.lastEdge = none ∧
    s.wclk.recovery < 479 ∧ s.wclk.miss < 3 := by decide +kernel

/-- The three cases of a block's play position; a slot that may place a request, with and without its cursor behind; and an
arbiter with two requests. -/
theorem test_hyps_CompletionEntersOrDiscards :
    let skip := fun n : Word => ((voiceOf (reading true { voice0 with playCount := n }) 0).playCount - twoFrames.first).toNat
    let s := withVoice 0 priming (station .active)
    let two := { s with fetch := { s.fetch with requests := [twoFrames, { twoFrames with slot := 1, seq := 1 }] } }
    (reading true priming).fetch.flight = some { request := twoFrames, owned := true, doneAt := 24000000 } ∧
    (reading false priming).fetch.flight = some { request := twoFrames, owned := false, doneAt := 24000000 } ∧
    (reading true priming).now = 24000000 ∧ (blockSamples (reading true priming) twoFrames.segments).length = 2 ∧
    skip 0 = 0 ∧ skip 1 = 1 ∧ skip 2 = 2 ∧ skip 2147483648 = 2147483648 ∧
    (voiceOf (reading true priming) 0).state = .priming ∧ (voiceOf (reading true priming) 0).primed = false ∧
    (voiceOf s 0).state ≠ .idle ∧ ownsRequest s 0 = false ∧ (voiceOf s 0).buffer0.frames = [] ∧
    (voiceOf s 0).cursor = some { step := 0, pos := 2, passes := 0 } ∧ (voiceOf s 1).state = .idle ∧
    0 < segmentFrames (walkBlock s (voiceCue s 0) false 256 256 { step := 0, pos := 2, passes := 0 }).1 ∧
    behind 0 1 = true ∧ behind 0 0 = false ∧ two.fetch.flight = none ∧ two.fetch.requests ≠ [] ∧
    (reading true priming).fetch.flight ≠ none := by decide +kernel

/-- A read of two segments from a clip at address 0x0A0B0C, some ticks after it began. -/
def transferring (ticks : Nat) : State :=
  let segments : List Segment := [{ clip := 0, first := 1, count := 1 }, { clip := 0, first := 4, count := 1 }]
  let s := station .active
  let flight : Flight :=
    { request := { twoFrames with segments := segments }, owned := true, doneAt := s.now - ticks + 13 * 48 }
  { s with
    tables := { s.tables with clips := [{ address := 0x0A0B0C, length := 8 }] }
    flash := Memory.ofCells [(0x0A0B0E, 0x12), (0x0A0B0F, 0x34)]
    fetch := { s.fetch with flight := some flight } }

/-- The characters of R52 in the first transfer, the high between the transfers, the second transfer and the end. -/
theorem test_hyps_CompletionEntersOrDiscards_port :
    ((List.range 7).map fun k => (chipSelect (transferring (48 * k)), flashSends (transferring (48 * k)),
        flashReturns (transferring (48 * k + 47)))) =
      [(false, some 0x03, none), (false, some 0x0A, none), (false, some 0x0B, none), (false, some 0x0E, none),
       (false, none, some 0x12), (false, none, some 0x34), (true, none, none)] ∧
    flashSends (transferring (48 * 10)) = some 0x14 ∧ chipSelect (transferring (48 * 13)) = true ∧
    blockSamples (transferring 0) [{ clip := 0, first := 1, count := 1 }] = [0x1234] := by decide +kernel

/-! ### Buzzers, expiries and segment clocks -/

/-- Input 0 of the station one active sample short of a press, whose run began at 98,000 µs. -/
def almostPressed (s : State) : State :=
  { s with lockout := { s.lockout with
      debounce := s.lockout.debounce.set 0 { level := some false, run := 2, runStart := 98000, last := some true } } }

theorem test_hyps_BuzzersAreDebounced :
    let s := station .active
    s.member.state = .active ∧ s.lockout.sampleDue ≤ s.now ∧
    (∀ i : Fin 8, ¬ (s.lockout.debounce[i].level = some false ∧ s.lockout.debounce[i].run = 2)) ∧
    ({ level := some false, run := 0, runStart := 0, last := some false } : Debounce).level = some false := by decide +kernel

/-- A press at the holdoff, at the window and one µs outside each, in each state of the round, and the two pairs that Table 5-3
does not name (log entry 24). -/
theorem test_hyps_PressIsClassified :
    let at_ := fun (state : RoundState) (reference : Word) => almostPressed (since reference (inRound state (station .active)))
    let time := fun s : State => pressTime s s.lockout.debounce[(0 : Fin 8)].runStart
    let s := at_ .isOpen 97000
    s.lockout.sampleDue ≤ s.now ∧ pressedInputs s 0xFE = [0] ∧ s.member.state = .active ∧
    (s.straps.stn.toNat, (0 : Fin 8).val) ∈ (roundProfile s).eligible ∧ s.lockout.round.press[(0 : Fin 8)] = .noPress ∧
    (roundProfile s).holdoff * 1000 = 1000 ∧ (roundProfile s).window * 1000 = 3000 ∧
    time (at_ .isOpen 97000) = 1000 ∧ time (at_ .isOpen 95000) = 3000 ∧ time (at_ .isOpen 97001) = 999 ∧
    time (at_ .isOpen 94999) = 3001 ∧ time (at_ .settling 95000) = 3000 ∧ time (at_ .settling 94999) = 3001 ∧
    time (at_ .holdoff 97001) = 999 ∧ time (at_ .holdoff 97000) = 1000 ∧ time (at_ .settling 97001) = 999 ∧
    pressedInputs (at_ .holdoff 97001) 0xFE = [0] ∧ pressedInputs (at_ .settling 95000) 0xFE = [0] ∧
    pressedInputs (at_ .closed 95000) 0xFE = [0] ∧ pressedInputs (almostPressed (station .joining)) 0xFE = [0] ∧
    (station .joining).member.state = .joining ∧ s.txq.entries.length < 4 ∧ 4 ≤ (fullTx s).txq.entries.length ∧
    pressedInputs (fullTx s) 0xFE = [0] := by decide +kernel

theorem test_hyps_ExpiriesMoveTheRound :
    let s := inRound .holdoff (station .active)
    let t := inRound .settling (station .active)
    (roundProfile s).holdoff * 1000 ≤ roundTime (since 99000 s) ∧ roundTime (since 99001 s) < (roundProfile s).holdoff * 1000 ∧
    (roundProfile s).window * 1000 ≤ roundTime (since 97000 s) ∧ roundTime (since 97001 s) < (roundProfile s).window * 1000 ∧
    ((roundProfile t).window + (roundProfile t).settle) * 1000 ≤ roundTime (since 95000 t) ∧
    roundTime (since 95001 t) < ((roundProfile t).window + (roundProfile t).settle) * 1000 ∧
    t.lockout.round.settled = false ∧ t.lockout.round.state = .settling ∧
    (withRound (fun r => { r with settled := true }) t).lockout.round.settled = true ∧
    s.txq.entries.length < 4 ∧ 4 ≤ (fullTx t).txq.entries.length ∧ (station .listening).member.state ≠ .active := by
  decide +kernel

theorem test_hyps_ClockCountsDown :
    (clockOf (station .active) 0).state ≠ .running ∧ (clockOf (running 2 (station .active)) 0).state = .running ∧
    (clockOf (running 2 (station .active)) 0).phase = some 99999 ∧
    ((station .active).stationClock - 99999).toNat < 2147483648 ∧
    2147483648 ≤ ((station .active).stationClock - 100001).toNat ∧
    1 < (clockOf (running 2 (station .active)) 0).value.toNat ∧ (clockOf (running 1 (station .active)) 0).value = 1 := by
  decide +kernel

theorem test_hyps_CompareMatchOffersFire :
    let s := running 5 (station .active)
    (clockOf s 0).state = .running ∧ (clockOf s 0).phase = some 99999 ∧ (s.stationClock - 99999).toNat < 2147483648 ∧
    (clockOf s 0).value ≠ 0 ∧ (comparePoint s 0 0).enabled = true ∧ (comparePoint s 0 0).value = (clockOf s 0).value - 1 ∧
    (∀ q : Fin 4, q ≠ 0 → (comparePoint s 0 q).enabled = false) ∧ s.member.state = .active ∧
    (clockOf s 0).fired[(0 : Fin 4)] = false ∧ (clockOf s 0).copies[(0 : Fin 4)] = .absent ∧ s.txq.entries.length < 4 ∧
    (running 5 (station .listening)).member.state ≠ .active := by decide +kernel

/-! ### The Panel Port -/

/-- The panel is ready, and reading commands are allowed but while LOADING. -/
theorem test_hyps_PanelReady :
    panelReady (atPanel (station .active)) ∧ readsAllowed (atPanel (station .active)) ∧ panelReady (atPanel State.reset) ∧
    ¬ readsAllowed (atPanel State.reset) ∧ (atPanel State.reset).panel.tx = .idle ∧ (7 : Byte).toNat < 8 :=
  ⟨⟨by decide, by decide⟩, ⟨by decide, by decide⟩, ⟨by decide, by decide⟩, fun h => h.1 rfl, by decide, by decide⟩

/-- Every command is completed by a frame. -/
theorem test_hyps_frames : [PanelCommand.status, .fire 0 128, .release 0 1, .hush 3, .arm 2, .clock 0 2 4000,
    .readVoice 3, .readStack 0, .readRound, .readClaim 31, .readPeer 4, .readClock 1, .readOutput 2, .readFaults, .clearFaults,
    .reports 7, .reports 8, .reload].all (fun c => decide (judgeCommand (commandFrame c) = some c)) = true ∧
    judgeCommand [cleanChar (panelBits 7)] = some (.badCommand 7) ∧
    judgeCommand [cleanChar (panelBits 0x01 ^^^ 2)] = some (.badCheck 0) := by decide +kernel

theorem test_hyps_LineCommandsQueueFrames :
    let s := atPanel (station .active)
    let r := setLastAccepted 0 98000 s
    panelReady s ∧ s.member.state = .active ∧ s.txq.entries.length < 4 ∧ knownCue s 0 = true ∧ txHoldsFire s 0 = false ∧
    lastAccepted r 0 = some 98000 ∧ (cueRecord r 0).refire * 1000 ≤ (r.stationClock - 98000).toNat ∧
    (clockOf (running 5 s) 0).state ≠ .unset := by
  refine ⟨⟨by decide, by decide⟩, ?_⟩
  decide +kernel

/-- A record of just under the refire time, and at a full queue one of just the refire time and none. -/
theorem test_hyps_RefusedCommandsChangeNothing :
    let s := atPanel (station .active)
    panelReady s ∧ (atPanel (station .listening)).member.state ≠ .active ∧ s.member.state = .active ∧
    knownCue s 1024 = false ∧ knownCue s 0 = true ∧ (clockOf s 0).state = .unset ∧
    lastAccepted (setLastAccepted 0 98001 s) 0 = some 98001 ∧
    (s.stationClock - 98001).toNat < (cueRecord s 0).refire * 1000 ∧ 4 ≤ (fullTx s).txq.entries.length ∧
    txHoldsFire (fullTx s) 0 = false ∧ lastAccepted (fullTx s) 0 = none ∧
    lastAccepted (setLastAccepted 0 98000 (fullTx s)) 0 = some 98000 ∧
    (cueRecord s 0).refire * 1000 ≤ (s.stationClock - 98000).toNat ∧ (clockOf (running 5 (fullTx s)) 0).state ≠ .unset := by
  refine ⟨⟨by decide, by decide⟩, ?_⟩
  decide +kernel

theorem test_hyps_ReadsAnswerTheRecord :
    let s := atPanel (stacked [entry2] (inRound .isOpen (withVoice 0 voice0 (station .active))))
    let c := withRound (fun r => { r with claims := [{ station := 3, input := 0, capture := 1000 }] }) s
    panelReady s ∧ readsAllowed s ∧ (voiceOf s 0).cursor = some { step := 0, pos := 2, passes := 0 } ∧
    s.pool.stack[(0 : Byte).toNat]? = some entry2 ∧ s.pool.stack.length ≤ (1 : Byte).toNat ∧
    s.lockout.round.identity = some (3, 1) ∧ s.lockout.round.claims.length ≤ (31 : Byte).toNat ∧
    c.lockout.round.claims[(0 : Byte).toNat]? = some { station := 3, input := 0, capture := 1000 } ∧
    ¬ readsAllowed State.reset := by
  refine ⟨⟨by decide, by decide⟩, ⟨by decide, by decide⟩, by decide +kernel, by decide, by decide, by decide, by decide,
    by decide, ?_⟩
  exact fun h => h.1 rfl

/-- A hunting receiver; one that assembles with the slot empty, the slot full, and the buffer full too; and the sending of an
answer, of a RELOAD's and of one that a command waits behind. -/
theorem test_hyps_AnswersLeaveInOrder :
    let s := atPanel (station .active)
    let a : Answer := { kind := 1, body := [0], reload := false }
    let w := fun (a : Option Answer) (b : Option PanelCommand) =>
      { s with panel := { s.panel with answer := a, buffer := b, tx := .answering [1] } }
    (station .active).panel.rx = .hunting ∧ (w none none).panel.rx = .assembling ∧ (w none none).panel.answer = none ∧
    (w (some a) none).panel.answer = some a ∧ (w (some a) none).panel.buffer = none ∧
    (w (some a) (some .readFaults)).panel.buffer = some .readFaults ∧ (w (some a) none).panel.tx = .answering [1] ∧
    a.reload = false ∧ ({ a with reload := true } : Answer).reload = true ∧ s.panel.tx = .idle ∧
    PanelCommand.row .status ≠ PanelCommand.row .readRound ∧ PanelCommand.row .status ≠ .badCommand := by decide

theorem test_hyps_ReportsGoInOrder :
    let s := setFault .clip (station .active)
    let v := reportVerdictOf (3, 1) none false (station .active)
    let c := postOutcome { tag := 1, cue := 0, kind := .fire, outcome := .played, edge := 5 } (station .active)
    let r := { station .active with panel := { (station .active).panel with tx := .reporting [0x80] } }
    s.panel.tx = .idle ∧ s.panel.answer = none ∧ s.panel.faultPending = true ∧ s.panel.mask.getLsbD 0 = true ∧
    v.panel.faultPending = false ∧ v.panel.verdictPending = true ∧ v.panel.mask.getLsbD 1 = true ∧
    v.panel.lastVerdict = some { station := 3, number := 1, verdict := none, differed := false } ∧
    c.panel.verdictPending = false ∧ c.panel.mask.getLsbD 2 = true ∧
    c.panel.outcomes = [{ tag := 1, cue := 0, kind := .fire, outcome := .played, edge := 5 }] ∧
    { r.panel with answer := some { kind := 1, body := [0, 3, 0], reload := false } }.answer ≠ none ∧
    r.panel.tx = .reporting [0x80] ∧ r.panel.answer = none ∧ r.panel.faultPending = false ∧ r.panel.outcomes = [] := by
  decide +kernel

theorem test_hyps_BadFramesAreAnswered :
    let unknown := cleanChar 0b11000001110
    let broken := cleanChar 0b11000000110
    let status := cleanChar (panelBits 0x01)
    let check := cleanChar (panelBits 0xA4)
    startBitLow unknown = true ∧ (readPanelChar unknown).parityError = false ∧ (readPanelChar unknown).framingError = false ∧
    commandBody (readPanelChar unknown).value = none ∧ startBitLow broken = true ∧ (readPanelChar broken).parityError = true ∧
    (∀ c ∈ [status, unknown, check], startBitLow c = true) ∧ commandBody (readPanelChar status).value = some 0 ∧
    (readPanelChar status).parityError = false ∧ (readPanelChar status).framingError = false ∧ [unknown].length = 0 + 1 ∧
    charSum ([status, unknown].map fun c => (readPanelChar c).value) ≠ 0xA5 ∧
    charSum ([status, check].map fun c => (readPanelChar c).value) = 0xA5 ∧ (readPanelChar check).parityError = false ∧
    (readPanelChar check).framingError = false := by decide +kernel

theorem test_hyps_LineFramesReadBack :
    (1 : BitVec 11) &&& 2 = 0 ∧ (1 : BitVec 11) &&& 4 = 0 ∧ (2 : BitVec 11) &&& 4 = 0 ∧
    PanelCommand.row .status ≠ .badCommand ∧ PanelCommand.row .status ≠ .badCheck := by decide

/-- What the invariants ask for is so in a state with a voice that ducks, and a claim. -/
theorem test_hyps_StepKeeps :
    let s := startVoice 0 0 128 1 (station .active)
    let c := withRound (fun r => { r with claims := [{ station := 3, input := 0, capture := 1000 }] })
      (inRound .isOpen (station .active))
    (∀ g : Fin 15, s.pool.duck[g] = contributors s (g.val + 1)) ∧ s.pool.duck[(1 : Fin 15)] = 1 ∧
    (∀ x ∈ c.lockout.round.claims, msMicros (roundProfile c).holdoff ≤ x.capture ∧
      x.capture ≤ msMicros (roundProfile c).window ∧ (x.station, x.input) ∉ c.lockout.round.excluded ∧
      eligible c x.station x.input = true) ∧
    (∀ p ∈ c.tables.profiles, p.eligible.length ≤ 32) ∧ c.member.state ≠ .loading ∧
    (step (station .active) = .next (tick (station .active))) := by
  refine ⟨by decide +kernel, by decide +kernel, by decide +kernel, by decide +kernel, by decide, rfl⟩

end Sys2Proof.Tests
end

