-- ==== Sys2Proof/Proofs/PanelPort.lean ====
section
/-!
SUPPORT. The Panel Port (chapter 11): what a completed command does to an empty answer slot, said once for every command
(`receiveFrame_actsOn`), and the statements on STATUS, READ_FAULTS, CLEAR_FAULTS and REPORTS that rest on it.
-/
namespace Sys2Proof.Machine

/-! ## The status character (R176, Table 12-3) -/

/-- A bit of a character is a power of two. -/
theorem bitIf_true (n : Nat) : bitIf true n = BitVec.twoPow 8 n := rfl

/-- A bit of a character that is not set. -/
theorem bitIf_false (n : Nat) : bitIf false n = 0 := rfl

/-- A bit of a character adds to what stands below it. -/
theorem bitIf_or_eq_add (b : Bool) {n : Nat} {x : Byte} (hx : x.toNat < 2 ^ n) : bitIf b n ||| x = bitIf b n + x := by
  have disjoint : bitIf b n &&& x = 0 := by
    cases b with
    | false => simp [bitIf_false]
    | true =>
      have hclear : x.getLsbD n = false := Nat.testBit_lt_two_pow hx
      refine BitVec.eq_of_getLsbD_eq fun i _ => ?_
      by_cases hi : n = i
      · simp [← hi, hclear]
      · simp [bitIf_true, BitVec.getLsbD_twoPow, hi]
  exact (BitVec.add_eq_or_of_and_eq_zero _ _ disjoint).symm

/-- A bit of a character with what stands below it stays below the next bit. -/
theorem bitIf_or_lt (b : Bool) {n : Nat} {x : Byte} (hx : x.toNat < 2 ^ n) : (bitIf b n ||| x).toNat < 2 ^ (n + 1) := by
  have hpow : 2 ^ n < 2 ^ (n + 1) := Nat.pow_lt_pow_succ (by decide)
  have hbit : (bitIf b n).toNat < 2 ^ (n + 1) := by
    cases b with
    | false => simp [bitIf_false]
    | true =>
      rw [bitIf_true, BitVec.toNat_twoPow]
      exact (Nat.mod_le _ _).trans_lt hpow
  rw [BitVec.toNat_or]
  exact Nat.or_lt_two_pow hbit (hx.trans hpow)

/-- A station state's code stands in the three low bits. -/
theorem StationState.code_lt (m : StationState) : m.code.toNat < 2 ^ 3 := by cases m <;> decide

/-- The status character is the sum of its bits and the state code. -/
theorem statusCharacter_eq_sum (s : State) (answer : Bool) :
    statusCharacter s answer =
      (if answer = true ∧ s.panel.resetSeen = true then 128 else 0) + (if s.panel.faultPending then 64 else 0) +
        (if s.panel.verdictPending then 32 else 0) + (if s.panel.outcomes = [] then 0 else 16) +
        (if s.panel.overrun then 8 else 0) + s.member.state.code := by
  have h3 := s.member.state.code_lt
  have h4 := bitIf_or_lt s.panel.overrun h3
  have h5 := bitIf_or_lt (!s.panel.outcomes.isEmpty) h4
  have h6 := bitIf_or_lt s.panel.verdictPending h5
  have h7 := bitIf_or_lt s.panel.faultPending h6
  calc statusCharacter s answer
      = bitIf (answer && s.panel.resetSeen) 7 ||| (bitIf s.panel.faultPending 6 ||| (bitIf s.panel.verdictPending 5 |||
          (bitIf (!s.panel.outcomes.isEmpty) 4 ||| (bitIf s.panel.overrun 3 ||| s.member.state.code)))) := by
        simp only [statusCharacter, BitVec.or_assoc]
    _ = bitIf (answer && s.panel.resetSeen) 7 + (bitIf s.panel.faultPending 6 + (bitIf s.panel.verdictPending 5 +
          (bitIf (!s.panel.outcomes.isEmpty) 4 + (bitIf s.panel.overrun 3 + s.member.state.code)))) := by
        rw [bitIf_or_eq_add _ h7, bitIf_or_eq_add _ h6, bitIf_or_eq_add _ h5,
          bitIf_or_eq_add _ h4, bitIf_or_eq_add _ h3]
    _ = _ := by simp [bitIf, BitVec.add_assoc]

/-! ## Acting on a command (R175, R177) -/

/-- The break's frame has ended, and the receiver waits for the next break (R174). -/
def frameEnded (s : State) : State := withPanel (fun p => { p with rx := .hunting }) s

/-- A transmitter that is busy leaves a formed answer to wait. -/
theorem startAnswer_of_busy {s : State} (h : s.panel.tx ≠ .idle) : startAnswer s = s := by
  unfold startAnswer
  split
  · contradiction
  · rfl

/-- An idle transmitter begins the formed answer. -/
theorem startAnswer_of_idle {s : State} {a : Answer} (htx : s.panel.tx = .idle) (ha : s.panel.answer = some a) :
    startAnswer s = withPanel (fun p =>
      { p with
        tx := .answering (stationFrame a.kind (statusCharacter s true) a.body), resetSeen := false, overrun := false }) s := by
  unfold startAnswer
  simp only [htx, ha]

/-- A command acted on does what its rule says, and its answer stands in the slot. -/
theorem actNow_actsOn (c : PanelCommand) (s : State) : actsOn c s (actNow c s) := by
  by_cases h : (act c s).1.panel.tx = .idle
  · have heq : actNow c s = _ := startAnswer_of_idle (by exact h) rfl
    rw [heq]
    exact ⟨rfl, fun _ => ⟨rfl, rfl, rfl⟩, fun hbusy => absurd h hbusy⟩
  · have heq : actNow c s = _ := startAnswer_of_busy (by exact h)
    rw [heq]
    exact ⟨rfl, fun hidle => absurd hidle h, fun _ => ⟨rfl, rfl, rfl⟩⟩

/-- A frame of its own row, complete while the answer slot is empty, is acted on at once. -/
theorem receiveFrame_actsOn {c : PanelCommand} {frame : List RawChar} {s : State} (hready : panelReady s)
    (hc : judgeCommand frame = some c) : actsOn c (frameEnded s) (receiveFrame c.row frame s) := by
  obtain ⟨hrx, hslot⟩ := hready
  have heq : receiveFrame c.row frame s = actNow c (frameEnded s) := by
    simp [receiveFrame, hc, receiveCommand, hrx, completeCommand, hslot, frameEnded]
  rw [heq]
  exact actNow_actsOn c (frameEnded s)

/-- What a row does when a frame of it completes while the answer slot is empty: the effect of `act`, and beside it only what
its answer takes. RELOAD is left out, since its answer is marked as its own (R191). -/
theorem exec_of_act {i : Instr} {c : PanelCommand} {frame : List RawChar} {s u : State} {body : List Byte}
    (hready : panelReady s) (hc : judgeCommand frame = some c) (hrow : exec i s = .next (receiveFrame c.row frame s))
    (hact : act c (frameEnded s) = (u, body)) (hrx : u.panel.rx = .hunting) (hload : c ≠ .reload) :
    ∃ t, exec i s = .next t ∧ t = { u with panel := t.panel } ∧ panelAnswers u t c.code body false := by
  obtain ⟨hnext, hidle, hbusy⟩ := receiveFrame_actsOn hready hc
  simp only [hact, hload, decide_false] at hnext hidle hbusy
  refine ⟨_, hrow, ?_, ?_, ?_, hbusy⟩
  · rw [hnext]
  · rw [hnext, ← hrx]
  · intro htx
    obtain ⟨hreset, hoverrun, hsent⟩ := hidle htx
    exact ⟨hsent, hreset, hoverrun⟩

/-- A command that only answers leaves everything but the slot, the receiver and the transmitter as it was. -/
theorem answersOnly_of_act {s : State} {row : List RawChar → Instr} {c : PanelCommand} {body : List Byte}
    (hready : panelReady s) (hrow : ∀ frame, exec (row frame) s = .next (receiveFrame c.row frame s))
    (hact : act c (frameEnded s) = (frameEnded s, body)) (hload : c ≠ .reload) :
    answersOnly s row c c.code body := by
  intro frame hc
  obtain ⟨t, hexec, hrest, hpanel⟩ := exec_of_act hready hc (hrow frame) hact rfl hload
  exact ⟨t, hexec, hrest, hpanel⟩

/-! ## The tests of a command (R177, Table 11-2) -/

/-- Reading commands are allowed in every state but LOADING and IMAGE_FAULT. -/
theorem allowsReads_iff (s : State) : allowsReads s = true ↔ readsAllowed s := by
  unfold allowsReads readsAllowed
  cases s.member.state <;> simp

/-- LOADING and IMAGE_FAULT shut reading commands out. -/
theorem allowsReads_eq_false {s : State} (h : ¬ readsAllowed s) : allowsReads s = false :=
  Bool.eq_false_iff.mpr fun hallowed => h ((allowsReads_iff s).mp hallowed)

/-- A command that its state does not allow is NOT_ACTIVE. -/
theorem tested_of_not_allowed (args : Bool) (run : State → State × List Byte) (s : State) :
    tested false args run s = (s, [4]) := rfl

/-- An argument out of range is BAD_ARGUMENT. -/
theorem tested_of_bad_argument (run : State → State × List Byte) (s : State) : tested true false run s = (s, [3]) := rfl

/-- A command that passes the tests of its state and its arguments goes on. -/
theorem tested_of_passed (run : State → State × List Byte) (s : State) : tested true true run s = run s := rfl

/-! ## The fault flags (Table 11-3) -/

/-- Each flag has a bit of its own in the field. -/
theorem FaultFlag.mask_getLsbD (f g : FaultFlag) : f.mask.getLsbD g.bit = decide (g = f) := by
  cases f <;> cases g <;> rfl

/-- A condition's flag, as a field. -/
theorem maskIf_getLsbD (p : Prop) [Decidable p] (f g : FaultFlag) :
    (if p then f.mask else 0).getLsbD g.bit = decide (g = f ∧ p) := by
  by_cases hp : p <;> simp [hp, FaultFlag.mask_getLsbD]

/-- The flags that CLEAR_FAULTS keeps: those whose condition stands. -/
theorem keptFaults_getLsbD (s : State) (f : FaultFlag) : (keptFaults s).getLsbD f.bit = true ↔
    (f = .imageFault ∧ s.member.state = .imageFault) ∨ (f = .duplicateStation ∧ s.member.state = .duplicate) ∨
      (f = .lineStuck ∧ s.line.rx = .stuck) ∨ (f = .wclkLost ∧ s.wclk.mode = .lost) := by
  simp only [keptFaults, BitVec.getLsbD_or, maskIf_getLsbD, Bool.or_eq_true, decide_eq_true_eq, or_assoc]

/-- CLEAR_FAULTS keeps a flag that is set and whose condition stands. -/
theorem clearPassed_faultSet (s : State) (f : FaultFlag) : (clearPassed s).panel.faultSet f = true ↔
    s.panel.faultSet f = true ∧ (keptFaults s).getLsbD f.bit = true := by
  simp only [clearPassed, PanelPort.faultSet, BitVec.getLsbD_and, Bool.and_eq_true]

/-- CLEAR_FAULTS clears the CLIP flag of each output and leaves the rest of it. -/
theorem clearPassed_output (s : State) (o : Fin 4) : (clearPassed s).outputs[o] = { s.outputs[o] with clip := false } := by
  simp [clearPassed, mapVec]

/-- A flag that goes from clear to set makes a FAULT report pending (R180). -/
theorem raise_faultPending {p : PanelPort} {f : FaultFlag} (h : p.faultSet f = false) : (p.raise f).faultPending = true := by
  simp [PanelPort.raise, h]

/-! ## What the commands answer -/

/-- CLEAR_FAULTS acted on where it is allowed: the conditions are those of the moment of acting. -/
theorem act_clearFaults {s : State} (h : readsAllowed s) :
    act .clearFaults s = (clearPassed s, 0 :: bytes2 (clearPassed s).panel.faults) := by
  rw [act, actClearFaults, (allowsReads_iff s).mpr h, tested_of_passed]
  rfl

/-- REPORTS of a mask of the three kinds, acted on where it is allowed. -/
theorem act_reports {s : State} {mask : Byte} (h : readsAllowed s) (hmask : mask.toNat < 8) :
    act (.reports mask) s = (withPanel (fun p => { p with mask := mask.setWidth 3 }) s, [0]) := by
  rw [act, actReports, (allowsReads_iff s).mpr h, decide_eq_true hmask, tested_of_passed]
  rfl

/-- Settles O50: of the four conditions of Table 11-3 that CLEAR_FAULTS looks at, an allowed command does not meet that of
IMAGE_FAULT. -/
theorem clearFaultsKeepsWhatStands : Obligations.ClearFaultsKeepsWhatStands := by
  intro frame s hready hc
  constructor
  · intro hreads
    obtain ⟨t, hexec, hrest, hpanel, -, -⟩ :=
      exec_of_act (i := .clearFaults frame) hready hc rfl (act_clearFaults (s := frameEnded s) hreads) rfl (by decide)
    obtain ⟨-, hnotFault⟩ := hreads
    have hfaults : t.panel.faults = (clearPassed s).panel.faults := by rw [hpanel]; rfl
    have houtputs : t.outputs = (clearPassed s).outputs := by rw [hrest]; rfl
    refine ⟨t, hexec, fun f => ?_, ?_, fun o => ?_, ?_, ?_, fun f hclear => raise_faultPending hclear⟩
    · rw [PanelPort.faultSet, hfaults]
      calc (clearPassed s).panel.faultSet f = true
          ↔ s.panel.faultSet f = true ∧ (keptFaults s).getLsbD f.bit = true := clearPassed_faultSet s f
        _ ↔ _ := by simp only [keptFaults_getLsbD, hnotFault, and_false, false_or]
    · rw [hpanel]; rfl
    · rw [houtputs]
      exact clearPassed_output s o
    · rw [hfaults, hpanel]; rfl
    · rw [hrest]; rfl
  · intro hrefused
    refine answersOnly_of_act (c := .clearFaults) hready (fun _ => rfl) ?_ (by decide)
    rw [act, actClearFaults, allowsReads_eq_false (s := frameEnded s) hrefused, tested_of_not_allowed]

/-- Settles O47: STATUS only answers, and its answer's characters are those of the state it found. -/
theorem statusAnswersStateAndReason : Obligations.StatusAnswersStateAndReason := by
  intro s hready state reason status answered frame hc
  have hstate : s.member.state.code = state := by simp only [state]; cases s.member.state <;> rfl
  have hreason : (if s.member.state = .imageFault then s.member.faultReason else .noReason).code = reason := by
    simp only [reason]
    split
    · cases s.member.faultReason <;> rfl
    · rfl
  have hstatus : statusCharacter s true = status := by simp [statusCharacter_eq_sum, status, hstate]
  have hact : act .status (frameEnded s) = (frameEnded s, [0, state, reason]) := by rw [← hstate, ← hreason]; rfl
  obtain ⟨t, hexec, hrest, hpanel, hidle, hbusy⟩ :=
    answersOnly_of_act (row := .status) hready (fun _ => rfl) hact (by decide) frame hc
  constructor
  · intro htx
    obtain ⟨hsent, hreset, hoverrun⟩ := hidle htx
    rw [hsent, hreset, hoverrun, hstatus] at hpanel
    rw [hexec, hrest, hpanel]
    rfl
  · intro htx
    obtain ⟨hsent, hreset, hoverrun⟩ := hbusy htx
    rw [hsent, hreset, hoverrun] at hpanel
    rw [hexec, hrest, hpanel]
    rfl

/-- Settles O48: READ_FAULTS only answers. -/
theorem readFaultsClearsNothing : Obligations.ReadFaultsClearsNothing := by
  intro frame s hready hc
  have hanswers : answersOnly s .readFaults .readFaults 0x20 (0 :: bytes2 s.panel.faults) :=
    answersOnly_of_act hready (fun _ => rfl) rfl (by decide)
  obtain ⟨t, hexec, hrest, hpanel, -, -⟩ := hanswers frame hc
  refine ⟨t, hexec, ?_, fun f => Iff.rfl, ?_, ?_, hrest⟩
  all_goals rw [hpanel]

/-- Settles O49: the mask is replaced once the tests of the state and of the argument are passed, in that order. -/
theorem reportsReplacesTheMask : Obligations.ReportsReplacesTheMask := by
  refine ⟨fun mask frame s hready hc => ⟨fun hreads hmask => ?replaced, fun hreads hmask => ?badArgument,
    fun hrefused => ?refused⟩, fun straps s => ⟨resetStation straps s, rfl, rfl⟩⟩
  case replaced =>
    obtain ⟨t, hexec, hrest, hpanel, -, -⟩ :=
      exec_of_act (i := .reports frame) hready hc rfl (act_reports (s := frameEnded s) hreads hmask) rfl (by simp)
    refine ⟨t, hexec, ?_, ?_, ?_, ?_, ?_, ?_, hrest⟩
    all_goals rw [hpanel]; rfl
  case badArgument =>
    refine answersOnly_of_act (c := .reports mask) hready (fun _ => rfl) ?_ (by simp)
    rw [act, actReports, (allowsReads_iff (frameEnded s)).mpr hreads, decide_eq_false (Nat.not_lt.mpr hmask),
      tested_of_bad_argument]
  case refused =>
    refine answersOnly_of_act (c := .reports mask) hready (fun _ => rfl) ?_ (by simp)
    rw [act, actReports, allowsReads_eq_false (s := frameEnded s) hrefused, tested_of_not_allowed]

end Sys2Proof.Machine
end

