-- ==== Sys2Proof/Proofs/VoiceDuck.lean ====
section
/-!
SUPPORT. The voices under ducking (R66, R67): which fields a change of the duck counts can touch, and what the functions that choose and record
voices read of them.
-/
namespace Sys2Proof.Machine

/-! ## The slots -/

/-- Every slot is listed. -/
theorem mem_slots (i : Fin 16) : i ∈ slots := by
  revert i
  decide

/-- No slot is listed twice. -/
theorem slots_nodup : slots.Nodup := by decide

/-- A voice slot after a write. -/
theorem voiceOf_setVoice (i j : Fin 16) (v : Voice) (s : State) :
    voiceOf (setVoice i v s) j = if j = i then v else voiceOf s j := by
  split
  · next h => rw [h, voiceOf_setVoice_same]
  · next h => exact voiceOf_setVoice_other i j v s h

@[simp] theorem setVoice_duck (i : Fin 16) (v : Voice) (s : State) : (setVoice i v s).pool.duck = s.pool.duck := rfl
@[simp] theorem setVoice_stack (i : Fin 16) (v : Voice) (s : State) : (setVoice i v s).pool.stack = s.pool.stack := rfl
@[simp] theorem voiceOf_raiseDuck (c : CueRecord) (s : State) (i : Fin 16) : voiceOf (raiseDuck c s) i = voiceOf s i := rfl
@[simp] theorem voiceOf_lowerDuck (c : CueRecord) (s : State) (i : Fin 16) : voiceOf (lowerDuck c s) i = voiceOf s i := rfl
@[simp] theorem voiceOf_cancelRequest (i j : Fin 16) (s : State) : voiceOf (cancelRequest i s) j = voiceOf s j := rfl
@[simp] theorem voiceOf_purgeStack (test : StackEntry → Bool) (s : State) (i : Fin 16) :
    voiceOf (purgeStack test s) i = voiceOf s i := rfl
@[simp] theorem voiceOf_setFault (f : FaultFlag) (s : State) (i : Fin 16) : voiceOf (setFault f s) i = voiceOf s i := rfl
@[simp] theorem raiseDuck_stack (c : CueRecord) (s : State) : (raiseDuck c s).pool.stack = s.pool.stack := rfl
@[simp] theorem lowerDuck_stack (c : CueRecord) (s : State) : (lowerDuck c s).pool.stack = s.pool.stack := rfl

/-- The count of a group once a cue contributes to it. -/
theorem raiseDuck_duck (c : CueRecord) (s : State) (g : Fin 15) :
    (raiseDuck c s).pool.duck[g] = if c.ducks (g.val + 1) then s.pool.duck[g] + 1 else s.pool.duck[g] := by
  simp [raiseDuck]

/-- The count of a group once a cue no longer contributes to it. -/
theorem lowerDuck_duck (c : CueRecord) (s : State) (g : Fin 15) :
    (lowerDuck c s).pool.duck[g] = if c.ducks (g.val + 1) then s.pool.duck[g] - 1 else s.pool.duck[g] := by
  simp [lowerDuck]

/-! ## What a duck change sets -/

/-- Two states whose tables and duck counts are equal, and whose slots hold voices of equal states and cues. -/
def duckAlike (s t : State) : Prop :=
  t.tables = s.tables ∧ t.pool.duck = s.pool.duck ∧
    ∀ i, (voiceOf t i).state = (voiceOf s i).state ∧ (voiceOf t i).cue = (voiceOf s i).cue

theorem duckAlike.refl (s : State) : duckAlike s s := ⟨rfl, rfl, fun _ => ⟨rfl, rfl⟩⟩

theorem duckAlike.trans {s t u : State} (h : duckAlike s t) (k : duckAlike t u) : duckAlike s u := by
  obtain ⟨htab, hduck, hv⟩ := h
  obtain ⟨ktab, kduck, kv⟩ := k
  exact ⟨ktab.trans htab, kduck.trans hduck, fun i => ⟨(kv i).1.trans (hv i).1, (kv i).2.trans (hv i).2⟩⟩

/-- Equal tables give equal cue records. -/
theorem cueRecord_congr {s t : State} (h : t.tables = s.tables) (cue : Nat) : cueRecord t cue = cueRecord s cue := by
  simp [cueRecord, h]

/-- Equal tables give equal step records. -/
theorem stepRecord_congr {s t : State} (h : t.tables = s.tables) (c : CueRecord) (n : Nat) :
    stepRecord t c n = stepRecord s c n := by
  simp [stepRecord, h]

/-- Equal duck counts give equal counts of a group. -/
theorem duckCount_congr {s t : State} (h : t.pool.duck = s.pool.duck) (g : Nat) : duckCount t g = duckCount s g := by
  simp [duckCount, h]

/-- The applied depths depend on the tables, the counts, and the states and cues of the voices. -/
theorem appliedDepth_congr {s t : State} (h : duckAlike s t) (g : Nat) : appliedDepth t g = appliedDepth s g := by
  obtain ⟨htab, hduck, hv⟩ := h
  have hleast : leastDepth t g = leastDepth s g := by
    unfold leastDepth
    congr 1
    funext d i
    rw [voiceCue, voiceCue, (hv i).1, (hv i).2, cueRecord_congr htab]
  simp only [appliedDepth, duckCount_congr hduck, hleast]

/-- The effective target of a voice depends on no more than that. -/
theorem effectiveTarget_congr {s t : State} (h : duckAlike s t) (v : Voice) :
    effectiveTarget t v = effectiveTarget s v := by
  simp only [effectiveTarget, appliedDepth_congr h, cueRecord_congr h.1, stepRecord_congr h.1]

/-- A voice that a duck change may have reached: as it was, but for the ducked flag and the gain with its ramp (R45). -/
def duckOnly (v w : Voice) : Prop :=
  w = { v with
    ducked := w.ducked, gainNow := w.gainNow, gainTarget := w.gainTarget, rampIncrement := w.rampIncrement
    rampLeft := w.rampLeft }

theorem duckOnly.refl (v : Voice) : duckOnly v v := rfl

theorem duckOnly.trans {u v w : Voice} (h : duckOnly u v) (k : duckOnly v w) : duckOnly u w := by
  unfold duckOnly at *
  rw [k, h]

theorem duckOnly.state {v w : Voice} (h : duckOnly v w) : w.state = v.state := by rw [h]
theorem duckOnly.cue {v w : Voice} (h : duckOnly v w) : w.cue = v.cue := by rw [h]
theorem duckOnly.path {v w : Voice} (h : duckOnly v w) : w.path = v.path := by rw [h]
theorem duckOnly.buffer0 {v w : Voice} (h : duckOnly v w) : w.buffer0 = v.buffer0 := by rw [h]
theorem duckOnly.buffer1 {v w : Voice} (h : duckOnly v w) : w.buffer1 = v.buffer1 := by rw [h]

/-- A ramp touches the gain alone. -/
theorem startRamp_duckOnly (target n : Nat) (v : Voice) : duckOnly v (startRamp target n v) := by
  unfold startRamp
  split <;> rfl

theorem duckVoice_duckOnly (n : Nat) (before s : State) (v : Voice) : duckOnly v (duckVoice n before s v) := by
  unfold duckVoice
  dsimp only
  split
  · rfl
  · split
    · rfl
    · exact duckOnly.trans (v := { v with ducked := (appliedDepth s (cueRecord s v.cue).choke).isSome }) rfl
        (startRamp_duckOnly _ _ _)

/-- What a duck change makes of the voice of a slot (R45). -/
def duckChanged (before : State) (by_ : CueRecord) (s : State) (i : Fin 16) : Voice :=
  let v := voiceOf s i
  let g := (voiceCue s i).choke
  if v.state = .idle ∨ g = 0 ∨ appliedDepth before g = appliedDepth s g then v
  else duckVoice (msFrames by_.duckRamp) before s v

theorem duckChanged_duckOnly (before : State) (c : CueRecord) (s : State) (i : Fin 16) :
    duckOnly (voiceOf s i) (duckChanged before c s i) := by
  unfold duckChanged
  dsimp only
  split
  · rfl
  · exact duckVoice_duckOnly _ _ _ _

/-- Writing a voice that a duck change may have reached leaves what applied depths depend on. -/
theorem setVoice_duckAlike {i : Fin 16} {v : Voice} {s : State} (h : duckOnly (voiceOf s i) v) :
    duckAlike s (setVoice i v s) := by
  refine ⟨rfl, rfl, fun j => ?_⟩
  rw [voiceOf_setVoice]
  split
  · next hj => exact ⟨hj ▸ h.state, hj ▸ h.cue⟩
  · exact ⟨rfl, rfl⟩

/-- What a duck change makes of a voice depends on that voice and on what applied depths depend on. -/
theorem duckVoice_congr {s t : State} (h : duckAlike s t) (n : Nat) (before : State) (v : Voice) :
    duckVoice n before t v = duckVoice n before s v := by
  unfold duckVoice
  dsimp only
  rw [cueRecord_congr h.1, appliedDepth_congr h, effectiveTarget_congr h]

theorem duckChanged_congr {s t : State} (h : duckAlike s t) {before : State} {c : CueRecord} {j : Fin 16}
    (hv : voiceOf t j = voiceOf s j) : duckChanged before c t j = duckChanged before c s j := by
  unfold duckChanged
  dsimp only
  rw [duckVoice_congr h, voiceCue, voiceCue, hv, cueRecord_congr h.1, appliedDepth_congr h]

/-- One voice's part of a duck change. -/
def duckStep (before : State) (by_ : CueRecord) (t : State) (i : Fin 16) : State :=
  setVoice i (duckChanged before by_ t i) t

/-- A voice written back as it is changes nothing. -/
theorem setVoice_self (i : Fin 16) (s : State) : setVoice i (voiceOf s i) s = s := by
  have h : s.pool.voices.set i.val (voiceOf s i) i.isLt = s.pool.voices := by
    simp [voiceOf]
  show ({ s with pool := { s.pool with voices := s.pool.voices.set i.val (voiceOf s i) i.isLt } } : State) = s
  rw [h]

/-- A duck change reaches the voices slot by slot. -/
theorem duckChange_eq_foldl (before : State) (c : CueRecord) (s : State) :
    duckChange before c s = slots.foldl (duckStep before c) s := by
  unfold duckChange
  congr 1
  funext t i
  unfold duckStep duckChanged
  dsimp only
  split
  · exact (setVoice_self i t).symm
  · rfl

theorem duckStep_alike (before : State) (c : CueRecord) (s : State) (i : Fin 16) : duckAlike s (duckStep before c s i) :=
  setVoice_duckAlike (duckChanged_duckOnly before c s i)

/-- The steps of a duck change, over any slots that are all different, reach each of them once, as it was at the beginning. -/
theorem foldl_duckStep (before : State) (c : CueRecord) : ∀ (l : List (Fin 16)) (s : State), l.Nodup →
    duckAlike s (l.foldl (duckStep before c) s) ∧ (l.foldl (duckStep before c) s).pool.stack = s.pool.stack ∧
      ∀ j, voiceOf (l.foldl (duckStep before c) s) j = if j ∈ l then duckChanged before c s j else voiceOf s j
  | [], s, _ => ⟨duckAlike.refl s, rfl, fun j => by simp⟩
  | i :: l, s, h => by
    obtain ⟨hi, hl⟩ := List.nodup_cons.mp h
    have halike := duckStep_alike before c s i
    obtain ⟨ih1, ih2, ih3⟩ := foldl_duckStep before c l (duckStep before c s i) hl
    refine ⟨halike.trans ih1, ih2, fun j => ?_⟩
    rw [List.foldl_cons, ih3]
    by_cases hj : j = i
    · subst hj
      simp [hi, duckStep]
    · have hv : voiceOf (duckStep before c s i) j = voiceOf s j := voiceOf_setVoice_other i j _ s hj
      have hd : duckChanged before c (duckStep before c s i) j = duckChanged before c s j := duckChanged_congr halike hv
      simp [hj, hv, hd]

/-- What a duck change makes of every voice. -/
theorem voiceOf_duckChange (before : State) (c : CueRecord) (s : State) (j : Fin 16) :
    voiceOf (duckChange before c s) j = duckChanged before c s j := by
  rw [duckChange_eq_foldl, (foldl_duckStep before c slots s slots_nodup).2.2, if_pos (mem_slots j)]

/-- A duck change leaves what applied depths depend on. -/
theorem duckChange_alike (before : State) (c : CueRecord) (s : State) : duckAlike s (duckChange before c s) := by
  rw [duckChange_eq_foldl]
  exact (foldl_duckStep before c slots s slots_nodup).1

@[simp] theorem duckChange_stack (before : State) (c : CueRecord) (s : State) :
    (duckChange before c s).pool.stack = s.pool.stack := by
  rw [duckChange_eq_foldl]
  exact (foldl_duckStep before c slots s slots_nodup).2.1

@[simp] theorem duckChange_duck (before : State) (c : CueRecord) (s : State) :
    (duckChange before c s).pool.duck = s.pool.duck := (duckChange_alike before c s).2.1

/-- A duck change reaches no more of a voice than the ducked flag and the gain. -/
theorem duckChange_duckOnly (before : State) (c : CueRecord) (s : State) (j : Fin 16) :
    duckOnly (voiceOf s j) (voiceOf (duckChange before c s) j) := by
  rw [voiceOf_duckChange]
  exact duckChanged_duckOnly before c s j

/-! ## Updates of the pool that reach nothing else -/

/-- `t` is `s` but for the voice pool. -/
def poolOnly (s t : State) : Prop := t = { s with pool := t.pool }

theorem poolOnly.trans {s t u : State} (h : poolOnly s t) (k : poolOnly t u) : poolOnly s u := by
  unfold poolOnly at *
  rw [k, h]

theorem setVoice_poolOnly (i : Fin 16) (v : Voice) (s : State) : poolOnly s (setVoice i v s) := rfl

theorem duckChange_poolOnly (before : State) (c : CueRecord) (s : State) : poolOnly s (duckChange before c s) := by
  rw [duckChange_eq_foldl]
  exact foldl_keeps poolOnly (fun _ => rfl) poolOnly.trans _ (fun _ _ => setVoice_poolOnly _ _ _) slots s

end Sys2Proof.Machine
end

