-- ==== Sys2Proof/Proofs/VoiceSlots.lean ====
section
/-!
SUPPORT. The slots of the voice pool (chapter 4): vacating a slot, starting and resuming a voice, offering a slot to the suspend stack, and
the choice among the slots, each said once.
-/
namespace Sys2Proof.Machine

/-! ## What ends, resumes and starts a voice -/

/-- The context that a voice leaves in its slot when it ends (R27, R40). -/
def vacated (v : Voice) : Voice :=
  { v with
    state := .idle, primed := false, gainNow := 0, gainTarget := 0, rampIncrement := 0, rampLeft := 0,
    ducked := false, tailGlide := false, buffer0 := Buffer.empty, buffer1 := Buffer.empty, cursor := none }

/-- A duck change leaves an IDLE slot as it is. -/
theorem duckChanged_of_idle {before : State} {c : CueRecord} {s : State} {i : Fin 16} (h : (voiceOf s i).state = .idle) :
    duckChanged before c s i = voiceOf s i := by
  simp [duckChanged, h]

/-- The vacating of a slot, before the other voices follow the duck change. -/
def silencedSlot (i : Fin 16) (s : State) : State :=
  lowerDuck (voiceCue s i) (cancelRequest i (setVoice i (vacated (voiceOf s i)) s))

theorem vacate_eq (i : Fin 16) (s : State) : vacate i s = duckChange s (voiceCue s i) (silencedSlot i s) := rfl

theorem voiceOf_silencedSlot (i j : Fin 16) (s : State) :
    voiceOf (silencedSlot i s) j = if j = i then vacated (voiceOf s i) else voiceOf s j := by
  rw [silencedSlot, voiceOf_lowerDuck, voiceOf_cancelRequest, voiceOf_setVoice]

/-- A vacated slot. -/
theorem voiceOf_vacate_same (i : Fin 16) (s : State) : voiceOf (vacate i s) i = vacated (voiceOf s i) := by
  have h : voiceOf (silencedSlot i s) i = vacated (voiceOf s i) := by simp [voiceOf_silencedSlot]
  rw [vacate_eq, voiceOf_duckChange, duckChanged_of_idle (by rw [h]; rfl), h]

/-- The other slots when one is vacated. -/
theorem voiceOf_vacate_other {i j : Fin 16} (h : j ≠ i) (s : State) :
    duckOnly (voiceOf s j) (voiceOf (vacate i s) j) := by
  have := duckChange_duckOnly s (voiceCue s i) (silencedSlot i s) j
  rwa [voiceOf_silencedSlot, if_neg h] at this

@[simp] theorem vacate_stack (i : Fin 16) (s : State) : (vacate i s).pool.stack = s.pool.stack := by
  rw [vacate_eq, duckChange_stack]
  rfl

theorem vacate_duck (i : Fin 16) (s : State) (g : Fin 15) : (vacate i s).pool.duck[g] =
    if (voiceCue s i).ducks (g.val + 1) then s.pool.duck[g] - 1 else s.pool.duck[g] := by
  have h := lowerDuck_duck (voiceCue s i) (cancelRequest i (setVoice i (vacated (voiceOf s i)) s)) g
  rw [vacate_eq, duckChange_duck]
  exact h

/-- Vacating a slot cancels its request, and reaches nothing but that and the pool. -/
theorem vacate_poolOnly (i : Fin 16) (s : State) : poolOnly (cancelRequest i s) (vacate i s) := by
  rw [vacate_eq]
  refine poolOnly.trans ?_ (duckChange_poolOnly _ _ _)
  rfl

/-- A voice that begins in a slot, and its contributions, before its own ramp starts. -/
def beginVoice (i : Fin 16) (v : Voice) (s : State) : State :=
  duckChange s (cueRecord s v.cue) (raiseDuck (cueRecord s v.cue) (setVoice i v s))

theorem beginVoice_same (i : Fin 16) (v : Voice) (s : State) : duckOnly v (voiceOf (beginVoice i v s) i) := by
  have := duckChange_duckOnly s (cueRecord s v.cue) (raiseDuck (cueRecord s v.cue) (setVoice i v s)) i
  rwa [voiceOf_raiseDuck, voiceOf_setVoice_same] at this

theorem beginVoice_other {i j : Fin 16} (h : j ≠ i) (v : Voice) (s : State) :
    duckOnly (voiceOf s j) (voiceOf (beginVoice i v s) j) := by
  have := duckChange_duckOnly s (cueRecord s v.cue) (raiseDuck (cueRecord s v.cue) (setVoice i v s)) j
  rwa [voiceOf_raiseDuck, voiceOf_setVoice_other _ _ _ _ h] at this

@[simp] theorem beginVoice_stack (i : Fin 16) (v : Voice) (s : State) :
    (beginVoice i v s).pool.stack = s.pool.stack := by
  rw [beginVoice, duckChange_stack]
  rfl

theorem beginVoice_duck (i : Fin 16) (v : Voice) (s : State) (g : Fin 15) : (beginVoice i v s).pool.duck[g] =
    if (cueRecord s v.cue).ducks (g.val + 1) then s.pool.duck[g] + 1 else s.pool.duck[g] := by
  have h := raiseDuck_duck (cueRecord s v.cue) (setVoice i v s) g
  rw [beginVoice, duckChange_duck]
  exact h

theorem beginVoice_poolOnly (i : Fin 16) (v : Voice) (s : State) : poolOnly s (beginVoice i v s) := by
  refine poolOnly.trans ?_ (duckChange_poolOnly _ _ _)
  rfl

/-- The context with which a fire begins in a slot, before its attack ramp (R15). -/
def freshVoice (s : State) (cue : Nat) (trim : Byte) (order : Word) : Voice :=
  let c := cueRecord s cue
  { state := .priming, cue := cue, level := c.level, fireOrder := order, trim := trim, step := 0, pos := 0,
    passes := c.loopCount, path := .noPath, primed := false, gainNow := 0, gainTarget := 0, rampIncrement := 0,
    rampLeft := 0, ducked := (appliedDepth s c.choke).isSome, tailGlide := false, buffer0 := Buffer.empty,
    buffer1 := Buffer.empty, cursor := some { step := 0, pos := 0, passes := c.loopCount }, playCount := 0, cursorCount := 0 }

/-- The context with which a fire begins in a slot (R15). -/
def firedVoice (s : State) (cue : Nat) (trim : Byte) (order : Word) : Voice :=
  startRamp (effectiveTarget s (freshVoice s cue trim order)) (msFrames (cueRecord s cue).attack) (freshVoice s cue trim order)

theorem firedVoice_duckOnly (s : State) (cue : Nat) (trim : Byte) (order : Word) :
    duckOnly (freshVoice s cue trim order) (firedVoice s cue trim order) := startRamp_duckOnly _ _ _

theorem startVoice_eq (i : Fin 16) (cue : Nat) (trim : Byte) (order : Word) (s : State) :
    startVoice i cue trim order s = beginVoice i (firedVoice s cue trim order) s := by
  rw [beginVoice, (firedVoice_duckOnly s cue trim order).cue]
  rfl

/-- The context that an entry of the suspend stack resumes with, before its attack ramp (R34, R47). -/
def wokenVoice (e : StackEntry) : Voice :=
  { state := .resuming, cue := e.cue, level := e.level, fireOrder := e.fireOrder, trim := e.trim, step := e.step,
    pos := e.pos, passes := e.passes, path := .noPath, primed := false, gainNow := 0, gainTarget := 0,
    rampIncrement := 0, rampLeft := 0, ducked := false, tailGlide := false, buffer0 := Buffer.empty,
    buffer1 := Buffer.empty, cursor := some { step := e.step, pos := e.pos, passes := e.passes }, playCount := 0, cursorCount := 0 }

/-- The context that an entry of the suspend stack resumes with in a state (R34, R47). -/
def resumedVoice (s : State) (e : StackEntry) : Voice :=
  let c := cueRecord s e.cue
  let v := { wokenVoice e with ducked := (appliedDepth s c.choke).isSome }
  startRamp (effectiveTarget s v) (msFrames c.attack) v

theorem resumedVoice_duckOnly (s : State) (e : StackEntry) : duckOnly (wokenVoice e) (resumedVoice s e) :=
  duckOnly.trans (v := { wokenVoice e with ducked := (appliedDepth s (cueRecord s e.cue).choke).isSome }) rfl
    (startRamp_duckOnly _ _ _)

/-- A duck change and a raised count leave the tables. -/
theorem beginVoice_tables (i : Fin 16) (v : Voice) (s : State) : (beginVoice i v s).tables = s.tables :=
  (duckChange_alike s (cueRecord s v.cue) (raiseDuck (cueRecord s v.cue) (setVoice i v s))).1

/-- A resumed entry is a voice that has begun, and then a write of its own slot that starts its attack ramp. -/
theorem resumeVoice_eq (i : Fin 16) (e : StackEntry) (s : State) :
    resumeVoice i e s = setVoice i (resumedVoice (beginVoice i (wokenVoice e) s) e) (beginVoice i (wokenVoice e) s) := by
  rw [resumedVoice, cueRecord_congr (beginVoice_tables i (wokenVoice e) s)]
  rfl

/-- The suspend stack replaced. -/
def withStack (l : List StackEntry) (s : State) : State := { s with pool := { s.pool with stack := l } }

@[simp] theorem voiceOf_withStack (l : List StackEntry) (s : State) (i : Fin 16) :
    voiceOf (withStack l s) i = voiceOf s i := rfl
@[simp] theorem withStack_stack (l : List StackEntry) (s : State) : (withStack l s).pool.stack = l := rfl
@[simp] theorem withStack_duck (l : List StackEntry) (s : State) : (withStack l s).pool.duck = s.pool.duck := rfl
@[simp] theorem withStack_tables (l : List StackEntry) (s : State) : (withStack l s).tables = s.tables := rfl

theorem withStack_poolOnly (l : List StackEntry) (s : State) : poolOnly s (withStack l s) := rfl

/-- The entry that a freed slot takes: it passes the resume check, the entries above it fail it and are gone, and those under it
remain (R47). -/
theorem popEntry_some {s : State} : ∀ {l : List StackEntry} {e : StackEntry} {rest : List StackEntry},
    popEntry s l = some (e, rest) →
    resumeCheck s e = true ∧ ∃ above, l = above ++ e :: rest ∧ ∀ x ∈ above, resumeCheck s x = false
  | [], e, rest, h => by simp [popEntry] at h
  | x :: l, e, rest, h => by
    unfold popEntry at h
    split at h
    · next hx =>
      obtain ⟨rfl, rfl⟩ := Prod.mk.inj (Option.some.inj h)
      exact ⟨hx, [], rfl, by simp⟩
    · next hx =>
      obtain ⟨he, above, rfl, habove⟩ := popEntry_some h
      refine ⟨he, x :: above, rfl, ?_⟩
      intro y hy
      rcases List.mem_cons.mp hy with rfl | hy
      · simpa using hx
      · exact habove y hy

/-- No entry is taken where none passes the resume check. -/
theorem popEntry_none {s : State} {l : List StackEntry} : popEntry s l = none ↔ ∀ x ∈ l, resumeCheck s x = false := by
  induction l with
  | nil => simp [popEntry]
  | cons x l ih =>
    unfold popEntry
    split
    · next hx => simp [hx]
    · next hx => simp [ih, hx]

/-- What the offer of a slot to the suspend stack does (R40, R47): the stack is emptied of entries that fail the resume check,
or the first that passes resumes in the slot. -/
theorem offerSlot_cases (i : Fin 16) (s : State) :
    ((∀ x ∈ s.pool.stack, resumeCheck s x = false) ∧ offerSlot i s = withStack [] s) ∨
      ∃ e above rest, s.pool.stack = above ++ e :: rest ∧ resumeCheck s e = true ∧
        (∀ x ∈ above, resumeCheck s x = false) ∧
        offerSlot i s = resumeVoice i e (withStack rest s) := by
  unfold offerSlot
  split
  · next h => exact .inl ⟨popEntry_none.mp h, rfl⟩
  · next e rest h =>
    obtain ⟨he, above, hl, habove⟩ := popEntry_some h
    exact .inr ⟨e, above, rest, hl, he, habove, rfl⟩

theorem resumeVoice_poolOnly (i : Fin 16) (e : StackEntry) (s : State) : poolOnly s (resumeVoice i e s) := by
  rw [resumeVoice_eq]
  exact (beginVoice_poolOnly i _ _).trans (setVoice_poolOnly i _ _)

/-- The slot in which an entry resumes. -/
theorem voiceOf_resumeVoice_same (i : Fin 16) (e : StackEntry) (s : State) :
    duckOnly (wokenVoice e) (voiceOf (resumeVoice i e s) i) := by
  rw [resumeVoice_eq, voiceOf_setVoice_same]
  exact resumedVoice_duckOnly _ e

theorem voiceOf_resumeVoice_other {i j : Fin 16} (h : j ≠ i) (e : StackEntry) (s : State) :
    duckOnly (voiceOf s j) (voiceOf (resumeVoice i e s) j) := by
  rw [resumeVoice_eq, voiceOf_setVoice_other _ _ _ _ h]
  exact beginVoice_other h _ _

@[simp] theorem resumeVoice_stack (i : Fin 16) (e : StackEntry) (s : State) :
    (resumeVoice i e s).pool.stack = s.pool.stack := by
  rw [resumeVoice_eq, setVoice_stack, beginVoice_stack]

theorem resumeVoice_duck (i : Fin 16) (e : StackEntry) (s : State) (g : Fin 15) : (resumeVoice i e s).pool.duck[g] =
    if (cueRecord s e.cue).ducks (g.val + 1) then s.pool.duck[g] + 1 else s.pool.duck[g] := by
  rw [resumeVoice_eq, setVoice_duck]
  exact beginVoice_duck i (wokenVoice e) s g

/-- The offer of a slot reaches the pool alone. -/
theorem offerSlot_poolOnly (i : Fin 16) (s : State) : poolOnly s (offerSlot i s) := by
  rcases offerSlot_cases i s with ⟨-, h⟩ | ⟨e, _, rest, -, -, -, h⟩ <;> rw [h]
  · exact withStack_poolOnly [] s
  · exact (withStack_poolOnly rest s).trans (resumeVoice_poolOnly i e _)

/-- The other slots when one is offered to the suspend stack. -/
theorem voiceOf_offerSlot_other {i j : Fin 16} (h : j ≠ i) (s : State) :
    duckOnly (voiceOf s j) (voiceOf (offerSlot i s) j) := by
  rcases offerSlot_cases i s with ⟨-, heq⟩ | ⟨e, _, rest, -, -, -, heq⟩ <;> rw [heq]
  · exact duckOnly.refl _
  · exact voiceOf_resumeVoice_other h e (withStack rest s)

/-! ## The voice that comes first -/

/-- One step of the choice of a slot. -/
def pickStep (test : Fin 16 → Bool) (before : Fin 16 → Fin 16 → Bool) (best : Option (Fin 16)) (i : Fin 16) :
    Option (Fin 16) :=
  if test i then
    match best with
    | none => some i
    | some b => if before i b then some i else some b
  else best

/-- A choice among listed slots ends with a slot that passes the test, where one does. -/
theorem foldl_pickStep (test : Fin 16 → Bool) (before : Fin 16 → Fin 16 → Bool) : ∀ (l : List (Fin 16)) (best : Option (Fin 16)),
    (∀ i, best = some i → test i = true) →
    (∀ i, l.foldl (pickStep test before) best = some i → test i = true) ∧
      (l.foldl (pickStep test before) best = none ↔ best = none ∧ ∀ i ∈ l, test i = false)
  | [], best, h => ⟨h, by simp⟩
  | x :: l, best, h => by
    have hx : ∀ i, pickStep test before best x = some i → test i = true := by
      unfold pickStep
      split
      · next ht =>
        split
        · simpa using ht
        · next b =>
          have hb := h b rfl
          split <;> simpa
      · exact h
    obtain ⟨ih1, ih2⟩ := foldl_pickStep test before l _ hx
    refine ⟨ih1, ?_⟩
    rw [List.foldl_cons, ih2]
    have hnone : pickStep test before best x = none ↔ best = none ∧ test x = false := by
      unfold pickStep
      split
      · next ht =>
        split
        · simp [ht]
        · split <;> simp
      · next ht => simp [ht]
    simp only [hnone, List.mem_cons, forall_eq_or_imp]
    tauto

theorem pickSlot_eq (test : Fin 16 → Bool) (before : Fin 16 → Fin 16 → Bool) :
    pickSlot test before = slots.foldl (pickStep test before) none := rfl

/-- A chosen slot passes the test. -/
theorem pickSlot_test {test : Fin 16 → Bool} {before : Fin 16 → Fin 16 → Bool} {i : Fin 16}
    (h : pickSlot test before = some i) : test i = true :=
  (foldl_pickStep test before slots none (by simp)).1 i h

/-- No slot is chosen where none passes the test. -/
theorem pickSlot_none {test : Fin 16 → Bool} {before : Fin 16 → Fin 16 → Bool} :
    pickSlot test before = none ↔ ∀ i, test i = false := by
  rw [pickSlot_eq, (foldl_pickStep test before slots none (by simp)).2]
  simp [mem_slots]

end Sys2Proof.Machine
end

