-- ==== Sys2Proof/Proofs/PoolEffects.lean ====
section
/-!
SUPPORT. What a command or an event can do to the voice pool: `PoolEffect` lists the single changes, and every stage of the dispatcher is a
run of them.
-/
namespace Sys2Proof.Machine
open Relation

/-! ## What the dispatcher, the fetch unit and the frame clock do to the voice pool, one change at a time -/

/-- A voice context that another of the same cue replaces, which contributes and sounds no more than it did. -/
def altered (v w : Voice) : Prop :=
  w.cue = v.cue ∧ (w.state = .idle ↔ v.state = .idle) ∧ (w.sounding = true → v.sounding = true)

theorem altered.refl (v : Voice) : altered v v := ⟨rfl, Iff.rfl, id⟩

/-- A voice that holds no more frames than the block buffers have places for (R53). -/
def buffersBounded (v : Voice) : Prop := v.buffer0.frames.length ≤ 256 ∧ v.buffer1.frames.length ≤ 256

/-- The voices replaced, slot by slot. -/
def withVoices (vs : Vector Voice 16) (s : State) : State := { s with pool := { s.pool with voices := vs } }

@[simp] theorem voiceOf_withVoices (vs : Vector Voice 16) (s : State) (i : Fin 16) : voiceOf (withVoices vs s) i = vs[i] := rfl

/-- A slot holds a sounding voice of a choke group. -/
def soundsIn (s : State) (g : Nat) (j : Fin 16) : Prop := (voiceOf s j).sounding = true ∧ (voiceCue s j).choke = g

/-- No entry of the suspend stack is of a choke group. -/
def stackFree (s : State) (g : Nat) : Prop := ∀ e ∈ s.pool.stack, (cueRecord s e.cue).choke ≠ g

/-- No context of a choke group is sounding or suspended. -/
def groupFree (s : State) (g : Nat) : Prop := (∀ j, ¬ soundsIn s g j) ∧ stackFree s g

/-- A waiting request added (R54). -/
def askFor (r : Request) (s : State) : State :=
  { s with fetch := { s.fetch with requests := s.fetch.requests ++ [r], nextSeq := s.fetch.nextSeq + 1 } }

/-- One change of the voice pool and of the requests that follow it. Whatever the dispatcher, the fetch unit or the frame clock
does is a run of these. -/
inductive PoolEffect : State → State → Prop
  | alter (s : State) (vs : Vector Voice 16) (h : ∀ i : Fin 16, altered (voiceOf s i) vs[i])
      (hb : blocksBounded s → ∀ i : Fin 16, buffersBounded vs[i]) : PoolEffect s (withVoices vs s)
  | cancel (i : Fin 16) (s : State) : PoolEffect s (cancelRequest i s)
  | ask (r : Request) (s : State) (h : segmentFrames r.segments ≤ 256) : PoolEffect s (askFor r s)
  | grant (s : State) : PoolEffect s (grant s)
  | endRead (s : State) : PoolEffect s (endRead s)
  | vacate (i : Fin 16) (s : State) (h : (voiceOf s i).state ≠ .idle) : PoolEffect s (vacate i s)
  | offer (i : Fin 16) (s : State) (h : (voiceOf s i).state = .idle) : PoolEffect s (offerSlot i s)
  | start (i : Fin 16) (cue : Nat) (trim : Byte) (order : Word) (s : State) (h : (voiceOf s i).state = .idle)
      (hl : s.member.state ≠ .loading)
      (hf : (cueRecord s cue).choke ≠ 0 → groupFree s (cueRecord s cue).choke) :
      PoolEffect s (startVoice i cue trim order s)
  | suspend (i : Fin 16) (s : State) (h : (voiceOf s i).sounding = true) : PoolEffect s (suspendVoice i s)
  | purge (test : StackEntry → Bool) (s : State) : PoolEffect s (purgeStack test s)
  | fault (f : FaultFlag) (s : State) : PoolEffect s (setFault f s)
  | record (cue : Nat) (w : Word) (s : State) : PoolEffect s (setLastAccepted cue w s)

/-- A run of changes of the pool. -/
abbrev PoolEffects := ReflTransGen PoolEffect

/-- One written slot is a change of the pool. -/
theorem PoolEffect.write {i : Fin 16} {v : Voice} {s : State} (h : altered (voiceOf s i) v)
    (hb : blocksBounded s → buffersBounded v) : PoolEffect s (setVoice i v s) := by
  have hset : setVoice i v s = withVoices (setVoice i v s).pool.voices s := rfl
  have hv : ∀ j : Fin 16, (setVoice i v s).pool.voices[j] = if j = i then v else voiceOf s j := fun j =>
    voiceOf_setVoice i j v s
  rw [hset]
  refine .alter s _ (fun j => ?_) (fun hs j => ?_)
  · rw [hv]
    split
    · next hj => exact hj ▸ h
    · exact altered.refl _
  · rw [hv]
    split
    · exact hb hs
    · exact hs.1 j

/-- A voice that a duck change may have reached is an altered one. -/
theorem duckOnly.altered {v w : Voice} (h : duckOnly v w) : altered v w := by
  refine ⟨h.cue, by rw [h.state], fun hw => ?_⟩
  rwa [Voice.sounding, h.state] at hw

theorem duckOnly.sounding {v w : Voice} (h : duckOnly v w) : w.sounding = v.sounding := by
  rw [Voice.sounding, Voice.sounding, h.state]

/-! ## What no change of the pool reaches -/

/-- `t` is `s` but for the voice pool, the requests, the last-accepted records and the fault flags with their pending report. -/
def PoolFrame (s t : State) : Prop :=
  t = { s with
    pool := t.pool, fetch := t.fetch, dispatch := { s.dispatch with lastAccepted := t.dispatch.lastAccepted }
    panel := { s.panel with faults := t.panel.faults, faultPending := t.panel.faultPending } }

theorem PoolFrame.refl (s : State) : PoolFrame s s := rfl

theorem PoolFrame.trans {s t u : State} (h : PoolFrame s t) (k : PoolFrame t u) : PoolFrame s u := by
  unfold PoolFrame at *
  rw [k, h]

theorem VoiceFrame.pool {s t : State} (h : VoiceFrame s t) : PoolFrame s t := by
  obtain ⟨pool, fetch, faults, pend, rfl⟩ := h
  rfl

theorem PoolEffect.frame {s t : State} (h : PoolEffect s t) : PoolFrame s t := by
  cases h with
  | alter => rfl
  | cancel => rfl
  | ask => rfl
  | grant => exact (grant_frame _).pool
  | endRead => rfl
  | vacate => exact (vacate_frame _ _).pool
  | offer => exact (offerSlot_frame _ _).pool
  | start => exact (startVoice_frame _ _ _ _ _).pool
  | suspend => exact (suspendVoice_frame _ _).pool
  | purge => rfl
  | fault => exact (setFault_frame _ _).pool
  | record => rfl

theorem PoolEffects.frame {s t : State} (h : PoolEffects s t) : PoolFrame s t := by
  induction h with
  | refl => exact PoolFrame.refl s
  | tail _ hstep ih => exact ih.trans hstep.frame

theorem PoolFrame.tables {s t : State} (h : PoolFrame s t) : t.tables = s.tables := by rw [h]
theorem PoolFrame.member {s t : State} (h : PoolFrame s t) : t.member = s.member := by rw [h]
theorem PoolFrame.lockout {s t : State} (h : PoolFrame s t) : t.lockout = s.lockout := by rw [h]
theorem PoolFrame.line {s t : State} (h : PoolFrame s t) : t.line = s.line := by rw [h]
theorem PoolFrame.outputs {s t : State} (h : PoolFrame s t) : t.outputs = s.outputs := by rw [h]

/-! ## Releases -/

/-- A change of the pool that brings no voice of a choke group into a slot where the group has no entry on the suspend stack. -/
def calm (s t : State) : Prop :=
  PoolEffect s t ∧ ∀ g, stackFree s g → stackFree t g ∧ ∀ j, soundsIn t g j → soundsIn s g j

abbrev CalmEffects := ReflTransGen calm

theorem CalmEffects.pool {s t : State} (h : CalmEffects s t) : PoolEffects s t :=
  ReflTransGen.mono (show calm ≤ PoolEffect from fun _ _ hs => hs.1) _ _ h

theorem CalmEffects.group {s t : State} (h : CalmEffects s t) (g : Nat) (hs : stackFree s g) :
    stackFree t g ∧ ∀ j, soundsIn t g j → soundsIn s g j := by
  induction h with
  | refl => exact ⟨hs, fun _ => id⟩
  | tail _ hstep ih =>
    obtain ⟨ht, hsound⟩ := ih
    obtain ⟨hu, hsound'⟩ := hstep.2 g ht
    exact ⟨hu, fun j hj => hsound j (hsound' j hj)⟩

/-- Equal stacks and tables leave the entries of a group as they were. -/
theorem stackFree_congr {s t : State} (hstack : t.pool.stack = s.pool.stack) (htab : t.tables = s.tables) {g : Nat} :
    stackFree t g ↔ stackFree s g := by
  simp only [stackFree, hstack, cueRecord_congr htab]

/-- An altered voice sounds in no group that it did not sound in. -/
theorem soundsIn_of_altered {s t : State} {g : Nat} {j : Fin 16} (htab : t.tables = s.tables)
    (h : altered (voiceOf s j) (voiceOf t j)) (ht : soundsIn t g j) : soundsIn s g j := by
  obtain ⟨hcue, -, hsound⟩ := h
  obtain ⟨hs, hg⟩ := ht
  refine ⟨hsound hs, ?_⟩
  rwa [voiceCue, hcue, cueRecord_congr htab] at hg

theorem calm_write {i : Fin 16} {v : Voice} {s : State} (h : altered (voiceOf s i) v)
    (hb : blocksBounded s → buffersBounded v) : calm s (setVoice i v s) := by
  refine ⟨.write h hb, fun g hg => ⟨hg, fun j hj => soundsIn_of_altered (by rfl) ?_ hj⟩⟩
  rw [voiceOf_setVoice]
  split
  · next hji => exact hji ▸ h
  · exact altered.refl _

theorem calm_cancel (i : Fin 16) (s : State) : calm s (cancelRequest i s) :=
  ⟨.cancel i s, fun _ hg => ⟨hg, fun _ => id⟩⟩

theorem vacated_not_sounding (v : Voice) : ¬ (vacated v).sounding = true := Bool.false_ne_true

theorem calm_vacate {i : Fin 16} {s : State} (h : (voiceOf s i).state ≠ .idle) : calm s (vacate i s) := by
  have hframe := (vacate_frame i s).pool
  refine ⟨.vacate i s h, fun g hg => ⟨(stackFree_congr (vacate_stack i s) hframe.tables).mpr hg, fun j hj => ?_⟩⟩
  by_cases hji : j = i
  · subst hji
    obtain ⟨hsound, -⟩ := hj
    rw [voiceOf_vacate_same] at hsound
    exact absurd hsound (vacated_not_sounding _)
  · exact soundsIn_of_altered hframe.tables (voiceOf_vacate_other hji s).altered hj

theorem calm_offer {i : Fin 16} {s : State} (h : (voiceOf s i).state = .idle) : calm s (offerSlot i s) := by
  refine ⟨.offer i s h, fun g hg => ?_⟩
  have htab := (offerSlot_frame i s).pool.tables
  have hother : ∀ j, j ≠ i → soundsIn (offerSlot i s) g j → soundsIn s g j := fun j hji hj =>
    soundsIn_of_altered htab (voiceOf_offerSlot_other hji s).altered hj
  rcases offerSlot_cases i s with ⟨-, heq⟩ | ⟨e, above, rest, hstack, -, -, heq⟩
  · rw [heq]
    exact ⟨fun _ he => absurd he (List.not_mem_nil), fun j hj => hj⟩
  · have hmem : ∀ x, x = e ∨ x ∈ rest → x ∈ s.pool.stack := by
      rw [hstack]
      simp +contextual
    constructor
    · intro x hx
      rw [cueRecord_congr htab]
      rw [heq, resumeVoice_stack, withStack_stack] at hx
      exact hg x (hmem x (.inr hx))
    · intro j hj
      by_cases hji : j = i
      · subst hji
        obtain ⟨-, hchoke⟩ := hj
        rw [voiceCue, cueRecord_congr htab, heq, (voiceOf_resumeVoice_same j e _).cue] at hchoke
        exact absurd hchoke (hg e (hmem e (.inl rfl)))
      · exact hother j hji hj

/-- The end of a voice. -/
theorem endVoice_calm {i : Fin 16} {s : State} (h : (voiceOf s i).state ≠ .idle) : CalmEffects s (endVoice i s) :=
  .tail (.single (calm_vacate h)) (calm_offer (by rw [voiceOf_vacate_same]; rfl))

/-- The slot of an ended voice sounds in no group without an entry on the suspend stack. -/
theorem endVoice_not_soundsIn {i : Fin 16} {s : State} (h : (voiceOf s i).state ≠ .idle) {g : Nat} (hg : stackFree s g) :
    ¬ soundsIn (endVoice i s) g i := by
  intro hi
  have hvac := (calm_vacate h).2 g hg
  have hoff := (calm_offer (i := i) (s := vacate i s) (by rw [voiceOf_vacate_same]; rfl)).2 g hvac.1
  obtain ⟨hsound, -⟩ := hoff.2 i hi
  rw [voiceOf_vacate_same] at hsound
  exact vacated_not_sounding _ hsound

/-- A sounding voice is not IDLE. -/
theorem Voice.sounding_ne_idle {v : Voice} (h : v.sounding = true) : v.state ≠ .idle := by
  intro hidle
  simp [Voice.sounding, hidle] at h

/-- A voice that is RELEASING where a sounding one was is an altered one. -/
theorem altered_of_releasing {v w : Voice} (hv : v.sounding = true) (hcue : w.cue = v.cue) (hw : w.state = .releasing) :
    altered v w :=
  ⟨hcue, by simp [hw, Voice.sounding_ne_idle hv], fun _ => hv⟩

/-- A trimmed buffer holds no more than it did. -/
theorem Buffer.trim_length (b : Buffer) (play : Word) (rest : Nat) : (b.trim play rest).frames.length ≤ b.frames.length := by
  simp [Buffer.trim]

/-- The buffers of a voice that leaves its walk are its own, trimmed (R59). -/
theorem realign_buffers (s : State) (v : Voice) :
    ∃ rest, (realign s v).buffer0 = v.buffer0.trim v.playCount rest ∧ (realign s v).buffer1 = v.buffer1.trim v.playCount rest := by
  refine ⟨(stepRecord s (cueRecord s v.cue) v.step).length - v.pos, ?_⟩
  unfold realign
  dsimp only
  split <;> exact ⟨rfl, rfl⟩

theorem realign_bounded {s : State} {v : Voice} (h : buffersBounded v) : buffersBounded (realign s v) := by
  obtain ⟨rest, h0, h1⟩ := realign_buffers s v
  obtain ⟨hb0, hb1⟩ := h
  refine ⟨?_, ?_⟩
  · rw [h0]
    exact (Buffer.trim_length _ _ _).trans hb0
  · rw [h1]
    exact (Buffer.trim_length _ _ _).trans hb1

theorem realign_cue (s : State) (v : Voice) : (realign s v).cue = v.cue := by
  unfold realign
  dsimp only
  split <;> rfl

/-- What a release leaves in the slot of a sounding voice: a RELEASING voice of the same cue in a write of that slot, with its
request cancelled or not, or what the end of the voice leaves. -/
theorem releaseTail_cases {i : Fin 16} {s : State} (h : (voiceOf s i).sounding = true) :
    (∃ w, w.state = .releasing ∧ w.cue = (voiceOf s i).cue ∧ (buffersBounded (voiceOf s i) → buffersBounded w) ∧
      (releaseTail i s = setVoice i w s ∨ releaseTail i s = cancelRequest i (setVoice i w s))) ∨
      releaseTail i s = endVoice i s := by
  have hempty : buffersBounded (voiceOf s i) → Buffer.empty.frames.length ≤ 256 ∧ Buffer.empty.frames.length ≤ 256 := by
    intro _
    exact ⟨Nat.zero_le _, Nat.zero_le _⟩
  have hwalk : ∀ {t : State}, t = (if (cueRecord s (voiceOf s i).cue).inTail (voiceOf s i).step
        then setVoice i { voiceOf s i with state := .releasing, path := .tail } s
        else cancelRequest i (setVoice i { realign s (voiceOf s i) with state := .releasing, path := .tail } s)) →
      ∃ w, w.state = .releasing ∧ w.cue = (voiceOf s i).cue ∧ (buffersBounded (voiceOf s i) → buffersBounded w) ∧
        (t = setVoice i w s ∨ t = cancelRequest i (setVoice i w s)) := by
    intro t ht
    split at ht
    · refine ⟨_, ?_, ?_, ?_, .inl ht⟩
      · rfl
      · rfl
      · exact id
    · refine ⟨_, ?_, ?_, ?_, .inr ht⟩
      · rfl
      · exact realign_cue s (voiceOf s i)
      · exact realign_bounded
  cases hstate : (voiceOf s i).state with
  | idle => simp [Voice.sounding, hstate] at h
  | releasing => simp [Voice.sounding, hstate] at h
  | priming =>
    simp only [releaseTail, hstate]
    split
    · refine .inl ⟨_, ?_, ?_, ?_, .inr rfl⟩
      · rfl
      · rfl
      · exact hempty
    · exact .inr rfl
  | playing => exact .inl (hwalk (by simp only [releaseTail, hstate]))
  | resuming => exact .inl (hwalk (by simp only [releaseTail, hstate]))

theorem startRamp_bounded {target n : Nat} {v : Voice} (h : buffersBounded v) : buffersBounded (startRamp target n v) := by
  have hd := startRamp_duckOnly target n v
  rwa [buffersBounded, hd.buffer0, hd.buffer1]

theorem releaseFade_cases {i : Fin 16} {s : State} (h : (voiceOf s i).sounding = true) :
    (∃ w, w.state = .releasing ∧ w.cue = (voiceOf s i).cue ∧ (buffersBounded (voiceOf s i) → buffersBounded w) ∧
      releaseFade i s = setVoice i w s) ∨ releaseFade i s = endVoice i s := by
  let v : Voice := { voiceOf s i with state := .releasing, path := .fade }
  have hfade : ∀ n, (startRamp 0 n v).state = .releasing ∧ (startRamp 0 n v).cue = (voiceOf s i).cue ∧
      (buffersBounded (voiceOf s i) → buffersBounded (startRamp 0 n v)) := fun n =>
    ⟨(startRamp_duckOnly 0 n v).state, (startRamp_duckOnly 0 n v).cue, fun hb => startRamp_bounded (v := v) hb⟩
  cases hstate : (voiceOf s i).state with
  | idle => simp [Voice.sounding, hstate] at h
  | releasing => simp [Voice.sounding, hstate] at h
  | priming =>
    right
    simp only [releaseFade, hstate]
  | playing =>
    obtain ⟨h1, h2, h3⟩ := hfade (msFrames (cueRecord s (voiceOf s i).cue).releaseTime)
    exact .inl ⟨_, h1, h2, h3, by simp only [releaseFade, hstate]; rfl⟩
  | resuming =>
    obtain ⟨h1, h2, h3⟩ := hfade (msFrames (cueRecord s (voiceOf s i).cue).releaseTime)
    exact .inl ⟨_, h1, h2, h3, by simp only [releaseFade, hstate]; rfl⟩

/-- What every release does: a calm run, after which its slot sounds in no group without an entry on the suspend stack. -/
def releases (i : Fin 16) (s t : State) : Prop :=
  CalmEffects s t ∧ ∀ g, stackFree s g → ¬ soundsIn t g i

theorem endVoice_releases {i : Fin 16} {s : State} (h : (voiceOf s i).sounding = true) : releases i s (endVoice i s) :=
  ⟨endVoice_calm (Voice.sounding_ne_idle h), fun _ => endVoice_not_soundsIn (Voice.sounding_ne_idle h)⟩

theorem not_soundsIn_of_releasing {s : State} {i : Fin 16} (h : (voiceOf s i).state = .releasing) (g : Nat) :
    ¬ soundsIn s g i := by
  rintro ⟨hsound, -⟩
  simp [Voice.sounding, h] at hsound

/-- A RELEASING voice written where a sounding one was is a release. -/
theorem releases_write {i : Fin 16} {s : State} {w : Voice} (h : (voiceOf s i).sounding = true) (hw : w.state = .releasing)
    (hcue : w.cue = (voiceOf s i).cue) (hb : buffersBounded (voiceOf s i) → buffersBounded w) :
    releases i s (setVoice i w s) ∧ releases i s (cancelRequest i (setVoice i w s)) := by
  have hcalm : calm s (setVoice i w s) := calm_write (altered_of_releasing h hcue hw) fun hs => hb (hs.1 i)
  have hstate : (voiceOf (setVoice i w s) i).state = .releasing := by rw [voiceOf_setVoice_same, hw]
  exact ⟨⟨.single hcalm, fun g _ => not_soundsIn_of_releasing hstate g⟩,
    ⟨.tail (.single hcalm) (calm_cancel i _), fun g _ => not_soundsIn_of_releasing hstate g⟩⟩

theorem releaseTail_releases {i : Fin 16} {s : State} (h : (voiceOf s i).sounding = true) :
    releases i s (releaseTail i s) := by
  rcases releaseTail_cases h with ⟨w, hw, hcue, hb, heq | heq⟩ | heq <;> rw [heq]
  · exact (releases_write h hw hcue hb).1
  · exact (releases_write h hw hcue hb).2
  · exact endVoice_releases h

theorem releaseFade_releases {i : Fin 16} {s : State} (h : (voiceOf s i).sounding = true) :
    releases i s (releaseFade i s) := by
  rcases releaseFade_cases h with ⟨w, hw, hcue, hb, heq⟩ | heq <;> rw [heq]
  · exact (releases_write h hw hcue hb).1
  · exact endVoice_releases h

theorem releaseVoice_releases {i : Fin 16} {s : State} (h : (voiceOf s i).sounding = true) (mode : ReleaseMode) :
    releases i s (releaseVoice mode i s) := by
  cases mode with
  | tail => exact releaseTail_releases h
  | fade => exact releaseFade_releases h

theorem releaseByMode_releases {i : Fin 16} {s : State} (h : (voiceOf s i).sounding = true) (mode : Byte) :
    releases i s (releaseByMode mode i s) := by
  unfold releaseByMode
  split
  · exact releaseTail_releases h
  · split
    · exact releaseFade_releases h
    · split
      · exact endVoice_releases h
      · exact releaseVoice_releases h _

/-! ## The stages of a fire -/

/-- A run over slots, each of which makes a run of changes of the pool. -/
theorem foldl_effects {α β : Type} {R : β → β → Prop} {f : β → α → β} (h : ∀ s a, ReflTransGen R s (f s a)) (l : List α)
    (s : β) : ReflTransGen R s (l.foldl f s) := by
  induction l generalizing s with
  | nil => exact .refl
  | cons a l ih => exact (h s a).trans (ih (f s a))

/-- One slot of the choke stage (R6). -/
def chokeSlot (g : Nat) (t : State) (i : Fin 16) : State :=
  if (voiceOf t i).sounding && decide ((voiceCue t i).choke = g) then releaseVoice (voiceCue t i).releaseMode i t else t

theorem chokeSlot_calm (g : Nat) (t : State) (i : Fin 16) : CalmEffects t (chokeSlot g t i) := by
  unfold chokeSlot
  split
  · next h =>
    rw [Bool.and_eq_true] at h
    exact (releaseVoice_releases h.1 _).1
  · exact .refl

theorem chokeSlot_silent {g : Nat} {t : State} (i : Fin 16) (hg : stackFree t g) : ¬ soundsIn (chokeSlot g t i) g i := by
  unfold chokeSlot
  split
  · next h =>
    rw [Bool.and_eq_true] at h
    exact (releaseVoice_releases h.1 _).2 g hg
  · next h =>
    rintro ⟨hsound, hchoke⟩
    simp [hsound, hchoke] at h

/-- The choke stage over some slots leaves none of them sounding in the group. -/
theorem foldl_chokeSlot_silent (g : Nat) : ∀ (l : List (Fin 16)) (t : State), stackFree t g →
    ∀ i ∈ l, ¬ soundsIn (l.foldl (chokeSlot g) t) g i
  | [], _, _, _, hi => absurd hi List.not_mem_nil
  | x :: l, t, hg, i, hi => by
    have hx := (chokeSlot_calm g t x).group g hg
    rcases List.mem_cons.mp hi with rfl | hi
    · intro hsound
      exact chokeSlot_silent i hg ((CalmEffects.group (foldl_effects (chokeSlot_calm g) l _) g hx.1).2 i hsound)
    · exact foldl_chokeSlot_silent g l _ hx.1 i hi

theorem chokeStage_eq {c : CueRecord} (h : c.choke ≠ 0) (s : State) : chokeStage c s =
    slots.foldl (chokeSlot c.choke) (purgeStack (fun e => decide ((cueRecord s e.cue).choke = c.choke)) s) := by
  unfold chokeStage
  rw [if_neg h]
  rfl

theorem chokeStage_effects (c : CueRecord) (s : State) : PoolEffects s (chokeStage c s) := by
  by_cases h : c.choke = 0
  · rw [chokeStage, if_pos h]
  · rw [chokeStage_eq h]
    exact (ReflTransGen.single (.purge _ s)).trans (CalmEffects.pool (foldl_effects (chokeSlot_calm _) slots _))

/-- After the choke stage no context of the group is sounding or suspended (R6). -/
theorem chokeStage_groupFree {c : CueRecord} (h : c.choke ≠ 0) (s : State) : groupFree (chokeStage c s) c.choke := by
  rw [chokeStage_eq h]
  have hpurged : stackFree (purgeStack (fun e => decide ((cueRecord s e.cue).choke = c.choke)) s) c.choke := by
    intro e he
    simp only [purgeStack, List.mem_filter, Bool.not_eq_true', decide_eq_false_iff_not] at he
    exact he.2
  exact ⟨fun i => foldl_chokeSlot_silent _ slots _ hpurged i (mem_slots i),
    (CalmEffects.group (foldl_effects (chokeSlot_calm _) slots _) _ hpurged).1⟩

/-- Whatever a suspension or a cut does, a group without contexts remains without. -/
theorem groupFree_vacate {i : Fin 16} {s : State} {g : Nat} (h : (voiceOf s i).state ≠ .idle) (hg : groupFree s g) :
    groupFree (vacate i s) g := by
  obtain ⟨hstack, hsound⟩ := (calm_vacate h).2 g hg.2
  exact ⟨fun j hj => hg.1 j (hsound j hj), hstack⟩

theorem pushStack_stack (e : StackEntry) (s : State) : (pushStack e s).pool.stack = (e :: s.pool.stack).take 8 := by
  unfold pushStack
  split
  · next h => exact (List.take_of_length_le (by simpa using h)).symm
  · rfl

/-- A pushed context changes the stack, and a full one the fault flags. -/
theorem voiceOf_pushStack (e : StackEntry) (s : State) (i : Fin 16) : voiceOf (pushStack e s) i = voiceOf s i := by
  unfold pushStack
  split <;> rfl

theorem pushStack_duck (e : StackEntry) (s : State) : (pushStack e s).pool.duck = s.pool.duck := by
  unfold pushStack
  split <;> rfl

/-- The entry that a suspended voice leaves on the stack (R46). -/
def suspendedEntry (s : State) (i : Fin 16) : StackEntry :=
  let v := voiceOf s i
  { cue := v.cue, level := v.level, fireOrder := v.fireOrder, trim := v.trim, step := v.step, pos := v.pos,
    passes := v.passes, gainTarget := effectiveTarget s v }

theorem suspendVoice_eq (i : Fin 16) (s : State) : suspendVoice i s = vacate i (pushStack (suspendedEntry s i) s) := rfl

theorem groupFree_suspend {i : Fin 16} {s : State} {g : Nat} (h : (voiceOf s i).sounding = true) (hg : groupFree s g) :
    groupFree (suspendVoice i s) g := by
  rw [suspendVoice_eq]
  refine groupFree_vacate (by rw [voiceOf_pushStack]; exact Voice.sounding_ne_idle h) ⟨fun j hj => ?_, fun e he => ?_⟩
  · have htab := (pushStack_frame (suspendedEntry s i) s).pool.tables
    exact hg.1 j (soundsIn_of_altered htab (by rw [voiceOf_pushStack]; exact altered.refl _) hj)
  · rw [cueRecord_congr (pushStack_frame (suspendedEntry s i) s).pool.tables]
    rw [pushStack_stack] at he
    rcases List.mem_cons.mp (List.mem_of_mem_take he) with rfl | he
    · exact fun hchoke => hg.1 i ⟨h, hchoke⟩
    · exact hg.2 e he

/-- A voice that is suspended by preemption is sounding. -/
theorem suspendable_sounding {s : State} {i : Fin 16} (hidle : (voiceOf s i).state ≠ .idle) (h : suspendable s i = true) :
    (voiceOf s i).sounding = true := by
  simp only [suspendable, Bool.and_eq_true, decide_eq_true_eq] at h
  obtain ⟨hrel, -⟩ := h
  cases hstate : (voiceOf s i).state <;> simp_all [Voice.sounding]

theorem preempt_effect {i : Fin 16} {s : State} (h : (voiceOf s i).state ≠ .idle) : PoolEffect s (preempt i s) := by
  unfold preempt
  split
  · next hs => exact .suspend i s (suspendable_sounding h hs)
  · exact .vacate i s h

theorem preempt_groupFree {i : Fin 16} {s : State} {g : Nat} (h : (voiceOf s i).state ≠ .idle) (hg : groupFree s g) :
    groupFree (preempt i s) g := by
  unfold preempt
  split
  · next hs => exact groupFree_suspend (suspendable_sounding h hs) hg
  · exact groupFree_vacate h hg

theorem preempt_idle (i : Fin 16) (s : State) : (voiceOf (preempt i s) i).state = .idle := by
  unfold preempt
  split
  · rw [suspendVoice_eq, voiceOf_vacate_same]
    rfl
  · rw [voiceOf_vacate_same]
    rfl

theorem idleSlot_idle {s : State} {i : Fin 16} (h : idleSlot s = some i) : (voiceOf s i).state = .idle := by
  have := pickSlot_test h
  simpa using this

/-- A station that takes frames is not LOADING. -/
theorem not_loading_of_takesFrames {s : State} (h : takesFrames s = true) : s.member.state ≠ .loading := by
  intro hl
  simp [takesFrames, hl] at h

/-- Stages 6 and 7 of a fire whose choke group is free (R11 to R15). -/
theorem allocate_effects {cue : Nat} {s : State} (trim : Byte) (order : Word) (o : FireOutcome)
    (hl : s.member.state ≠ .loading) (hf : (cueRecord s cue).choke ≠ 0 → groupFree s (cueRecord s cue).choke) :
    PoolEffects s (allocate cue trim order o s).1 := by
  unfold allocate
  split
  · next i hi =>
    dsimp only
    exact .single (.start i cue trim order s (idleSlot_idle hi) hl hf)
  · next hnone =>
    split
    · next i _ =>
      dsimp only
      have hbusy : (voiceOf s i).state ≠ .idle := by
        have := pickSlot_none.mp hnone i
        simpa using this
      have hframe := (preempt_effect hbusy).frame
      refine .tail (.single (preempt_effect hbusy)) (.start i cue trim order _ (preempt_idle i s) ?_ ?_)
      · rw [hframe.member]
        exact hl
      · rw [cueRecord_congr hframe.tables]
        exact fun hc => preempt_groupFree hbusy (hf hc)
    · exact .refl

/-- The context of a restarted voice, before its attack ramp (R9, R33). -/
def rewoundVoice (s : State) (i : Fin 16) (trim : Byte) (order : Word) : Voice :=
  { voiceOf s i with
    state := .priming, step := 0, pos := 0, passes := (voiceCue s i).loopCount, primed := false, fireOrder := order,
    trim := trim, tailGlide := false, buffer0 := Buffer.empty, buffer1 := Buffer.empty,
    cursor := some { step := 0, pos := 0, passes := (voiceCue s i).loopCount }, playCount := 0, cursorCount := 0 }

/-- The context of a restarted voice (R9, R33). -/
def restartedVoice (s : State) (i : Fin 16) (trim : Byte) (order : Word) : Voice :=
  let v := rewoundVoice s i trim order
  if effectiveTarget s v = v.gainTarget then v
  else startRamp (effectiveTarget s v) (msFrames (voiceCue s i).attack) v

theorem restartVoice_eq (i : Fin 16) (trim : Byte) (order : Word) (s : State) :
    restartVoice i trim order s = cancelRequest i (setVoice i (restartedVoice s i trim order) s) := rfl

theorem restartedVoice_duckOnly (s : State) (i : Fin 16) (trim : Byte) (order : Word) :
    duckOnly (rewoundVoice s i trim order) (restartedVoice s i trim order) := by
  unfold restartedVoice
  dsimp only
  split
  · exact duckOnly.refl _
  · exact startRamp_duckOnly _ _ _

/-- A restart is a run of changes of the pool: the sounding voice begins its walk again (R9). -/
theorem restartVoice_effects {i : Fin 16} {s : State} (trim : Byte) (order : Word) (h : (voiceOf s i).sounding = true) :
    PoolEffects s (restartVoice i trim order s) := by
  have hd := restartedVoice_duckOnly s i trim order
  have hwrite : PoolEffect s (setVoice i (restartedVoice s i trim order) s) := by
    refine .write ⟨hd.cue.trans (by simp only [rewoundVoice]), ?_, fun _ => h⟩ fun _ => ?_
    · rw [hd.state]
      exact iff_of_false VoiceState.noConfusion (Voice.sounding_ne_idle h)
    · rw [buffersBounded, hd.buffer0, hd.buffer1]
      exact ⟨Nat.zero_le _, Nat.zero_le _⟩
  rw [restartVoice_eq]
  exact .tail (.single hwrite) (.cancel i _)

/-- Stages 5 to 7 of a fire whose choke group is free (R9 to R15). -/
theorem playStages_effects {cue : Nat} {s : State} (trim : Byte) (order : Word) (hl : s.member.state ≠ .loading)
    (hf : (cueRecord s cue).choke ≠ 0 → groupFree s (cueRecord s cue).choke) :
    PoolEffects s (playStages cue trim order s).1 := by
  unfold playStages
  split
  · exact allocate_effects _ _ _ hl hf
  · next i hi =>
    have hsound := pickSlot_test hi
    rw [Bool.and_eq_true] at hsound
    split
    · exact restartVoice_effects _ _ hsound.1
    · exact .refl
    · exact allocate_effects _ _ _ hl hf

/-- A fire is a run of changes of the pool (R4). -/
theorem dispatchFire_effects {s : State} (cue : Nat) (trim : Byte) (edge order : Word) (hl : s.member.state ≠ .loading) :
    PoolEffects s (dispatchFire cue trim edge order s).1 := by
  unfold dispatchFire
  split
  · dsimp only
    let t := chokeStage (cueRecord s cue) (setLastAccepted cue edge s)
    have hrun : PoolEffects s t := (ReflTransGen.single (.record cue edge s)).trans (chokeStage_effects _ _)
    have hcue : cueRecord t cue = cueRecord s cue := cueRecord_congr (PoolEffects.frame hrun).tables cue
    have hl' : t.member.state ≠ .loading := by
      rw [(PoolEffects.frame hrun).member]
      exact hl
    split
    · refine hrun.trans (playStages_effects trim order hl' ?_)
      rw [hcue]
      exact fun hc => chokeStage_groupFree hc _
    · exact hrun
  · exact .refl

end Sys2Proof.Machine
end

