-- ==== Sys2Proof/Proofs/StepEffects.lean ====
section
/-!
SUPPORT. What a step can do to the state: `Effect` lists the single changes of a state, and every step is a run of them
(`step_effects`, `step_keeps`). The inductive laws rest on this.
-/
namespace Sys2Proof.Machine
open Relation

/-! ## Changes that no invariant looks at -/

/-- `t` is `s` in all that the invariants of a step look at, and its queues and FIFO are no fuller than they may be. -/
structure SameCore (s t : State) : Prop where
  clock : t.stationClock = s.stationClock := by rfl
  now : t.now = s.now := by rfl
  line : t.line = s.line := by rfl
  state : t.member.state = s.member.state := by rfl
  tables : t.tables = s.tables := by rfl
  flash : t.flash = s.flash := by rfl
  pool : t.pool = s.pool := by rfl
  fetch : t.fetch = s.fetch := by rfl
  outputs : outputsInRange s → outputsInRange t := by exact fun h => h
  claims : t.lockout.round.claims = s.lockout.round.claims := by rfl
  excluded : t.lockout.round.excluded = s.lockout.round.excluded := by rfl
  profile : t.lockout.round.profile = s.lockout.round.profile := by rfl
  queue : t.pending = s.pending := by rfl
  received : t.rxq.entries.length ≤ s.rxq.entries.length := by exact Nat.le_refl _
  queued : s.txq.entries.length ≤ 4 → t.txq.entries.length ≤ 4 := by exact fun h => h
  outcomes : s.panel.outcomes.length ≤ 8 → t.panel.outcomes.length ≤ 8 := by exact fun h => h

/-- Offers at a freeing, with the bound of the transmit queue. -/
theorem OfferFrame.same {s t : State} (h : OfferFrame s t) (hb : s.txq.entries.length ≤ 4 → t.txq.entries.length ≤ 4) :
    SameCore s t := by
  obtain ⟨_, _, _, _, _, _, rfl⟩ := h
  exact { queued := hb }

/-! ## The changes that a step is made of -/

/-- One change of the station. Every command, and every tick, is a run of these. -/
inductive Effect : State → State → Prop
  | same {s t : State} (h : SameCore s t) : Effect s t
  | pool {s t : State} (h : PoolEffect s t) : Effect s t
  | reset (straps : Straps) (s : State) : Effect s (resetStation straps s)
  | load (flash : List Host.Cell) (s : State) (h : s.member.state = .loading) : Effect s (imageLoad flash s)
  | sample (n : Nat) (level : Bool) (s : State) : Effect s (sampleAt n level s).1
  | mix (s : State) : Effect s { s with outputs := mapVec (mixOutput s) s.outputs }
  | leaveLine (s : State) : Effect s (leaveLine s)
  | duplicate (s : State) (edge : Word) (h : s.line = { LineInterface.reset with breakEdge := edge }) :
      Effect s { s with
        member := { s.member with state := .duplicate, heldJoin := none }
        lockout := { s.lockout with round := Round.reset }
        clocks := { s.clocks with records := mapVec ClockRecord.silence s.clocks.records } }
  | arm (identity : Byte × Byte) (profile : Nat) (edge : Word) (state : RoundState) (held : Bool) (s : State) :
      Effect s (withRound (fun _ => Round.fresh identity profile edge state held) s)
  | claim (pair : Nat × Nat) (capture : Nat) (s : State) (h : s.member.state ≠ .loading) : Effect s (addClaim pair capture s)
  | falseStart (pair : Nat × Nat) (s u : State)
      (h : PoolEffects (withRound (fun r => { r with excluded := r.excluded ++ [pair] }) s) u) :
      Effect s (withRound (fun r =>
        Round.recompute { r with claims := r.claims.filter fun c => (c.station, c.input) != pair }) u)
  | tick (s : State) : Effect s (clockTick s)

/-- A run of changes of the station. -/
abbrev Effects := ReflTransGen Effect

theorem PoolEffects.lift {s t : State} (h : PoolEffects s t) : Effects s t :=
  ReflTransGen.mono (show PoolEffect ≤ Effect from fun _ _ => .pool) _ _ h

theorem SameCore.effects {s t : State} (h : SameCore s t) : Effects s t := .single (.same h)

/-! ## Requests and grants -/

theorem segmentFrames_cons (g : Segment) (l : List Segment) : segmentFrames (g :: l) = g.count + segmentFrames l := by
  have hadd : ∀ (l : List Segment) (n : Nat), l.foldl (fun n g => n + g.count) n = n + segmentFrames l := by
    intro l
    induction l with
    | nil => intro n; rfl
    | cons x l ih =>
      intro n
      rw [segmentFrames, List.foldl_cons, List.foldl_cons, ih, ih]
      omega
  rw [segmentFrames, List.foldl_cons, hadd]
  omega

/-- A block has no more frames than are asked for (R54). -/
theorem walkBlock_frames (s : State) (c : CueRecord) (tail : Bool) : ∀ (fuel need : Nat) (cur : Cursor),
    segmentFrames (walkBlock s c tail fuel need cur).1 ≤ need
  | 0, need, cur => Nat.zero_le _
  | fuel + 1, need, cur => by
    unfold walkBlock
    dsimp only
    split
    · exact Nat.zero_le _
    · split
      · exact Nat.zero_le _
      · split
        · rw [segmentFrames_cons]
          exact Nat.min_le_right _ _
        · next hlt =>
          split
          · rw [segmentFrames_cons]
            exact Nat.min_le_right _ _
          · next st ps _ =>
            have ih := walkBlock_frames s c tail fuel
              (need - ((stepRecord s c cur.step).length - cur.pos)) { step := st, pos := 0, passes := ps }
            rw [segmentFrames_cons]
            dsimp only
            omega

theorem catchUp_altered (v : Voice) (cur : Cursor) :
    ∃ count, (v.catchUp cur).1 = { v with cursorCount := count } := by
  unfold Voice.catchUp
  split
  · exact ⟨_, rfl⟩
  · exact ⟨v.cursorCount, rfl⟩

theorem placeBlock_effects (i : Fin 16) (cur : Cursor) (s : State) : PoolEffects s (placeBlock i (voiceOf s i) cur s) := by
  unfold placeBlock
  dsimp only
  split
  · exact .refl
  · refine .tail (.single (.ask _ s (walkBlock_frames s _ _ 256 256 _))) (.write ?_ ?_)
    · obtain ⟨count, hw⟩ := catchUp_altered (voiceOf s i) cur
      rw [hw]
      exact altered.refl (voiceOf s i)
    · obtain ⟨count, hw⟩ := catchUp_altered (voiceOf s i) cur
      rw [hw]
      exact fun hs => hs.1 i

theorem placeRequest_effects (i : Fin 16) (s : State) : PoolEffects s (placeRequest i s) := by
  unfold placeRequest
  dsimp only
  split
  · exact .refl
  · split
    · exact .refl
    · exact placeBlock_effects i _ s

theorem fetchSettle_effects (s : State) : PoolEffects s (fetchSettle s) :=
  .tail (foldl_effects (fun t i => placeRequest_effects i t) slots s) (.grant _)

/-- Samples come in pairs of bytes (R52). -/
theorem samplesOf_length : ∀ b : List Byte, (samplesOf b).length ≤ b.length / 2
  | [] => Nat.zero_le _
  | [_] => Nat.zero_le _
  | _ :: _ :: rest => by
    have ih := samplesOf_length rest
    simp only [samplesOf, List.length_cons]
    omega

theorem Memory.run_length : ∀ (m : List Host.Cell) (a n : Nat), (Memory.run m a n).length = n
  | _, _, 0 => by simp [Memory.run]
  | [], a, n + 1 => by simp [Memory.run, Memory.run_length [] (a + 1) n]
  | (k, v) :: m, a, n + 1 => by
    unfold Memory.run
    split
    · simp [Memory.run_length m (a + 1) n]
    · simp [Memory.run_length ((k, v) :: m) (a + 1) n]

/-- A block has no more samples than its segments have frames (R52). -/
theorem blockSamples_length (s : State) : ∀ l : List Segment, (blockSamples s l).length ≤ segmentFrames l
  | [] => Nat.zero_le _
  | g :: l => by
    have ih := blockSamples_length s l
    have hg : (samplesOf (transferReturns s g)).length ≤ g.count := by
      refine (samplesOf_length _).trans ?_
      rw [transferReturns, Memory.readRange, Memory.run_length]
      omega
    rw [blockSamples, List.flatMap_cons, List.length_append, segmentFrames_cons]
    exact Nat.add_le_add hg ih

theorem enterBlock_length (first : Word) (frames : List Sample) (play : Word) :
    (enterBlock first frames play).frames.length ≤ frames.length := by
  unfold enterBlock
  split
  · split
    · simp
    · exact Nat.zero_le _
  · exact Nat.le_refl _

/-- A primed voice is altered only in its state and its primed flag, and holds the same frames. -/
theorem primeVoice_altered (v : Voice) : altered v (primeVoice v) ∧ (primeVoice v).buffer0 = v.buffer0 ∧
    (primeVoice v).buffer1 = v.buffer1 := by
  unfold primeVoice altered Voice.sounding
  cases h : v.state <;> simp [h]

theorem voiceAfterBlock_altered (s : State) (v : Voice) (r : Request) : altered v (voiceAfterBlock s v r) := by
  have hw : ∀ b, altered v (if r.second then { v with buffer1 := b } else { v with buffer0 := b }) := by
    intro b
    split <;> exact altered.refl v
  unfold voiceAfterBlock
  dsimp only
  split
  · obtain ⟨⟨hcue, hidle, hsound⟩, -, -⟩ := primeVoice_altered
      (if r.second then { v with buffer1 := enterBlock r.first (blockSamples s r.segments) v.playCount }
        else { v with buffer0 := enterBlock r.first (blockSamples s r.segments) v.playCount })
    obtain ⟨kcue, kidle, ksound⟩ := hw (enterBlock r.first (blockSamples s r.segments) v.playCount)
    exact ⟨hcue.trans kcue, hidle.trans kidle, fun h => ksound (hsound h)⟩
  · exact hw _

theorem voiceAfterBlock_bounded {s : State} {v : Voice} {r : Request} (hv : buffersBounded v)
    (hr : segmentFrames r.segments ≤ 256) : buffersBounded (voiceAfterBlock s v r) := by
  have hb : (enterBlock r.first (blockSamples s r.segments) v.playCount).frames.length ≤ 256 :=
    (enterBlock_length _ _ _).trans ((blockSamples_length s _).trans hr)
  have hw : buffersBounded
      (if r.second then { v with buffer1 := enterBlock r.first (blockSamples s r.segments) v.playCount }
        else { v with buffer0 := enterBlock r.first (blockSamples s r.segments) v.playCount }) := by
    split
    · exact ⟨hv.1, hb⟩
    · exact ⟨hb, hv.2⟩
  unfold voiceAfterBlock
  dsimp only
  split
  · obtain ⟨-, h0, h1⟩ := primeVoice_altered
      (if r.second then { v with buffer1 := enterBlock r.first (blockSamples s r.segments) v.playCount }
        else { v with buffer0 := enterBlock r.first (blockSamples s r.segments) v.playCount })
    rw [buffersBounded, h0, h1]
    exact hw
  · exact hw

theorem completedRead_flight {s : State} {f : Flight} (h : completedRead s = some f) : s.fetch.flight = some f := by
  unfold completedRead at h
  split at h
  · next g hg =>
    split at h
    · rw [hg, h]
    · contradiction
  · contradiction

theorem blockCompletion_effects (s : State) : PoolEffects s (blockCompletion s) := by
  unfold blockCompletion
  split
  · exact .refl
  · next f hf =>
    split
    · dsimp only
      let i := f.request.slot
      have hwrite : PoolEffect s (setVoice i (voiceAfterBlock s (voiceOf s i) f.request) s) :=
        .write (voiceAfterBlock_altered s _ _) fun hs =>
          voiceAfterBlock_bounded (hs.1 i) (hs.2.2 f (completedRead_flight hf))
      exact (ReflTransGen.tail (.single hwrite) (.endRead _)).trans (fetchSettle_effects _)
    · exact .refl

theorem discardedCompletion_effects (s : State) : PoolEffects s (discardedCompletion s) := by
  unfold discardedCompletion
  split
  · exact .refl
  · split
    · exact .refl
    · exact (ReflTransGen.single (.endRead s)).trans (fetchSettle_effects _)

/-! ## The frame clock -/

/-- The parts of a voice that no frame clock touches: its cue and its state. -/
def sameRole (v w : Voice) : Prop := w.cue = v.cue ∧ w.state = v.state

theorem sameRole.trans {u v w : Voice} (h : sameRole u v) (k : sameRole v w) : sameRole u w :=
  ⟨k.1.trans h.1, k.2.trans h.2⟩

theorem duckOnly.role {v w : Voice} (h : duckOnly v w) : sameRole v w := ⟨h.cue, h.state⟩

theorem Buffer.pass_length (b : Buffer) (count : Word) : (b.pass count).frames.length ≤ b.frames.length := by
  unfold Buffer.pass
  dsimp only
  split
  · simp
  · exact Nat.le_refl _

theorem startTailGlide_keeps (s : State) (v : Voice) : sameRole v (startTailGlide s v) ∧
    (startTailGlide s v).buffer0 = v.buffer0 ∧ (startTailGlide s v).buffer1 = v.buffer1 := by
  unfold startTailGlide
  split
  · dsimp only
    split
    · exact ⟨⟨rfl, rfl⟩, rfl, rfl⟩
    · have hd := startRamp_duckOnly (effectiveTarget s { v with tailGlide := false }) stepGlide { v with tailGlide := false }
      exact ⟨hd.role, hd.buffer0, hd.buffer1⟩
  · exact ⟨⟨rfl, rfl⟩, rfl, rfl⟩

theorem advanceRamp_duckOnly (v : Voice) : duckOnly v (advanceRamp v) := by
  unfold advanceRamp
  split
  · rfl
  · split <;> rfl

theorem consumeFrame_keeps (s : State) (v : Voice) :
    sameRole v (consumeFrame s v) ∧ (buffersBounded v → buffersBounded (consumeFrame s v)) := by
  obtain ⟨hrole, h0, h1⟩ := startTailGlide_keeps s v
  have hd := advanceRamp_duckOnly (startTailGlide s v)
  refine ⟨hrole.trans hd.role, fun hb => ⟨?_, ?_⟩⟩
  · refine (Buffer.pass_length _ _).trans ?_
    rw [hd.buffer0, h0]
    exact hb.1
  · refine (Buffer.pass_length _ _).trans ?_
    rw [hd.buffer1, h1]
    exact hb.2

theorem enterStep_keeps (s : State) (v : Voice) (step passes : Nat) :
    sameRole v (enterStep s v step passes) ∧ (buffersBounded v → buffersBounded (enterStep s v step passes)) := by
  unfold enterStep
  dsimp only
  split
  · exact ⟨⟨rfl, rfl⟩, id⟩
  · split
    · exact ⟨⟨rfl, rfl⟩, id⟩
    · have hd := startRamp_duckOnly (effectiveTarget s { v with step := step, pos := 0, passes := passes }) stepGlide
        { v with step := step, pos := 0, passes := passes }
      exact ⟨hd.role, fun hb => startRamp_bounded (v := { v with step := step, pos := 0, passes := passes }) hb⟩

/-- A consuming voice keeps its cue and its state at a frame clock, and holds no more frames than before. -/
theorem voiceFrame_keeps (s : State) (v : Voice) :
    sameRole v (voiceFrame s v).1 ∧ (buffersBounded v → buffersBounded (voiceFrame s v).1) := by
  have hc := consumeFrame_keeps s v
  unfold voiceFrame
  dsimp only
  split
  · exact hc
  · split
    · exact hc
    · split
      · exact hc
      · next st ps _ =>
        have he := enterStep_keeps s (consumeFrame s v) st ps
        exact ⟨hc.1.trans he.1, fun hb => he.2 (hc.2 hb)⟩

theorem sameRole.altered {v w : Voice} (h : sameRole v w) : altered v w := by
  obtain ⟨hcue, hstate⟩ := h
  refine ⟨hcue, by rw [hstate], fun hw => ?_⟩
  rwa [Voice.sounding, hstate] at hw

/-- An element of a mapped bank. -/
theorem mapVec_get {α β : Type} {n : Nat} (f : α → β) (v : Vector α n) (i : Fin n) : (mapVec f v)[i] = f v[i] := by
  simp [mapVec]

/-- The voice of a slot after the step of a frame clock. -/
theorem voiceOf_stepVoices (s : State) (i : Fin 16) : voiceOf (stepVoices s) i =
    if (voiceOf s i).consumes then (voiceFrame s (voiceOf s i)).1 else voiceOf s i := by
  show (mapVec (fun v => if v.consumes then (voiceFrame s v).1 else v) s.pool.voices)[i] = _
  rw [mapVec_get]
  rfl

theorem stepVoices_role (s : State) (i : Fin 16) : sameRole (voiceOf s i) (voiceOf (stepVoices s) i) := by
  rw [voiceOf_stepVoices]
  split
  · exact (voiceFrame_keeps s _).1
  · exact ⟨rfl, rfl⟩

theorem stepVoices_effect (s : State) : PoolEffect s (stepVoices s) := by
  have heq : stepVoices s = withVoices (stepVoices s).pool.voices s := rfl
  rw [heq]
  refine .alter s _ (fun i => (stepVoices_role s i).altered) fun hs i => ?_
  show buffersBounded (voiceOf (stepVoices s) i)
  rw [voiceOf_stepVoices]
  split
  · exact (voiceFrame_keeps s _).2 (hs.1 i)
  · exact hs.1 i

/-- A consuming voice is not IDLE. -/
theorem Voice.consumes_ne_idle {v : Voice} (h : v.consumes = true) : v.state ≠ .idle := by
  intro hidle
  simp [Voice.consumes, hidle] at h

theorem endVoice_other_state {i j : Fin 16} (h : j ≠ i) (s : State) :
    (voiceOf (endVoice i s) j).state = (voiceOf s j).state :=
  (voiceOf_offerSlot_other h (vacate i s)).state.trans (voiceOf_vacate_other h s).state

/-- The ends of some voices, one after another. -/
theorem foldl_endVoice_effects {l : List (Fin 16)} {s : State} (hnodup : l.Nodup)
    (hbusy : ∀ i ∈ l, (voiceOf s i).state ≠ .idle) : PoolEffects s (l.foldl (fun t i => endVoice i t) s) := by
  induction l generalizing s with
  | nil => exact .refl
  | cons i l ih =>
    obtain ⟨hi, hl⟩ := List.nodup_cons.mp hnodup
    rw [List.foldl_cons]
    refine (CalmEffects.pool (endVoice_calm (hbusy i List.mem_cons_self))).trans (ih hl fun j hj => ?_)
    have hne : j ≠ i := fun h => hi (h ▸ hj)
    rw [endVoice_other_state hne]
    exact hbusy j (List.mem_cons_of_mem i hj)

@[simp] theorem voiceOf_mix (s : State) (i : Fin 16) : voiceOf (mix s) i = voiceOf s i := by
  unfold mix
  dsimp only
  split <;> split <;> rfl

theorem mix_effects (s : State) : Effects s (mix s) := by
  have hout := ReflTransGen.single (Effect.mix s)
  unfold mix
  dsimp only
  split <;> split
  · exact (hout.tail (.pool (.fault .underrun _))).tail (.pool (.fault .clip _))
  · exact hout.tail (.pool (.fault .clip _))
  · exact hout.tail (.pool (.fault .underrun _))
  · exact hout

theorem frameClock_effects (s : State) : Effects s (frameClock s) := by
  have hends : PoolEffects (stepVoices (mix s)) ((endingSlots s).foldl (fun t i => endVoice i t) (stepVoices (mix s))) := by
    refine foldl_endVoice_effects (slots_nodup.filter _) fun i hi => ?_
    rw [(stepVoices_role _ i).2, voiceOf_mix]
    simp only [endingSlots, List.mem_filter, Bool.and_eq_true] at hi
    exact Voice.consumes_ne_idle hi.2.1
  exact (mix_effects s).trans (PoolEffects.lift (((ReflTransGen.single (stepVoices_effect _)).trans hends).trans
    (fetchSettle_effects _)))

theorem withWclk_effects (f : WordClock → WordClock) (s : State) : Effects s (withWclk f s) := SameCore.effects {}

theorem frameClockNow_effects (s : State) : Effects s (frameClockNow s) :=
  (withWclk_effects _ s).trans (frameClock_effects _)

theorem edgeFrameClock_effects (s : State) : Effects s (edgeFrameClock s) :=
  (withWclk_effects _ s).trans (frameClockNow_effects _)

theorem relock_effects (s : State) : Effects s (relock s) := by
  unfold relock
  dsimp only
  split
  · exact (withWclk_effects _ s).trans (frameClockNow_effects _)
  · exact (withWclk_effects _ s).trans (withWclk_effects _ _)

theorem wordClockEdge_effects (s : State) : Effects s (wordClockEdge s) := by
  unfold wordClockEdge
  split
  · exact .refl
  · split
    · exact edgeFrameClock_effects s
    · split
      · exact withWclk_effects _ s
      · exact .refl
  · split
    · exact relock_effects s
    · exact withWclk_effects _ s

theorem substituteFrameClock_effects (s : State) : Effects s (substituteFrameClock s) := by
  unfold substituteFrameClock
  split
  · have hclock := (withWclk_effects (fun w => { w with miss := w.miss + 1 }) s).trans (frameClockNow_effects _)
    dsimp only
    split
    · exact (hclock.trans (withWclk_effects _ _)).tail (.pool (.fault .wclkLost _))
    · exact hclock
  · exact .refl

theorem frameClockBySource_effects (s : State) : Effects s (frameClockBySource s) := by
  unfold frameClockBySource
  split
  · exact frameClockNow_effects s
  · split
    · exact edgeFrameClock_effects s
    · exact substituteFrameClock_effects s

/-! ## The takings -/

/-- A frame is taken only at a station that takes frames, a JOIN apart (R1, R158). -/
theorem takable_takesFrames {s : State} {e : RxEntry} {f : LineFrame} (h : takable s = some (e, f)) (hf : f.kind ≠ .join) :
    takesFrames s = true := by
  unfold takable at h
  split at h
  · contradiction
  · split at h
    · contradiction
    · split at h
      · next hc =>
        obtain ⟨-, rfl⟩ := Prod.mk.inj (Option.some.inj h)
        rw [Bool.and_eq_true] at hc
        simpa [hf] using hc.2
      · contradiction

theorem updatePeer_same (n : Byte) (f : Peer → Peer) (s : State) : SameCore s (updatePeer n f s) := by
  unfold updatePeer
  split <;> exact {}

theorem leaveHead_effects (e : RxEntry) (s : State) : Effects s (leaveHead e s) := by
  refine (SameCore.effects ?_).trans (updatePeer_same _ _ _).effects
  exact { received := by simp }

theorem leaveHead_state (e : RxEntry) (s : State) : (leaveHead e s).member.state = s.member.state := by
  unfold leaveHead updatePeer
  split <;> rfl

theorem postOutcome_effects (r : OutcomeRecord) (s : State) : Effects s (postOutcome r s) :=
  SameCore.effects { outcomes := postOutcome_bound r s }

theorem postOwn_effects (e : RxEntry) (f : LineFrame) (o : FireOutcome) (s : State) : Effects s (postOwn e f o s) := by
  unfold postOwn
  split
  · exact postOutcome_effects _ s
  · exact .refl

theorem fireNow_effects (cue : Nat) (trim : Byte) (edge : Word) {s : State} (h : s.member.state ≠ .loading) :
    PoolEffects s (fireNow cue trim edge s).1 := by
  unfold fireNow
  dsimp only
  exact (dispatchFire_effects cue trim edge s.dispatch.fireOrder h).trans (fetchSettle_effects _)

theorem internalFire_effects (cue : Option Nat) (edge : Word) {s : State} (h : s.member.state ≠ .loading) :
    PoolEffects s (internalFire cue edge s) := by
  cases cue with
  | none => exact .refl
  | some n => exact fireNow_effects n 128 edge h

/-- A station that has taken a frame of another kind than JOIN is not LOADING. -/
theorem taken_not_loading {s : State} {e : RxEntry} {f : LineFrame} (h : takable s = some (e, f)) (hf : f.kind ≠ .join) :
    (leaveHead e s).member.state ≠ .loading := by
  rw [leaveHead_state]
  exact not_loading_of_takesFrames (takable_takesFrames h hf)

theorem takeFire_effects (s : State) : Effects s (takeFire s) := by
  unfold takeFire
  split
  · next e cue origin tag trim h =>
    split
    · exact .refl
    · have hrun := (leaveHead_effects e s).trans
        (PoolEffects.lift (fireNow_effects cue.toNat trim e.edge (taken_not_loading h (by simp [LineFrame.kind]))))
      dsimp only
      split
      · exact hrun.trans (postOwn_effects _ _ _ _)
      · exact hrun
  · exact .refl

theorem releaseCue_effects (cue : Nat) (mode : Byte) (s : State) : PoolEffects s (releaseCue cue mode s) := by
  refine (ReflTransGen.single (.purge (fun e => e.cue == cue) s)).trans (foldl_effects (fun t i => ?_) slots _)
  split
  · next h =>
    rw [Bool.and_eq_true] at h
    exact CalmEffects.pool (releaseByMode_releases h.1 mode).1
  · exact .refl

theorem takeRelease_effects (s : State) : Effects s (takeRelease s) := by
  unfold takeRelease
  split
  · next e cue mode h =>
    dsimp only
    split
    · exact ((leaveHead_effects e s).trans (PoolEffects.lift ((releaseCue_effects _ _ _).trans (fetchSettle_effects _)))).trans
        (postOwn_effects _ _ _ _)
    · exact (leaveHead_effects e s).trans (postOwn_effects _ _ _ _)
  · exact .refl

theorem hushZones_effects (mask : Byte) (s : State) : PoolEffects s (hushZones mask s) := by
  refine (ReflTransGen.single (.purge (fun e => hushed s mask e.cue) s)).trans (foldl_effects (fun t i => ?_) slots _)
  split
  · next h =>
    simp only [Bool.and_eq_true, decide_eq_true_eq] at h
    exact CalmEffects.pool (endVoice_calm h.1)
  · exact .refl

theorem takeHush_effects (s : State) : Effects s (takeHush s) := by
  unfold takeHush
  split
  · next e mask h =>
    exact ((leaveHead_effects e s).trans (PoolEffects.lift ((hushZones_effects _ _).trans (fetchSettle_effects _)))).trans
      (postOwn_effects _ _ _ _)
  · exact .refl

theorem withClock_effects (c : Fin 4) (f : ClockRecord → ClockRecord) (s : State) : Effects s (withClock c f s) :=
  SameCore.effects {}

theorem withdrawEntry_effects (n : Nat) (s : State) : Effects s (withdrawEntry n s) :=
  ((withdrawEntry_frame n s).same (withdrawEntry_bound n s)).effects

theorem dropCopy_effects (c p : Fin 4) (s : State) : Effects s (dropCopy c p s) := by
  unfold dropCopy
  split
  · exact .refl
  · exact withClock_effects c _ s
  · exact (withClock_effects c _ s).trans (withdrawEntry_effects _ _)

theorem dropCopy_state (c p : Fin 4) (s : State) : (dropCopy c p s).member.state = s.member.state := by
  unfold dropCopy
  split
  · rfl
  · rfl
  · obtain ⟨_, _, _, _, _, _, h⟩ := withdrawEntry_frame ‹Nat› (setCopy c p .absent s)
    rw [h]
    rfl

theorem takeClockFire_effects (s : State) : Effects s (takeClockFire s) := by
  unfold takeClockFire
  split
  · next e cue origin tag trim h =>
    split
    · have hleft := leaveHead_effects e s
      dsimp only
      split
      · split
        · refine hleft.trans (((withClock_effects _ _ _).trans (dropCopy_effects _ _ _)).trans
            (PoolEffects.lift (fireNow_effects _ _ _ ?_)))
          rw [dropCopy_state]
          exact taken_not_loading h (by simp [LineFrame.kind])
        · exact hleft
      · exact hleft
    · exact .refl
  · exact .refl

theorem offerMatch_effects (c p : Fin 4) (s : State) : Effects s (offerMatch c p s) := by
  unfold offerMatch
  split
  · next hroom => exact ((placeClockFire_frame c p s).same fun _ => placeClockFire_bound c p s hroom).effects
  · exact withClock_effects c _ s

theorem compareTest_effects (c : Fin 4) (value : Triple) (s : State) : Effects s (compareTest c value s) := by
  have hfold : Effects s (four.foldl (fun t p =>
      if pointMatches t c p value && matchOffers t c p then offerMatch c p t else t) s) := by
    refine foldl_effects (fun t p => ?_) four s
    split
    · exact offerMatch_effects c p t
    · exact .refl
  unfold compareTest
  exact hfold.tail (.same {})

theorem decrement_effects (c : Fin 4) (s : State) : Effects s (decrement c s) := by
  unfold decrement
  split
  · exact ((withClock_effects c _ s).trans (compareTest_effects c _ _)).trans (withClock_effects c _ _)
  · exact .refl

theorem catchUp_effects (c : Fin 4) : ∀ (n : Nat) (s : State), Effects s (catchUp c n s)
  | 0, _ => .refl
  | n + 1, s => (decrement_effects c s).trans (catchUp_effects c n _)

theorem applyClockOp_effects (c : Fin 4) (op epoch : Byte) (value : Triple) (edge : Word) (s : State) :
    Effects s (applyClockOp c op epoch value edge s) := by
  have hadopt := withClock_effects c (adoptEpoch epoch value) s
  unfold applyClockOp
  split
  · dsimp only
    split
    · unfold startClock
      split
      · exact hadopt.trans (withClock_effects c _ _)
      · exact (hadopt.trans (withClock_effects c _ _)).trans (catchUp_effects c _ _)
    · split
      · exact hadopt.trans (withClock_effects c _ _)
      · exact .refl
  · exact .refl

theorem takeClock_effects (s : State) : Effects s (takeClock s) := by
  unfold takeClock
  split
  · next e clk op epoch value h =>
    dsimp only
    split
    · exact (leaveHead_effects e s).trans (applyClockOp_effects _ _ _ _ _ _)
    · exact leaveHead_effects e s
  · exact .refl

/-! ## The Lockout Unit and Membership -/

theorem withdrawRound_effects (s : State) : Effects s (withdrawRound s) :=
  ((withdrawRound_frame s).same (withdrawEntries_bound (roundEntries s) (clearOwn s))).effects

theorem offerClose_effects (s : State) : Effects s (offerClose s) :=
  ((offerClose_frame s).same (offerClose_bound s)).effects

theorem offerJoin_effects (r : Bool) (s : State) : Effects s (offerJoin r s) :=
  ((offerJoin_frame r s).same (offerJoin_bound r s)).effects

theorem offerClaim_effects (i : Fin 8) (fs : Bool) (n : Nat) (s : State) : Effects s (offerClaim i fs n s) :=
  ((offerClaim_frame i fs n s).same (offerClaim_bound i fs n s)).effects

theorem holdoffExpiry_effects (s : State) : Effects s (holdoffExpiry s) := by
  unfold holdoffExpiry
  split
  · exact SameCore.effects {}
  · exact .refl

theorem windowExpiry_effects (s : State) : Effects s (windowExpiry s) := by
  unfold windowExpiry
  split
  · exact SameCore.effects {}
  · exact .refl

theorem settleExpiry_effects (s : State) : Effects s (settleExpiry s) := by
  have hsettled : Effects s (withRound (fun r => { r with settled := true }) s) := SameCore.effects {}
  unfold settleExpiry
  split
  · dsimp only
    split
    · exact hsettled.trans (offerClose_effects _)
    · exact hsettled
  · exact .refl

theorem takeArm_effects (s : State) : Effects s (takeArm s) := by
  unfold takeArm
  split
  · next e number profile h =>
    have hrun := ((leaveHead_effects e s).trans (withdrawRound_effects _))
    dsimp only
    split
    · exact ((((hrun.tail (.arm _ _ _ _ _ _)).trans (holdoffExpiry_effects _)).trans (windowExpiry_effects _)).trans
        (settleExpiry_effects _))
    · exact hrun.tail (.arm _ _ _ _ _ _)
  · exact .refl

theorem falseStartClaim_effects (pair : Nat × Nat) (edge : Word) {s : State} (h : s.member.state ≠ .loading) :
    Effects s (falseStartClaim pair edge s) := by
  unfold falseStartClaim
  split
  · exact .refl
  · exact .single (.falseStart pair s _ (internalFire_effects _ edge h))

theorem takeClaim_effects (s : State) : Effects s (takeClaim s) := by
  unfold takeClaim
  split
  · next e rs rn input flags capture h =>
    have hleft := leaveHead_effects e s
    have hstate := taken_not_loading h (by simp [LineFrame.kind])
    dsimp only
    split
    · exact hleft
    · split
      · exact hleft.trans (falseStartClaim_effects _ _ hstate)
      · exact hleft.tail (.claim _ _ _ hstate)
  · exact .refl

theorem reportVerdictOf_effects (id : Byte × Byte) (w : Option Claim) (differed : Bool) (s : State) :
    Effects s (reportVerdictOf id w differed s) := SameCore.effects {}

theorem adoptClose_effects (id : Byte × Byte) (w : Option Claim) (edge : Word) {s : State} (h : s.member.state ≠ .loading) :
    Effects s (adoptClose id w edge s) := by
  unfold adoptClose
  dsimp only
  refine ReflTransGen.trans ?_ (reportVerdictOf_effects _ _ _ _)
  refine ReflTransGen.trans ?_ (withdrawRound_effects _)
  split
  · refine ((ReflTransGen.single (.pool (.fault .verdictDiffers s))).tail (.same {})).trans
      (PoolEffects.lift (internalFire_effects _ edge ?_))
    exact h
  · refine (SameCore.effects {}).trans (PoolEffects.lift (internalFire_effects _ edge ?_))
    exact h

theorem takeClose_effects (s : State) : Effects s (takeClose s) := by
  unfold takeClose
  split
  · next e rs rn ws wi capture h =>
    dsimp only
    split
    · exact (leaveHead_effects e s).trans (adoptClose_effects _ _ _ (taken_not_loading h (by simp [LineFrame.kind])))
    · exact leaveHead_effects e s
  · exact .refl

theorem oweReply_effects (s : State) : Effects s (oweReply s) := by
  unfold oweReply
  split
  · exact offerJoin_effects true s
  · exact .refl

theorem purgeStack_all (s : State) : purgeStack (fun _ => true) s = { s with pool := { s.pool with stack := [] } } := by
  simp [purgeStack]

theorem cutVoices_effects (s : State) : PoolEffects s (cutVoices s) := by
  unfold cutVoices
  rw [← purgeStack_all]
  refine (ReflTransGen.single (.purge _ s)).trans (foldl_effects (fun t i => ?_) slots _)
  split
  · exact .refl
  · next h => exact .single (.vacate i t h)

theorem enterDuplicate_effects (s : State) : Effects s (enterDuplicate s) := by
  have hcut := cutVoices_effects (leaveLine (setFault .duplicateStation s))
  have hleft : Effects s (leaveLine (setFault .duplicateStation s)) :=
    (ReflTransGen.single (.pool (.fault .duplicateStation s))).tail (.leaveLine _)
  exact (hleft.trans (PoolEffects.lift hcut)).tail (.duplicate _ s.line.breakEdge (PoolEffects.frame hcut).line)

theorem takeJoin_effects (s : State) : Effects s (takeJoin s) := by
  unfold takeJoin
  split
  · next e flags identity signature h =>
    have hleft := leaveHead_effects e s
    dsimp only
    split
    · split
      · exact hleft
      · refine hleft.trans ?_
        unfold ownNumberJoin
        split
        · exact enterDuplicate_effects _
        · split
          · exact enterDuplicate_effects _
          · exact oweReply_effects _
        all_goals exact .refl
    · have hpeer := hleft.trans (updatePeer_same (senderOf e.frame) (fun p =>
        { p with
          identity := identity, signature := signature
          state := if signature = (leaveHead e s).member.signature then .present else .foreign }) _).effects
      split
      · exact hpeer
      · exact hpeer.trans (oweReply_effects _)
  · exact .refl

theorem removeWithoutEffect_effects (s : State) : Effects s (removeWithoutEffect s) := by
  unfold removeWithoutEffect
  split
  · split
    · exact leaveHead_effects _ s
    · exact .refl
  · exact .refl

theorem lastAcceptedExpiry_effects (cue : Nat) (s : State) : Effects s (lastAcceptedExpiry cue s) := by
  unfold lastAcceptedExpiry
  split
  · split
    · exact SameCore.effects {}
    · exact .refl
  · exact .refl

theorem latePress_effects (i : Fin 8) (s : State) : Effects s (latePress i s) := SameCore.effects {}

theorem claimPress_effects (i : Fin 8) (fs : Bool) (time : Nat) (s : State) : Effects s (claimPress i fs time s) :=
  (SameCore.effects {}).trans (offerClaim_effects i fs time _)

theorem takePress_effects (i : Fin 8) (capture : Word) (s : State) : Effects s (takePress i capture s) := by
  unfold takePress
  split
  · split
    · exact claimPress_effects i true _ s
    · exact claimPress_effects i false _ s
    · exact latePress_effects i s
  · exact latePress_effects i s

theorem takePresses_effects (order : List (Fin 8)) (s : State) : Effects s (takePresses order s) :=
  foldl_effects (fun t i => takePress_effects i _ t) order s

theorem samplePresses_effects (first others : List (Fin 8)) (s : State) : Effects s (samplePresses first others s) := by
  unfold samplePresses
  split
  · exact takePresses_effects _ s
  · exact (SameCore.effects {}).trans (takePresses_effects _ _)

theorem buzzerSample_effects (levels : Byte) (s : State) : Effects s (buzzerSample levels s) := by
  unfold buzzerSample
  split
  · exact (SameCore.effects {}).trans (samplePresses_effects _ _ _)
  · exact .refl

theorem press_effects (input : Fin 8) (levels : Byte) (s : State) : Effects s (press input levels s) := by
  unfold press
  split
  · exact (SameCore.effects {}).trans (samplePresses_effects _ _ _)
  · exact .refl

/-! ## The Panel Port -/

theorem withPanel_effects (f : PanelPort → PanelPort) (s : State)
    (hf : (f s.panel).outcomes = s.panel.outcomes := by rfl) : Effects s (withPanel f s) :=
  SameCore.effects { outcomes := fun h => by rw [withPanel, hf]; exact h }

theorem tested_effects {allowed args : Bool} {run : State → State × List Byte} (h : ∀ s, Effects s (run s).1) (s : State) :
    Effects s (tested allowed args run s).1 := by
  unfold tested
  split
  · exact .refl
  · split
    · exact .refl
    · exact h s

theorem queued_effects {run : State → State × List Byte} (h : ∀ s, txRoom s = true → Effects s (run s).1) (s : State) :
    Effects s (queued run s).1 := by
  unfold queued
  split
  · next hroom => exact h s hroom
  · exact .refl

/-- A frame placed in a queue with room leaves it with no more than 4. -/
theorem placeFrame_effects (p : Producer) (f : LineFrame) {s : State} (h : txRoom s = true) :
    Effects s (placeFrame p f s) := by
  refine SameCore.effects { queued := fun _ => ?_ }
  simp only [txRoom, decide_eq_true_eq] at h
  simp only [placeFrame, List.length_append, List.length_cons, List.length_nil]
  omega

theorem useFree_effects (used : Bool) (s : State) : Effects s (useFree used s) := by
  unfold useFree
  split
  · exact SameCore.effects {}
  · exact .refl

theorem clearPassed_effects (s : State) : Effects s (clearPassed s) := by
  refine SameCore.effects { outputs := fun h o => ?_ }
  have := h o
  simpa [clearPassed, mapVec] using this

theorem placePanelFire_effects (cue : BitVec 16) (trim : Byte) {s : State} (h : txRoom s = true) :
    Effects s (placePanelFire cue trim s).1 := by
  have hcount : Effects s { s with panel := { s.panel with fireCounter := s.panel.fireCounter + 1 } } := SameCore.effects {}
  exact hcount.trans (placeFrame_effects .panelPort (.fire cue 1 (s.panel.fireCounter + 1) trim) h)

theorem placeArm_effects (profile : Byte) {s : State} (h : txRoom s = true) : Effects s (placeArm profile s).1 := by
  have hcount : Effects s { s with lockout := { s.lockout with roundCounter := s.lockout.roundCounter + 1 } } :=
    SameCore.effects {}
  exact hcount.trans (placeFrame_effects .lockoutUnit (.arm (s.lockout.roundCounter + 1) profile) h)

theorem act_effects (c : PanelCommand) (s : State) : Effects s (act c s).1 := by
  cases c with
  | fire cue trim =>
    refine tested_effects (fun s => ?_) s
    split
    · exact .refl
    · split
      · exact .refl
      · exact queued_effects (fun t ht => placePanelFire_effects cue trim ht) s
  | release cue mode => exact tested_effects (queued_effects fun t ht => placeFrame_effects _ _ ht) s
  | hush mask => exact tested_effects (queued_effects fun t ht => placeFrame_effects _ _ ht) s
  | arm profile =>
    exact tested_effects (queued_effects fun t ht => placeArm_effects profile ht) s
  | clock clk op value =>
    show Effects s (actClock clk op value s).1
    unfold actClock
    split
    · refine tested_effects (fun s => ?_) s
      split
      · exact .refl
      · exact queued_effects (fun t ht => placeFrame_effects _ _ ht) s
    · exact tested_effects (fun _ => .refl) s
  | readVoice slot => exact tested_effects (fun s => useFree_effects _ s) s
  | readRound => exact tested_effects (fun s => useFree_effects _ s) s
  | clearFaults => exact tested_effects clearPassed_effects s
  | reports mask => exact tested_effects (fun s => withPanel_effects (fun p => { p with mask := mask.setWidth 3 }) s) s
  | readStack index => exact tested_effects (fun _ => .refl) s
  | readClaim index => exact tested_effects (fun _ => .refl) s
  | readPeer station => exact tested_effects (fun _ => .refl) s
  | readClock clk => exact tested_effects (fun _ => .refl) s
  | readOutput output => exact tested_effects (fun _ => .refl) s
  | status => exact .refl
  | readFaults => exact .refl
  | reload => exact .refl
  | badCommand kind => exact .refl
  | badCheck kind => exact .refl

theorem startAnswer_effects (s : State) : Effects s (startAnswer s) := by
  unfold startAnswer
  split
  · exact withPanel_effects _ s
  · exact .refl

theorem actNow_effects (c : PanelCommand) (s : State) : Effects s (actNow c s) :=
  ((act_effects c s).trans (withPanel_effects _ _)).trans (startAnswer_effects _)

theorem receiveFrame_effects (row : CommandRow) (frame : List RawChar) (s : State) : Effects s (receiveFrame row frame s) := by
  have hended : Effects s (withPanel (fun p => { p with rx := .hunting }) s) := withPanel_effects _ s
  unfold receiveFrame
  split
  · split
    · unfold receiveCommand
      split
      · unfold completeCommand
        dsimp only
        split
        · exact hended.trans (actNow_effects _ _)
        · exact hended.trans (withPanel_effects _ _)
        · exact hended.trans (withPanel_effects _ _)
      · exact .refl
    · exact .refl
  · exact .refl

theorem answerSent_effects (straps : Straps) (s : State) : Effects s (answerSent straps s) := by
  have hempty : Effects s (emptySlot s) := withPanel_effects _ s
  unfold answerSent
  split
  · split
    · exact .single (.reset straps s)
    · unfold actBuffered
      split
      · exact (hempty.trans (withPanel_effects _ _)).trans (actNow_effects _ _)
      · exact hempty
  · exact .refl

theorem startReport_effects (k : ReportKind) (s : State) : Effects s (startReport k s) := by
  have hend : Effects s (endPending k s) := by
    cases k with
    | fault => exact withPanel_effects (fun p => { p with faultPending := false }) s
    | verdict => exact withPanel_effects (fun p => { p with verdictPending := false }) s
    | cue => exact SameCore.effects { outcomes := fun h => (by simp [endPending, withPanel]; omega) }
  unfold startReport
  dsimp only
  refine hend.trans (ReflTransGen.tail (withPanel_effects (fun p =>
    { p with
      tx := .reporting (stationFrame (reportCode k) (reportStatus k s) (reportBody s k)), overrun := false }) _) (.same {}))

theorem report_effects (k : ReportKind) (s : State) : Effects s (report k s) := by
  unfold report
  split
  · exact startReport_effects k s
  · exact .refl

theorem reportSent_effects (s : State) : Effects s (reportSent s) := by
  unfold reportSent
  split
  · refine (withPanel_effects (fun p => { p with tx := .idle }) s).trans ?_
    unfold sendNext
    split
    · exact startAnswer_effects _
    · split
      · exact startReport_effects _ _
      · exact .refl
  · exact .refl

/-! ## Every command and every step -/

theorem playLine_effects : ∀ (line : Samples) (n : Nat) (s : State), Effects s (playLine line n s)
  | [], _, _ => .refl
  | level :: rest, n, s => (ReflTransGen.single (.sample _ level s)).trans (playLine_effects rest n _)

theorem lineCommand_effects (e : LineEvent) (line : Samples) (s : State) : Effects s (lineCommand e line s) := by
  unfold lineCommand
  split
  · unfold runLine
    split
    · exact .refl
    · exact (playLine_effects _ 1 s).tail (.sample 0 _ _)
  · exact .refl

theorem imageLoad_effects (flash : List Host.Cell) (s : State) : Effects s (imageLoad flash s) := by
  by_cases h : s.member.state = .loading
  · exact .single (.load flash s h)
  · rw [imageLoad, if_neg h]

theorem exec_effects (c : Instr) (s : State) : ∃ t, exec c s = .next t ∧ Effects s t := by
  cases c with
  | reset straps => exact ⟨_, rfl, .single (.reset straps s)⟩
  | imageLoad flash => exact ⟨_, rfl, imageLoad_effects flash s⟩
  | takeFire => exact ⟨_, rfl, takeFire_effects s⟩
  | takeRelease => exact ⟨_, rfl, takeRelease_effects s⟩
  | takeHush => exact ⟨_, rfl, takeHush_effects s⟩
  | takeClockFire => exact ⟨_, rfl, takeClockFire_effects s⟩
  | takeClock => exact ⟨_, rfl, takeClock_effects s⟩
  | takeArm => exact ⟨_, rfl, takeArm_effects s⟩
  | takeClaim => exact ⟨_, rfl, takeClaim_effects s⟩
  | takeClose => exact ⟨_, rfl, takeClose_effects s⟩
  | takeJoin => exact ⟨_, rfl, takeJoin_effects s⟩
  | removeWithoutEffect => exact ⟨_, rfl, removeWithoutEffect_effects s⟩
  | lastAcceptedExpiry cue => exact ⟨_, rfl, lastAcceptedExpiry_effects _ s⟩
  | frameClock => exact ⟨_, rfl, frameClockBySource_effects s⟩
  | rampEnd i =>
    refine ⟨_, rfl, ?_⟩
    unfold rampEnd
    split
    · exact frameClockBySource_effects s
    · exact .refl
  | fadeEnd i =>
    refine ⟨_, rfl, ?_⟩
    unfold fadeEnd
    split
    · exact frameClockBySource_effects s
    · exact .refl
  | blockCompletion => exact ⟨_, rfl, PoolEffects.lift (blockCompletion_effects s)⟩
  | discardedCompletion => exact ⟨_, rfl, PoolEffects.lift (discardedCompletion_effects s)⟩
  | wordClockEdge => exact ⟨_, rfl, wordClockEdge_effects s⟩
  | substituteFrameClock => exact ⟨_, rfl, substituteFrameClock_effects s⟩
  | wclkLost =>
    refine ⟨_, rfl, ?_⟩
    unfold wclkLost
    split
    · exact substituteFrameClock_effects s
    · exact .refl
  | wclkRelock =>
    refine ⟨_, rfl, ?_⟩
    unfold wclkRelock
    split
    · exact wordClockEdge_effects s
    · exact .refl
  | buzzerSample levels => exact ⟨_, rfl, buzzerSample_effects levels s⟩
  | press input levels => exact ⟨_, rfl, press_effects input levels s⟩
  | holdoffExpiry => exact ⟨_, rfl, holdoffExpiry_effects s⟩
  | windowExpiry => exact ⟨_, rfl, windowExpiry_effects s⟩
  | settleExpiry => exact ⟨_, rfl, settleExpiry_effects s⟩
  | clockDecrement c => exact ⟨_, rfl, decrement_effects c s⟩
  | clockExpiry c =>
    refine ⟨_, rfl, ?_⟩
    unfold clockExpiry
    split
    · exact decrement_effects c s
    · exact .refl
  | answerSent straps => exact ⟨_, rfl, answerSent_effects straps s⟩
  | reportFault => exact ⟨_, rfl, report_effects .fault s⟩
  | reportVerdict => exact ⟨_, rfl, report_effects .verdict s⟩
  | reportCue => exact ⟨_, rfl, report_effects .cue s⟩
  | panelBreak => exact ⟨_, rfl, withPanel_effects _ s⟩
  | reportSent => exact ⟨_, rfl, reportSent_effects s⟩
  | syncIdle line => exact ⟨_, rfl, lineCommand_effects _ line s⟩
  | breakDetect line => exact ⟨_, rfl, lineCommand_effects _ line s⟩
  | gapError line => exact ⟨_, rfl, lineCommand_effects _ line s⟩
  | lineStuck line => exact ⟨_, rfl, lineCommand_effects _ line s⟩
  | stuckRecovery line => exact ⟨_, rfl, lineCommand_effects _ line s⟩
  | attemptStart line => exact ⟨_, rfl, lineCommand_effects _ line s⟩
  | arbitrationLost line => exact ⟨_, rfl, lineCommand_effects _ line s⟩
  | bitError line => exact ⟨_, rfl, lineCommand_effects _ line s⟩
  | jam line => exact ⟨_, rfl, lineCommand_effects _ line s⟩
  | vetoSlotStart line => exact ⟨_, rfl, lineCommand_effects _ line s⟩
  | frameAccepted line => exact ⟨_, rfl, lineCommand_effects _ line s⟩
  | frameVetoed line => exact ⟨_, rfl, lineCommand_effects _ line s⟩
  | frameDropped line => exact ⟨_, rfl, lineCommand_effects _ line s⟩
  | headerUnusable line => exact ⟨_, rfl, lineCommand_effects _ line s⟩
  | strayStartBit line => exact ⟨_, rfl, lineCommand_effects _ line s⟩
  | fire frame => exact ⟨_, rfl, receiveFrame_effects _ frame s⟩
  | release frame => exact ⟨_, rfl, receiveFrame_effects _ frame s⟩
  | hush frame => exact ⟨_, rfl, receiveFrame_effects _ frame s⟩
  | arm frame => exact ⟨_, rfl, receiveFrame_effects _ frame s⟩
  | clock frame => exact ⟨_, rfl, receiveFrame_effects _ frame s⟩
  | status frame => exact ⟨_, rfl, receiveFrame_effects _ frame s⟩
  | readVoice frame => exact ⟨_, rfl, receiveFrame_effects _ frame s⟩
  | readStack frame => exact ⟨_, rfl, receiveFrame_effects _ frame s⟩
  | readRound frame => exact ⟨_, rfl, receiveFrame_effects _ frame s⟩
  | readClaim frame => exact ⟨_, rfl, receiveFrame_effects _ frame s⟩
  | readPeer frame => exact ⟨_, rfl, receiveFrame_effects _ frame s⟩
  | readClock frame => exact ⟨_, rfl, receiveFrame_effects _ frame s⟩
  | readOutput frame => exact ⟨_, rfl, receiveFrame_effects _ frame s⟩
  | readFaults frame => exact ⟨_, rfl, receiveFrame_effects _ frame s⟩
  | clearFaults frame => exact ⟨_, rfl, receiveFrame_effects _ frame s⟩
  | reports frame => exact ⟨_, rfl, receiveFrame_effects _ frame s⟩
  | reload frame => exact ⟨_, rfl, receiveFrame_effects _ frame s⟩
  | badCommand code => exact ⟨_, rfl, receiveFrame_effects _ [code] s⟩
  | badCheck chars => exact ⟨_, rfl, receiveFrame_effects _ chars s⟩

/-- `t` is `s` but for the queue and the count of the free orders. -/
def queueOnly (s t : State) : Prop := t = { s with pending := t.pending, freeCount := t.freeCount }

theorem queueDue_queueOnly (s : State) : queueOnly s (queueDue s) := by
  unfold queueDue
  split <;> rfl

theorem tick_effects (s : State) : ∃ u, Effects s u ∧ queueOnly u (tick s) := by
  refine ⟨roundTick (clockTick s), (ReflTransGen.single (.tick s)).trans ?_, queueDue_queueOnly _⟩
  unfold roundTick
  split
  · exact SameCore.effects {}
  · exact .refl

/-- Every step is a run of changes after the removal of a command from the queue, and then the due events join the queue. -/
theorem step_effects {s t : State} (h : step s = .next t) :
    ∃ u, Effects { s with pending := s.pending.tail } u ∧ queueOnly u t := by
  unfold step at h
  split at h
  · next hnone =>
    obtain rfl : tick s = t := Host.Outcome.next.inj h
    have hs : ({ s with pending := s.pending.tail } : State) = s := by
      rw [hnone, List.tail_nil, ← hnone]
    rw [hs]
    exact tick_effects s
  · next c rest hcons =>
    obtain ⟨u, hu, heff⟩ := exec_effects c { s with pending := rest }
    obtain rfl : u = t := Host.Outcome.next.inj (hu.symm.trans h)
    rw [hcons]
    exact ⟨u, heff, rfl⟩

/-- What every change keeps and the queue does not touch, every step keeps. -/
theorem step_keeps {P : State → Prop} (h : ∀ {s t}, Effect s t → P s → P t) {s t : State} (hs : P s)
    (hstep : step s = .next t)
    (hqueue : ∀ (s : State) (l : List Instr) (n : Nat), P s → P { s with pending := l, freeCount := n } := by
      exact fun _ _ _ h => h) : P t := by
  obtain ⟨u, heff, hu⟩ := step_effects hstep
  rw [hu]
  refine hqueue u t.pending t.freeCount ?_
  clear hstep hu
  induction heff with
  | refl => exact hqueue s s.pending.tail s.freeCount hs
  | tail _ hone ih => exact h hone ih

end Sys2Proof.Machine
end

