-- ==== Sys2Proof/Proofs/SampleBounds.lean ====
section
/-!
SUPPORT. What one sample of the line keeps: the bounds of the queues, the membership but for the end of a join, and what stands outside
the line.
-/
namespace Sys2Proof.Machine

/-! ## What a sample of the line can do to the station state and to the fill of the queues -/

/-- Over samples of the line the station state stays, or becomes ACTIVE from JOINING; queues and FIFO that were no fuller than
they may be remain so. -/
def SampleBounds (s t : State) : Prop :=
  (t.member.state = s.member.state ∨ (s.member.state = .joining ∧ t.member.state = .active)) ∧
    (s.rxq.entries.length ≤ 8 → t.rxq.entries.length ≤ 8) ∧ (s.txq.entries.length ≤ 4 → t.txq.entries.length ≤ 4) ∧
    (s.panel.outcomes.length ≤ 8 → t.panel.outcomes.length ≤ 8)

theorem SampleBounds.refl (s : State) : SampleBounds s s := ⟨.inl rfl, id, id, id⟩

theorem SampleBounds.trans {s t u : State} (h : SampleBounds s t) (k : SampleBounds t u) : SampleBounds s u := by
  obtain ⟨hstate, hrx, htx, hout⟩ := h
  obtain ⟨kstate, krx, ktx, kout⟩ := k
  refine ⟨?_, krx ∘ hrx, ktx ∘ htx, kout ∘ hout⟩
  rcases kstate with k1 | ⟨k1, k2⟩ <;> rcases hstate with h1 | ⟨h1, h2⟩
  · exact .inl (k1.trans h1)
  · exact .inr ⟨h1, k1.trans h2⟩
  · exact .inr ⟨h1 ▸ k1, k2⟩
  · exact .inr ⟨h1, k2⟩

theorem OfferFrame.bounds {s t : State} (h : OfferFrame s t) (hb : s.txq.entries.length ≤ 4 → t.txq.entries.length ≤ 4) :
    SampleBounds s t := by
  obtain ⟨_, _, _, _, _, _, rfl⟩ := h
  exact ⟨.inl rfl, id, hb, id⟩

theorem withLine_bounds (f : LineInterface → LineInterface) (s : State) : SampleBounds s (withLine f s) :=
  ⟨.inl rfl, id, id, id⟩

theorem setFault_outcomes (f : FaultFlag) (s : State) : (setFault f s).panel.outcomes = s.panel.outcomes := by
  unfold setFault PanelPort.raise
  split <;> rfl

theorem setFault_bounds (f : FaultFlag) (s : State) : SampleBounds s (setFault f s) :=
  ⟨.inl rfl, id, id, by rw [setFault_outcomes]; exact id⟩

theorem offerRounds_sampleBounds (n : Nat) (s : State) : SampleBounds s (offerRounds n s) :=
  (offerRounds_frame n s).bounds (offerRounds_bound n s)

theorem removeTx_bounds (n : Nat) (s : State) : SampleBounds s (removeTx n s) :=
  (removeTx_frame n s).bounds fun h => (List.length_filter_le _ _).trans h

theorem endAttempt_bounds (s : State) : SampleBounds s (endAttempt s) := withLine_bounds _ s

theorem removed_bounds (n : Nat) (s : State) : SampleBounds s (offerRounds 1 (removeTx n (endAttempt s))) :=
  (endAttempt_bounds s).trans ((removeTx_bounds n _).trans (offerRounds_sampleBounds 1 _))

theorem endUncounted_bounds (a : Attempt) (s : State) : SampleBounds s (endUncounted a s) := by
  unfold endUncounted
  split
  · split
    · exact removed_bounds _ s
    · exact endAttempt_bounds s
  · exact endAttempt_bounds s

theorem postDropped_bounds (e : TxEntry) (w : Word) (s : State) : SampleBounds s (postDropped e w s) := by
  unfold postDropped
  split
  · split
    · exact ⟨.inl rfl, id, id, postOutcome_bound _ s⟩
    · exact SampleBounds.refl s
  · exact SampleBounds.refl s

theorem rejoin_bounds (e : TxEntry) (s : State) : SampleBounds s (rejoin e s) := by
  unfold rejoin
  split
  · exact (offerJoin_frame _ s).bounds (offerJoin_bound _ s)
  · exact SampleBounds.refl s

theorem forgetEntry_bounds (n : Nat) (s : State) : SampleBounds s (forgetEntry n s) := (forgetEntry_frame n s).bounds id

theorem dropFrame_bounds (a : Attempt) (e : TxEntry) (s : State) : SampleBounds s (dropFrame a e s) :=
  ((endAttempt_bounds s).trans ((removeTx_bounds _ _).trans (forgetEntry_bounds _ _))).trans
    ((setFault_bounds _ _).trans ((postDropped_bounds _ _ _).trans ((rejoin_bounds _ _).trans (offerRounds_sampleBounds 1 _))))

theorem countFailure_bounds (n : Nat) (s : State) : SampleBounds s (countFailure n s) :=
  ⟨.inl rfl, id, by simp [countFailure], id⟩

theorem endFailed_bounds (a : Attempt) (s : State) : SampleBounds s (endFailed a s) := by
  unfold endFailed
  split
  · split
    · exact removed_bounds _ s
    · split
      · exact dropFrame_bounds a _ s
      · exact (endAttempt_bounds s).trans (countFailure_bounds _ _)
  · exact endAttempt_bounds s

theorem joinAccepted_bounds (e : TxEntry) (s : State) : SampleBounds s (joinAccepted e s) := by
  unfold joinAccepted
  split
  · next h => exact ⟨.inr ⟨h.1, rfl⟩, id, id, id⟩
  · exact SampleBounds.refl s

theorem endAccepted_bounds (a : Attempt) (s : State) : SampleBounds s (endAccepted a s) := by
  unfold endAccepted
  split
  · exact (endAttempt_bounds s).trans ((removeTx_bounds _ _).trans ((forgetEntry_bounds _ _).trans (joinAccepted_bounds _ _)))
  · exact endAttempt_bounds s

theorem failAttempt_bounds (a : Attempt) (frame : List Byte) (n : Nat) (s : State) :
    SampleBounds s (failAttempt a frame n s) := by
  unfold failAttempt
  split
  · exact (withLine_bounds _ s).trans (endFailed_bounds a _)
  · exact endFailed_bounds a s

theorem sendSample_bounds (a : Attempt) (frame : List Byte) (n k : Nat) (level : Bool) (s : State) :
    SampleBounds s (sendSample a frame n k level s).1 := by
  unfold sendSample
  dsimp only
  split
  · split
    · exact withLine_bounds _ s
    · exact endUncounted_bounds _ s
    · exact failAttempt_bounds _ _ _ s
  · exact withLine_bounds _ s

theorem attemptSample_bounds (a : Attempt) (level : Bool) (s : State) : SampleBounds s (attemptSample a level s).1 := by
  unfold attemptSample
  split
  · exact withLine_bounds _ s
  · dsimp only
    split
    · exact withLine_bounds _ s
    · exact SampleBounds.refl s
  · exact withLine_bounds _ s
  · split
    · exact sendSample_bounds _ _ _ _ _ s
    · exact SampleBounds.refl s
  · exact withLine_bounds _ s

theorem sendingSample_bounds (level : Bool) (s : State) : SampleBounds s (sendingSample level s).1 := by
  unfold sendingSample
  split
  · exact attemptSample_bounds _ level s
  · exact SampleBounds.refl s

theorem lineStuck_bounds (s : State) : SampleBounds s (lineStuck s) := by
  unfold lineStuck
  dsimp only
  split
  · exact ((withLine_bounds _ s).trans (setFault_bounds .lineStuck _)).trans (endUncounted_bounds _ _)
  · exact (withLine_bounds _ s).trans (setFault_bounds .lineStuck _)

theorem enqueueAccepted_bounds (chars : List ReadChar) (w : Word) (s : State) :
    SampleBounds s (enqueueAccepted chars w s) := by
  unfold enqueueAccepted
  split
  · exact SampleBounds.refl s
  · split
    · split
      · exact setFault_bounds _ s
      · exact SampleBounds.refl s
    · next hfull =>
      simp only [rxFull, decide_eq_true_eq] at hfull
      refine ⟨.inl rfl, fun _ => ?_, id, id⟩
      simp only [pushRx, List.length_append, List.length_cons, List.length_nil]
      omega

theorem frameAccepted_bounds (s : State) : SampleBounds s (frameAccepted s) := by
  unfold frameAccepted
  split
  · exact (withLine_bounds _ s).trans ((endAccepted_bounds _ _).trans
      ((enqueueAccepted_bounds _ _ _).trans (offerRounds_sampleBounds 1 _)))
  · exact (withLine_bounds _ s).trans (enqueueAccepted_bounds _ _ _)

theorem frameVetoed_bounds (s : State) : SampleBounds s (frameVetoed s).1 := by
  unfold frameVetoed
  split
  · exact (withLine_bounds _ s).trans (endFailed_bounds _ _)
  · exact withLine_bounds _ s

/-! The receiver's samples that end no slot and find no stuck line change the line alone. -/

/-- `t` is `s` but for the line. -/
def lineOnly (s t : State) : Prop := t = { s with line := t.line }

theorem lineOnly.refl (s : State) : lineOnly s s := rfl

theorem lineOnly.trans {s t u : State} (h : lineOnly s t) (k : lineOnly t u) : lineOnly s u := by
  unfold lineOnly at *
  rw [k, h]

theorem withLine_lineOnly (f : LineInterface → LineInterface) (s : State) : lineOnly s (withLine f s) := rfl

theorem lineOnly.bounds {s t : State} (h : lineOnly s t) : SampleBounds s t := by
  rw [h]
  exact ⟨.inl rfl, id, id, id⟩

theorem outsideSample_lineOnly (level : Bool) (s : State) : lineOnly s (outsideSample level s).1 := by
  unfold outsideSample
  split <;> rfl

theorem gapSample_lineOnly (level : Bool) (h k : Hunt) (s : State) : lineOnly s (gapSample level h k s).1 := by
  unfold gapSample
  dsimp only
  split <;> rfl

theorem headerUnusable_lineOnly (s : State) : lineOnly s (headerUnusable s) := by
  unfold headerUnusable
  split
  · rfl
  · rfl

theorem charDone_lineOnly (c : ReadChar) (s : State) : lineOnly s (charDone c s).1 := by
  unfold charDone
  split
  · unfold frameChar
    dsimp only
    split
    · exact headerUnusable_lineOnly s
    · split
      · rfl
      · rfl
  · rfl

theorem frameSample_lineOnly (level : Bool) (s : State) : lineOnly s (frameSample level s).1 := by
  unfold frameSample
  split
  · rfl
  · dsimp only
    split
    · rfl
    · exact (withLine_lineOnly _ s).trans (charDone_lineOnly _ _)
    · split
      · rfl
      · exact (withLine_lineOnly _ s).trans (gapSample_lineOnly _ _ _ _)

theorem endMarkSample_lineOnly (s : State) : lineOnly s (endMarkSample s).1 := by
  unfold endMarkSample
  split <;> rfl

theorem jamSample_lineOnly (s : State) : lineOnly s (jamSample s) := by
  unfold jamSample
  split <;> rfl

/-- Outside the veto slot a receiver's state changes the line alone. -/
theorem stateSample_lineOnly {level : Bool} {s : State} (h : s.line.rx ≠ .slot) : lineOnly s (stateSample level s).1 := by
  unfold stateSample
  split
  · rfl
  · split
    · rfl
    · rfl
  · split
    · rfl
    · rfl
  · exact outsideSample_lineOnly level s
  · dsimp only
    split
    · rfl
    · rfl
  · exact frameSample_lineOnly level s
  · exact frameSample_lineOnly level s
  · exact frameSample_lineOnly level s
  · exact endMarkSample_lineOnly s
  · next hslot => exact absurd hslot h

theorem slotSample_bounds (level : Bool) (s : State) : SampleBounds s (slotSample level s).1 := by
  unfold slotSample
  extract_lets n first second
  split
  · exact withLine_bounds _ s
  · split
    · exact frameAccepted_bounds s
    · exact frameVetoed_bounds s

theorem stateSample_bounds (level : Bool) (s : State) : SampleBounds s (stateSample level s).1 := by
  by_cases h : s.line.rx = .slot
  · rw [stateSample, h]
    exact slotSample_bounds level s
  · exact (stateSample_lineOnly h).bounds

theorem receiverSample_bounds (level : Bool) (s : State) : SampleBounds s (receiverSample level s).1 := by
  unfold receiverSample
  split
  · exact lineStuck_bounds s
  · split
    · exact withLine_bounds _ s
    · split
      · exact (jamSample_lineOnly s).bounds
      · exact stateSample_bounds level s

theorem ownSlotEnd_bounds (s : State) : SampleBounds s (ownSlotEnd s).1 := by
  unfold ownSlotEnd
  split
  · exact SampleBounds.refl s
  · split
    · split
      · exact SampleBounds.refl s
      · split
        · exact (endAccepted_bounds _ s).trans (offerRounds_sampleBounds 1 _)
        · exact endFailed_bounds _ s
    · exact SampleBounds.refl s

theorem beginSample_lineOnly (s : State) : lineOnly s (beginSample s).1 := by
  unfold beginSample
  split
  · rfl
  · rfl

theorem followSample_bounds (clk : Word) (level : Bool) (s : State) : SampleBounds s (followSample clk level s).1 :=
  (withLine_bounds _ s).trans ((sendingSample_bounds _ _).trans ((receiverSample_bounds _ _).trans
    ((ownSlotEnd_bounds _).trans (withLine_bounds _ _))))

theorem lineSample_bounds (clk : Word) (level : Bool) (s : State) : SampleBounds s (lineSample clk level s).1 := by
  unfold lineSample
  split
  · exact SampleBounds.refl s
  · dsimp only
    split
    · exact (followSample_bounds clk level s).trans (beginSample_lineOnly _).bounds
    · exact followSample_bounds clk level s

theorem sampleAt_bounds (n : Nat) (level : Bool) (s : State) : SampleBounds s (sampleAt n level s).1 :=
  lineSample_bounds (clockBefore s n) level { s with now := momentBefore s n }

end Sys2Proof.Machine
end

