-- ==== Sys2Proof/Proofs/PoolLaws.lean ====
section
/-!
The duck counts are the counts of the contributing voices (O58), and one choke group sounds in one context (O59).
-/
namespace Sys2Proof.Machine
open Relation

/-! ## Counting slots -/

/-- Of two tests that agree on every other slot, the counts differ by what the tests say of the one. -/
theorem filter_slots_update {p q : Fin 16 → Bool} {i : Fin 16} (h : ∀ j, j ≠ i → q j = p j) :
    (slots.filter q).length + (p i).toNat = (slots.filter p).length + (q i).toNat := by
  have hlist : ∀ l : List (Fin 16), l.Nodup → (l.filter q).length + (if i ∈ l then (p i).toNat else 0) =
      (l.filter p).length + (if i ∈ l then (q i).toNat else 0) := by
    intro l
    induction l with
    | nil => simp
    | cons x l ih =>
      intro hnodup
      obtain ⟨hx, hl⟩ := List.nodup_cons.mp hnodup
      have ih := ih hl
      by_cases hxi : x = i
      · subst hxi
        simp only [hx, if_false, List.filter_cons, List.mem_cons, true_or, if_true] at ih ⊢
        cases hp : p x <;> cases hq : q x <;> simp <;> omega
      · have hix : i ≠ x := fun h => hxi h.symm
        simp only [List.filter_cons, h x hxi, List.mem_cons, hix, false_or]
        cases hp : p x <;> simp <;> omega
  have := hlist slots slots_nodup
  rwa [if_pos (mem_slots i), if_pos (mem_slots i)] at this

/-- Fewer slots pass a narrower test. -/
theorem filter_slots_mono {p q : Fin 16 → Bool} (h : ∀ i, q i = true → p i = true) :
    (slots.filter q).length ≤ (slots.filter p).length := by
  rw [← List.countP_eq_length_filter, ← List.countP_eq_length_filter]
  exact List.countP_mono_left fun i _ => h i

/-- Equal pools hold equal voices. -/
theorem voiceOf_of_pool {s t : State} (h : t.pool = s.pool) (i : Fin 16) : voiceOf t i = voiceOf s i := by
  rw [voiceOf, voiceOf, h]

/-! ## The quiet of LOADING -/

/-- Where states, voices, stack and claims are as before, so is the quiet. -/
theorem loadingQuiet_congr {s t : State} (hstate : t.member.state = s.member.state) (hpool : t.pool = s.pool)
    (hclaims : t.lockout.round.claims = s.lockout.round.claims) (h : loadingQuiet s) : loadingQuiet t := by
  unfold loadingQuiet voiceOf at *
  rwa [hstate, hpool, hclaims]

theorem idle_not_sounding {v : Voice} (h : v.state = .idle) : ¬ v.sounding = true := by
  simp [Voice.sounding, h]

/-- Nothing that happens to the pool while LOADING ends the quiet. -/
theorem PoolEffect.keeps_loadingQuiet {s t : State} (h : PoolEffect s t) (hs : loadingQuiet s) : loadingQuiet t := by
  intro hl
  have hframe := h.frame
  rw [hframe.member] at hl
  obtain ⟨hidle, hstack, hclaims⟩ := hs hl
  rw [hframe.lockout]
  suffices (∀ i, (voiceOf t i).state = .idle) ∧ t.pool.stack = [] from ⟨this.1, this.2, hclaims⟩
  cases h with
  | alter s vs h _ => exact ⟨fun i => (h i).2.1.mpr (hidle i), hstack⟩
  | cancel i s => exact ⟨hidle, hstack⟩
  | ask r s h => exact ⟨hidle, hstack⟩
  | grant s =>
    have hpool : (Machine.grant s).pool = s.pool := by
      unfold Machine.grant
      split
      · rfl
      · split <;> rfl
    unfold voiceOf at *
    rw [hpool]
    exact ⟨hidle, hstack⟩
  | endRead s => exact ⟨hidle, hstack⟩
  | vacate i s h => exact absurd (hidle i) h
  | offer i s h =>
    rcases offerSlot_cases i s with ⟨-, heq⟩ | ⟨e, above, rest, hne, -⟩
    · rw [heq]
      exact ⟨hidle, rfl⟩
    · simp [hstack] at hne
  | start i cue trim order s h hnot _ => exact absurd hl hnot
  | suspend i s h => exact absurd h (idle_not_sounding (hidle i))
  | purge test s => exact ⟨hidle, by simp [purgeStack, hstack]⟩
  | fault f s => exact ⟨hidle, hstack⟩
  | record cue w s => exact ⟨hidle, hstack⟩

/-- What a run of changes of the pool keeps, change by change. -/
theorem PoolEffects.keeps {P : State → Prop} (h : ∀ {s t}, PoolEffect s t → P s → P t) {s t : State} (hrun : PoolEffects s t)
    (hs : P s) : P t := by
  induction hrun with
  | refl => exact hs
  | tail _ hone ih => exact h hone ih

/-! ## The load -/

/-- What a load leaves as it was. -/
structure LoadFrame (s t : State) : Prop where
  pool : t.pool = s.pool := by rfl
  fetch : t.fetch = s.fetch := by rfl
  round : t.lockout.round = s.lockout.round := by rfl
  rxq : t.rxq = s.rxq := by rfl
  queued : s.txq.entries.length ≤ 4 → t.txq.entries.length ≤ 4 := by exact fun h => h
  outcomes : t.panel.outcomes = s.panel.outcomes := by rfl
  clock : t.stationClock = s.stationClock := by rfl
  now : t.now = s.now := by rfl
  flash : t.flash = s.flash := by rfl

theorem LoadFrame.trans {s t u : State} (h : LoadFrame s t) (k : LoadFrame t u) : LoadFrame s u :=
  { pool := k.pool.trans h.pool, fetch := k.fetch.trans h.fetch, round := k.round.trans h.round, rxq := k.rxq.trans h.rxq
    queued := k.queued ∘ h.queued, outcomes := k.outcomes.trans h.outcomes, clock := k.clock.trans h.clock
    now := k.now.trans h.now, flash := k.flash.trans h.flash }

theorem fillTables_frame (i : LoadedImage) (s : State) : LoadFrame s (fillTables i s) ∧ (fillTables i s).line = s.line ∧
    (fillTables i s).tables = i.tables ∧
    ∀ o : Fin 4, (fillTables i s).outputs[o].sum = s.outputs[o].sum ∧
      (fillTables i s).outputs[o].presented = s.outputs[o].presented := by
  unfold fillTables updatePeer
  dsimp only
  split <;> exact ⟨{}, rfl, rfl, fun o => by simp⟩

theorem offerJoin_loadFrame (r : Bool) (s : State) : LoadFrame s (offerJoin r s) := by
  obtain ⟨txq, held, claims, close, records, free, h⟩ := offerJoin_frame r s
  have hround : (offerJoin r s).lockout.round = s.lockout.round := by
    unfold offerJoin
    split <;> rfl
  have hbound := offerJoin_bound r s
  rw [h] at hround hbound ⊢
  exact { round := hround, queued := hbound }

theorem offerJoin_state (r : Bool) (s : State) : (offerJoin r s).member.state = s.member.state := by
  unfold offerJoin
  split <;> rfl

theorem offerJoin_keeps (r : Bool) (s : State) : (offerJoin r s).line = s.line ∧ (offerJoin r s).tables = s.tables ∧
    (offerJoin r s).outputs = s.outputs := by
  unfold offerJoin
  split <;> exact ⟨rfl, rfl, rfl⟩

theorem enterLine_frame (s : State) : LoadFrame s (enterLine s) ∧
    (enterLine s).line = { s.line with rx := .sync, lows := 0, highs := 0 } ∧ (enterLine s).tables = s.tables ∧
    (enterLine s).outputs = s.outputs ∧
    (enterLine s).member.state = if s.straps.listen then .listening else .joining := by
  unfold enterLine
  dsimp only
  have hlisten : (beginReceiving s).straps.listen = s.straps.listen := rfl
  split
  · next h => exact ⟨{}, rfl, rfl, rfl, rfl⟩
  · next h =>
    have hbegin : LoadFrame s { beginReceiving s with member := { (beginReceiving s).member with state := .joining } } := {}
    obtain ⟨hline, htab, hout⟩ := offerJoin_keeps false
      { beginReceiving s with member := { (beginReceiving s).member with state := .joining } }
    exact ⟨hbegin.trans (offerJoin_loadFrame false _), hline, htab, hout, offerJoin_state false _⟩

/-- What a load leaves as it was, and the state it leads to: IMAGE_FAULT, LISTENING or JOINING. -/
theorem imageLoad_keeps (flash : List Host.Cell) {s : State} (h : s.member.state = .loading) :
    (imageLoad flash s).member.state ≠ .loading ∧ LoadFrame { s with flash := Memory.ofCells flash } (imageLoad flash s) ∧
      ((imageLoad flash s).line = s.line ∨
        (imageLoad flash s).line = { s.line with rx := .sync, lows := 0, highs := 0 }) ∧
      ((imageLoad flash s).tables = s.tables ∨
        ∃ i, loadImage (Memory.ofCells flash) = .ok i ∧ (imageLoad flash s).tables = i.tables) ∧
      (∀ o : Fin 4, (imageLoad flash s).outputs[o].sum = s.outputs[o].sum ∧
        (imageLoad flash s).outputs[o].presented = s.outputs[o].presented) := by
  unfold imageLoad
  rw [if_pos h]
  dsimp only
  split
  · next r _ =>
    refine ⟨?_, { outcomes := setFault_outcomes _ _ }, .inl rfl, .inl rfl, fun o => ⟨rfl, rfl⟩⟩
    exact fun hl => nomatch hl
  · next i hi =>
    obtain ⟨hfill, hline, htab, hout⟩ := fillTables_frame i { s with flash := Memory.ofCells flash }
    obtain ⟨henter, kline, ktab, kout, kstate⟩ := enterLine_frame (fillTables i { s with flash := Memory.ofCells flash })
    refine ⟨?_, hfill.trans henter, .inr (by rw [kline, hline]), .inr ⟨i, hi, ktab.trans htab⟩, by rw [kout]; exact hout⟩
    rw [kstate]
    split <;> exact fun hl => nomatch hl

/-- After a reset nothing sounds, nothing is suspended and nothing is claimed. -/
theorem afterReset_quiet (straps : Straps) (flash : List Host.Cell) (n : Nat) (q : List Instr) :
    (∀ i, voiceOf (State.afterReset straps flash n q) i = Voice.reset) ∧
      (State.afterReset straps flash n q).pool.stack = [] ∧
      (State.afterReset straps flash n q).lockout.round.claims = [] := by
  refine ⟨fun i => ?_, rfl, rfl⟩
  simp [voiceOf, State.afterReset, VoicePool.reset]

theorem afterReset_loadingQuiet (straps : Straps) (flash : List Host.Cell) (n : Nat) (q : List Instr) :
    loadingQuiet (State.afterReset straps flash n q) := by
  obtain ⟨hv, hstack, hclaims⟩ := afterReset_quiet straps flash n q
  exact fun _ => ⟨fun i => by rw [hv]; rfl, hstack, hclaims⟩

/-- What a sample of the line leaves of the pool and the round's claims. -/
theorem SampleFrame.keeps {s t : State} (h : SampleFrame s t) : t.pool = s.pool ∧ t.fetch = s.fetch ∧
    t.tables = s.tables ∧ t.flash = s.flash ∧ t.outputs = s.outputs ∧ t.now = s.now ∧ t.stationClock = s.stationClock ∧
    t.lockout.round.claims = s.lockout.round.claims ∧ t.lockout.round.excluded = s.lockout.round.excluded ∧
    t.lockout.round.profile = s.lockout.round.profile := by
  obtain ⟨_, _, _, _, _, _, _, _, _, _, _, _, rfl⟩ := h
  exact ⟨rfl, rfl, rfl, rfl, rfl, rfl, rfl, rfl, rfl, rfl⟩

theorem recompute_keeps (r : Round) : r.recompute.claims = r.claims ∧ r.recompute.excluded = r.excluded ∧
    r.recompute.profile = r.profile := by
  unfold Round.recompute
  split <;> exact ⟨rfl, rfl, rfl⟩

/-- A claim added reaches nothing but the round. -/
theorem addClaim_frame (pair : Nat × Nat) (capture : Nat) (s : State) :
    addClaim pair capture s = withRound (fun _ => (addClaim pair capture s).lockout.round) s := by
  unfold addClaim
  split <;> rfl

/-- Every change of the station keeps the quiet of LOADING. -/
theorem Effect.keeps_loadingQuiet {s t : State} (h : Effect s t) (hs : loadingQuiet s) : loadingQuiet t := by
  cases h with
  | same h => exact loadingQuiet_congr h.state h.pool h.claims hs
  | pool h => exact h.keeps_loadingQuiet hs
  | reset straps s => exact afterReset_loadingQuiet _ _ _ _
  | load flash s hl => exact fun hnot => absurd hnot (imageLoad_keeps flash hl).1
  | sample n level s =>
    obtain ⟨hpool, -, -, -, -, -, -, hclaims, -, -⟩ := (sampleAt_frame n level s).keeps
    intro hl
    rcases (sampleAt_bounds n level s).1 with hstate | ⟨-, hstate⟩
    · exact loadingQuiet_congr hstate hpool hclaims hs hl
    · rw [hstate] at hl
      contradiction
  | mix s => exact hs
  | leaveLine s => exact hs
  | duplicate s edge h => exact fun hl => nomatch hl
  | arm identity profile edge state held s =>
    intro hl
    obtain ⟨hidle, hstack, -⟩ := hs hl
    exact ⟨hidle, hstack, rfl⟩
  | claim pair capture s hnot =>
    rw [addClaim_frame]
    exact fun hl => absurd hl hnot
  | falseStart pair s u h =>
    have hu : loadingQuiet u := PoolEffects.keeps PoolEffect.keeps_loadingQuiet h hs
    intro hl
    obtain ⟨hidle, hstack, hclaims⟩ := hu hl
    refine ⟨hidle, hstack, ?_⟩
    show (Round.recompute _).claims = []
    rw [(recompute_keeps _).1]
    simp [hclaims]
  | tick s => exact hs

/-! ## The duck law -/

/-- A slot's voice contributes to a group (R44). -/
def contributes (s : State) (g : Nat) (i : Fin 16) : Bool := decide ((voiceOf s i).state ≠ .idle) && (voiceCue s i).ducks g

theorem contributors_eq (s : State) (g : Nat) : contributors s g = (slots.filter (contributes s g)).length := rfl

theorem contributes_of_idle {s : State} {i : Fin 16} (h : (voiceOf s i).state = .idle) (g : Nat) : contributes s g i = false := by
  simp [contributes, h]

theorem contributes_of_busy {s : State} {i : Fin 16} (h : (voiceOf s i).state ≠ .idle) (g : Nat) :
    contributes s g i = (voiceCue s i).ducks g := by
  simp [contributes, h]

theorem contributes_congr {s t : State} (htab : t.tables = s.tables) {i : Fin 16} (h : altered (voiceOf s i) (voiceOf t i))
    (g : Nat) : contributes t g i = contributes s g i := by
  obtain ⟨hcue, hidle, -⟩ := h
  have hiff : ((voiceOf t i).state ≠ .idle) = ((voiceOf s i).state ≠ .idle) := by rw [ne_eq, ne_eq, hidle]
  rw [contributes, contributes, voiceCue, voiceCue, hcue, cueRecord_congr htab, decide_eq_decide.mpr (iff_of_eq hiff)]

/-- Voices altered in no slot, with the counts as they were, keep the duck law. -/
theorem duckLaw_congr {s t : State} (htab : t.tables = s.tables) (hduck : t.pool.duck = s.pool.duck)
    (h : ∀ i, altered (voiceOf s i) (voiceOf t i)) (hs : duckLaw s) : duckLaw t := by
  intro g
  have : contributes t (g.val + 1) = contributes s (g.val + 1) := funext fun i => contributes_congr htab (h i) _
  rw [hduck, contributors_eq, this]
  exact hs g

theorem duckLaw_of_pool {s t : State} (htab : t.tables = s.tables) (hpool : t.pool = s.pool) (hs : duckLaw s) : duckLaw t := by
  refine duckLaw_congr htab (by rw [hpool]) (fun i => ?_) hs
  rw [voiceOf_of_pool hpool]
  exact altered.refl _

/-- A contribution that ends in a slot lowers the counts by what it was. -/
theorem duckLaw_vacate {i : Fin 16} {s : State} (h : (voiceOf s i).state ≠ .idle) (hs : duckLaw s) : duckLaw (vacate i s) := by
  have htab := (vacate_frame i s).pool.tables
  intro g
  have hcount := filter_slots_update (p := contributes s (g.val + 1)) (q := contributes (vacate i s) (g.val + 1)) (i := i)
    fun j hj => contributes_congr htab (voiceOf_vacate_other hj s).altered _
  rw [contributes_of_busy h, contributes_of_idle (by rw [voiceOf_vacate_same]; rfl)] at hcount
  have hg := hs g
  rw [contributors_eq] at hg ⊢
  rw [vacate_duck]
  cases hd : (voiceCue s i).ducks (g.val + 1) <;>
    simp only [hd, Bool.toNat_false, Bool.toNat_true, if_true, Bool.false_eq_true, if_false] at hcount ⊢ <;> omega

/-- A contribution that begins in an IDLE slot raises the counts by what it is. -/
theorem duckLaw_begin {i : Fin 16} {s t : State} {cue : Nat} (htab : t.tables = s.tables)
    (hidle : (voiceOf s i).state = .idle) (hbusy : (voiceOf t i).state ≠ .idle) (hcue : (voiceOf t i).cue = cue)
    (hother : ∀ j, j ≠ i → altered (voiceOf s j) (voiceOf t j))
    (hduck : ∀ g : Fin 15, t.pool.duck[g] =
      if (cueRecord s cue).ducks (g.val + 1) then s.pool.duck[g] + 1 else s.pool.duck[g])
    (hs : duckLaw s) : duckLaw t := by
  intro g
  have hcount := filter_slots_update (p := contributes s (g.val + 1)) (q := contributes t (g.val + 1)) (i := i)
    fun j hj => contributes_congr htab (hother j hj) _
  rw [contributes_of_idle hidle, contributes_of_busy hbusy, voiceCue, hcue, cueRecord_congr htab] at hcount
  have hg := hs g
  rw [contributors_eq] at hg ⊢
  rw [hduck]
  cases hd : (cueRecord s cue).ducks (g.val + 1) <;>
    simp only [hd, Bool.toNat_false, Bool.toNat_true, if_true, Bool.false_eq_true, if_false] at hcount ⊢ <;> omega

theorem duckLaw_resume {i : Fin 16} {s : State} (e : StackEntry) (h : (voiceOf s i).state = .idle) (hs : duckLaw s) :
    duckLaw (resumeVoice i e s) := by
  have hsame := voiceOf_resumeVoice_same i e s
  refine duckLaw_begin (resumeVoice_frame i e s).pool.tables h ?_ hsame.cue
    (fun j hj => (voiceOf_resumeVoice_other hj e s).altered) (resumeVoice_duck i e s) hs
  rw [hsame.state]
  exact VoiceState.noConfusion

theorem duckLaw_start {i : Fin 16} {s : State} (cue : Nat) (trim : Byte) (order : Word) (h : (voiceOf s i).state = .idle)
    (hs : duckLaw s) : duckLaw (startVoice i cue trim order s) := by
  have hfired := firedVoice_duckOnly s cue trim order
  rw [startVoice_eq]
  have hsame := hfired.trans (beginVoice_same i (firedVoice s cue trim order) s)
  refine duckLaw_begin (beginVoice_tables _ _ _) h ?_ hsame.cue (fun j hj => (beginVoice_other hj _ s).altered) (fun g => ?_) hs
  · rw [hsame.state]
    exact VoiceState.noConfusion
  · rw [beginVoice_duck, hfired.cue]

theorem PoolEffect.keeps_duckLaw {s t : State} (h : PoolEffect s t) (hs : duckLaw s) : duckLaw t := by
  have htab := h.frame.tables
  cases h with
  | alter s vs h _ => exact duckLaw_congr htab rfl h hs
  | cancel i s => exact hs
  | ask r s h => exact hs
  | grant s =>
    refine duckLaw_of_pool htab ?_ hs
    unfold Machine.grant
    split
    · rfl
    · split <;> rfl
  | endRead s => exact hs
  | vacate i s h => exact duckLaw_vacate h hs
  | offer i s h =>
    rcases offerSlot_cases i s with ⟨-, heq⟩ | ⟨e, above, rest, -, -, -, heq⟩
    · rw [heq]
      exact duckLaw_congr rfl rfl (fun i => altered.refl _) hs
    · rw [heq]
      exact duckLaw_resume e h (duckLaw_congr rfl rfl (fun i => altered.refl _) hs)
  | start i cue trim order s h _ _ => exact duckLaw_start cue trim order h hs
  | suspend i s h =>
    rw [suspendVoice_eq]
    have hpushed : duckLaw (pushStack (suspendedEntry s i) s) :=
      duckLaw_congr (pushStack_frame _ s).pool.tables (pushStack_duck _ s)
        (fun j => by rw [voiceOf_pushStack]; exact altered.refl _) hs
    exact duckLaw_vacate (by rw [voiceOf_pushStack]; exact Voice.sounding_ne_idle h) hpushed
  | purge test s => exact duckLaw_congr rfl rfl (fun i => altered.refl _) hs
  | fault f s => exact hs
  | record cue w s => exact hs

/-- Where every slot is IDLE no voice contributes. -/
theorem contributors_of_idle {s : State} (h : ∀ i, (voiceOf s i).state = .idle) (g : Nat) : contributors s g = 0 := by
  rw [contributors_eq, List.length_eq_zero_iff, List.filter_eq_nil_iff]
  intro i _
  rw [contributes_of_idle (h i)]
  exact Bool.false_ne_true

theorem duckLaw_of_idle {s : State} (h : ∀ i, (voiceOf s i).state = .idle) (hduck : ∀ g : Fin 15, s.pool.duck[g] = 0) :
    duckLaw s := fun g => by rw [contributors_of_idle h, hduck]

theorem afterReset_duckLaw (straps : Straps) (flash : List Host.Cell) (n : Nat) (q : List Instr) :
    duckLaw (State.afterReset straps flash n q) := by
  refine duckLaw_of_idle (fun i => ?_) fun g => ?_
  · rw [(afterReset_quiet straps flash n q).1]
    rfl
  · simp [State.afterReset, VoicePool.reset]

theorem Effect.keeps_duckLaw {s t : State} (h : Effect s t) (hquiet : loadingQuiet s) (hs : duckLaw s) : duckLaw t := by
  cases h with
  | same h => exact duckLaw_of_pool h.tables h.pool hs
  | pool h => exact h.keeps_duckLaw hs
  | reset straps s => exact afterReset_duckLaw _ _ _ _
  | load flash s hl =>
    obtain ⟨hidle, -, -⟩ := hquiet hl
    have hpool := (imageLoad_keeps flash hl).2.1.pool
    refine duckLaw_of_idle (fun i => ?_) fun g => ?_
    · rw [voiceOf, hpool]
      exact hidle i
    · rw [hpool, hs g, contributors_of_idle hidle]
  | sample n level s =>
    obtain ⟨hpool, -, htab, -⟩ := (sampleAt_frame n level s).keeps
    exact duckLaw_of_pool htab hpool hs
  | mix s => exact hs
  | leaveLine s => exact hs
  | duplicate s edge h => exact hs
  | arm identity profile edge state held s => exact hs
  | claim pair capture s hnot =>
    rw [addClaim_frame]
    exact hs
  | falseStart pair s u h =>
    have hu : duckLaw u := PoolEffects.keeps PoolEffect.keeps_duckLaw h hs
    exact hu
  | tick s => exact hs

/-- Settles O58: every step is a run of changes, each of which keeps the quiet of LOADING and, with it, the duck counts. -/
theorem stepKeepsDuckLaw : Obligations.StepKeepsDuckLaw := by
  intro s t hquiet hduck hstep
  exact step_keeps (P := fun s => loadingQuiet s ∧ duckLaw s)
    (fun h hs => ⟨h.keeps_loadingQuiet hs.1, h.keeps_duckLaw hs.1 hs.2⟩) ⟨hquiet, hduck⟩ hstep

/-! ## The choke law -/

/-- A slot sounds in a choke group, as a test. -/
def soundsInGroup (s : State) (g : Nat) (i : Fin 16) : Bool :=
  (voiceOf s i).sounding && decide ((voiceCue s i).choke = g)

/-- A suspended context is of a choke group. -/
def entryInGroup (s : State) (g : Nat) (e : StackEntry) : Bool := decide ((cueRecord s e.cue).choke = g)

theorem chokeContexts_eq (s : State) (g : Nat) : chokeContexts s g =
    (slots.filter (soundsInGroup s g)).length + (s.pool.stack.filter (entryInGroup s g)).length := rfl

theorem soundsInGroup_iff (s : State) (g : Nat) (i : Fin 16) : soundsInGroup s g i = true ↔ soundsIn s g i := by
  rw [soundsInGroup, Bool.and_eq_true, decide_eq_true_eq, soundsIn]

theorem entryInGroup_congr {s t : State} (htab : t.tables = s.tables) (g : Nat) : entryInGroup t g = entryInGroup s g := by
  funext e
  rw [entryInGroup, entryInGroup, cueRecord_congr htab]

theorem soundsInGroup_congr {s t : State} (htab : t.tables = s.tables) {i : Fin 16}
    (h : duckOnly (voiceOf s i) (voiceOf t i)) (g : Nat) : soundsInGroup t g i = soundsInGroup s g i := by
  rw [soundsInGroup, soundsInGroup, h.sounding, voiceCue, voiceCue, h.cue, cueRecord_congr htab]

/-- Where no voice sounds that did not, and the stack is part of what it was, there are no more contexts of a group. -/
theorem chokeContexts_mono {s t : State} (htab : t.tables = s.tables)
    (hvoice : ∀ i, altered (voiceOf s i) (voiceOf t i)) (hstack : t.pool.stack.Sublist s.pool.stack) (g : Nat) :
    chokeContexts t g ≤ chokeContexts s g := by
  rw [chokeContexts_eq, chokeContexts_eq, entryInGroup_congr htab]
  refine Nat.add_le_add (filter_slots_mono fun i hi => ?_) (hstack.filter _).length_le
  rw [soundsInGroup_iff] at hi ⊢
  exact soundsIn_of_altered htab (hvoice i) hi

theorem chokeLaw_mono {s t : State} (htab : t.tables = s.tables) (hvoice : ∀ i, altered (voiceOf s i) (voiceOf t i))
    (hstack : t.pool.stack.Sublist s.pool.stack) (hs : chokeLaw s) : chokeLaw t := fun g hg =>
  (chokeContexts_mono htab hvoice hstack g).trans (hs g hg)

theorem chokeLaw_of_pool {s t : State} (htab : t.tables = s.tables) (hpool : t.pool = s.pool) (hs : chokeLaw s) : chokeLaw t := by
  refine chokeLaw_mono htab (fun i => ?_) (by rw [hpool]) hs
  rw [voiceOf_of_pool hpool]
  exact altered.refl _

/-- A cut takes its own context away. -/
theorem chokeContexts_vacate {i : Fin 16} {s : State} (g : Nat) :
    chokeContexts (vacate i s) g + (soundsInGroup s g i).toNat = chokeContexts s g := by
  have htab := (vacate_frame i s).pool.tables
  have hcount := filter_slots_update (p := soundsInGroup s g) (q := soundsInGroup (vacate i s) g) (i := i)
    fun j hj => soundsInGroup_congr htab (voiceOf_vacate_other hj s) g
  have hsilent : soundsInGroup (vacate i s) g i = false := by
    rw [soundsInGroup, voiceOf_vacate_same]
    rfl
  rw [hsilent] at hcount
  rw [chokeContexts_eq, chokeContexts_eq, entryInGroup_congr htab, vacate_stack]
  simp only [Bool.toNat_false] at hcount
  omega

/-- A voice that begins in an IDLE slot adds its own context. -/
theorem chokeContexts_begin {i : Fin 16} {s t : State} {cue : Nat} (htab : t.tables = s.tables)
    (hidle : (voiceOf s i).state = .idle) (hcue : (voiceOf t i).cue = cue)
    (hother : ∀ j, j ≠ i → duckOnly (voiceOf s j) (voiceOf t j)) (hstack : t.pool.stack = s.pool.stack) (g : Nat) :
    chokeContexts t g ≤ chokeContexts s g + (decide ((cueRecord s cue).choke = g)).toNat := by
  have hcount := filter_slots_update (p := soundsInGroup s g) (q := soundsInGroup t g) (i := i)
    fun j hj => soundsInGroup_congr htab (hother j hj) g
  have hsilent : soundsInGroup s g i = false := by
    rw [soundsInGroup, Bool.eq_false_iff.mpr (idle_not_sounding hidle), Bool.false_and]
  have hnew : (soundsInGroup t g i).toNat ≤ (decide ((cueRecord s cue).choke = g)).toNat := by
    rw [soundsInGroup, voiceCue, hcue, cueRecord_congr htab]
    cases (voiceOf t i).sounding <;> simp
  rw [hsilent] at hcount
  rw [chokeContexts_eq, chokeContexts_eq, entryInGroup_congr htab, hstack]
  simp only [Bool.toNat_false] at hcount
  omega

/-- A free group has no contexts. -/
theorem chokeContexts_of_free {s : State} {g : Nat} (h : groupFree s g) : chokeContexts s g = 0 := by
  obtain ⟨hsound, hstack⟩ := h
  have h1 : slots.filter (soundsInGroup s g) = [] :=
    List.filter_eq_nil_iff.mpr fun i _ hi => hsound i ((soundsInGroup_iff s g i).mp hi)
  have h2 : s.pool.stack.filter (entryInGroup s g) = [] :=
    List.filter_eq_nil_iff.mpr fun e he hg => hstack e he (of_decide_eq_true hg)
  rw [chokeContexts_eq, h1, h2]
  rfl

/-- An entry that resumes moves from the stack to a slot. -/
theorem chokeLaw_resume {i : Fin 16} {s : State} {e : StackEntry} {above rest : List StackEntry}
    (hstack : s.pool.stack = above ++ e :: rest) (h : (voiceOf s i).state = .idle) (hs : chokeLaw s) :
    chokeLaw (resumeVoice i e (withStack rest s)) := by
  intro g hg
  have hbegin := chokeContexts_begin (s := withStack rest s) (t := resumeVoice i e (withStack rest s)) (cue := e.cue)
    (resumeVoice_frame i e _).pool.tables h (voiceOf_resumeVoice_same i e _).cue
    (fun j hj => voiceOf_resumeVoice_other hj e _) (resumeVoice_stack i e _) g
  have hrest : chokeContexts (withStack rest s) g =
      (slots.filter (soundsInGroup s g)).length + (rest.filter (entryInGroup s g)).length := rfl
  have hentry : decide ((cueRecord (withStack rest s) e.cue).choke = g) = entryInGroup s g e := rfl
  rw [hrest, hentry] at hbegin
  have hsplit : (rest.filter (entryInGroup s g)).length + (entryInGroup s g e).toNat ≤
      (s.pool.stack.filter (entryInGroup s g)).length := by
    rw [hstack, List.filter_append, List.length_append, List.filter_cons]
    cases hchoke : entryInGroup s g e <;> simp
  have hold := hs g hg
  rw [chokeContexts_eq] at hold
  omega

/-- A voice starts once its group is free. -/
theorem chokeLaw_start {i : Fin 16} {s : State} {cue : Nat} (trim : Byte) (order : Word) (h : (voiceOf s i).state = .idle)
    (hf : (cueRecord s cue).choke ≠ 0 → groupFree s (cueRecord s cue).choke) (hs : chokeLaw s) :
    chokeLaw (startVoice i cue trim order s) := by
  intro g hg
  have hfired := firedVoice_duckOnly s cue trim order
  rw [startVoice_eq]
  have hbegin := chokeContexts_begin (beginVoice_tables i (firedVoice s cue trim order) s) h
    (hfired.trans (beginVoice_same i _ s)).cue (fun j hj => beginVoice_other hj _ s) (beginVoice_stack i _ s) g
  have hcue : (freshVoice s cue trim order).cue = cue := rfl
  rw [hcue] at hbegin
  by_cases hc : (cueRecord s cue).choke = g
  · have hfree := chokeContexts_of_free (hf (by omega))
    rw [hc] at hfree
    have := Bool.toNat_le (decide ((cueRecord s cue).choke = g))
    omega
  · have := hs g hg
    simp only [hc, decide_false, Bool.toNat_false] at hbegin
    omega

/-- A suspended context moves from its slot to the stack. -/
theorem chokeLaw_suspend {i : Fin 16} {s : State} (h : (voiceOf s i).sounding = true) (hs : chokeLaw s) :
    chokeLaw (suspendVoice i s) := by
  intro g hg
  rw [suspendVoice_eq]
  have htab := (pushStack_frame (suspendedEntry s i) s).pool.tables
  have hcut := chokeContexts_vacate (i := i) (s := pushStack (suspendedEntry s i) s) g
  have hsound : soundsInGroup (pushStack (suspendedEntry s i) s) g = soundsInGroup s g := by
    funext j
    rw [soundsInGroup, soundsInGroup, voiceCue, voiceCue, voiceOf_pushStack, cueRecord_congr htab]
  have hmoved : (soundsInGroup s g i).toNat = (entryInGroup s g (suspendedEntry s i)).toNat := by
    rw [soundsInGroup, h, Bool.true_and]
    rfl
  have hpush : ((pushStack (suspendedEntry s i) s).pool.stack.filter (entryInGroup s g)).length ≤
      (entryInGroup s g (suspendedEntry s i)).toNat + (s.pool.stack.filter (entryInGroup s g)).length := by
    rw [pushStack_stack]
    refine (((List.take_sublist 8 _).filter (entryInGroup s g)).length_le).trans ?_
    rw [List.filter_cons]
    cases entryInGroup s g (suspendedEntry s i) <;> simp
  have hold := hs g hg
  rw [chokeContexts_eq (pushStack (suspendedEntry s i) s), hsound, entryInGroup_congr htab] at hcut
  rw [chokeContexts_eq] at hold
  omega

theorem PoolEffect.keeps_chokeLaw {s t : State} (h : PoolEffect s t) (hs : chokeLaw s) : chokeLaw t := by
  have htab := h.frame.tables
  cases h with
  | alter s vs h _ => exact chokeLaw_mono htab h (List.Sublist.refl _) hs
  | cancel i s => exact hs
  | ask r s h => exact hs
  | grant s =>
    refine chokeLaw_of_pool htab ?_ hs
    unfold Machine.grant
    split
    · rfl
    · split <;> rfl
  | endRead s => exact hs
  | vacate i s h =>
    intro g hg
    have := chokeContexts_vacate (i := i) (s := s) g
    have := hs g hg
    omega
  | offer i s h =>
    rcases offerSlot_cases i s with ⟨-, heq⟩ | ⟨e, above, rest, hstack, -, -, heq⟩
    · rw [heq]
      exact chokeLaw_mono (s := s) rfl (fun i => altered.refl _) (List.nil_sublist _) hs
    · rw [heq]
      exact chokeLaw_resume hstack h hs
  | start i cue trim order s h _ hf => exact chokeLaw_start trim order h hf hs
  | suspend i s h => exact chokeLaw_suspend h hs
  | purge test s => exact chokeLaw_mono (s := s) rfl (fun i => altered.refl _) List.filter_sublist hs
  | fault f s => exact hs
  | record cue w s => exact hs

/-- Where nothing sounds and nothing is suspended no group has a context. -/
theorem chokeLaw_of_quiet {s : State} (h : ∀ i, (voiceOf s i).state = .idle) (hstack : s.pool.stack = []) : chokeLaw s := by
  intro g _
  have hfree : groupFree s g :=
    ⟨fun i hi => idle_not_sounding (h i) hi.1, fun e he => absurd he (by rw [hstack]; exact List.not_mem_nil)⟩
  rw [chokeContexts_of_free hfree]
  exact Nat.zero_le 1

theorem Effect.keeps_chokeLaw {s t : State} (h : Effect s t) (hquiet : loadingQuiet s) (hs : chokeLaw s) : chokeLaw t := by
  cases h with
  | same h => exact chokeLaw_of_pool h.tables h.pool hs
  | pool h => exact h.keeps_chokeLaw hs
  | reset straps s =>
    obtain ⟨hv, hstack, -⟩ := afterReset_quiet straps s.flash s.freeCount s.pending
    exact chokeLaw_of_quiet (fun i => (congrArg Voice.state (hv i))) hstack
  | load flash s hl =>
    obtain ⟨hidle, hstack, -⟩ := hquiet hl
    have hpool := (imageLoad_keeps flash hl).2.1.pool
    refine chokeLaw_of_quiet (fun i => ?_) (by rw [hpool, hstack])
    rw [voiceOf, hpool]
    exact hidle i
  | sample n level s =>
    obtain ⟨hpool, -, htab, -⟩ := (sampleAt_frame n level s).keeps
    exact chokeLaw_of_pool htab hpool hs
  | mix s => exact hs
  | leaveLine s => exact hs
  | duplicate s edge h => exact hs
  | arm identity profile edge state held s => exact hs
  | claim pair capture s hnot =>
    rw [addClaim_frame]
    exact hs
  | falseStart pair s u h =>
    have hu : chokeLaw u := PoolEffects.keeps PoolEffect.keeps_chokeLaw h hs
    exact hu
  | tick s => exact hs

/-- Settles O59: a context that begins does so once its group has been freed by the choke stage, and a context that is suspended
or resumes only moves between its slot and the stack. -/
theorem stepKeepsChokeLaw : Obligations.StepKeepsChokeLaw := by
  intro s t hquiet hchoke hstep
  exact (step_keeps (P := fun s => loadingQuiet s ∧ chokeLaw s)
    (fun h hs => ⟨h.keeps_loadingQuiet hs.1, h.keeps_chokeLaw hs.1 hs.2⟩) ⟨hquiet, hchoke⟩ hstep).2

end Sys2Proof.Machine
end

