-- ==== Sys2Proof/Proofs/RoundLaws.lean ====
section
/-!
The law of the claim list (O60) and the basic invariant (O56).
-/
namespace Sys2Proof.Machine
open Relation

/-! ## The law of the claim list -/

/-- The pair of a claim list entry. -/
def Claim.pair (c : Claim) : Nat × Nat := (c.station, c.input)

/-- The law of a claim list, under a profile and a set of excluded pairs, with the eligibility of its pairs. -/
def claimsGood (p : ProfileRecord) (claims : List Claim) (excluded : List (Nat × Nat)) : Prop :=
  (claims.map Claim.pair).Nodup ∧ claims.length ≤ 32 ∧
    ∀ c ∈ claims, (msMicros p.holdoff ≤ c.capture ∧ c.capture ≤ msMicros p.window ∧ c.pair ∉ excluded) ∧
      p.eligible.contains c.pair = true

theorem claimsInv_iff (s : State) : claimsInv s ↔
    claimsGood (roundProfile s) s.lockout.round.claims s.lockout.round.excluded ∧
      (∀ p ∈ s.tables.profiles, p.eligible.length ≤ 32) ∧ loadingQuiet s := by
  constructor
  · rintro ⟨⟨hnodup, hlen, hclaims⟩, helig, hprofiles, hquiet⟩
    exact ⟨⟨hnodup, hlen, fun c hc => ⟨hclaims c hc, helig c hc⟩⟩, hprofiles, hquiet⟩
  · rintro ⟨⟨hnodup, hlen, hclaims⟩, hprofiles, hquiet⟩
    exact ⟨⟨hnodup, hlen, fun c hc => (hclaims c hc).1⟩, fun c hc => (hclaims c hc).2, hprofiles, hquiet⟩

theorem claimsGood_nil (p : ProfileRecord) (excluded : List (Nat × Nat)) : claimsGood p [] excluded :=
  ⟨List.nodup_nil, Nat.zero_le _, fun _ hc => absurd hc List.not_mem_nil⟩

/-- A profile names no more pairs than every profile of the tables does. -/
theorem roundProfile_eligible {s : State} (h : ∀ p ∈ s.tables.profiles, p.eligible.length ≤ 32) :
    (roundProfile s).eligible.length ≤ 32 := by
  rw [roundProfile, profileRecord, List.getD_eq_getElem?_getD]
  cases hp : s.tables.profiles[s.lockout.round.profile]? with
  | none => exact Nat.zero_le _
  | some p => exact h p (List.mem_of_getElem? hp)

/-- A valid claim joins the list without breaking its law (R91). -/
theorem claimsGood_append {p : ProfileRecord} {claims : List Claim} {excluded : List (Nat × Nat)} {c : Claim}
    (h : claimsGood p claims excluded) (hp : p.eligible.length ≤ 32) (hlo : msMicros p.holdoff ≤ c.capture)
    (hhi : c.capture ≤ msMicros p.window) (helig : p.eligible.contains c.pair = true) (hexcl : c.pair ∉ excluded)
    (hnew : c.pair ∉ claims.map Claim.pair) : claimsGood p (claims ++ [c]) excluded := by
  obtain ⟨hnodup, -, hclaims⟩ := h
  have hall : ∀ x ∈ claims ++ [c], (msMicros p.holdoff ≤ x.capture ∧ x.capture ≤ msMicros p.window ∧ x.pair ∉ excluded) ∧
      p.eligible.contains x.pair = true := by
    intro x hx
    rcases List.mem_append.mp hx with hx | hx
    · exact hclaims x hx
    · obtain rfl := List.mem_singleton.mp hx
      exact ⟨⟨hlo, hhi, hexcl⟩, helig⟩
  have hnodup' : ((claims ++ [c]).map Claim.pair).Nodup := by
    rw [List.map_append, List.map_singleton]
    exact List.nodup_append.mpr ⟨hnodup, List.nodup_singleton _, fun a ha b hb heq => hnew (by
      rw [← List.mem_singleton.mp hb, ← heq]
      exact ha)⟩
  refine ⟨hnodup', ?_, hall⟩
  have hsub : (claims ++ [c]).map Claim.pair ⊆ p.eligible := by
    intro x hx
    obtain ⟨y, hy, rfl⟩ := List.mem_map.mp hx
    simpa using (hall y hy).2
  calc (claims ++ [c]).length = ((claims ++ [c]).map Claim.pair).length := (List.length_map _).symm
    _ ≤ p.eligible.length := (hnodup'.subperm hsub).length_le
    _ ≤ 32 := hp

/-- An exclusion takes the pair's entry from the list (R90). -/
theorem claimsGood_exclude {p : ProfileRecord} {claims : List Claim} {excluded : List (Nat × Nat)} (pair : Nat × Nat)
    (h : claimsGood p claims excluded) :
    claimsGood p (claims.filter fun c => (c.station, c.input) != pair) (excluded ++ [pair]) := by
  obtain ⟨hnodup, hlen, hclaims⟩ := h
  refine ⟨hnodup.sublist (List.filter_sublist.map Claim.pair), (List.length_filter_le _ _).trans hlen, fun c hc => ?_⟩
  obtain ⟨hmem, hne⟩ := List.mem_filter.mp hc
  obtain ⟨⟨hlo, hhi, hexcl⟩, helig⟩ := hclaims c hmem
  have hne' : c.pair ≠ pair := by simpa [Claim.pair] using hne
  refine ⟨⟨hlo, hhi, fun hin => ?_⟩, helig⟩
  rcases List.mem_append.mp hin with hin | hin
  · exact hexcl hin
  · exact hne' (List.mem_singleton.mp hin)

/-- A pair takes two characters (R172). -/
theorem pairsOf_length : ∀ (n : Nat) (b : List Byte), (pairsOf n b).length ≤ b.length / 2
  | 0, b => Nat.zero_le _
  | n + 1, [] => Nat.zero_le _
  | n + 1, [_] => Nat.zero_le _
  | n + 1, _ :: _ :: rest => by
    have ih := pairsOf_length n rest
    simp only [pairsOf, List.length_cons]
    omega

theorem chunks_length {size : Nat} : ∀ {n : Nat} {b c : List Byte}, c ∈ chunks size n b → c.length ≤ size
  | 0, b, c, h => absurd h List.not_mem_nil
  | n + 1, b, c, h => by
    rcases List.mem_cons.mp h with rfl | h
    · exact List.length_take_le _ _
    · exact chunks_length h

theorem stage_records_length (flash : List Host.Cell) (sections : List Section) (kind : Nat) :
    ∀ b ∈ (stage flash sections kind).records, b.length ≤ recordSize kind := by
  unfold stage
  split
  · exact fun b hb => absurd hb List.not_mem_nil
  · exact fun b hb => chunks_length hb

/-- A round profile's record has places for 32 pairs (R172). -/
theorem profileOf_eligible {b : List Byte} (h : b.length ≤ 74) : (profileOf b).1.eligible.length ≤ 32 := by
  unfold profileOf
  split
  · refine (pairsOf_length _ _).trans ?_
    rw [List.length_drop]
    omega
  · exact Nat.zero_le _

/-- What a load that passes fills the tables with. -/
theorem loadImage_tables {flash : List Host.Cell} {i : LoadedImage} (h : loadImage flash = .ok i) :
    ∃ sections, i.tables = tablesOf (stage flash sections) := by
  unfold loadImage at h
  split at h
  · contradiction
  · split at h
    · contradiction
    · split at h
      · contradiction
      · split at h
        · contradiction
        · exact ⟨_, by rw [← Except.ok.inj h]⟩

theorem loadImage_profiles {flash : List Host.Cell} {i : LoadedImage} (h : loadImage flash = .ok i) :
    ∀ p ∈ i.tables.profiles, p.eligible.length ≤ 32 := by
  obtain ⟨sections, htab⟩ := loadImage_tables h
  rw [htab]
  intro p hp
  obtain ⟨b, hb, rfl⟩ := List.mem_map.mp hp
  exact profileOf_eligible (stage_records_length flash sections 6 b hb)

/-- The profile of the round depends on the tables and the round's profile number. -/
theorem roundProfile_congr {s t : State} (htab : t.tables = s.tables)
    (hprofile : t.lockout.round.profile = s.lockout.round.profile) : roundProfile t = roundProfile s := by
  rw [roundProfile, roundProfile, profileRecord, profileRecord, htab, hprofile]

theorem roundProfile_withRound {f : Round → Round} {s : State} (h : (f s.lockout.round).profile = s.lockout.round.profile) :
    roundProfile (withRound f s) = roundProfile s :=
  roundProfile_congr rfl h

theorem claimsInv_congr {s t : State} (htab : t.tables = s.tables)
    (hclaims : t.lockout.round.claims = s.lockout.round.claims)
    (hexcl : t.lockout.round.excluded = s.lockout.round.excluded)
    (hprofile : t.lockout.round.profile = s.lockout.round.profile) (hquiet : loadingQuiet t) (hs : claimsInv s) :
    claimsInv t := by
  rw [claimsInv_iff] at hs ⊢
  obtain ⟨hgood, hprofiles, -⟩ := hs
  rw [roundProfile_congr htab hprofile, hclaims, hexcl, htab]
  exact ⟨hgood, hprofiles, hquiet⟩

theorem claimsInv_of_nil {s : State} (hclaims : s.lockout.round.claims = [])
    (hprofiles : ∀ p ∈ s.tables.profiles, p.eligible.length ≤ 32) (hquiet : loadingQuiet s) : claimsInv s := by
  rw [claimsInv_iff, hclaims]
  exact ⟨claimsGood_nil _ _, hprofiles, hquiet⟩

theorem afterReset_claimsInv (straps : Straps) (flash : List Host.Cell) (n : Nat) (q : List Instr) :
    claimsInv (State.afterReset straps flash n q) :=
  claimsInv_of_nil rfl (fun _ hp => absurd hp List.not_mem_nil) (afterReset_loadingQuiet straps flash n q)

/-- A claim taken keeps the law (R91). -/
theorem claimsInv_addClaim (pair : Nat × Nat) (capture : Nat) {s : State} (hquiet : loadingQuiet (addClaim pair capture s))
    (hs : claimsInv s) : claimsInv (addClaim pair capture s) := by
  rw [claimsInv_iff] at hs
  obtain ⟨hgood, hprofiles, -⟩ := hs
  rw [claimsInv_iff]
  by_cases hvalid : validClaim s pair capture = true
  · have heq : addClaim pair capture s = withRound (fun r =>
        Round.recompute { r with claims := r.claims ++ [{ station := pair.1, input := pair.2, capture := capture }] }) s := by
      rw [addClaim, if_pos hvalid]
    obtain ⟨hclaims, hexcl, hprofile⟩ := recompute_keeps
      { s.lockout.round with
        claims := s.lockout.round.claims ++ [{ station := pair.1, input := pair.2, capture := capture }] }
    simp only [validClaim, Bool.and_eq_true, decide_eq_true_eq, Bool.not_eq_true'] at hvalid
    obtain ⟨⟨⟨⟨hlo, hhi⟩, helig⟩, hnot⟩, hnew⟩ := hvalid
    refine ⟨?_, by rw [heq]; exact hprofiles, hquiet⟩
    rw [heq] at hquiet ⊢
    rw [roundProfile_withRound hprofile]
    show claimsGood _ (Round.recompute _).claims (Round.recompute _).excluded
    rw [hclaims, hexcl]
    refine claimsGood_append hgood (roundProfile_eligible hprofiles) hlo hhi helig ?_ ?_
    · simpa [Claim.pair] using hnot
    · intro hin
      obtain ⟨c, hc, hpair⟩ := List.mem_map.mp hin
      have : s.lockout.round.holdsPair pair = true := List.any_eq_true.mpr ⟨c, hc, by simpa [Claim.pair] using hpair⟩
      rw [hnew] at this
      contradiction
  · have heq : addClaim pair capture s = s := by rw [addClaim, if_neg hvalid]
    rw [heq] at hquiet ⊢
    exact ⟨hgood, hprofiles, hquiet⟩

/-- A first false start keeps the law, whatever its cue does to the pool (R90). -/
theorem claimsInv_falseStart (pair : Nat × Nat) {s u : State}
    (h : PoolEffects (withRound (fun r => { r with excluded := r.excluded ++ [pair] }) s) u)
    (hquiet : loadingQuiet (withRound (fun r =>
      Round.recompute { r with claims := r.claims.filter fun c => (c.station, c.input) != pair }) u)) (hs : claimsInv s) :
    claimsInv (withRound (fun r =>
      Round.recompute { r with claims := r.claims.filter fun c => (c.station, c.input) != pair }) u) := by
  have hframe := PoolEffects.frame h
  rw [claimsInv_iff] at hs ⊢
  obtain ⟨hgood, hprofiles, -⟩ := hs
  have hround : u.lockout.round = { s.lockout.round with excluded := s.lockout.round.excluded ++ [pair] } := by
    rw [hframe.lockout]
    rfl
  obtain ⟨hclaims, hexcl, hprofile⟩ := recompute_keeps
    { u.lockout.round with claims := u.lockout.round.claims.filter fun c => (c.station, c.input) != pair }
  have htab : u.tables = s.tables := hframe.tables
  refine ⟨?_, ?_, hquiet⟩
  · rw [roundProfile_withRound hprofile, roundProfile_congr (s := s) (t := u) htab (by rw [hround])]
    show claimsGood _ (Round.recompute _).claims (Round.recompute _).excluded
    rw [hclaims, hexcl, hround]
    exact claimsGood_exclude pair hgood
  · show ∀ p ∈ u.tables.profiles, _
    rw [htab]
    exact hprofiles

theorem Effect.keeps_claimsInv {s t : State} (h : Effect s t) (hs : claimsInv s) : claimsInv t := by
  have hall := (claimsInv_iff s).mp hs
  obtain ⟨-, hprofiles, hold⟩ := hall
  have hquiet := h.keeps_loadingQuiet hold
  cases h with
  | same h => exact claimsInv_congr h.tables h.claims h.excluded h.profile hquiet hs
  | pool h =>
    have hframe := h.frame
    exact claimsInv_congr hframe.tables (by rw [hframe.lockout]) (by rw [hframe.lockout]) (by rw [hframe.lockout]) hquiet hs
  | reset straps s => exact afterReset_claimsInv _ _ _ _
  | load flash s hl =>
    obtain ⟨-, hframe, -, htab, -⟩ := imageLoad_keeps flash hl
    obtain ⟨-, -, hclaims⟩ := hold hl
    refine claimsInv_of_nil (by rw [hframe.round]; exact hclaims) ?_ hquiet
    rcases htab with htab | ⟨i, hi, htab⟩ <;> rw [htab]
    · exact hprofiles
    · exact loadImage_profiles hi
  | sample n level s =>
    obtain ⟨-, -, htab, -, -, -, -, hclaims, hexcl, hprofile⟩ := (sampleAt_frame n level s).keeps
    exact claimsInv_congr htab hclaims hexcl hprofile hquiet hs
  | mix s => exact hs
  | leaveLine s => exact hs
  | duplicate s edge h => exact claimsInv_of_nil rfl hprofiles hquiet
  | arm identity profile edge state held s => exact claimsInv_of_nil rfl hprofiles hquiet
  | claim pair capture s hnot => exact claimsInv_addClaim pair capture hquiet hs
  | falseStart pair s u h => exact claimsInv_falseStart pair h hquiet hs
  | tick s => exact hs

/-- Settles O60: an entry is added for a new eligible pair alone, and an exclusion takes its entry away. -/
theorem stepKeepsClaimsLaw : Obligations.StepKeepsClaimsLaw := fun _ _ hs hstep =>
  step_keeps Effect.keeps_claimsInv hs hstep

/-! ## The basic invariant -/

/-- The request granted is one of the requests (R54). -/
theorem firstRequest_mem {s : State} {r : Request} (h : firstRequest s = some r) : r ∈ s.fetch.requests := by
  have hfold : ∀ (l : List Request) (best : Option Request), (∀ x ∈ l, x ∈ s.fetch.requests) →
      (∀ b, best = some b → b ∈ s.fetch.requests) →
      l.foldl (fun best r => match best with
        | none => some r
        | some b => if grantsBefore s r b then some r else some b) best = some r → r ∈ s.fetch.requests := by
    intro l
    induction l with
    | nil => exact fun best _ hbest heq => hbest r heq
    | cons x l ih =>
      intro best hl hbest heq
      refine ih _ (fun y hy => hl y (List.mem_cons_of_mem x hy)) (fun b hb => ?_) heq
      have hx := hl x List.mem_cons_self
      cases best with
      | none => exact Option.some.inj hb ▸ hx
      | some c =>
        dsimp only at hb
        split at hb
        · exact Option.some.inj hb ▸ hx
        · exact Option.some.inj hb ▸ hbest c rfl
  exact hfold s.fetch.requests none (fun _ hx => hx) (fun _ hb => nomatch hb) h

/-- The bounds of the voices' buffers and of the requests (R53, R54). -/
theorem PoolEffect.keeps_blocksBounded {s t : State} (h : PoolEffect s t) (hs : blocksBounded s) : blocksBounded t := by
  obtain ⟨hbuf, hreq, hflight⟩ := hs
  have hduck : ∀ {v w : Voice}, duckOnly v w → buffersBounded v → buffersBounded w := fun hd hv => by
    rwa [buffersBounded, hd.buffer0, hd.buffer1]
  have hempty : ∀ {v : Voice}, v.buffer0 = Buffer.empty → v.buffer1 = Buffer.empty → buffersBounded v := fun h0 h1 => by
    rw [buffersBounded, h0, h1]
    exact ⟨Nat.zero_le _, Nat.zero_le _⟩
  have hcancel : ∀ (u : State) (i : Fin 16), (∀ r ∈ u.fetch.requests, segmentFrames r.segments ≤ 256) →
      (∀ f, u.fetch.flight = some f → segmentFrames f.request.segments ≤ 256) →
      (∀ r ∈ (cancelRequest i u).fetch.requests, segmentFrames r.segments ≤ 256) ∧
        ∀ f, (cancelRequest i u).fetch.flight = some f → segmentFrames f.request.segments ≤ 256 := by
    intro u i hr hf
    refine ⟨fun r hmem => hr r (List.mem_of_mem_filter hmem), fun f hmem => ?_⟩
    obtain ⟨g, hg, rfl⟩ := Option.map_eq_some_iff.mp hmem
    split <;> exact hf g hg
  have hvacate : ∀ (u : State) (i : Fin 16), (∀ j, buffersBounded (voiceOf u j)) →
      (∀ r ∈ u.fetch.requests, segmentFrames r.segments ≤ 256) →
      (∀ f, u.fetch.flight = some f → segmentFrames f.request.segments ≤ 256) → blocksBounded (Machine.vacate i u) := by
    intro u i hb hr hf
    obtain ⟨hr', hf'⟩ := hcancel u i hr hf
    have hfetch : (Machine.vacate i u).fetch = (cancelRequest i u).fetch := by rw [vacate_poolOnly i u]
    refine ⟨fun j => ?_, by rw [hfetch]; exact hr', by rw [hfetch]; exact hf'⟩
    by_cases hj : j = i
    · rw [hj, voiceOf_vacate_same]
      exact hempty rfl rfl
    · exact hduck (voiceOf_vacate_other hj u) (hb j)
  cases h with
  | alter s vs h hb => exact ⟨hb ⟨hbuf, hreq, hflight⟩, hreq, hflight⟩
  | cancel i s =>
    obtain ⟨hr, hf⟩ := hcancel s i hreq hflight
    exact ⟨hbuf, hr, hf⟩
  | ask r s h =>
    refine ⟨hbuf, fun x hx => ?_, hflight⟩
    rcases List.mem_append.mp hx with hx | hx
    · exact hreq x hx
    · rw [List.mem_singleton.mp hx]
      exact h
  | grant s =>
    unfold Machine.grant
    split
    · exact ⟨hbuf, hreq, hflight⟩
    · next hnone =>
      split
      · exact ⟨hbuf, hreq, hflight⟩
      · next r hr =>
        refine ⟨hbuf, fun x hx => hreq x (List.mem_of_mem_filter hx), fun f hf => ?_⟩
        obtain rfl := Option.some.inj hf
        exact hreq r (firstRequest_mem hr)
  | endRead s => exact ⟨hbuf, hreq, fun f hf => nomatch hf⟩
  | vacate i s h => exact hvacate s i hbuf hreq hflight
  | offer i s h =>
    have hfetch : (offerSlot i s).fetch = s.fetch := by rw [offerSlot_poolOnly i s]
    refine ⟨fun j => ?_, by rw [hfetch]; exact hreq, by rw [hfetch]; exact hflight⟩
    by_cases hj : j = i
    · subst hj
      rcases offerSlot_cases j s with ⟨-, heq⟩ | ⟨e, _, rest, -, -, -, heq⟩ <;> rw [heq]
      · exact hbuf j
      · exact hduck (voiceOf_resumeVoice_same j e _) (hempty rfl rfl)
    · exact hduck (voiceOf_offerSlot_other hj s) (hbuf j)
  | start i cue trim order s h _ _ =>
    have hfetch : (startVoice i cue trim order s).fetch = s.fetch := by
      rw [startVoice_eq, beginVoice_poolOnly i (firedVoice s cue trim order) s]
    refine ⟨fun j => ?_, by rw [hfetch]; exact hreq, by rw [hfetch]; exact hflight⟩
    rw [startVoice_eq]
    by_cases hj : j = i
    · subst hj
      exact hduck ((firedVoice_duckOnly s cue trim order).trans (beginVoice_same j _ s)) (hempty rfl rfl)
    · exact hduck (beginVoice_other hj _ s) (hbuf j)
  | suspend i s h =>
    rw [suspendVoice_eq]
    have hfetch : (pushStack (suspendedEntry s i) s).fetch = s.fetch := by
      unfold pushStack
      split <;> rfl
    refine hvacate _ i (fun j => ?_) (by rw [hfetch]; exact hreq) (by rw [hfetch]; exact hflight)
    rw [voiceOf_pushStack]
    exact hbuf j
  | purge test s => exact ⟨hbuf, hreq, hflight⟩
  | fault f s => exact ⟨hbuf, hreq, hflight⟩
  | record cue w s => exact ⟨hbuf, hreq, hflight⟩

/-- The suspend stack never holds more than 8 entries (R46). -/
theorem PoolEffect.keeps_stackBound {s t : State} (h : PoolEffect s t) (hs : s.pool.stack.length ≤ 8) :
    t.pool.stack.length ≤ 8 := by
  cases h with
  | alter s vs h hb => exact hs
  | cancel i s => exact hs
  | ask r s h => exact hs
  | grant s =>
    unfold Machine.grant
    split
    · exact hs
    · split <;> exact hs
  | endRead s => exact hs
  | vacate i s h => rwa [vacate_stack]
  | offer i s h =>
    rcases offerSlot_cases i s with ⟨-, heq⟩ | ⟨e, above, rest, hstack, -, -, heq⟩ <;> rw [heq]
    · exact Nat.zero_le _
    · rw [resumeVoice_stack, withStack_stack]
      rw [hstack, List.length_append, List.length_cons] at hs
      omega
  | start i cue trim order s h _ _ => rwa [startVoice_eq, beginVoice_stack]
  | suspend i s h =>
    rw [suspendVoice_eq, vacate_stack]
    exact pushStack_bound _ s
  | purge test s => exact (List.length_filter_le _ _).trans hs
  | fault f s => exact hs
  | record cue w s => exact hs

/-- A change of the pool leaves the queues, the flash, the clocks and the outputs. -/
theorem PoolEffect.keeps_basicInv {s t : State} (h : PoolEffect s t) (hs : basicInv s) : basicInv t := by
  obtain ⟨⟨hrx, htx, hstack, hout⟩, hflash, hclock, hrange, hblocks⟩ := hs
  have hstack' := h.keeps_stackBound hstack
  have hblocks' := h.keeps_blocksBounded hblocks
  have hframe : PoolFrame s t := h.frame
  refine ⟨⟨?_, ?_, hstack', ?_⟩, ?_, ?_, ?_, hblocks'⟩
  all_goals rw [hframe]
  · exact hrx
  · exact htx
  · exact hout
  · exact hflash
  · exact hclock
  · exact hrange

theorem saturate_inSampleRange (n : Int) : inSampleRange (saturate n) := by
  unfold inSampleRange saturate
  omega

/-- Blocks depend on the voices and the requests. -/
theorem blocksBounded_congr {s t : State} (hpool : t.pool = s.pool) (hfetch : t.fetch = s.fetch) (hs : blocksBounded s) :
    blocksBounded t := by
  unfold blocksBounded voiceOf at *
  rwa [hpool, hfetch]

/-- A tick of the clocks keeps the station clock true (R118). -/
theorem clockTick_agrees {s : State} (h : clockAgrees s) : clockAgrees (clockTick s) := by
  unfold clockAgrees clockTick at *
  dsimp only
  rw [h]
  have hticks : ticksPerMicro = 240 := rfl
  rw [hticks]
  split
  · next hmod =>
    have : (s.now + 1) / 240 = s.now / 240 + 1 := by omega
    rw [this]
    exact (BitVec.ofNat_add _ _).symm
  · next hmod =>
    have : (s.now + 1) / 240 = s.now / 240 := by omega
    rw [this]

theorem afterReset_basicInv (straps : Straps) {flash : List Host.Cell} (n : Nat) (q : List Instr)
    (h : Memory.wf flash = true) : basicInv (State.afterReset straps flash n q) := by
  refine ⟨⟨Nat.zero_le _, Nat.zero_le _, Nat.zero_le _, Nat.zero_le _⟩, h, by simp [clockAgrees, State.afterReset], fun o => ?_, fun i => ?_, ?_, ?_⟩
  · simp [State.afterReset, Output.reset, inSampleRange]
  · rw [(afterReset_quiet straps flash n q).1]
    exact ⟨Nat.zero_le _, Nat.zero_le _⟩
  · exact fun r hr => absurd hr List.not_mem_nil
  · exact fun f hf => nomatch hf

theorem Effect.keeps_basicInv {s t : State} (h : Effect s t) (hs : basicInv s) : basicInv t := by
  have hall := hs
  obtain ⟨⟨hrx, htx, hstack, hout⟩, hflash, hclock, hrange, hblocks⟩ := hs
  cases h with
  | same h =>
    refine ⟨⟨h.received.trans hrx, h.queued htx, by rw [h.pool]; exact hstack, h.outcomes hout⟩, ?_, ?_, h.outputs hrange,
      blocksBounded_congr h.pool h.fetch hblocks⟩
    · rwa [flashCanonical, h.flash]
    · rwa [clockAgrees, h.clock, h.now]
  | pool h => exact h.keeps_basicInv hall
  | reset straps s => exact afterReset_basicInv straps _ _ hflash
  | load flash s hl =>
    obtain ⟨-, hframe, -, -, houtputs⟩ := imageLoad_keeps flash hl
    refine ⟨⟨?_, hframe.queued htx, ?_, ?_⟩, ?_, ?_, fun o => ?_, blocksBounded_congr hframe.pool hframe.fetch hblocks⟩
    · rwa [hframe.rxq]
    · rwa [hframe.pool]
    · rwa [hframe.outcomes]
    · rw [flashCanonical, hframe.flash]
      exact Memory.ofCells_wf flash
    · rw [clockAgrees, hframe.clock, hframe.now]
      exact hclock
    · rw [(houtputs o).1, (houtputs o).2]
      exact hrange o
  | sample n level s =>
    obtain ⟨hpool, hfetch, -, hfl, houtputs, hnow, hclk, -⟩ := (sampleAt_frame n level s).keeps
    obtain ⟨-, krx, ktx, kout⟩ := sampleAt_bounds n level s
    refine ⟨⟨krx hrx, ktx htx, by rw [hpool]; exact hstack, kout hout⟩, ?_, ?_, ?_, blocksBounded_congr hpool hfetch hblocks⟩
    · rwa [flashCanonical, hfl]
    · rwa [clockAgrees, hclk, hnow]
    · rwa [outputsInRange, houtputs]
  | mix s =>
    refine ⟨⟨hrx, htx, hstack, hout⟩, hflash, hclock, fun o => ?_, hblocks⟩
    rw [mapVec_get]
    exact ⟨saturate_inSampleRange _, (hrange o).1⟩
  | leaveLine s => exact ⟨⟨Nat.zero_le _, Nat.zero_le _, hstack, hout⟩, hflash, hclock, hrange, hblocks⟩
  | duplicate s edge h => exact ⟨⟨hrx, htx, hstack, hout⟩, hflash, hclock, hrange, hblocks⟩
  | arm identity profile edge state held s => exact ⟨⟨hrx, htx, hstack, hout⟩, hflash, hclock, hrange, hblocks⟩
  | claim pair capture s hnot =>
    rw [addClaim_frame]
    exact ⟨⟨hrx, htx, hstack, hout⟩, hflash, hclock, hrange, hblocks⟩
  | falseStart pair s u h =>
    have hu : basicInv u := PoolEffects.keeps PoolEffect.keeps_basicInv h
      ⟨⟨hrx, htx, hstack, hout⟩, hflash, hclock, hrange, hblocks⟩
    exact hu
  | tick s => exact ⟨⟨hrx, htx, hstack, hout⟩, hflash, clockTick_agrees hclock, hrange, hblocks⟩

/-- Settles O56: every step is a run of changes, each of which keeps the bounds, the flash's form, the clock and the range of the
outputs. -/
theorem stepKeepsBasicInvariant : Obligations.StepKeepsBasicInvariant := fun _ _ hs hstep =>
  step_keeps Effect.keeps_basicInv hs hstep

end Sys2Proof.Machine
end

