-- ==== Sys2Proof/Proofs/DriverLaw.lean ====
section
/-!
The law of the driver (O57) and the reset state (O55).
-/
namespace Sys2Proof.Machine
open Relation

/-! ## What the end of an attempt does to the line -/

/-- The line once an attempt has ended. -/
def LineInterface.ended (l : LineInterface) : LineInterface := { l with attempt := none, driver := .released }

theorem endAttempt_line (s : State) : (endAttempt s).line = s.line.ended := rfl

theorem OfferFrame.line {s t : State} (h : OfferFrame s t) : t.line = s.line := by
  obtain ⟨_, _, _, _, _, _, rfl⟩ := h
  rfl

@[simp] theorem offerRounds_line (n : Nat) (s : State) : (offerRounds n s).line = s.line := (offerRounds_frame n s).line

theorem rejoin_line (e : TxEntry) (s : State) : (rejoin e s).line = s.line := by
  unfold rejoin
  split
  · exact (offerJoin_frame _ s).line
  · rfl

theorem postDropped_line (e : TxEntry) (w : Word) (s : State) : (postDropped e w s).line = s.line := by
  unfold postDropped
  split
  · split <;> rfl
  · rfl

theorem endUncounted_line (a : Attempt) (s : State) : (endUncounted a s).line = s.line.ended := by
  unfold endUncounted
  split
  · split
    · rw [offerRounds_line, removeTx_line, endAttempt_line]
    · exact endAttempt_line s
  · exact endAttempt_line s

theorem dropFrame_line (a : Attempt) (e : TxEntry) (s : State) : (dropFrame a e s).line = s.line.ended := by
  rw [dropFrame, offerRounds_line, rejoin_line, postDropped_line, setFault_line, forgetEntry_line, removeTx_line,
    endAttempt_line]

theorem endFailed_line (a : Attempt) (s : State) : (endFailed a s).line = s.line.ended := by
  unfold endFailed
  split
  · split
    · rw [offerRounds_line, removeTx_line, endAttempt_line]
    · split
      · exact dropFrame_line a _ s
      · exact endAttempt_line s
  · exact endAttempt_line s

theorem joinAccepted_line (e : TxEntry) (s : State) : (joinAccepted e s).line = s.line := by
  unfold joinAccepted
  split <;> rfl

theorem endAccepted_line (a : Attempt) (s : State) : (endAccepted a s).line = s.line.ended := by
  unfold endAccepted
  split
  · rw [joinAccepted_line, forgetEntry_line, removeTx_line, endAttempt_line]
  · exact endAttempt_line s

theorem enqueueAccepted_line (chars : List ReadChar) (w : Word) (s : State) : (enqueueAccepted chars w s).line = s.line := by
  unfold enqueueAccepted
  split
  · rfl
  · split
    · split <;> rfl
    · rfl

/-! ## The driver law of one sample -/

/-- The receiver hears no frame: OFF, SYNC or STUCK. -/
def RxState.deaf (r : RxState) : Prop := r = .off ∨ r = .sync ∨ r = .stuck

/-- Nothing is sent and nothing is owed. -/
def LineInterface.sendsNothing (l : LineInterface) : Prop := l.attempt = none ∧ l.vetoOwed = none

/-- The driver law but for the driver, which is chosen at the end of each sample. -/
def driverReasons (s : State) : Prop :=
  (¬ mayDrive s → s.line.sendsNothing) ∧ (s.member.state ≠ .active → s.line.slotVeto = false ∧ s.line.jamLeft = 0) ∧
    (s.line.rx.deaf → s.line.sendsNothing ∧ s.line.jamLeft = 0)

theorem driverLaw.reasons {s : State} (h : driverLaw s) : driverReasons s := by
  obtain ⟨hmay, hactive, -, -, hdeaf⟩ := h
  refine ⟨fun h => (hmay h).2, hactive, fun h => ?_⟩
  obtain ⟨-, hattempt, howed, hjam⟩ := hdeaf h
  exact ⟨⟨hattempt, howed⟩, hjam⟩

/-- A part of a sample gives no reason to drive to a station that has none. -/
structure Restrained (s t : State) : Prop where
  state : t.member.state = s.member.state ∨ (s.member.state = .joining ∧ t.member.state = .active) := by exact .inl rfl
  idle : s.line.sendsNothing → t.line.sendsNothing := by exact fun h => h
  veto : t.member.state ≠ .active → s.line.slotVeto = false → t.line.slotVeto = false := by exact fun _ h => h
  jam : t.member.state ≠ .active → s.line.jamLeft = 0 → t.line.jamLeft = 0 := by exact fun _ h => h
  deaf : t.line.rx.deaf → (s.line.rx.deaf ∧ (s.line.jamLeft = 0 → t.line.jamLeft = 0)) ∨
    (t.line.sendsNothing ∧ t.line.jamLeft = 0) := by exact fun h => .inl ⟨h, id⟩

theorem Restrained.refl (s : State) : Restrained s s := {}

theorem Restrained.trans {s t u : State} (h : Restrained s t) (k : Restrained t u) : Restrained s u where
  state := by
    rcases k.state with k1 | ⟨k1, k2⟩ <;> rcases h.state with h1 | ⟨h1, h2⟩
    · exact .inl (k1.trans h1)
    · exact .inr ⟨h1, k1.trans h2⟩
    · exact .inr ⟨h1 ▸ k1, k2⟩
    · exact .inr ⟨h1, k2⟩
  idle := k.idle ∘ h.idle
  veto hu hs := k.veto hu (h.veto (fun ht => hu (by
    rcases k.state with k1 | ⟨k1, k2⟩
    · exact k1.trans ht
    · exact k2)) hs)
  jam hu hs := k.jam hu (h.jam (fun ht => hu (by
    rcases k.state with k1 | ⟨k1, k2⟩
    · exact k1.trans ht
    · exact k2)) hs)
  deaf hu := by
    rcases k.deaf hu with ⟨ht, hk⟩ | hk
    · rcases h.deaf ht with ⟨hs, hh⟩ | ⟨hnone, hjam⟩
      · exact .inl ⟨hs, hk ∘ hh⟩
      · exact .inr ⟨k.idle hnone, hk hjam⟩
    · exact .inr hk

theorem Restrained.keeps {s t : State} (h : Restrained s t) (hs : driverReasons s) : driverReasons t := by
  obtain ⟨hmay, hactive, hdeaf⟩ := hs
  refine ⟨fun hnot => h.idle (hmay fun hdrive => hnot ?_), fun hnot => ?_, fun ht => ?_⟩
  · rcases h.state with heq | ⟨-, heq⟩
    · rwa [mayDrive, heq]
    · exact .inl heq
  · have hsame : s.member.state ≠ .active := by
      rcases h.state with heq | ⟨-, heq⟩
      · rwa [← heq]
      · exact absurd heq hnot
    obtain ⟨hveto, hjam⟩ := hactive hsame
    exact ⟨h.veto hnot hveto, h.jam hnot hjam⟩
  · rcases h.deaf ht with ⟨hrx, hjam⟩ | hdone
    · obtain ⟨hnone, hzero⟩ := hdeaf hrx
      exact ⟨h.idle hnone, hjam hzero⟩
    · exact hdone

/-- The end of an attempt, in a state whose station state stays or becomes ACTIVE, restrains. -/
theorem Restrained.of_ended {s t : State} (hb : SampleBounds s t) (hl : t.line = s.line.ended) : Restrained s t where
  state := hb.1
  idle h := by
    rw [hl]
    exact ⟨rfl, h.2⟩
  veto _ h := by
    rw [hl]
    exact h
  jam _ h := by
    rw [hl]
    exact h
  deaf h := by
    rw [hl] at h ⊢
    exact .inl ⟨h, id⟩

/-- A sample of the transmitter that goes on with an attempt. -/
theorem Restrained.of_attempt (f : Option Attempt → Option Attempt) (s : State) (h : f none = none) :
    Restrained s (withLine (fun l => { l with attempt := f l.attempt }) s) where
  idle hs := ⟨(congrArg f hs.1).trans h, hs.2⟩

theorem setPhase_restrained (p : AttemptPhase) (s : State) : Restrained s (setPhase p s) :=
  Restrained.of_attempt _ s rfl

theorem goOn_restrained (asSent : Bool) (char : Nat) (p : AttemptPhase) (s : State) : Restrained s (goOn asSent char p s) :=
  Restrained.of_attempt _ s rfl

/-- A bit error makes a station owe a veto only at the end of an attempt of its own. -/
theorem failAttempt_restrained {a b : Attempt} (frame : List Byte) (n : Nat) {s : State} (h : s.line.attempt = some b) :
    Restrained s (failAttempt a frame n s) := by
  have hidle : ¬ s.line.sendsNothing := fun hnone => by
    rw [hnone.1] at h
    contradiction
  unfold failAttempt
  split
  · exact Restrained.trans { idle := fun hnone => absurd hnone hidle }
      (Restrained.of_ended (endFailed_bounds a _) (endFailed_line a _))
  · exact Restrained.of_ended (endFailed_bounds a s) (endFailed_line a s)

theorem attemptSample_restrained {a : Attempt} (level : Bool) {s : State} (h : s.line.attempt = some a) :
    Restrained s (attemptSample a level s).1 := by
  unfold attemptSample
  split
  · exact setPhase_restrained _ s
  · dsimp only
    split
    · exact setPhase_restrained _ s
    · exact Restrained.refl s
  · exact setPhase_restrained _ s
  · split
    · unfold sendSample
      dsimp only
      split
      · split
        · exact goOn_restrained _ _ _ s
        · exact Restrained.of_ended (endUncounted_bounds a s) (endUncounted_line a s)
        · exact failAttempt_restrained _ _ h
      · exact setPhase_restrained _ s
    · exact Restrained.refl s
  · exact setPhase_restrained _ s

theorem sendingSample_restrained (level : Bool) (s : State) : Restrained s (sendingSample level s).1 := by
  unfold sendingSample
  split
  · next a ha => exact attemptSample_restrained level ha
  · exact Restrained.refl s

/-! ## The receiver's part -/

theorem not_deaf_of_mem {r : RxState} (h : r ∈ [.outside, .inBreak, .headerWait, .character, .between, .endMark, .slot]) :
    ¬ r.deaf := by
  rintro (rfl | rfl | rfl) <;> simp at h

/-- A change of the receiver that leaves what is sent and driven, and enters a state that hears, restrains. -/
theorem Restrained.of_receiver (f : LineInterface → LineInterface) (s : State)
    (hsend : s.line.sendsNothing → (f s.line).sendsNothing := by exact fun h => h)
    (hveto : s.line.slotVeto = false → (f s.line).slotVeto = false := by exact fun h => h)
    (hjam : s.line.jamLeft = 0 → (f s.line).jamLeft = 0 := by exact fun h => h)
    (hrx : (f s.line).rx.deaf → s.line.rx.deaf) : Restrained s (withLine f s) where
  idle := hsend
  veto _ := hveto
  jam _ := hjam
  deaf h := .inl ⟨hrx h, hjam⟩

theorem lineStuck_restrained (s : State) : Restrained s (lineStuck s) := by
  have hline : (lineStuck s).line.sendsNothing ∧ (lineStuck s).line.slotVeto = false ∧ (lineStuck s).line.jamLeft = 0 := by
    unfold lineStuck
    dsimp only
    split
    · rw [endUncounted_line]
      exact ⟨⟨rfl, rfl⟩, rfl, rfl⟩
    · next hnone => exact ⟨⟨hnone, rfl⟩, rfl, rfl⟩
  exact
    { state := (lineStuck_bounds s).1
      idle := fun _ => hline.1
      veto := fun _ _ => hline.2.1
      jam := fun _ _ => hline.2.2
      deaf := fun _ => .inr ⟨hline.1, hline.2.2⟩ }

theorem breakDetect_restrained (s : State) : Restrained s (breakDetect s) :=
  Restrained.of_receiver _ s (hsend := fun h => ⟨congrArg (Option.map (Attempt.stamp s.line.lowEdge)) h.1, h.2⟩)
    (hveto := fun _ => rfl) (hrx := fun h => absurd h (not_deaf_of_mem (by simp)))

theorem jamSample_restrained (s : State) : Restrained s (jamSample s) := by
  unfold jamSample
  split
  · exact Restrained.of_receiver _ s (hjam := fun _ => rfl)
      (hrx := fun h => absurd h (not_deaf_of_mem (by simp [LineInterface.toOutside])))
  · have hdown : s.line.jamLeft = 0 → s.line.jamLeft - 1 = 0 := by omega
    exact { jam := fun _ => hdown, deaf := fun h => .inl ⟨h, hdown⟩ }

theorem outsideSample_restrained (level : Bool) (s : State) : Restrained s (outsideSample level s).1 := by
  unfold outsideSample
  split
  · exact {}
  · exact {}

theorem toOutside_restrained (n : Nat) (s : State) : Restrained s (withLine (fun l => LineInterface.toOutside n l) s) :=
  Restrained.of_receiver _ s
    (hrx := fun h => absurd h (not_deaf_of_mem (by simp [LineInterface.toOutside])))

theorem toBetween_restrained (s : State) : Restrained s (toBetween s) :=
  Restrained.of_receiver _ s (hrx := fun h => absurd h (not_deaf_of_mem (by simp)))

theorem gapError_restrained (s : State) : Restrained s (gapError s) := toOutside_restrained s.line.highs s

theorem gapSample_restrained (level : Bool) (h k : Hunt) (s : State) : Restrained s (gapSample level h k s).1 := by
  unfold gapSample
  dsimp only
  split
  · exact gapError_restrained s
  · exact {}

theorem headerUnusable_restrained (s : State) : Restrained s (headerUnusable s) := by
  unfold headerUnusable
  split
  · exact (Restrained.of_receiver _ s (hrx := fun h => h)).trans (toBetween_restrained _)
  · exact toOutside_restrained s.line.highs s

theorem charDone_restrained (c : ReadChar) (s : State) : Restrained s (charDone c s).1 := by
  unfold charDone
  split
  · unfold frameChar
    dsimp only
    split
    · exact headerUnusable_restrained s
    · split
      · exact (Restrained.of_receiver _ s (hrx := fun h => h)).trans (toBetween_restrained _)
      · exact { deaf := fun h => absurd h (not_deaf_of_mem (by simp)) }
  · exact (Restrained.of_receiver _ s (hrx := fun h => h)).trans (toBetween_restrained _)

/-- A jam is for an ACTIVE station (R126). -/
theorem active_of_jamStarts {level : Bool} {s : State} (h : jamStarts level s = true) : s.member.state = .active := by
  simp only [jamStarts, Bool.and_eq_true, decide_eq_true_eq] at h
  exact h.2

theorem frameSample_restrained (level : Bool) (s : State) : Restrained s (frameSample level s).1 := by
  unfold frameSample
  split
  · next hjam =>
    have hactive := active_of_jamStarts hjam
    exact { veto := fun h => absurd hactive h, jam := fun h => absurd hactive h
            deaf := fun h => absurd h (not_deaf_of_mem (by simp [jam])) }
  · have hhunt : Restrained s (withLine (fun l => { l with hunt := (huntSample level s.line.hunt).1 }) s) :=
      Restrained.of_receiver _ s (hrx := fun h => h)
    dsimp only
    split
    · exact hhunt.trans ({ deaf := fun h => absurd h (not_deaf_of_mem (by simp)) })
    · exact hhunt.trans (charDone_restrained _ _)
    · split
      · exact hhunt
      · exact hhunt.trans (gapSample_restrained _ _ _ _)

/-- A veto is for an ACTIVE station (R127). -/
theorem vetoSlotStart_restrained (s : State) : Restrained s (vetoSlotStart s) where
  veto h _ := by
    have hnot : s.member.state ≠ .active := h
    simp [vetoSlotStart, vetoes, hnot]
  deaf h := absurd h (not_deaf_of_mem (by simp [vetoSlotStart]))

theorem endMarkSample_restrained (s : State) : Restrained s (endMarkSample s).1 := by
  unfold endMarkSample
  split
  · exact {}
  · exact vetoSlotStart_restrained s

theorem leaveSlot_restrained (s : State) : Restrained s (leaveSlot s) :=
  Restrained.of_receiver _ s (hveto := fun _ => rfl)
    (hrx := fun h => absurd h (not_deaf_of_mem (by simp [LineInterface.toOutside])))

/-- What leaves the line as it is and lets the station state stay or become ACTIVE restrains. -/
theorem Restrained.of_line {s t : State} (hb : SampleBounds s t) (hl : t.line = s.line) : Restrained s t where
  state := hb.1
  idle := by
    rw [hl]
    exact id
  veto _ := by
    rw [hl]
    exact id
  jam _ := by
    rw [hl]
    exact id
  deaf := by
    rw [hl]
    exact fun h => .inl ⟨h, id⟩

theorem frameAccepted_restrained (s : State) : Restrained s (frameAccepted s) := by
  unfold frameAccepted
  split
  · next a _ =>
    exact (leaveSlot_restrained s).trans ((Restrained.of_ended (endAccepted_bounds a _) (endAccepted_line a _)).trans
      ((Restrained.of_line (enqueueAccepted_bounds _ _ _) (enqueueAccepted_line _ _ _)).trans
        (Restrained.of_line (offerRounds_sampleBounds 1 _) (offerRounds_line 1 _))))
  · exact (leaveSlot_restrained s).trans (Restrained.of_line (enqueueAccepted_bounds _ _ _) (enqueueAccepted_line _ _ _))

theorem frameVetoed_restrained (s : State) : Restrained s (frameVetoed s).1 := by
  unfold frameVetoed
  split
  · next a _ => exact (leaveSlot_restrained s).trans (Restrained.of_ended (endFailed_bounds a _) (endFailed_line a _))
  · exact leaveSlot_restrained s

theorem slotSample_restrained (level : Bool) (s : State) : Restrained s (slotSample level s).1 := by
  unfold slotSample
  extract_lets n first second
  split
  · exact {}
  · split
    · exact frameAccepted_restrained s
    · exact frameVetoed_restrained s

theorem idleLine_restrained (s : State) : Restrained s (idleLine s) :=
  Restrained.of_receiver _ s
    (hrx := fun h => absurd h (not_deaf_of_mem (by simp [LineInterface.toOutside])))

theorem stateSample_restrained (level : Bool) (s : State) : Restrained s (stateSample level s).1 := by
  unfold stateSample
  split
  · exact Restrained.refl s
  · split
    · exact idleLine_restrained s
    · exact Restrained.refl s
  · split
    · exact idleLine_restrained s
    · exact Restrained.refl s
  · exact outsideSample_restrained level s
  · dsimp only
    split
    · exact { deaf := fun h => absurd h (not_deaf_of_mem (by simp)) }
    · exact Restrained.refl s
  · exact frameSample_restrained level s
  · exact frameSample_restrained level s
  · exact frameSample_restrained level s
  · exact endMarkSample_restrained s
  · exact slotSample_restrained level s

theorem receiverSample_restrained (level : Bool) (s : State) : Restrained s (receiverSample level s).1 := by
  unfold receiverSample
  split
  · exact lineStuck_restrained s
  · split
    · exact breakDetect_restrained s
    · split
      · exact jamSample_restrained s
      · exact stateSample_restrained level s

theorem ownSlotEnd_restrained (s : State) : Restrained s (ownSlotEnd s).1 := by
  unfold ownSlotEnd
  split
  · exact Restrained.refl s
  · next a _ =>
    split
    · split
      · exact Restrained.refl s
      · split
        · exact (Restrained.of_ended (endAccepted_bounds a s) (endAccepted_line a s)).trans
            (Restrained.of_line (offerRounds_sampleBounds 1 _) (offerRounds_line 1 _))
        · exact Restrained.of_ended (endFailed_bounds a s) (endFailed_line a s)
    · exact Restrained.refl s

theorem pulse_restrained (clk : Word) (level : Bool) (s : State) :
    Restrained s (withLine (fun l => (l.pulse clk level).owedSample) s) := by
  have hpulse : ∀ l : LineInterface, (l.pulse clk level).attempt = l.attempt ∧ (l.pulse clk level).vetoOwed = l.vetoOwed ∧
      (l.pulse clk level).slotVeto = l.slotVeto ∧ (l.pulse clk level).jamLeft = l.jamLeft ∧ (l.pulse clk level).rx = l.rx := by
    intro l
    unfold LineInterface.pulse
    split <;> exact ⟨rfl, rfl, rfl, rfl, rfl⟩
  obtain ⟨hattempt, howed, hveto, hjam, hrx⟩ := hpulse s.line
  refine Restrained.of_receiver _ s (hsend := fun h => ⟨hattempt.trans h.1, ?_⟩) (hveto := hveto.trans) (hjam := hjam.trans)
    (hrx := fun h => hrx ▸ h)
  simp only [LineInterface.owedSample, howed, h.2]

/-! ## The driver -/

/-- The driver is chosen from what the sample leaves, so the law holds after it (R114). -/
theorem drive_driverLaw {s : State} (h : driverReasons s) : driverLaw (drive s) := by
  obtain ⟨hmay, hactive, hdeaf⟩ := h
  have howed : s.line.sendsNothing → s.line.drivesOwed = false ∧ drivesAttempt s = false := fun hnone => by
    rw [LineInterface.drivesOwed, hnone.2, drivesAttempt, hnone.1]
    exact ⟨rfl, rfl⟩
  have hdriver : (drive s).line.driver = if 0 < s.line.jamLeft then .jam
      else if (decide (s.line.rx = .slot) && s.line.slotVeto) || s.line.drivesOwed then .veto
      else if drivesAttempt s then .attempt else .released := rfl
  refine ⟨fun hnot => ⟨?_, hmay hnot⟩, hactive, fun hveto => ?_, fun hjam => ?_, fun hrx => ?_⟩
  · obtain ⟨ho, ha⟩ := howed (hmay hnot)
    obtain ⟨hv, hj⟩ := hactive fun heq => hnot (.inl heq)
    simp [hdriver, hj, hv, ho, ha]
  · rw [hdriver] at hveto
    split at hveto
    · contradiction
    · split at hveto
      · next hwhy => simpa [LineInterface.drivesOwed, drive] using hwhy
      · split at hveto <;> contradiction
  · rw [hdriver] at hjam
    split at hjam
    · next hleft => exact hleft
    · split at hjam
      · contradiction
      · split at hjam <;> contradiction
  · obtain ⟨hnone, hj⟩ := hdeaf hrx
    obtain ⟨ho, ha⟩ := howed hnone
    have hslot : s.line.rx ≠ .slot := fun heq => by
      rcases hrx with hrx | hrx | hrx <;> simp [drive, withLine, heq] at hrx
    refine ⟨?_, hnone.1, hnone.2, hj⟩
    simp [hdriver, hj, hslot, ho, ha]

theorem followSample_driverLaw (clk : Word) (level : Bool) {s : State} (h : driverReasons s) :
    driverLaw (followSample clk level s).1 :=
  drive_driverLaw (((pulse_restrained clk level s).trans ((sendingSample_restrained level _).trans
    ((receiverSample_restrained level _).trans (ownSlotEnd_restrained _)))).keeps h)

/-- An attempt begins only OUTSIDE, at a station that may drive. -/
theorem beginSample_driverLaw {s : State} (h : driverLaw s) : driverLaw (beginSample s).1 := by
  unfold beginSample
  split
  · exact h
  · next e he =>
    obtain ⟨-, hmay, hidle, -, -, -⟩ := nextAttempt_some he
    obtain ⟨-, hactive, -, -, -⟩ := h
    simp only [maySend, Bool.or_eq_true, Bool.and_eq_true, decide_eq_true_eq] at hmay
    simp only [idleHolds, Bool.and_eq_true, decide_eq_true_eq] at hidle
    obtain ⟨⟨⟨hrx, -⟩, -⟩, -⟩ := hidle
    refine ⟨fun hnot => absurd (hmay.imp_right And.left) hnot, hactive, fun hv => ?_, fun hj => ?_, fun hd => ?_⟩
    · contradiction
    · contradiction
    · exact absurd hd (not_deaf_of_mem (by simp [hrx]))

theorem lineSample_driverLaw (clk : Word) (level : Bool) {s : State} (h : driverLaw s) :
    driverLaw (lineSample clk level s).1 := by
  have hfollow := followSample_driverLaw clk level h.reasons
  unfold lineSample
  split
  · exact h
  · dsimp only
    split
    · exact beginSample_driverLaw hfollow
    · exact hfollow

/-! ## Every step -/

theorem driverLaw_congr {s t : State} (hl : t.line = s.line) (hm : t.member.state = s.member.state) (h : driverLaw s) :
    driverLaw t := by
  unfold driverLaw mayDrive at *
  rwa [hl, hm]

/-- A line on which nothing is driven, sent or owed satisfies the law in every station state. -/
theorem driverLaw_of_silent {s : State} (hd : s.line.driver = .released) (hs : s.line.sendsNothing)
    (hv : s.line.slotVeto = false) (hj : s.line.jamLeft = 0) : driverLaw s := by
  refine ⟨fun _ => ⟨hd, hs⟩, fun _ => ⟨hv, hj⟩, fun h => ?_, fun h => ?_, fun _ => ⟨hd, hs.1, hs.2, hj⟩⟩
  · rw [hd] at h
    contradiction
  · rw [hd] at h
    contradiction

theorem Effect.keeps_driverLaw {s t : State} (h : Effect s t) (hs : driverLaw s) : driverLaw t := by
  cases h with
  | same h => exact driverLaw_congr h.line h.state hs
  | pool h =>
    have hframe := h.frame
    exact driverLaw_congr (by rw [hframe]) (by rw [hframe]) hs
  | reset straps s => exact driverLaw_of_silent rfl ⟨rfl, rfl⟩ rfl rfl
  | load flash s hl =>
    obtain ⟨hmay, hactive, -⟩ := hs
    obtain ⟨hdriver, hnone⟩ := hmay (by
      rw [mayDrive, hl]
      simp)
    obtain ⟨hveto, hjam⟩ := hactive (by
      rw [hl]
      simp)
    obtain ⟨-, -, hline, -⟩ := imageLoad_keeps flash hl
    rcases hline with hline | hline
    · exact driverLaw_of_silent (by rwa [hline]) (by rwa [hline]) (by rwa [hline]) (by rwa [hline])
    · exact driverLaw_of_silent (by rwa [hline]) (by rwa [hline]) (by rwa [hline]) (by rwa [hline])
  | sample n level s => exact lineSample_driverLaw _ level (s := { s with now := momentBefore s n }) hs
  | mix s => exact hs
  | leaveLine s => exact driverLaw_of_silent rfl ⟨rfl, rfl⟩ rfl rfl
  | duplicate s edge hl =>
    exact driverLaw_of_silent (by rw [hl]; rfl) (by rw [hl]; exact ⟨rfl, rfl⟩) (by rw [hl]; rfl) (by rw [hl]; rfl)
  | arm identity profile edge state held s => exact hs
  | claim pair capture s hnot => exact driverLaw_congr (by rw [addClaim_frame]; rfl) (by rw [addClaim_frame]; rfl) hs
  | falseStart pair s u h =>
    have hframe := PoolEffects.frame h
    have hu : driverLaw u := driverLaw_congr (by rw [hframe]; rfl) (by rw [hframe]; rfl) hs
    exact hu
  | tick s => exact hs

/-- Settles O57: no part of a sample gives a station without leave to drive a reason to, and the driver is chosen from those
reasons at the end of every sample. -/
theorem stepKeepsDriverLaw : Obligations.StepKeepsDriverLaw := fun _ _ hs hstep =>
  step_keeps Effect.keeps_driverLaw hs hstep

/-- Settles O55: the reset state drives nothing, holds no voice and no claim. -/
theorem resetStateIsBasic : Obligations.ResetStateIsBasic := by
  obtain ⟨hv, hstack, -⟩ := afterReset_quiet Straps.reset [] 0 []
  exact ⟨afterReset_basicInv _ _ _ rfl, driverLaw_of_silent rfl ⟨rfl, rfl⟩ rfl rfl, afterReset_loadingQuiet _ _ _ _,
    afterReset_duckLaw _ _ _ _, chokeLaw_of_quiet (fun i => by rw [State.reset, hv]; rfl) hstack, afterReset_claimsInv _ _ _ _⟩

end Sys2Proof.Machine
end

