-- ==== Sys2Proof/Proofs/Basics.lean ====
section
/-!
The queue, RESET, the head of the receive queue, the records that grow old, and the events that are due (O1 to O4, O19, O27).
-/
namespace Sys2Proof.Machine
open Relation

/-! ## The queue -/

/-- Settles O1. A step takes the front command by definition. -/
theorem stepRunsFrontCommand : Obligations.StepRunsFrontCommand := fun _ _ _ => rfl

theorem imageLoad_pending (flash : List Host.Cell) (s : State) : (imageLoad flash s).pending = s.pending := by
  unfold imageLoad
  split
  · dsimp only
    split
    · exact (setFault_pending _ _).trans rfl
    · have hfill : ∀ (i : LoadedImage) (u : State), (fillTables i u).pending = u.pending := by
        intro i u
        unfold fillTables updatePeer
        dsimp only
        split <;> rfl
      unfold enterLine
      dsimp only
      split
      · exact hfill _ _
      · obtain ⟨_, _, _, _, _, _, hj⟩ := offerJoin_frame false
          { beginReceiving (fillTables ‹_› { s with flash := Memory.ofCells flash }) with
            member := { (beginReceiving (fillTables ‹_› { s with flash := Memory.ofCells flash })).member with
              state := .joining } }
        rw [hj]
        exact hfill _ _
  · rfl

/-- A change keeps the queue. -/
theorem Effect.pending {s t : State} (h : Effect s t) : t.pending = s.pending := by
  cases h with
  | same h => exact h.queue
  | pool h => rw [h.frame]
  | reset straps s => rfl
  | load flash s hl => exact imageLoad_pending flash s
  | sample n level s =>
    obtain ⟨_, _, _, _, _, _, _, _, _, _, _, _, h⟩ := sampleAt_frame n level s
    rw [h]
  | mix s => rfl
  | leaveLine s => rfl
  | duplicate s edge h => rfl
  | arm identity profile edge state held s => rfl
  | claim pair capture s h => rw [addClaim_frame]; rfl
  | falseStart pair s u h =>
    have hu : u.pending = s.pending := by rw [PoolEffects.frame h]; rfl
    exact hu
  | tick s => rfl

theorem Effects.pending {s t : State} (h : Effects s t) : t.pending = s.pending := by
  induction h with
  | refl => rfl
  | tail _ hone ih => exact hone.pending.trans ih

/-- Settles O3: every command is a run of changes, and no change touches the queue. -/
theorem execAnswersNextAndKeepsQueue : Obligations.ExecAnswersNextAndKeepsQueue := fun c s =>
  let ⟨t, hexec, heff⟩ := exec_effects c s
  ⟨t, hexec, Effects.pending heff⟩

/-! ## RESET -/

/-- The peer table of a reset: the own entry is SELF, and every other is ABSENT. -/
theorem resetPeers_get (stn : BitVec 5) (n : Fin 32) : (Membership.resetPeers stn)[n] =
    { state := if n.val = stn.toNat then .self else .absent, identity := 0, signature := 0, lastHeard := none } := by
  unfold Membership.resetPeers
  rw [Fin.getElem_fin, Vector.getElem_set]
  by_cases h : n.val = stn.toNat
  · rw [if_pos h.symm, if_pos h]
    rfl
  · rw [if_neg (Ne.symm h), if_neg h, Vector.getElem_replicate]
    rfl

/-- Settles O4: each value read off the reset state. -/
theorem resetLeavesResetValues : Obligations.ResetLeavesResetValues := by
  intro straps s
  refine ⟨resetStation straps s, rfl, ?_⟩
  obtain ⟨hv, hstack, hclaims⟩ := afterReset_quiet straps s.flash s.freeCount s.pending
  have hvoice : ∀ i, voiceOf (resetStation straps s) i = Voice.reset := hv
  have hinput : ∀ n i, inputMapCue (resetStation straps s) n i = none := fun n i => by
    unfold inputMapCue
    split <;> rfl
  refine ⟨rfl, rfl, rfl, rfl, rfl, rfl, rfl, rfl, resetPeers_get straps.stn, fun _ => ⟨rfl, rfl⟩,
    fun cue => ⟨rfl, by simp [knownCue, cueRecord, resetStation, State.afterReset, ShowTables.reset, CueRecord.noCue]⟩, rfl,
    rfl, hinput, fun _ => ⟨rfl, rfl⟩, fun _ _ => rfl, rfl, rfl, rfl, rfl, rfl, rfl, rfl, rfl, rfl, rfl, rfl, fun _ => rfl, ?_,
    rfl, fun g => ?_, rfl, rfl, fun o => ?_, rfl, rfl, rfl, fun i => ?_, rfl, rfl, rfl, rfl, rfl, rfl, rfl, rfl, rfl, rfl, rfl,
    fun i => ?_, fun c => ?_, rfl, fun n => ?_, rfl⟩
  · intro i
    rw [hvoice]
    exact ⟨rfl, rfl, rfl, rfl, rfl, rfl, rfl, rfl, rfl, rfl, rfl, rfl, rfl, rfl, rfl, rfl, rfl, rfl, rfl, rfl⟩
  · simp [resetStation, State.afterReset, VoicePool.reset]
  · simp [resetStation, State.afterReset, Output.reset]
  · simp [resetStation, State.afterReset, Lockout.reset, Debounce.reset]
  · simp [resetStation, State.afterReset, Lockout.reset, Round.reset]
  · simp [resetStation, State.afterReset, SegmentClocks.reset, ClockRecord.reset, clockOf]
  · cases n with
    | zero => rfl
    | succ n => rfl

/-! ## Records that grow old (R3) -/

theorem find_filter_other {l : List (Nat × Word)} {cue d : Nat} (h : d ≠ cue) :
    (l.filter fun r => r.1 != cue).find? (fun r => r.1 == d) = l.find? fun r => r.1 == d := by
  rw [List.find?_filter]
  congr 1
  funext r
  by_cases hr : r.1 = d
  · simp [hr, h]
  · simp [hr]

theorem lastAccepted_clear_same (cue : Nat) (s : State) : lastAccepted (clearLastAccepted cue s) cue = none := by
  simp [lastAccepted, clearLastAccepted]

theorem lastAccepted_clear_other {cue d : Nat} (h : d ≠ cue) (s : State) :
    lastAccepted (clearLastAccepted cue s) d = lastAccepted s d :=
  congrArg (Option.map Prod.snd) (find_filter_other h)

/-- Settles O27. -/
theorem lastAcceptedExpires : Obligations.LastAcceptedExpires := by
  intro cue w s hw
  have hexec : exec (.lastAcceptedExpiry cue) s =
      .next (if recordOld s w then clearLastAccepted cue.toNat s else s) := by
    show Host.Outcome.next (lastAcceptedExpiry cue.toNat s) = _
    rw [lastAcceptedExpiry, hw]
  rw [hexec]
  refine ⟨fun hold => ⟨clearLastAccepted cue.toNat s, ?_, lastAccepted_clear_same _ s,
    fun d hd => lastAccepted_clear_other hd s, rfl, rfl⟩, fun hyoung => ?_⟩
  · rw [if_pos (show recordOld s w = true from decide_eq_true hold)]
  · rw [if_neg (by simpa [recordOld] using hyoung)]

/-! ## The head of the receive queue (R145, R146) -/

/-- What removes an entry in place of its taking (R146). -/
theorem removedEntry_iff {s : State} {e : RxEntry} : removedEntry s e = true ↔
    (e.joining = true ∧ kindOf e.frame ≠ some .join) ∨
      (kindOf e.frame ≠ some .join ∧ ∃ p, peerOf s (senderOf e.frame) = some p ∧ p.state = .foreign) ∨
      31 < (senderOf e.frame).toNat := by
  unfold removedEntry
  dsimp only
  cases peerOf s (senderOf e.frame) with
  | none => simp
  | some p => simp [or_assoc, and_comm]

theorem removedEntry_of_standsAtHead {s : State} {e : RxEntry} {f : LineFrame} (h : standsAtHead s e f) :
    removedEntry s e = false := by
  obtain ⟨-, -, -, hjoining, ⟨p, hp, hstate⟩, -⟩ := h
  rw [Bool.eq_false_iff, ne_eq, removedEntry_iff]
  have hlt : (senderOf e.frame).toNat < 32 := by
    unfold peerOf at hp
    split at hp
    · assumption
    · contradiction
  rintro (⟨hj, -⟩ | ⟨-, q, hq, hforeign⟩ | hbig)
  · rw [hjoining] at hj
    contradiction
  · obtain rfl : p = q := Option.some.inj (hp.symm.trans hq)
    exact hstate hforeign
  · omega

/-- A frame that stands at the head is its owner's to take. -/
theorem takable_of_standsAtHead {s : State} {e : RxEntry} {f : LineFrame} (h : standsAtHead s e f) :
    takable s = some (e, f) := by
  have hremoved := removedEntry_of_standsAtHead h
  obtain ⟨hhead, hparse, hready, -, -, hstate⟩ := h
  have hready' : headReady s = true := decide_eq_true hready
  have htakes : takesFrames s = true := by
    rcases hstate with hstate | hstate <;> simp [takesFrames, hstate]
  simp [takable, rxHead, hhead, hparse, hready', hremoved, htakes]

theorem updatePeer_peers (n : Byte) (f : Peer → Peer) (s : State) (k : Fin 32) :
    (updatePeer n f s).member.peers[k] = if k.val = n.toNat then f s.member.peers[k] else s.member.peers[k] := by
  unfold updatePeer
  split
  · next h =>
    dsimp only
    rw [Fin.getElem_fin, Vector.getElem_set]
    by_cases hk : k.val = n.toNat
    · simp [hk]
    · rw [if_neg (Ne.symm hk), if_neg hk]
      rfl
  · next h =>
    rw [if_neg]
    have := k.isLt
    omega

theorem updatePeer_eq (n : Byte) (f : Peer → Peer) (s : State) :
    updatePeer n f s = { s with member := { s.member with peers := (updatePeer n f s).member.peers } } := by
  unfold updatePeer
  split <;> rfl

theorem hasLeft_leaveHead (e : RxEntry) (s : State) : hasLeft s e (leaveHead e s) :=
  ⟨updatePeer_eq _ _ _, fun n => updatePeer_peers _ _ _ n⟩

/-- Settles O19. -/
theorem removalHasNoEffect : Obligations.RemovalHasNoEffect := by
  intro e s hhead hready hstate hwhy
  have hremoved : removedEntry s e = true := removedEntry_iff.mpr hwhy
  have hready' : headReady s = true := decide_eq_true hready
  have hreceiving : receiving s = true := by
    rcases hstate with hstate | hstate | hstate <;> simp [receiving, hstate]
  refine ⟨leaveHead e s, ?_, hasLeft_leaveHead e s⟩
  show Host.Outcome.next (removeWithoutEffect s) = _
  simp [removeWithoutEffect, rxHead, hhead, hready', hreceiving, hremoved]

/-! ## The events that are due -/

/-- A free order is an order of the list (entry 8). -/
theorem freeOrder_perm {α : Type} (n : Nat) : ∀ l : List α, (freeOrder n l).Perm l
  | [] => List.Perm.refl _
  | x :: rest => by
    have ih := freeOrder_perm n rest
    unfold freeOrder
    split
    · next heq =>
      rw [heq] at ih
      rw [ih.nil_eq]
    · next y ys heq =>
      rw [heq] at ih
      refine List.perm_middle.trans (List.Perm.cons x ?_)
      rwa [List.take_append_drop]

theorem mem_dueIf {c d : Instr} {due : Bool} : c ∈ dueIf due d ↔ due = true ∧ c = d := by
  cases due
  · simp [dueIf]
  · simp [dueIf]

theorem mem_dueExpiries {c : Instr} {s : State} : c ∈ dueExpiries s ↔
    ((s.lockout.round.state = .holdoff ∧ (roundProfile s).holdoff * 1000 ≤ roundTime s) ∧ c = .holdoffExpiry) ∨
      ((s.lockout.round.state = .isOpen ∧ (roundProfile s).window * 1000 ≤ roundTime s) ∧ c = .windowExpiry) ∨
      ((s.lockout.round.state = .settling ∧ s.lockout.round.settled = false ∧
        ((roundProfile s).window + (roundProfile s).settle) * 1000 ≤ roundTime s) ∧ c = .settleExpiry) := by
  simp only [dueExpiries, List.mem_append, mem_dueIf, Bool.and_eq_true, decide_eq_true_eq, Bool.not_eq_true', or_assoc,
    and_assoc]
  rfl

theorem mem_dueDecrements {c : Instr} {s : State} : c ∈ dueDecrements s ↔ ∃ k : Fin 4, ((clockOf s k).state = .running ∧
    ∃ phase, (clockOf s k).phase = some phase ∧ (s.stationClock - phase).toNat < 2147483648) ∧ c = .clockDecrement k := by
  have hdue : ∀ k, decrementDue s k = true ↔ (clockOf s k).state = .running ∧
      ∃ phase, (clockOf s k).phase = some phase ∧ (s.stationClock - phase).toNat < 2147483648 := by
    intro k
    rw [decrementDue, Bool.and_eq_true, decide_eq_true_eq]
    cases (clockOf s k).phase <;> simp
  have hfour : ∀ k : Fin 4, k ∈ four := by decide
  simp only [dueDecrements, List.mem_flatMap, mem_dueIf, hdue, hfour, true_and]

theorem mem_dueFrameClock {c : Instr} {s : State} : c ∈ dueFrameClock s ↔
    ((s.wclk.mode ≠ .locked ∧ 5000 ≤ s.now - s.wclk.reference) ∧ c = .frameClock) ∨
      ((s.wclk.mode = .locked ∧ 6250 ≤ s.now - s.wclk.reference) ∧ c = .substituteFrameClock) := by
  simp only [dueFrameClock, List.mem_append, mem_dueIf, timerDue, substituteDue, Bool.and_eq_true, decide_eq_true_eq]
  rfl

theorem mem_dueCompletion {c : Instr} {s : State} : c ∈ dueCompletion s ↔
    ((∃ f, s.fetch.flight = some f ∧ f.owned = true ∧ f.doneAt ≤ s.now) ∧ c = .blockCompletion) ∨
      ((∃ f, s.fetch.flight = some f ∧ f.owned = false ∧ f.doneAt ≤ s.now) ∧ c = .discardedCompletion) := by
  unfold dueCompletion completedRead
  cases s.fetch.flight with
  | none => simp
  | some f =>
    by_cases hdone : f.doneAt ≤ s.now
    · cases hf : f.owned
      · simp [hdone, hf]
      · simp [hdone, hf]
    · simp [hdone]

theorem mem_dueRecords {c : Instr} {s : State} : c ∈ dueRecords s ↔ ∃ x ∈ s.dispatch.lastAccepted,
    c = .lastAcceptedExpiry (BitVec.ofNat 10 x.1) ∧ 2147483648 ≤ (s.stationClock - x.2).toNat := by
  simp only [dueRecords, List.mem_map, List.mem_filter, recordOld, decide_eq_true_eq]
  constructor
  · rintro ⟨x, ⟨hx, hold⟩, rfl⟩
    exact ⟨x, hx, rfl, hold⟩
  · rintro ⟨x, hx, rfl, hold⟩
    exact ⟨x, ⟨hx, hold⟩, rfl⟩

/-- What the taking of a head can be. -/
def takings : List Instr := [.removeWithoutEffect, .takeFire, .takeClockFire, .takeRelease, .takeHush, .takeClock, .takeArm,
  .takeClaim, .takeClose, .takeJoin]

theorem takingOf_mem (f : LineFrame) : takingOf f ∈ takings := by
  cases f with
  | fire cue origin tag trim =>
    rw [takingOf]
    split
    · decide
    · decide
  | _ => simp [takingOf, takings]

theorem dueTaking_mem {c : Instr} {s : State} (h : c ∈ dueTaking s) : c ∈ takings := by
  unfold dueTaking at h
  split at h
  · split at h
    · contradiction
    · split at h
      · obtain rfl := List.mem_singleton.mp h
        decide
      · split at h
        · obtain rfl := List.mem_singleton.mp h
          exact takingOf_mem _
        · contradiction
  · contradiction

/-- The reports that can be due. -/
def reports : List Instr := [.reportFault, .reportVerdict, .reportCue]

theorem dueReport_mem {c : Instr} {s : State} (h : c ∈ dueReport s) : c ∈ reports := by
  unfold dueReport at h
  split at h
  · split at h
    · obtain rfl := List.mem_singleton.mp h
      decide
    · obtain rfl := List.mem_singleton.mp h
      decide
    · obtain rfl := List.mem_singleton.mp h
      decide
    · contradiction
  · contradiction

/-- The FAULT report comes first, so it is due when it is pending and enabled (R178). -/
theorem reportFault_mem_dueReport {s : State} : .reportFault ∈ dueReport s ↔ s.panel.tx = .idle ∧ s.panel.answer = none ∧
    s.panel.faultPending = true ∧ s.panel.mask.getLsbD 0 = true := by
  have hmay : mayReport s = true ↔ s.panel.tx = .idle ∧ s.panel.answer = none := by
    simp [mayReport]
  have hnext : nextReport s = some .fault ↔ s.panel.faultPending = true ∧ s.panel.mask.getLsbD 0 = true := by
    have hbit : (reportPending s .fault && s.panel.mask.getLsbD ReportKind.fault.bit) =
        (s.panel.faultPending && s.panel.mask.getLsbD 0) := rfl
    unfold nextReport
    rw [List.find?_cons, hbit]
    cases hb : s.panel.faultPending && s.panel.mask.getLsbD 0 with
    | true => simpa using hb
    | false =>
      have hno : ¬ (s.panel.faultPending = true ∧ s.panel.mask.getLsbD 0 = true) := by simpa using hb
      refine ⟨fun h => ?_, fun h => absurd h hno⟩
      have := List.mem_of_find?_eq_some h
      simp at this
  rw [← and_assoc, ← hmay, ← hnext]
  unfold dueReport
  split
  · next hm =>
    split
    · next h => simp [hm, h]
    · next h => simp [h]
    · next h => simp [h]
    · next h => simp [h]
  · next hm => simp [hm]

/-- Which of the lists of due events holds an event. -/
theorem mem_dueEvents {c : Instr} {s : State} : c ∈ dueEvents s ↔ c ∈ dueExpiries s ∨ c ∈ dueDecrements s ∨
    c ∈ dueFrameClock s ∨ c ∈ dueCompletion s ∨ c ∈ dueRecords s ∨ c ∈ dueTaking s ∨ c ∈ dueReport s := by
  simp only [dueEvents, List.mem_append, or_assoc]

/-- An event of the block that is no taking and no report is due for its own reason alone. -/
theorem mem_dueEvents_of_other {c : Instr} {s : State} (htaking : c ∉ takings) (hreport : c ∉ reports) : c ∈ dueEvents s ↔
    c ∈ dueExpiries s ∨ c ∈ dueDecrements s ∨ c ∈ dueFrameClock s ∨ c ∈ dueCompletion s ∨ c ∈ dueRecords s := by
  have h1 : c ∉ dueTaking s := fun h => htaking (dueTaking_mem h)
  have h2 : c ∉ dueReport s := fun h => hreport (dueReport_mem h)
  simp [mem_dueEvents, h1, h2]

theorem queueDue_pending {s : State} (h : s.pending = []) : (queueDue s).pending.Perm (dueEvents s) := by
  unfold queueDue
  split
  · next heq => rw [heq, h]
  · next c heq => rw [heq, h, List.nil_append]
  · next heq =>
    show (s.pending ++ freeOrder s.freeCount (dueEvents s)).Perm _
    rw [h, List.nil_append]
    exact freeOrder_perm _ _

theorem dueEvents_congr {s t : State} (h : queueOnly s t) : dueEvents t = dueEvents s := by
  rw [h]
  rfl

theorem roundTick_eq (s : State) : roundTick s = { s with lockout := { s.lockout with round := { s.lockout.round with
    timeHeld := s.lockout.round.timeHeld ||
      decide (16777215 ≤ (s.stationClock - s.lockout.round.reference).toNat) } } } := by
  unfold roundTick
  split
  · next h =>
    have hheld : decide (16777215 ≤ (s.stationClock - s.lockout.round.reference).toNat) = true := decide_eq_true h
    rw [hheld, Bool.or_true]
    rfl
  · next h =>
    have hheld : decide (16777215 ≤ (s.stationClock - s.lockout.round.reference).toNat) = false := decide_eq_false h
    rw [hheld, Bool.or_false]

/-- A head that stood for 2 ms is taken by its owner (R145). -/
theorem takingOf_mem_dueTaking {s : State} {e : RxEntry} {f : LineFrame} (h : standsAtHead s e f)
    (hlong : s.rxq.headSince + 480000 ≤ s.now) : takingOf f ∈ dueTaking s := by
  have hremoved : removedEntry s e = false := removedEntry_of_standsAtHead h
  unfold dueTaking
  rw [if_pos (show s.rxq.headSince + 2000 * ticksPerMicro ≤ s.now from hlong), show rxHead s = some e from h.1]
  simp [hremoved, takable_of_standsAtHead h]

/-- Settles O2. -/
theorem idleStepIsOneTick : Obligations.IdleStepIsOneTick := by
  intro s hnone
  have hround := roundTick_eq (clockTick s)
  have hqueue : queueOnly (roundTick (clockTick s)) (tick s) := queueDue_queueOnly _
  have hstep : step s = .next (tick s) := by
    rw [step, hnone]
    rfl
  have hpending : (tick s).pending.Perm (dueEvents (tick s)) := by
    rw [dueEvents_congr hqueue]
    refine queueDue_pending ?_
    rw [hround]
    exact hnone
  have hmem : ∀ c, c ∈ (tick s).pending ↔ c ∈ dueEvents (tick s) := fun c => hpending.mem_iff
  rw [hround] at hqueue
  refine ⟨tick s, hstep, ?_⟩
  clear hstep hround
  generalize tick s = t at *
  have hnow : t.now = s.now + 1 := by rw [hqueue]; rfl
  have hclock : t.stationClock = (clockTick s).stationClock := by rw [hqueue]
  have hlockout : t.lockout = { s.lockout with round := { s.lockout.round with
      timeHeld := s.lockout.round.timeHeld ||
        decide (16777215 ≤ ((clockTick s).stationClock - s.lockout.round.reference).toNat) } } := by
    rw [hqueue]
    rfl
  refine ⟨hnow, hclock, by rw [hlockout, hclock], ?_⟩
  refine ⟨⟨by rw [hqueue]; rfl, by rw [hqueue]; rfl, by rw [hqueue]; rfl, by rw [hqueue]; rfl⟩, by rw [hqueue]; rfl,
    by rw [hqueue]; rfl, by rw [hqueue]; rfl, by rw [hqueue]; rfl, by rw [hqueue]; rfl, by rw [hqueue]; rfl,
    by rw [hqueue]; rfl, by rw [hqueue]; rfl, by rw [hqueue]; rfl, by rw [hqueue]; rfl, hpending, ?_⟩
  clear hqueue hlockout
  have hother : ∀ c, c ∉ takings → c ∉ reports → (c ∈ t.pending ↔
      c ∈ dueExpiries t ∨ c ∈ dueDecrements t ∨ c ∈ dueFrameClock t ∨ c ∈ dueCompletion t ∨ c ∈ dueRecords t) :=
    fun c h1 h2 => (hmem c).trans (mem_dueEvents_of_other h1 h2)
  simp only [mem_dueExpiries, mem_dueDecrements, mem_dueFrameClock, mem_dueCompletion, mem_dueRecords] at hother
  refine ⟨⟨?_, ?_, ?_⟩, fun c => ?_, ?_, ?_, ?_, ?_, fun cue => ?_, fun e f hstands hlong => ?_, ?_⟩
  · simp [hother, takings, reports, roundProfile]
  · simp [hother, takings, reports, roundProfile]
  · simp [hother, takings, reports, roundProfile]
  · simp [hother, takings, reports]
  · simp [hother, takings, reports]
  · simp [hother, takings, reports]
  · simp [hother, takings, reports]
  · simp [hother, takings, reports]
  · simp [hother, takings, reports]
  · exact (hmem _).mpr (mem_dueEvents.mpr (by simp [takingOf_mem_dueTaking hstands hlong]))
  · rw [hmem, mem_dueEvents, ← reportFault_mem_dueReport]
    have htaking : Instr.reportFault ∉ dueTaking t := fun h => absurd (dueTaking_mem h) (by simp [takings])
    simp [mem_dueExpiries, mem_dueDecrements, mem_dueFrameClock, mem_dueCompletion, mem_dueRecords, htaking]

end Sys2Proof.Machine
end

