-- ==== Sys2Proof/Proofs/Takings.lean ====
section
/-!
SUPPORT and O18. The takings (R1, R146): the effect of each kind of frame that stands at the head, and what the effect of every frame keeps.
-/
namespace Sys2Proof.Machine
open Relation

/-! ## What follows the leaving of a head -/

/-- What the effect of a taken frame keeps: the fire order counter, the last-heard records, the tables, the flash, the clocks of
the station, the outputs and the word clock monitor. -/
structure TakenFrame (s t : State) : Prop where
  order : t.dispatch.fireOrder = s.dispatch.fireOrder := by rfl
  heard : ∀ n : Fin 32, t.member.peers[n].lastHeard = s.member.peers[n].lastHeard := by exact fun _ => rfl
  tables : t.tables = s.tables := by rfl
  flash : t.flash = s.flash := by rfl
  now : t.now = s.now := by rfl
  clock : t.stationClock = s.stationClock := by rfl
  outputs : t.outputs = s.outputs := by rfl
  wclk : t.wclk = s.wclk := by rfl

theorem TakenFrame.refl (s : State) : TakenFrame s s := {}

theorem TakenFrame.trans {s t u : State} (h : TakenFrame s t) (k : TakenFrame t u) : TakenFrame s u where
  order := k.order.trans h.order
  heard n := (k.heard n).trans (h.heard n)
  tables := k.tables.trans h.tables
  flash := k.flash.trans h.flash
  now := k.now.trans h.now
  clock := k.clock.trans h.clock
  outputs := k.outputs.trans h.outputs
  wclk := k.wclk.trans h.wclk

/-- A frame's effect that keeps the receive queue as well. -/
def takenBehind (s t : State) : Prop := TakenFrame s t ∧ t.rxq = s.rxq

theorem takenBehind.refl (s : State) : takenBehind s s := ⟨TakenFrame.refl s, rfl⟩

theorem takenBehind.trans {s t u : State} (h : takenBehind s t) (k : takenBehind t u) : takenBehind s u :=
  ⟨h.1.trans k.1, k.2.trans h.2⟩

theorem VoiceFrame.taken {s t : State} (h : VoiceFrame s t) : takenBehind s t := by
  obtain ⟨_, _, _, _, rfl⟩ := h
  exact ⟨{}, rfl⟩

theorem OfferFrame.taken {s t : State} (h : OfferFrame s t) : takenBehind s t := by
  obtain ⟨_, _, _, _, _, _, rfl⟩ := h
  exact ⟨{}, rfl⟩

theorem fireNow_taken (cue : Nat) (trim : Byte) (edge : Word) (s : State) : takenBehind s (fireNow cue trim edge s).1 := by
  rcases fireNow_frame cue trim edge s with h | h
  · exact h.taken
  · exact (show takenBehind s (setLastAccepted cue edge s) from ⟨{}, rfl⟩).trans h.taken

theorem postOwn_taken (e : RxEntry) (f : LineFrame) (o : FireOutcome) (s : State) : takenBehind s (postOwn e f o s) := by
  unfold postOwn
  split
  · exact ⟨{}, rfl⟩
  · exact takenBehind.refl s

theorem withClock_taken (c : Fin 4) (f : ClockRecord → ClockRecord) (s : State) : takenBehind s (withClock c f s) := ⟨{}, rfl⟩

theorem withRound_taken (f : Round → Round) (s : State) : takenBehind s (withRound f s) := ⟨{}, rfl⟩

theorem offerMatch_frame (c p : Fin 4) (s : State) : OfferFrame s (offerMatch c p s) := by
  unfold offerMatch
  split
  · exact placeClockFire_frame c p s
  · exact setCopy_frame c p _ s

theorem compareTest_taken (c : Fin 4) (value : Triple) (s : State) : takenBehind s (compareTest c value s) := by
  have hfold := foldl_offerFrame (fun t p => if pointMatches t c p value && matchOffers t c p then offerMatch c p t else t)
    (fun t p => by
      split
      · exact offerMatch_frame c p t
      · exact OfferFrame.refl t) four s
  unfold compareTest
  exact hfold.taken.trans ⟨{}, rfl⟩

theorem decrement_taken (c : Fin 4) (s : State) : takenBehind s (decrement c s) := by
  unfold decrement
  dsimp only
  split
  · exact ((withClock_taken c _ s).trans (compareTest_taken c _ _)).trans (withClock_taken c _ _)
  · exact takenBehind.refl s

theorem catchUp_taken (c : Fin 4) : ∀ (n : Nat) (s : State), takenBehind s (catchUp c n s)
  | 0, s => takenBehind.refl s
  | n + 1, s => (decrement_taken c s).trans (catchUp_taken c n _)

theorem applyClockOp_taken (c : Fin 4) (op epoch : Byte) (value : Triple) (edge : Word) (s : State) :
    takenBehind s (applyClockOp c op epoch value edge s) := by
  unfold applyClockOp startClock stopClock
  dsimp only
  split
  · split
    · split
      · exact (withClock_taken c _ s).trans (withClock_taken c _ _)
      · exact ((withClock_taken c _ s).trans (withClock_taken c _ _)).trans (catchUp_taken c _ _)
    · split
      · exact (withClock_taken c _ s).trans (withClock_taken c _ _)
      · exact takenBehind.refl s
  · exact takenBehind.refl s

theorem dropCopy_frame (c p : Fin 4) (s : State) : OfferFrame s (dropCopy c p s) := by
  unfold dropCopy
  split
  · exact OfferFrame.refl s
  · exact setCopy_frame c p _ s
  · exact (setCopy_frame c p _ s).trans (withdrawEntry_frame _ _)

theorem passClockFire_taken (c p : Fin 4) (cue : BitVec 16) (trim : Byte) (edge : Word) (s : State) :
    takenBehind s (passClockFire c p cue trim edge s) :=
  ((withClock_taken c _ s).trans (dropCopy_frame c p _).taken).trans (fireNow_taken _ _ _ _)

theorem holdoffExpiry_taken (s : State) : takenBehind s (holdoffExpiry s) := by
  unfold holdoffExpiry
  split
  · exact withRound_taken _ s
  · exact takenBehind.refl s

theorem windowExpiry_taken (s : State) : takenBehind s (windowExpiry s) := by
  unfold windowExpiry
  split
  · exact withRound_taken _ s
  · exact takenBehind.refl s

theorem settleExpiry_taken (s : State) : takenBehind s (settleExpiry s) := by
  unfold settleExpiry
  split
  · dsimp only
    split
    · exact (withRound_taken _ s).trans (offerClose_frame _).taken
    · exact withRound_taken _ s
  · exact takenBehind.refl s

theorem internalFire_taken (cue : Option Nat) (edge : Word) (s : State) : takenBehind s (internalFire cue edge s) := by
  unfold internalFire
  split
  · exact fireNow_taken _ _ _ s
  · exact takenBehind.refl s

theorem falseStartClaim_taken (pair : Nat × Nat) (edge : Word) (s : State) : takenBehind s (falseStartClaim pair edge s) := by
  unfold falseStartClaim
  split
  · exact takenBehind.refl s
  · exact ((withRound_taken _ s).trans (internalFire_taken _ _ _)).trans (withRound_taken _ _)

theorem addClaim_taken (pair : Nat × Nat) (capture : Nat) (s : State) : takenBehind s (addClaim pair capture s) := by
  unfold addClaim
  split
  · exact withRound_taken _ s
  · exact takenBehind.refl s

theorem adoptClose_taken (id : Byte × Byte) (w : Option Claim) (edge : Word) (s : State) :
    takenBehind s (adoptClose id w edge s) := by
  have hrest : ∀ u : State, takenBehind u (reportVerdictOf id w (decide (w ≠ s.lockout.round.verdict))
      (withdrawRound (internalFire (verdictCue s w) edge (withRound (fun r =>
        { r with verdict := w, source := .line, differed := decide (w ≠ s.lockout.round.verdict), state := .closed }) u)))) :=
    fun u => (((withRound_taken _ u).trans (internalFire_taken _ _ _)).trans (withdrawRound_frame _).taken).trans ⟨{}, rfl⟩
  unfold adoptClose
  dsimp only
  split
  · exact (setFault_frame _ s).taken.trans (hrest _)
  · exact hrest s

theorem oweReply_frame (s : State) : OfferFrame s (oweReply s) := by
  unfold oweReply
  split
  · exact offerJoin_frame true s
  · exact OfferFrame.refl s

theorem cutVoices_frame (s : State) : VoiceFrame s (cutVoices s) := by
  refine VoiceFrame.trans ?_ (foldl_voiceFrame _ (fun t i => ?_) slots _)
  · exact ⟨_, s.fetch, s.panel.faults, s.panel.faultPending, rfl⟩
  · split
    · exact VoiceFrame.refl t
    · exact vacate_frame i t

/-- The blocks other than the pool and the line at the entry into DUPLICATE (R161). -/
def dismissed (s : State) : State :=
  { s with
    member := { s.member with state := .duplicate, heldJoin := none }
    lockout := { s.lockout with round := Round.reset }
    clocks := { s.clocks with records := mapVec ClockRecord.silence s.clocks.records } }

theorem enterDuplicate_eq (s : State) :
    enterDuplicate s = dismissed (cutVoices (leaveLine (setFault .duplicateStation s))) := rfl

theorem dismissed_taken (s : State) : TakenFrame s (dismissed s) := {}

theorem leaveLine_taken (s : State) : TakenFrame s (leaveLine s) := {}

theorem enterDuplicate_taken (s : State) : TakenFrame s (enterDuplicate s) := by
  rw [enterDuplicate_eq]
  exact (setFault_frame _ s).taken.1.trans ((leaveLine_taken _).trans ((cutVoices_frame _).taken.1.trans (dismissed_taken _)))

theorem ownNumberJoin_taken (reply : Bool) (s : State) : TakenFrame s (ownNumberJoin reply s) := by
  unfold ownNumberJoin
  split
  · exact enterDuplicate_taken s
  · split
    · exact enterDuplicate_taken s
    · exact (oweReply_frame s).taken.1
  · exact TakenFrame.refl s
  · exact TakenFrame.refl s
  · exact TakenFrame.refl s
  · exact TakenFrame.refl s

theorem recordPeer_taken (sender : Byte) (identity signature : Word) (s : State) :
    TakenFrame s (recordPeer sender identity signature s) := by
  have hupdate : ∀ f : Peer → Peer, (∀ p, (f p).lastHeard = p.lastHeard) → TakenFrame s (updatePeer sender f s) := by
    intro f hf
    have heq := updatePeer_eq sender f s
    exact
      { order := by rw [heq]
        heard := fun n => by
          rw [updatePeer_peers]
          split
          · exact hf _
          · rfl
        tables := by rw [heq]
        flash := by rw [heq]
        now := by rw [heq]
        clock := by rw [heq]
        outputs := by rw [heq]
        wclk := by rw [heq] }
  exact hupdate _ fun _ => rfl

/-! ## The takings, of a frame that stands at the head -/

/-- The fire that a FIRE of an origin other than CLOCK brings. -/
theorem takeFire_of_head {s : State} {e : RxEntry} {cue tag : BitVec 16} {origin trim : Byte}
    (h : standsAtHead s e (.fire cue origin tag trim)) (ho : origin ≠ 2) : takeFire s =
      if origin = 1 then postOwn e (.fire cue origin tag trim) (fireNow cue.toNat trim e.edge (leaveHead e s)).2
        (fireNow cue.toNat trim e.edge (leaveHead e s)).1
      else (fireNow cue.toNat trim e.edge (leaveHead e s)).1 := by
  simp only [takeFire, takable_of_standsAtHead h, if_neg ho]

theorem takeClockFire_of_head {s : State} {e : RxEntry} {cue tag : BitVec 16} {trim : Byte}
    (h : standsAtHead s e (.fire cue 2 tag trim)) : takeClockFire s =
      if hname : (tag.extractLsb' 8 8).toNat / 16 < 4 ∧ (tag.extractLsb' 8 8).toNat % 16 < 4 then
        if clockFirePasses (leaveHead e s) ⟨_, hname.1⟩ ⟨_, hname.2⟩ (tag.extractLsb' 0 8)
        then passClockFire ⟨_, hname.1⟩ ⟨_, hname.2⟩ cue trim e.edge (leaveHead e s) else leaveHead e s
      else leaveHead e s := by
  simp [takeClockFire, takable_of_standsAtHead h]

theorem takeRelease_of_head {s : State} {e : RxEntry} {cue : BitVec 16} {mode : Byte}
    (h : standsAtHead s e (.release cue mode)) : takeRelease s =
      if knownCue (leaveHead e s) cue.toNat then
        postOwn e (.release cue mode) (if cuePlaying (leaveHead e s) cue.toNat then .released else .notPlaying)
          (fetchSettle (releaseCue cue.toNat mode (leaveHead e s)))
      else postOwn e (.release cue mode) .unknownCue (leaveHead e s) := by
  simp [takeRelease, takable_of_standsAtHead h]

theorem takeHush_of_head {s : State} {e : RxEntry} {mask : Byte} (h : standsAtHead s e (.hush mask)) :
    takeHush s = postOwn e (.hush mask) .hushed (fetchSettle (hushZones mask (leaveHead e s))) := by
  simp [takeHush, takable_of_standsAtHead h]

theorem takeClock_of_head {s : State} {e : RxEntry} {clk op epoch : Byte} {value : Triple}
    (h : standsAtHead s e (.clock clk op epoch value)) : takeClock s =
      if hclk : clk.toNat < 4 then applyClockOp ⟨clk.toNat, hclk⟩ op epoch value e.edge (leaveHead e s) else leaveHead e s := by
  simp [takeClock, takable_of_standsAtHead h]

/-- The state in which an ARM re-initialises the round record (R82). -/
def armed (e : RxEntry) (s : State) : State := withdrawRound (leaveHead e s)

/-- Round time is held at once by an ARM whose break lies too far back (R80). -/
def armedHeld (e : RxEntry) (s : State) : Bool := decide (maxRoundTime ≤ ((armed e s).stationClock - e.edge).toNat)

theorem takeArm_of_head {s : State} {e : RxEntry} {number profile : Byte} (h : standsAtHead s e (.arm number profile)) :
    takeArm s =
      if profile.toNat < 8 then
        settleExpiry (windowExpiry (holdoffExpiry (withRound (fun _ =>
          Round.fresh (senderOf e.frame, number) profile.toNat e.edge
            (if (profileRecord (armed e s) profile.toNat).holdoff = 0 then RoundState.isOpen else .holdoff) (armedHeld e s))
          (armed e s))))
      else withRound (fun _ => Round.fresh (senderOf e.frame, number) 0 e.edge .idle (armedHeld e s)) (armed e s) := by
  simp only [takeArm, takable_of_standsAtHead h]
  rfl

theorem takeClaim_of_head {s : State} {e : RxEntry} {rs rn input flags : Byte} {capture : Triple}
    (h : standsAtHead s e (.claim rs rn input flags capture)) : takeClaim s =
      if staleClaim (leaveHead e s) rs rn input then leaveHead e s
      else if flagSet flags then falseStartClaim ((senderOf e.frame).toNat, input.toNat) e.edge (leaveHead e s)
      else addClaim ((senderOf e.frame).toNat, input.toNat) capture.toNat (leaveHead e s) := by
  simp only [takeClaim, takable_of_standsAtHead h]

theorem takeClose_of_head {s : State} {e : RxEntry} {rs rn ws wi : Byte} {capture : Triple}
    (h : standsAtHead s e (.close rs rn ws wi capture)) : takeClose s =
      if (leaveHead e s).lockout.round.running && decide ((leaveHead e s).lockout.round.identity = some (rs, rn))
      then adoptClose (rs, rn) (frameWinner ws wi capture) e.edge (leaveHead e s) else leaveHead e s := by
  simp only [takeClose, takable_of_standsAtHead h]

/-- A JOIN that is its owner's to take. -/
theorem takeJoin_of_takable {s : State} {e : RxEntry} {flags : Byte} {identity signature : Word}
    (h : takable s = some (e, .join flags identity signature)) : takeJoin s =
      if senderOf e.frame = ownNumber s then
        if identity = s.member.identity then leaveHead e s else ownNumberJoin (flagSet flags) (leaveHead e s)
      else if flagSet flags then recordPeer (senderOf e.frame) identity signature (leaveHead e s)
      else oweReply (recordPeer (senderOf e.frame) identity signature (leaveHead e s)) := by
  simp only [takeJoin, h]

/-! ## Every taking -/

theorem taken_behind {s : State} {e : RxEntry} {f : LineFrame} (h : standsAtHead s e f) (hf : f.kind ≠ .join) :
    ∃ t, exec (takingOf f) s = .next t ∧ takenBehind (leaveHead e s) t := by
  cases f with
  | hush mask =>
    refine ⟨takeHush s, rfl, ?_⟩
    rw [takeHush_of_head h]
    exact ((hushZones_frame _ _).trans (fetchSettle_frame _)).taken.trans (postOwn_taken _ _ _ _)
  | join flags identity signature => exact absurd rfl hf
  | close rs rn ws wi capture =>
    refine ⟨takeClose s, rfl, ?_⟩
    rw [takeClose_of_head h]
    split
    · exact adoptClose_taken _ _ _ _
    · exact takenBehind.refl _
  | claim rs rn input flags capture =>
    refine ⟨takeClaim s, rfl, ?_⟩
    rw [takeClaim_of_head h]
    split
    · exact takenBehind.refl _
    · split
      · exact falseStartClaim_taken _ _ _
      · exact addClaim_taken _ _ _
  | arm number profile =>
    refine ⟨takeArm s, rfl, ?_⟩
    have harmed : takenBehind (leaveHead e s) (armed e s) := (withdrawRound_frame _).taken
    rw [takeArm_of_head h]
    split
    · exact harmed.trans ((withRound_taken _ _).trans ((holdoffExpiry_taken _).trans ((windowExpiry_taken _).trans
        (settleExpiry_taken _))))
    · exact harmed.trans (withRound_taken _ _)
  | fire cue origin tag trim =>
    by_cases ho : origin = 2
    · subst ho
      refine ⟨takeClockFire s, rfl, ?_⟩
      rw [takeClockFire_of_head h]
      split
      · split
        · exact passClockFire_taken _ _ _ _ _ _
        · exact takenBehind.refl _
      · exact takenBehind.refl _
    · refine ⟨takeFire s, by rw [takingOf, if_neg ho]; rfl, ?_⟩
      rw [takeFire_of_head h ho]
      split
      · exact (fireNow_taken _ _ _ _).trans (postOwn_taken _ _ _ _)
      · exact fireNow_taken _ _ _ _
  | release cue mode =>
    refine ⟨takeRelease s, rfl, ?_⟩
    rw [takeRelease_of_head h]
    split
    · exact ((releaseCue_frame _ _ _).trans (fetchSettle_frame _)).taken.trans (postOwn_taken _ _ _ _)
    · exact postOwn_taken _ _ _ _
  | clock clk op epoch value =>
    refine ⟨takeClock s, rfl, ?_⟩
    rw [takeClock_of_head h]
    split
    · exact applyClockOp_taken _ _ _ _ _ _
    · exact takenBehind.refl _

theorem takeJoin_taken {s : State} {e : RxEntry} {flags : Byte} {identity signature : Word}
    (h : takable s = some (e, .join flags identity signature)) : TakenFrame (leaveHead e s) (takeJoin s) := by
  rw [takeJoin_of_takable h]
  split
  · split
    · exact TakenFrame.refl _
    · exact ownNumberJoin_taken _ _
  · split
    · exact recordPeer_taken _ _ _ _
    · exact (recordPeer_taken _ _ _ _).trans (oweReply_frame _).taken.1

/-- The last-heard record of the sender after any effect of its frame (R146). -/
theorem heard_of_taken {s t : State} {e : RxEntry} {f : LineFrame} (h : standsAtHead s e f)
    (ht : TakenFrame (leaveHead e s) t) : (peerOf t (senderOf e.frame)).map Peer.lastHeard = some (some e.edge) := by
  obtain ⟨-, -, -, -, ⟨p, hp, -⟩, -⟩ := h
  have hlt : (senderOf e.frame).toNat < 32 := by
    unfold peerOf at hp
    split at hp
    · assumption
    · contradiction
  have hheard := ht.heard ⟨_, hlt⟩
  rw [(hasLeft_leaveHead e s).2 ⟨_, hlt⟩] at hheard
  rw [peerOf, dif_pos hlt]
  simpa using hheard

/-- Settles O18. -/
theorem takingRaisesFireOrder : Obligations.TakingRaisesFireOrder := by
  intro e f s h
  obtain ⟨hleft, -⟩ := hasLeft_leaveHead e s
  have hall : ∃ t, exec (takingOf f) s = .next t ∧ TakenFrame (leaveHead e s) t ∧
      (f.kind ≠ .join → t.rxq = (leaveHead e s).rxq) := by
    by_cases hf : f.kind = .join
    · cases f with
      | join flags identity signature =>
        exact ⟨takeJoin s, rfl, takeJoin_taken (takable_of_standsAtHead h), fun hnot => absurd hf hnot⟩
      | _ => simp [LineFrame.kind] at hf
    · obtain ⟨t, hexec, htaken, hrx⟩ := taken_behind h hf
      exact ⟨t, hexec, htaken, fun _ => hrx⟩
  obtain ⟨t, hexec, ht, hrx⟩ := hall
  refine ⟨t, hexec, ?_, heard_of_taken h ht, fun hf => ?_, ?_, ?_, ?_, ?_, ?_, ?_⟩
  · rw [ht.order, hleft]
  · rw [hrx hf, hleft]
    exact ⟨rfl, rfl⟩
  · rw [ht.tables, hleft]
  · rw [ht.flash, hleft]
  · rw [ht.now, hleft]
  · rw [ht.clock, hleft]
  · rw [ht.outputs, hleft]
  · rw [ht.wclk, hleft]

end Sys2Proof.Machine
end

