-- ==== Sys2Proof/Proofs/VoiceChoice.lean ====
section
/-!
The slot and the victim that a fire chooses (O23), and the play policies (O22).
-/
namespace Sys2Proof.Machine
open Relation

/-! ## The slot that comes first -/

/-- A choice that compares by an order keeps the least of the slots it has met. -/
theorem foldl_pickStep_least {test : Fin 16 → Bool} {before : Fin 16 → Fin 16 → Bool} {le : Fin 16 → Fin 16 → Prop}
    (hrefl : ∀ i, le i i) (htrans : ∀ i j k, le i j → le j k → le i k)
    (hbefore : ∀ i j, before i j = true → le i j) (hnot : ∀ i j, before i j = false → le j i) :
    ∀ (l : List (Fin 16)) (best : Option (Fin 16)) (i : Fin 16), l.foldl (pickStep test before) best = some i →
      (∀ b, best = some b → le i b) ∧ ∀ j ∈ l, test j = true → le i j
  | [], best, i, h => ⟨fun b hb => by
      rw [List.foldl_nil, hb] at h
      rw [Option.some.inj h]
      exact hrefl i, fun j hj => absurd hj List.not_mem_nil⟩
  | x :: l, best, i, h => by
    obtain ⟨hbest, hl⟩ := foldl_pickStep_least hrefl htrans hbefore hnot l (pickStep test before best x) i h
    have hstep : (∀ b, best = some b → le i b) ∧ (test x = true → le i x) := by
      unfold pickStep at hbest
      split at hbest
      · split at hbest
        · exact And.intro (fun b hb => nomatch hb) fun _ => hbest x rfl
        · next b =>
          have hcases : le i x ∧ le i b := by
            cases hb : before x b with
            | false =>
              have hib := hbest b (by simp [hb])
              exact And.intro (htrans _ _ _ hib (hnot x b hb)) hib
            | true =>
              have hix := hbest x (by simp [hb])
              exact And.intro hix (htrans _ _ _ hix (hbefore x b hb))
          exact ⟨fun c hc => Option.some.inj hc ▸ hcases.2, fun _ => hcases.1⟩
      · next htest => exact ⟨hbest, fun ht => absurd ht htest⟩
    refine ⟨hstep.1, fun j hj ht => ?_⟩
    rcases List.mem_cons.mp hj with rfl | hj
    · exact hstep.2 ht
    · exact hl j hj ht

/-- The chosen slot is the least of those that pass the test. -/
theorem pickSlot_least {test : Fin 16 → Bool} {before : Fin 16 → Fin 16 → Bool} {le : Fin 16 → Fin 16 → Prop}
    (hrefl : ∀ i, le i i) (htrans : ∀ i j k, le i j → le j k → le i k)
    (hbefore : ∀ i j, before i j = true → le i j) (hnot : ∀ i j, before i j = false → le j i) {i : Fin 16}
    (h : pickSlot test before = some i) {j : Fin 16} (hj : test j = true) : le i j :=
  (foldl_pickStep_least hrefl htrans hbefore hnot slots none i h).2 j (mem_slots j) hj

/-- A slot is chosen where one passes the test. -/
theorem pickSlot_isSome {test : Fin 16 → Bool} {before : Fin 16 → Fin 16 → Bool} {i : Fin 16} (h : test i = true) :
    ∃ j, pickSlot test before = some j := by
  cases hpick : pickSlot test before with
  | none =>
    rw [pickSlot_none.mp hpick i] at h
    contradiction
  | some j => exact ⟨j, rfl⟩

/-! ## Ages (R2; entry 17) -/

/-- The age of a voice over a base that no fire order lies 2^31 or more past: the greater, the younger. -/
def ageOver (base : Word) (s : State) (i : Fin 16) : Nat := ((voiceOf s i).fireOrder - base).toNat

/-- Every voice's fire order lies less than 2^31 past a base. -/
def agesOver (base : Word) (s : State) : Prop := ∀ i : Fin 16, ageOver base s i < 2147483648

/-- Fire orders less than 2^31 past one base compare as their distances from it (R2). -/
theorem behind_iff_of_base {a b base : Word} (ha : (a - base).toNat < 2147483648) (hb : (b - base).toNat < 2147483648) :
    behind a b = true ↔ (a - base).toNat < (b - base).toNat := by
  simp only [behind, Bool.and_eq_true, decide_eq_true_eq]
  bv_omega

theorem slotOlder_iff {base : Word} {s : State} (h : agesOver base s) (i j : Fin 16) : slotOlder s i j = true ↔
    ageOver base s i < ageOver base s j ∨ (ageOver base s i = ageOver base s j ∧ i < j) := by
  have heq : (voiceOf s i).fireOrder = (voiceOf s j).fireOrder ↔ ageOver base s i = ageOver base s j := by
    rw [ageOver, ageOver, ← BitVec.toNat_eq]
    bv_omega
  rw [slotOlder, olderVoice, Bool.or_eq_true, Bool.and_eq_true, decide_eq_true_eq, decide_eq_true_eq,
    behind_iff_of_base (h i) (h j), heq]
  rfl

theorem slotOlder_age_le {base : Word} {s : State} (h : agesOver base s) {i j : Fin 16} (hij : slotOlder s i j = true) :
    ageOver base s i ≤ ageOver base s j := by
  have := (slotOlder_iff h i j).mp hij
  omega

theorem age_le_of_not_slotOlder {base : Word} {s : State} (h : agesOver base s) {i j : Fin 16}
    (hij : slotOlder s i j = false) : ageOver base s j ≤ ageOver base s i := by
  have hnot : ¬ slotOlder s i j = true := by simp [hij]
  rw [slotOlder_iff h] at hnot
  omega

/-- The oldest of the slots that pass a test. -/
theorem pickSlot_oldest {base : Word} {s : State} (h : agesOver base s) {test : Fin 16 → Bool} {i : Fin 16}
    (hi : pickSlot test (slotOlder s) = some i) {j : Fin 16} (hj : test j = true) : ageOver base s i ≤ ageOver base s j :=
  pickSlot_least (le := fun i j => ageOver base s i ≤ ageOver base s j) (fun _ => Nat.le_refl _)
    (fun _ _ _ => Nat.le_trans) (fun _ _ => slotOlder_age_le h) (fun _ _ => age_le_of_not_slotOlder h) hi hj

/-! ## The idle slot and the victim (R11, R12) -/

theorem idleSlot_iff {s : State} {i : Fin 16} : idleSlot s = some i ↔
    (voiceOf s i).state = .idle ∧ ∀ j : Fin 16, j < i → (voiceOf s j).state ≠ .idle := by
  have hleast : ∀ {k j : Fin 16}, idleSlot s = some k → (voiceOf s j).state = .idle → k ≤ j := fun hk hj =>
    pickSlot_least (le := fun a b => a ≤ b) (fun _ => Nat.le_refl _) (fun _ _ _ => Nat.le_trans)
      (fun _ _ h => Nat.le_of_lt (of_decide_eq_true h)) (fun _ _ h => Nat.le_of_not_lt (of_decide_eq_false h)) hk
      (decide_eq_true hj)
  constructor
  · intro h
    exact ⟨idleSlot_idle h, fun j hj hidle => absurd (hleast h hidle) (Nat.not_le_of_lt hj)⟩
  · rintro ⟨hi, hlower⟩
    obtain ⟨k, hk⟩ : ∃ k, idleSlot s = some k := pickSlot_isSome (decide_eq_true hi)
    have hle : k ≤ i := hleast hk hi
    rcases Nat.lt_or_eq_of_le hle with hlt | heq
    · exact absurd (idleSlot_idle hk) (hlower k hlt)
    · rw [hk, Fin.ext heq]

/-- The choice among the voices of the lowest level (R12). -/
def lowerLevel (s : State) (i j : Fin 16) : Bool :=
  decide ((voiceOf s i).level < (voiceOf s j).level) ||
    (decide ((voiceOf s i).level = (voiceOf s j).level) && slotOlder s i j)

/-- The order of that choice. -/
def levelFirst (base : Word) (s : State) (i j : Fin 16) : Prop :=
  (voiceOf s i).level < (voiceOf s j).level ∨
    ((voiceOf s i).level = (voiceOf s j).level ∧ ageOver base s i ≤ ageOver base s j)

theorem victim_eq (s : State) (level : Nat) : victim s level =
    match pickSlot (fun i => decide ((voiceOf s i).state = .releasing)) (slotOlder s) with
    | some i => some i
    | none => pickSlot (fun i => decide ((voiceOf s i).level < level)) (lowerLevel s) := rfl

theorem pickSlot_lowest {base : Word} {s : State} (h : agesOver base s) {test : Fin 16 → Bool} {i : Fin 16}
    (hi : pickSlot test (lowerLevel s) = some i) {j : Fin 16} (hj : test j = true) : levelFirst base s i j := by
  refine pickSlot_least (fun _ => .inr ⟨rfl, Nat.le_refl _⟩) (fun i j k hij hjk => ?_) (fun i j hij => ?_)
    (fun i j hij => ?_) hi hj
  · unfold levelFirst at *
    omega
  · simp only [lowerLevel, Bool.or_eq_true, Bool.and_eq_true, decide_eq_true_eq] at hij
    exact hij.imp_right fun ⟨heq, hold⟩ => ⟨heq, slotOlder_age_le h hold⟩
  · simp only [lowerLevel, Bool.or_eq_false_iff, Bool.and_eq_false_iff, decide_eq_false_iff_not] at hij
    obtain ⟨hge, hold⟩ := hij
    rcases hold with hne | hold
    · exact .inl (by omega)
    · have := age_le_of_not_slotOlder h hold
      unfold levelFirst
      omega

/-- What the victim of a fire can be (R12): the oldest RELEASING voice, or where there is none the first by level. -/
theorem victim_cases {s : State} {level : Nat} {i : Fin 16} (h : victim s level = some i) :
    ((voiceOf s i).state = .releasing ∧ pickSlot (fun i => decide ((voiceOf s i).state = .releasing)) (slotOlder s) = some i) ∨
      ((∀ j, (voiceOf s j).state ≠ .releasing) ∧ (voiceOf s i).level < level ∧
        pickSlot (fun i => decide ((voiceOf s i).level < level)) (lowerLevel s) = some i) := by
  rw [victim_eq] at h
  split at h
  · next k hk =>
    obtain rfl := Option.some.inj h
    exact .inl ⟨of_decide_eq_true (pickSlot_test hk), hk⟩
  · next hnone =>
    exact .inr ⟨fun j => of_decide_eq_false (pickSlot_none.mp hnone j), of_decide_eq_true (pickSlot_test h), h⟩

theorem victim_none_iff {s : State} {level : Nat} : victim s level = none ↔
    ∀ j : Fin 16, (voiceOf s j).state ≠ .releasing ∧ level ≤ (voiceOf s j).level := by
  rw [victim_eq]
  split
  · next k hk =>
    refine iff_of_false (by simp) fun hall => ?_
    exact (hall k).1 (of_decide_eq_true (pickSlot_test hk))
  · next hnone =>
    rw [pickSlot_none] at hnone ⊢
    simp only [decide_eq_false_iff_not] at hnone
    simp only [decide_eq_false_iff_not, Nat.not_lt, hnone, ne_eq, not_false_iff, true_and]

/-- Settles O23. -/
theorem slotAndVictimChoice : Obligations.SlotAndVictimChoice := by
  intro level s
  refine ⟨fun i => idleSlot_iff, fun base h => ⟨fun i hi hrel j hj => ?_, fun i hi hnot => ?_⟩, victim_none_iff⟩
  · rcases victim_cases hi with ⟨-, hpick⟩ | ⟨hnone, -, -⟩
    · exact pickSlot_oldest h hpick (decide_eq_true hj)
    · exact absurd hrel (hnone i)
  · rcases victim_cases hi with ⟨hrel, -⟩ | ⟨hnone, hlevel, hpick⟩
    · exact absurd hrel hnot
    · refine ⟨hnone, hlevel, fun j => ?_⟩
      by_cases hj : (voiceOf s j).level < level
      · exact pickSlot_lowest h hpick (decide_eq_true hj)
      · exact .inl (by omega)

/-! ## Stages 5 to 7 (R9 to R15) -/

/-- Allocation, in its three cases (R11, R12). -/
theorem allocate_cases (cue : Nat) (trim : Byte) (order : Word) (o : FireOutcome) (s : State) :
    (∀ j, idleSlot s = some j → allocate cue trim order o s = (startVoice j cue trim order s, o)) ∧
      (∀ j, idleSlot s = none → victim s (cueRecord s cue).level = some j →
        allocate cue trim order o s = (startVoice j cue trim order (preempt j s), o)) ∧
      (idleSlot s = none → victim s (cueRecord s cue).level = none → allocate cue trim order o s = (s, .noVoice)) := by
  unfold allocate
  refine ⟨fun j hj => by rw [hj], fun j hnone hj => by rw [hnone, hj], fun hnone hv => by rw [hnone, hv]⟩

theorem soundingVoice_none {s : State} {cue : Nat} (h : ∀ i : Fin 16, (voiceOf s i).cue = cue → (voiceOf s i).sounding = false) :
    soundingVoice s cue = none := by
  refine pickSlot_none.mpr fun i => ?_
  by_cases hc : (voiceOf s i).cue = cue
  · simp [h i hc]
  · simp [hc]

theorem playStages_unheard {s : State} {cue : Nat} (trim : Byte) (order : Word) (h : soundingVoice s cue = none) :
    playStages cue trim order s = allocate cue trim order .played s := by
  rw [playStages, h]

theorem playStages_restart {s : State} {cue : Nat} (trim : Byte) (order : Word) {i : Fin 16} (h : soundingVoice s cue = some i)
    (hp : (cueRecord s cue).policy = .restart) : playStages cue trim order s = (restartVoice i trim order s, .restarted) := by
  simp only [playStages, h, hp]

theorem playStages_ignore {s : State} {cue : Nat} (trim : Byte) (order : Word) {i : Fin 16} (h : soundingVoice s cue = some i)
    (hp : (cueRecord s cue).policy = .ignore) : playStages cue trim order s = (s, .ignoredBusy) := by
  simp only [playStages, h, hp]

theorem playStages_layer {s : State} {cue : Nat} (trim : Byte) (order : Word) {i : Fin 16} (h : soundingVoice s cue = some i)
    (hp : (cueRecord s cue).policy = .layer) : playStages cue trim order s = allocate cue trim order .layered s := by
  simp only [playStages, h, hp]

/-- The voice that RESTART restarts is a sounding one of the cue, of the greatest fire order (R9). -/
theorem soundingVoice_some {s : State} {cue : Nat} {i : Fin 16} (h : soundingVoice s cue = some i) :
    ((voiceOf s i).sounding = true ∧ (voiceOf s i).cue = cue) ∧
      ∀ base, agesOver base s → ∀ k : Fin 16, (voiceOf s k).sounding = true → (voiceOf s k).cue = cue →
        ageOver base s k ≤ ageOver base s i := by
  refine ⟨by simpa using pickSlot_test h, fun base hages k hk hc => ?_⟩
  exact pickSlot_least (le := fun a b => ageOver base s b ≤ ageOver base s a) (fun _ => Nat.le_refl _)
    (fun _ _ _ hij hjk => Nat.le_trans hjk hij) (fun _ _ => slotOlder_age_le hages)
    (fun _ _ => age_le_of_not_slotOlder hages) h (by simp [hk, hc])

/-! ## Ramps (R42) -/

theorem startRamp_gainTarget (target n : Nat) (v : Voice) : (startRamp target n v).gainTarget = target := by
  unfold startRamp
  split <;> rfl

theorem startRamp_rampLeft (target n : Nat) (v : Voice) : (startRamp target n v).rampLeft = n := by
  unfold startRamp
  split
  · next h => exact h.symm
  · rfl

theorem startRamp_gainNow (target n : Nat) (v : Voice) :
    (startRamp target n v).gainNow = if n = 0 then target * 65536 else v.gainNow := by
  unfold startRamp
  split <;> rfl

theorem startRamp_increment {target n : Nat} {v : Voice} (h : 0 < n) :
    (startRamp target n v).rampIncrement = ((target : Int) * 65536 - v.gainNow).tdiv n := by
  rw [startRamp, if_neg (by omega)]
  simp

theorem startRamp_ducked (target n : Nat) (v : Voice) : (startRamp target n v).ducked = v.ducked := by
  unfold startRamp
  split <;> rfl

/-- What the effective target of a voice reads of it (R41). -/
theorem effectiveTarget_voice {s : State} {v w : Voice} (hcue : w.cue = v.cue) (hstep : w.step = v.step)
    (htrim : w.trim = v.trim) (hducked : w.ducked = v.ducked) : effectiveTarget s w = effectiveTarget s v := by
  rw [effectiveTarget, effectiveTarget, hcue, hstep, htrim, hducked]

/-! ## RESTART (R9, R33) -/

theorem cancelRequest_requests (i : Fin 16) (s : State) : ∀ r ∈ (cancelRequest i s).fetch.requests, r.slot ≠ i := by
  intro r hr
  simpa using (List.mem_filter.mp hr).2

theorem cancelRequest_flight (i : Fin 16) (s : State) :
    ∀ f, (cancelRequest i s).fetch.flight = some f → f.request.slot = i → f.owned = false := by
  intro f hf hslot
  obtain ⟨g, -, rfl⟩ := Option.map_eq_some_iff.mp hf
  split at hslot
  · next h => rw [if_pos h]
  · next h => exact absurd hslot h

/-- The gain of a restarted voice (R9): a changed target is ramped to over the attack. -/
theorem restartedVoice_gain (s : State) (i : Fin 16) (trim : Byte) (order : Word) :
    let v := voiceOf s i
    let w := restartedVoice s i trim order
    w.gainTarget = effectiveTarget s w ∧ w.ducked = v.ducked ∧
      (w.gainTarget = v.gainTarget → w.gainNow = v.gainNow ∧ w.rampLeft = v.rampLeft ∧ w.rampIncrement = v.rampIncrement) ∧
      (w.gainTarget ≠ v.gainTarget → w.rampLeft = (voiceCue s i).attack * 48 ∧
        ((voiceCue s i).attack = 0 → w.gainNow = w.gainTarget * 65536) ∧
        (0 < (voiceCue s i).attack → w.gainNow = v.gainNow ∧
          w.rampIncrement = ((w.gainTarget : Int) * 65536 - v.gainNow).tdiv (((voiceCue s i).attack : Int) * 48))) := by
  intro v w
  have hd : duckOnly (rewoundVoice s i trim order) w := restartedVoice_duckOnly s i trim order
  have hducked : w.ducked = v.ducked := by
    show (restartedVoice s i trim order).ducked = _
    unfold restartedVoice
    dsimp only
    split
    · rfl
    · exact startRamp_ducked _ _ _
  have htarget : effectiveTarget s w = effectiveTarget s (rewoundVoice s i trim order) :=
    effectiveTarget_voice hd.cue (by rw [hd]) (by rw [hd]) hducked
  have hold : (rewoundVoice s i trim order).gainTarget = v.gainTarget := rfl
  have hnow : (rewoundVoice s i trim order).gainNow = v.gainNow := rfl
  by_cases h : effectiveTarget s (rewoundVoice s i trim order) = v.gainTarget
  · have hw : w = rewoundVoice s i trim order := if_pos h
    rw [htarget]
    refine ⟨by rw [hw, h]; rfl, hducked, fun _ => by rw [hw]; exact ⟨rfl, rfl, rfl⟩, fun hne => absurd ?_ hne⟩
    rw [hw]
    rfl
  · have hw : w = startRamp (effectiveTarget s (rewoundVoice s i trim order)) (msFrames (voiceCue s i).attack)
        (rewoundVoice s i trim order) := if_neg h
    have hgain : w.gainTarget = effectiveTarget s (rewoundVoice s i trim order) := by rw [hw, startRamp_gainTarget]
    have hgainNow := startRamp_gainNow (effectiveTarget s (rewoundVoice s i trim order)) (msFrames (voiceCue s i).attack)
      (rewoundVoice s i trim order)
    rw [← hw, ← hgain, hnow] at hgainNow
    refine ⟨by rw [htarget, hgain], hducked, fun heq => absurd (hgain.symm.trans heq) h, fun _ => ⟨?_, fun h0 => ?_, fun hpos => ⟨?_, ?_⟩⟩⟩
    · rw [hw, startRamp_rampLeft]
      rfl
    · rw [hgainNow, if_pos (by simp [msFrames, h0])]
    · rw [hgainNow, if_neg (by simp only [msFrames]; omega)]
    · have hinc := startRamp_increment (target := effectiveTarget s (rewoundVoice s i trim order))
        (v := rewoundVoice s i trim order) (show 0 < msFrames (voiceCue s i).attack by simp only [msFrames]; omega)
      rw [← hw, ← hgain, hnow] at hinc
      rw [hinc, msFrames]
      push_cast
      rfl

theorem voiceOf_restartVoice (j k : Fin 16) (trim : Byte) (order : Word) (s : State) :
    voiceOf (restartVoice j trim order s) k = if k = j then restartedVoice s j trim order else voiceOf s k := by
  rw [restartVoice_eq, voiceOf_cancelRequest, voiceOf_setVoice]

/-- Settles O22. -/
theorem ignoreAndLayer : Obligations.IgnoreAndLayer := by
  refine ⟨fun cue trim order s => ⟨fun hnone => ?_, fun i hi hc => ?_⟩, fun j trim order s => ?_⟩
  · rw [playStages_unheard trim order (soundingVoice_none hnone)]
    exact allocate_cases cue trim order .played s
  · obtain ⟨j, hj⟩ : ∃ j, soundingVoice s cue = some j := pickSlot_isSome (i := i) (by simp [hi, hc])
    obtain ⟨⟨hsound, hcue⟩, hage⟩ := soundingVoice_some hj
    refine ⟨playStages_ignore trim order hj, fun hp => ?_,
      fun hp => ⟨j, hsound, hcue, playStages_restart trim order hj hp, hage⟩⟩
    rw [playStages_layer trim order hj hp]
    exact allocate_cases cue trim order .layered s
  · intro v c t w
    have hw : w = restartedVoice s j trim order := (voiceOf_restartVoice j j trim order s).trans (if_pos rfl)
    have hd : duckOnly (rewoundVoice s j trim order) w := hw ▸ restartedVoice_duckOnly s j trim order
    obtain ⟨htarget, hducked, hsame, hramp⟩ := restartedVoice_gain s j trim order
    rw [← hw] at htarget hducked hsame hramp
    refine ⟨hd.state, hd.cue, by rw [hd]; rfl, by rw [hd]; rfl, by rw [hd]; rfl, by rw [hd]; rfl, by rw [hd]; rfl,
      by rw [hd]; rfl, by rw [hd]; rfl, by rw [hd]; rfl, hducked, ?_, by rw [hd]; rfl, by rw [hd]; rfl, by rw [hd]; rfl,
      htarget, hsame, hramp, fun k hk => ?_, rfl, rfl, cancelRequest_requests j _, cancelRequest_flight j _, rfl⟩
    · rw [Voice.unplayed, hd.buffer0, hd.buffer1]
      rfl
    · rw [voiceOf_restartVoice, if_neg hk]

end Sys2Proof.Machine
end

