-- ==== Sys2Proof/Proofs/VoiceContexts.lean ====
section
/-!
The contexts of started, suspended, cut and resumed voices, and the voices that follow a change of duck contributions (O24).
-/
namespace Sys2Proof.Machine
open Relation

/-! ## The applied depth of a group (R45) -/

/-- The depth of a group is the least of its contributors' and 128. -/
theorem leastDepth_spec (s : State) (g : Nat) : leastDepth s g ≤ 128 ∧
    (∀ i : Fin 16, (voiceOf s i).state ≠ .idle → (voiceCue s i).ducks g = true → leastDepth s g ≤ (voiceCue s i).duckDepth) ∧
    (leastDepth s g = 128 ∨ ∃ i : Fin 16, (voiceOf s i).state ≠ .idle ∧ (voiceCue s i).ducks g = true ∧
      leastDepth s g = (voiceCue s i).duckDepth) := by
  have hfold : ∀ (l : List (Fin 16)) (d : Nat),
      let least := l.foldl (fun d i =>
        if (voiceOf s i).state ≠ .idle ∧ (voiceCue s i).ducks g then min d (voiceCue s i).duckDepth else d) d
      least ≤ d ∧ (∀ i ∈ l, (voiceOf s i).state ≠ .idle → (voiceCue s i).ducks g = true → least ≤ (voiceCue s i).duckDepth) ∧
        (least = d ∨ ∃ i : Fin 16, (voiceOf s i).state ≠ .idle ∧ (voiceCue s i).ducks g = true ∧
          least = (voiceCue s i).duckDepth) := by
    intro l
    induction l with
    | nil => exact fun d => ⟨Nat.le_refl d, fun i hi => absurd hi List.not_mem_nil, .inl rfl⟩
    | cons x l ih =>
      intro d
      rw [List.foldl_cons]
      split
      · next hx =>
        obtain ⟨hle, hall, hfrom⟩ := ih (min d (voiceCue s x).duckDepth)
        refine ⟨hle.trans (Nat.min_le_left _ _), fun i hi hs hd => ?_, ?_⟩
        · rcases List.mem_cons.mp hi with rfl | hi
          · exact hle.trans (Nat.min_le_right _ _)
          · exact hall i hi hs hd
        · rcases hfrom with hfrom | hfrom
          · rcases Nat.le_total d (voiceCue s x).duckDepth with hd | hd
            · exact .inl (hfrom.trans (Nat.min_eq_left hd))
            · exact .inr ⟨x, hx.1, hx.2, hfrom.trans (Nat.min_eq_right hd)⟩
          · exact .inr hfrom
      · next hx =>
        obtain ⟨hle, hall, hfrom⟩ := ih d
        refine ⟨hle, fun i hi hs hd => ?_, hfrom⟩
        rcases List.mem_cons.mp hi with rfl | hi
        · exact absurd ⟨hs, hd⟩ hx
        · exact hall i hi hs hd
  obtain ⟨hle, hall, hfrom⟩ := hfold slots 128
  exact ⟨hle, fun i => hall i (mem_slots i), hfrom⟩

theorem appliedDepth_isSome {s : State} {g : Nat} : (appliedDepth s g).isSome = true ↔ 0 < duckCount s g := by
  unfold appliedDepth
  split
  · next h => simp [h]
  · next h => simp [Nat.pos_of_ne_zero h]

theorem CueRecord.ducks_iff (c : CueRecord) (g : Nat) : c.ducks g = true ↔ c.duckMask.getLsbD g = true ∧ c.choke ≠ g := by
  simp [CueRecord.ducks]

/-- A cue does not duck its own choke group (R44). -/
theorem CueRecord.ducks_own (c : CueRecord) : c.ducks c.choke = false := by
  simp [CueRecord.ducks]

/-- The applied depth of a group depends on its count and its contributors. -/
theorem appliedDepth_eq {s t : State} {g : Nat} (hcount : duckCount t g = duckCount s g)
    (hv : ∀ i : Fin 16, ((voiceOf t i).state ≠ .idle ∧ (voiceCue t i).ducks g = true ↔
      (voiceOf s i).state ≠ .idle ∧ (voiceCue s i).ducks g = true) ∧
      ((voiceOf s i).state ≠ .idle ∧ (voiceCue s i).ducks g = true → voiceCue t i = voiceCue s i)) :
    appliedDepth t g = appliedDepth s g := by
  have hleast : leastDepth t g = leastDepth s g := by
    unfold leastDepth
    congr 1
    funext d i
    obtain ⟨hiff, hcue⟩ := hv i
    by_cases h : (voiceOf s i).state ≠ .idle ∧ (voiceCue s i).ducks g = true
    · rw [if_pos h, if_pos (hiff.mpr h), hcue h]
    · rw [if_neg h, if_neg fun ht => h (hiff.mp ht)]
  simp only [appliedDepth, hcount, hleast]

theorem effectiveTarget_le (s : State) (v : Voice) : effectiveTarget s v ≤ 255 := Nat.min_le_left _ _

/-! ## The voices that follow a duck change (R45) -/

/-- A ramp started on a voice, whatever its ducked flag becomes. -/
theorem startRamp_rampsTo (target n : Nat) (v : Voice) (d : Bool) : rampsTo target n v (startRamp target n { v with ducked := d }) := by
  refine ⟨?_, fun hn => startRamp_increment hn⟩
  unfold startRamp
  split
  · next h => subst h; rfl
  · rfl

/-- What a duck change makes of a voice of a group whose applied depth changed. -/
theorem duckVoice_spec (n : Nat) (before s : State) (v : Voice) :
    let w := duckVoice n before s v
    w.ducked = (appliedDepth s (cueRecord s v.cue).choke).isSome ∧
      (v.path = .fade ∨ effectiveTarget s { v with ducked := w.ducked } = targetBefore before v →
        w = { v with ducked := w.ducked }) ∧
      (v.path ≠ .fade → effectiveTarget s { v with ducked := w.ducked } ≠ targetBefore before v →
        rampsTo (effectiveTarget s { v with ducked := w.ducked }) n v w) := by
  intro w
  have hducked : w.ducked = (appliedDepth s (cueRecord s v.cue).choke).isSome := by
    show (duckVoice n before s v).ducked = _
    unfold duckVoice
    dsimp only
    split
    · rfl
    · split
      · rfl
      · exact startRamp_ducked _ _ _
  refine ⟨hducked, fun hkeep => ?_, fun hpath htarget => ?_⟩
  · rw [hducked] at hkeep ⊢
    show duckVoice n before s v = _
    unfold duckVoice
    dsimp only
    by_cases hp : v.path = .fade
    · rw [if_pos hp]
    · rw [if_neg hp, if_pos (hkeep.resolve_left hp)]
  · rw [hducked] at htarget ⊢
    have hw : w = startRamp (effectiveTarget s { v with ducked := (appliedDepth s (cueRecord s v.cue).choke).isSome }) n
        { v with ducked := (appliedDepth s (cueRecord s v.cue).choke).isSome } := by
      show duckVoice n before s v = _
      unfold duckVoice
      dsimp only
      rw [if_neg hpath, if_neg htarget]
    rw [hw]
    exact startRamp_rampsTo _ _ _ _

/-- The voices other than one follow a duck change measured from a state in which they were the same. -/
theorem duckChange_follows {s u : State} (by_ : CueRecord) {i : Fin 16} (htab : u.tables = s.tables)
    (hv : ∀ j, j ≠ i → voiceOf u j = voiceOf s j) : duckFollows s (duckChange s by_ u) by_ i := by
  intro j hj
  have halike := duckChange_alike s by_ u
  have hcue : voiceCue s j = voiceCue u j := by rw [voiceCue, voiceCue, hv j hj, cueRecord_congr htab]
  have hw : voiceOf (duckChange s by_ u) j = duckChanged s by_ u j := voiceOf_duckChange s by_ u j
  have htarget : ∀ v, effectiveTarget (duckChange s by_ u) v = effectiveTarget u v := effectiveTarget_congr halike
  have hdepth : ∀ g, appliedDepth (duckChange s by_ u) g = appliedDepth u g := appliedDepth_congr halike
  dsimp only
  rw [hcue, ← hv j hj, hdepth]
  refine ⟨fun hsame => ?_, fun hidle hg hne => ?_⟩
  · rw [hw, duckChanged]
    exact if_pos (hsame.imp_right fun h => h.imp_right Eq.symm)
  · have hchanged : voiceOf (duckChange s by_ u) j = duckVoice (msFrames by_.duckRamp) s u (voiceOf u j) := by
      rw [hw, duckChanged]
      exact if_neg (by
        rintro (h | h | h)
        · exact hidle h
        · exact hg h
        · exact hne h.symm)
    obtain ⟨hducked, hkeep, hramp⟩ := duckVoice_spec (msFrames by_.duckRamp) s u (voiceOf u j)
    rw [hchanged]
    simp only [htarget]
    refine ⟨?_, hkeep, hramp⟩
    rw [hducked, ← hdepth]
    exact appliedDepth_isSome

/-- A state alike after the change, whose other voices are the same, is followed as well. -/
theorem duckFollows.alike {s t u : State} {by_ : CueRecord} {i : Fin 16} (h : duckFollows s t by_ i) (halike : duckAlike t u)
    (hv : ∀ j, j ≠ i → voiceOf u j = voiceOf t j) : duckFollows s u by_ i := by
  intro j hj
  have := h j hj
  dsimp only at this ⊢
  rwa [hv j hj, appliedDepth_congr halike, effectiveTarget_congr halike, duckCount_congr halike.2.1]

/-- A state alike before the change, whose voices are the same, is followed from as well. -/
theorem duckFollows.from_alike {s t u : State} {by_ : CueRecord} {i : Fin 16} (h : duckFollows s t by_ i)
    (halike : duckAlike s u) (hv : ∀ j, voiceOf u j = voiceOf s j) : duckFollows u t by_ i := by
  intro j hj
  have := h j hj
  have hcue : voiceCue u j = voiceCue s j := by rw [voiceCue, voiceCue, hv, cueRecord_congr halike.1]
  dsimp only at this ⊢
  rwa [hv, hcue, appliedDepth_congr halike, effectiveTarget_congr halike]

theorem duckOnly.walk {v w : Voice} (h : duckOnly v w) : sameWalk v w := by
  unfold sameWalk
  rw [h]

/-! ## A voice that begins in an IDLE slot (R15) -/

theorem beginVoice_follows (i : Fin 16) (v : Voice) (s : State) :
    duckFollows s (beginVoice i v s) (cueRecord s v.cue) i :=
  duckChange_follows (u := raiseDuck (cueRecord s v.cue) (setVoice i v s)) _ rfl fun _ hj => voiceOf_setVoice_other _ _ _ _ hj

theorem beginVoice_duck_iff (i : Fin 16) (v : Voice) (s : State) (g : Fin 15) : (beginVoice i v s).pool.duck[g] =
    if (cueRecord s v.cue).duckMask.getLsbD (g.val + 1) ∧ (cueRecord s v.cue).choke ≠ g.val + 1
    then s.pool.duck[g] + 1 else s.pool.duck[g] := by
  rw [beginVoice_duck]
  simp only [CueRecord.ducks_iff]

/-- A raised count is a count of another group than the cue's own. -/
theorem duckCount_raise {c : CueRecord} {s : State} {g : Nat} (h : c.ducks g = false) : duckCount (raiseDuck c s) g = duckCount s g := by
  unfold duckCount
  split
  · next hg =>
    have := raiseDuck_duck c s ⟨g - 1, by omega⟩
    simp only [Fin.getElem_fin] at this
    rw [this, show g - 1 + 1 = g by omega, if_neg (by simp [h])]
  · rfl

/-- The contribution of a voice that begins in an IDLE slot leaves the depth applied to its own group. -/
theorem appliedDepth_begin {i : Fin 16} {v : Voice} {s : State} (h : (voiceOf s i).state = .idle) :
    appliedDepth (raiseDuck (cueRecord s v.cue) (setVoice i v s)) (cueRecord s v.cue).choke =
      appliedDepth s (cueRecord s v.cue).choke := by
  have hown := CueRecord.ducks_own (cueRecord s v.cue)
  refine appliedDepth_eq ((duckCount_raise hown).trans (duckCount_congr rfl _)) fun j => ?_
  have hvoice : voiceOf (raiseDuck (cueRecord s v.cue) (setVoice i v s)) j = if j = i then v else voiceOf s j := by
    rw [voiceOf_raiseDuck, voiceOf_setVoice]
  have hcue : voiceCue (raiseDuck (cueRecord s v.cue) (setVoice i v s)) j =
      if j = i then cueRecord s v.cue else voiceCue s j := by
    rw [voiceCue, hvoice]
    split
    · rfl
    · rfl
  rw [hvoice, hcue]
  by_cases hj : j = i
  · subst hj
    simp [hown, h]
  · simp [hj]

/-- A voice that begins in an IDLE slot is not itself reached by the change of its duck contributions. -/
theorem voiceOf_beginVoice_same {i : Fin 16} {v : Voice} {s : State} (h : (voiceOf s i).state = .idle) :
    voiceOf (beginVoice i v s) i = v := by
  have hsame : voiceOf (raiseDuck (cueRecord s v.cue) (setVoice i v s)) i = v := by
    rw [voiceOf_raiseDuck, voiceOf_setVoice_same]
  have hcue : voiceCue (raiseDuck (cueRecord s v.cue) (setVoice i v s)) i = cueRecord s v.cue := by
    rw [voiceCue, hsame]
    rfl
  rw [beginVoice, voiceOf_duckChange, duckChanged, hcue, appliedDepth_begin h, hsame]
  exact if_pos (.inr (.inr rfl))

theorem voiceOf_startVoice {i : Fin 16} {s : State} (h : (voiceOf s i).state = .idle) (cue : Nat) (trim : Byte) (order : Word) :
    voiceOf (startVoice i cue trim order s) i = firedVoice s cue trim order := by
  rw [startVoice_eq, voiceOf_beginVoice_same h]

/-- The gain of a voice with an attack ramp from 0 (R42). -/
theorem attackRamp_gain {s : State} {v : Voice} {attack : Nat} (h0 : v.gainNow = 0) :
    let w := startRamp (effectiveTarget s v) (msFrames attack) v
    w.gainTarget = effectiveTarget s w ∧ w.ducked = v.ducked ∧ w.rampLeft = attack * 48 ∧
      w.gainNow = (if attack = 0 then w.gainTarget * 65536 else 0) ∧
      (0 < attack → w.rampIncrement = ((w.gainTarget : Int) * 65536).tdiv ((attack : Int) * 48)) := by
  intro w
  have hd : duckOnly v w := startRamp_duckOnly _ _ _
  have htarget : w.gainTarget = effectiveTarget s v := startRamp_gainTarget _ _ _
  have hducked : w.ducked = v.ducked := startRamp_ducked _ _ _
  refine ⟨?_, hducked, startRamp_rampLeft _ _ _, ?_, fun hpos => ?_⟩
  · rw [htarget, effectiveTarget_voice hd.cue (by rw [hd]) (by rw [hd]) hducked]
  · rw [htarget]
    refine (startRamp_gainNow _ _ _).trans ?_
    by_cases ha : attack = 0
    · simp [msFrames, ha]
    · simp [msFrames, ha, h0]
  · rw [htarget]
    refine (startRamp_increment (by simp only [msFrames]; omega)).trans ?_
    rw [h0, msFrames]
    simp

/-! ## Suspended and cut voices (R13, R40, R46) -/

theorem vacate_follows (i : Fin 16) (s : State) : duckFollows s (vacate i s) (voiceCue s i) i := by
  rw [vacate_eq]
  refine duckChange_follows _ rfl fun j hj => ?_
  rw [voiceOf_silencedSlot, if_neg hj]

theorem vacate_duck_iff (i : Fin 16) (s : State) (g : Fin 15) : (vacate i s).pool.duck[g] =
    if (voiceCue s i).duckMask.getLsbD (g.val + 1) ∧ (voiceCue s i).choke ≠ g.val + 1
    then s.pool.duck[g] - 1 else s.pool.duck[g] := by
  rw [vacate_duck]
  simp only [CueRecord.ducks_iff]

theorem vacate_fetch (i : Fin 16) (s : State) : (vacate i s).fetch = (cancelRequest i s).fetch := by
  rw [vacate_poolOnly i s]

theorem vacate_panel (i : Fin 16) (s : State) : (vacate i s).panel = s.panel := by
  rw [vacate_poolOnly i s]
  rfl

theorem pushStack_tables (e : StackEntry) (s : State) : (pushStack e s).tables = s.tables := by
  unfold pushStack
  split <;> rfl

theorem pushStack_panel (e : StackEntry) (s : State) :
    (pushStack e s).panel = if s.pool.stack.length < 8 then s.panel else s.panel.raise .stackDrop := by
  unfold pushStack
  split <;> rfl

theorem pushStack_alike (e : StackEntry) (s : State) : duckAlike s (pushStack e s) :=
  ⟨pushStack_tables e s, pushStack_duck e s, fun i => by rw [voiceOf_pushStack]; exact ⟨rfl, rfl⟩⟩

theorem suspendable_iff {s : State} {i : Fin 16} : suspendable s i = true ↔
    (voiceOf s i).state ≠ .releasing ∧ ((voiceCue s i).kind = .bed ∨ (voiceCue s i).kind = .applause) := by
  unfold suspendable
  rw [Bool.and_eq_true, decide_eq_true_eq]
  cases (voiceCue s i).kind <;> simp

/-- A raised fault flag is set, and its report is pending where it was clear (R180). -/
theorem raise_spec (p : PanelPort) (f : FaultFlag) :
    (p.raise f).faultSet f = true ∧ (p.faultSet f = false → (p.raise f).faultPending = true) := by
  unfold PanelPort.raise
  split
  · next h => exact ⟨h, fun hclear => absurd h (by simp [hclear])⟩
  · refine ⟨?_, fun _ => rfl⟩
    have hbit : f.mask.getLsbD f.bit = true := by cases f <;> decide
    simp [PanelPort.faultSet, hbit]

/-- What preemption makes of a slot and of the other voices (R13), whether from the state as it is or with an entry pushed. -/
theorem vacate_context (i : Fin 16) {s u : State} (halike : duckAlike u s) (hv : ∀ j, voiceOf s j = voiceOf u j) :
    (voiceOf (vacate i s) i).state = .idle ∧ (voiceOf (vacate i s) i).unplayed = 0 ∧
      (voiceOf (vacate i s) i).cursor = none ∧ (voiceOf (vacate i s) i).gainNow = 0 ∧
      (∀ g : Fin 15, (vacate i s).pool.duck[g] =
        if (voiceCue u i).duckMask.getLsbD (g.val + 1) ∧ (voiceCue u i).choke ≠ g.val + 1
        then u.pool.duck[g] - 1 else u.pool.duck[g]) ∧
      (∀ r ∈ (vacate i s).fetch.requests, r.slot ≠ i) ∧
      (∀ f, (vacate i s).fetch.flight = some f → f.request.slot = i → f.owned = false) ∧
      (∀ j : Fin 16, j ≠ i → sameWalk (voiceOf u j) (voiceOf (vacate i s) j)) ∧ duckFollows u (vacate i s) (voiceCue u i) i := by
  have hidle : voiceOf (vacate i s) i = vacated (voiceOf s i) := voiceOf_vacate_same i s
  have hcue : voiceCue s i = voiceCue u i := by rw [voiceCue, voiceCue, hv, cueRecord_congr halike.1]
  have hback : duckAlike s u := ⟨halike.1.symm, halike.2.1.symm, fun j => by rw [hv]; exact ⟨rfl, rfl⟩⟩
  rw [hidle]
  refine ⟨rfl, rfl, rfl, rfl, fun g => ?_, fun r hr => ?_, fun f hf => ?_, fun j hj => ?_, ?_⟩
  · rw [← hcue, ← halike.2.1]
    exact vacate_duck_iff i s g
  · rw [vacate_fetch] at hr
    exact cancelRequest_requests i s r hr
  · rw [vacate_fetch] at hf
    exact cancelRequest_flight i s f hf
  · rw [← hv]
    exact (voiceOf_vacate_other hj s).walk
  · rw [← hcue]
    exact (vacate_follows i s).from_alike hback fun j => (hv j).symm

/-! ## The slot offered to the suspend stack (R47) -/

theorem resumeCheck_eq_false {s : State} {e : StackEntry} : resumeCheck s e = false ↔
    (cueRecord s e.cue).choke ≠ 0 ∧
      ∃ j : Fin 16, (voiceOf s j).sounding = true ∧ (voiceCue s j).choke = (cueRecord s e.cue).choke := by
  simp [resumeCheck, mem_slots]

/-- The entry that a freed slot takes, from the stack's division at it (R47). -/
theorem popEntry_split {s : State} {e : StackEntry} {rest : List StackEntry} (he : resumeCheck s e = true) :
    ∀ {above : List StackEntry}, (∀ x ∈ above, resumeCheck s x = false) → popEntry s (above ++ e :: rest) = some (e, rest)
  | [], _ => by simp [popEntry, he]
  | x :: above, h => by
    have hx := h x List.mem_cons_self
    have ih := popEntry_split (rest := rest) he (above := above) fun y hy => h y (List.mem_cons_of_mem x hy)
    simp [popEntry, hx, ih]

theorem offerSlot_split (i : Fin 16) {s : State} {e : StackEntry} {above rest : List StackEntry}
    (hstack : s.pool.stack = above ++ e :: rest) (habove : ∀ x ∈ above, resumeCheck s x = false)
    (he : resumeCheck s e = true) : offerSlot i s = resumeVoice i e (withStack rest s) := by
  rw [offerSlot, hstack, popEntry_split he habove]
  rfl

theorem resumedVoice_alike {s : State} {e : StackEntry} (i : Fin 16) (h : (voiceOf s i).cue = e.cue)
    (hstate : (voiceOf s i).state = .resuming) : duckAlike s (setVoice i (resumedVoice s e) s) := by
  have hd := resumedVoice_duckOnly s e
  refine ⟨rfl, rfl, fun j => ?_⟩
  rw [voiceOf_setVoice]
  split
  · next hj => rw [hj, h, hstate, hd.state, hd.cue]; exact ⟨rfl, rfl⟩
  · exact ⟨rfl, rfl⟩

/-- An entry resumes (R34, R47): its context, and what follows its contributions. -/
theorem resumeVoice_context {i : Fin 16} (e : StackEntry) {s : State} (h : (voiceOf s i).state = .idle) :
    let c := cueRecord s e.cue
    let t := resumeVoice i e s
    let w := voiceOf t i
    w.state = .resuming ∧ w.cue = e.cue ∧ w.level = e.level ∧ w.fireOrder = e.fireOrder ∧
      w.trim = e.trim ∧ w.step = e.step ∧ w.pos = e.pos ∧ w.passes = e.passes ∧ w.path = .noPath ∧ w.primed = false ∧
      w.unplayed = 0 ∧ w.cursor = some { step := e.step, pos := e.pos, passes := e.passes } ∧
      (w.ducked = true ↔ 0 < duckCount t c.choke) ∧ w.gainTarget = effectiveTarget t w ∧ w.rampLeft = c.attack * 48 ∧
      w.gainNow = (if c.attack = 0 then w.gainTarget * 65536 else 0) ∧
      (∀ g : Fin 15, t.pool.duck[g] =
        if c.duckMask.getLsbD (g.val + 1) ∧ c.choke ≠ g.val + 1 then s.pool.duck[g] + 1 else s.pool.duck[g]) ∧
      (∀ j : Fin 16, j ≠ i → sameWalk (voiceOf s j) (voiceOf t j)) ∧ duckFollows s t c i := by
  intro c t w
  have ht : t = setVoice i (resumedVoice (beginVoice i (wokenVoice e) s) e) (beginVoice i (wokenVoice e) s) :=
    resumeVoice_eq i e s
  have hbegun := voiceOf_beginVoice_same (v := wokenVoice e) h
  have halike : duckAlike (beginVoice i (wokenVoice e) s) t := by
    rw [ht]
    exact resumedVoice_alike i (by rw [hbegun]; rfl) (by rw [hbegun]; rfl)
  have hw : w = resumedVoice (beginVoice i (wokenVoice e) s) e := by
    show voiceOf t i = _
    rw [ht, voiceOf_setVoice_same]
  have hd : duckOnly (wokenVoice e) w := hw ▸ resumedVoice_duckOnly _ e
  have hcue : cueRecord (beginVoice i (wokenVoice e) s) e.cue = c := cueRecord_congr (beginVoice_tables i _ s) e.cue
  obtain ⟨htarget, hducked, hleft, hnow, -⟩ := attackRamp_gain
    (s := beginVoice i (wokenVoice e) s) (attack := c.attack)
    (v := { wokenVoice e with ducked := (appliedDepth (beginVoice i (wokenVoice e) s) c.choke).isSome }) rfl
  have hramp : w = startRamp (effectiveTarget (beginVoice i (wokenVoice e) s)
      { wokenVoice e with ducked := (appliedDepth (beginVoice i (wokenVoice e) s) c.choke).isSome }) (msFrames c.attack)
      { wokenVoice e with ducked := (appliedDepth (beginVoice i (wokenVoice e) s) c.choke).isSome } := by
    rw [hw, resumedVoice, hcue]
  rw [← hramp] at htarget hducked hleft hnow
  refine ⟨hd.state, hd.cue, by rw [hd]; rfl, by rw [hd]; rfl, by rw [hd]; rfl, by rw [hd]; rfl, by rw [hd]; rfl, by rw [hd]; rfl,
    by rw [hd]; rfl, by rw [hd]; rfl, ?_, by rw [hd]; rfl, ?_, ?_, hleft, hnow, fun g => ?_, fun j hj => ?_, ?_⟩
  · rw [Voice.unplayed, hd.buffer0, hd.buffer1]
    rfl
  · rw [hducked, duckCount_congr halike.2.1]
    exact appliedDepth_isSome
  · rw [effectiveTarget_congr halike]
    exact htarget
  · have hduck : t.pool.duck = (beginVoice i (wokenVoice e) s).pool.duck := halike.2.1
    simp only [hduck]
    exact beginVoice_duck_iff i (wokenVoice e) s g
  · exact (voiceOf_resumeVoice_other hj e s).walk
  · refine (beginVoice_follows i (wokenVoice e) s).alike halike fun j hj => ?_
    rw [ht, voiceOf_setVoice_other _ _ _ _ hj]

/-- The context of a started voice (R15). -/
theorem startVoice_context {i : Fin 16} (cue : Nat) (trim : Byte) (order : Word) {s : State} (h : (voiceOf s i).state = .idle) :
    let c := cueRecord s cue
    let t := startVoice i cue trim order s
    let v := voiceOf t i
    v.state = .priming ∧ v.cue = cue ∧ v.level = c.level ∧ v.fireOrder = order ∧ v.trim = trim ∧ v.step = 0 ∧ v.pos = 0 ∧
      v.passes = c.loopCount ∧ v.path = .noPath ∧ v.primed = false ∧ v.unplayed = 0 ∧
      v.cursor = some { step := 0, pos := 0, passes := c.loopCount } ∧
      (v.ducked = true ↔ 0 < duckCount s c.choke) ∧ v.gainTarget = effectiveTarget s v ∧ v.gainTarget ≤ 255 ∧
      v.rampLeft = c.attack * 48 ∧ v.gainNow = (if c.attack = 0 then v.gainTarget * 65536 else 0) ∧
      (0 < c.attack → v.rampIncrement = ((v.gainTarget : Int) * 65536).tdiv ((c.attack : Int) * 48)) := by
  intro c t v
  have hv : v = firedVoice s cue trim order := voiceOf_startVoice h cue trim order
  have hd : duckOnly (freshVoice s cue trim order) v := hv ▸ firedVoice_duckOnly s cue trim order
  obtain ⟨htarget, hducked, hleft, hnow, hinc⟩ := attackRamp_gain (s := s) (attack := c.attack)
    (v := freshVoice s cue trim order) rfl
  have hramp : v = startRamp (effectiveTarget s (freshVoice s cue trim order)) (msFrames c.attack)
      (freshVoice s cue trim order) := hv
  rw [← hramp] at htarget hducked hleft hnow hinc
  refine ⟨hd.state, hd.cue, by rw [hd]; rfl, by rw [hd]; rfl, by rw [hd]; rfl, by rw [hd]; rfl, by rw [hd]; rfl, by rw [hd]; rfl,
    by rw [hd]; rfl, by rw [hd]; rfl, ?_, by rw [hd]; rfl, ?_, htarget, ?_, hleft, hnow, hinc⟩
  · rw [Voice.unplayed, hd.buffer0, hd.buffer1]
    rfl
  · rw [hducked]
    exact appliedDepth_isSome
  · rw [htarget]
    exact effectiveTarget_le s v

/-- Settles O24. -/
theorem voiceStartSetsContext : Obligations.VoiceStartSetsContext := by
  refine ⟨fun i cue trim order s h => ?_, fun i s h => ?_, fun g s => ⟨fun h0 => ?_, fun hpos => ?_⟩, fun i s h => ⟨fun hall => ?_, ?_⟩⟩
  · obtain ⟨h1, h2, h3, h4, h5, h6, h7, h8, h9, h10, h11, h12, h13, h14, h15, h16, h17, h18⟩ :=
      startVoice_context cue trim order h
    have hcue := (firedVoice_duckOnly s cue trim order).cue
    refine ⟨h1, h2, h3, h4, h5, h6, h7, h8, h9, h10, h11, h12, h13, h14, h15, h16, h17, h18, fun g => ?_, fun j hj => ?_, ?_, ?_, ?_⟩
    · have := beginVoice_duck_iff i (firedVoice s cue trim order) s g
      rwa [← startVoice_eq, hcue] at this
    · have hother := beginVoice_other hj (firedVoice s cue trim order) s
      rw [← startVoice_eq] at hother
      exact ⟨hother.state, by rw [hother]⟩
    · have := beginVoice_follows i (firedVoice s cue trim order) s
      rwa [← startVoice_eq, hcue] at this
    · rw [startVoice_eq, beginVoice_stack]
    · rw [startVoice_eq]
      exact beginVoice_poolOnly i _ s
  · have hcut : suspendable s i = false → preempt i s = vacate i s := fun hs => by simp [preempt, hs]
    have hsusp : suspendable s i = true → preempt i s = vacate i (pushStack (suspendedEntry s i) s) := fun hs => by
      simp [preempt, hs, suspendVoice_eq]
    have hnot : (voiceOf s i).state = .releasing ∨ ¬ ((voiceCue s i).kind = .bed ∨ (voiceCue s i).kind = .applause) →
        suspendable s i = false := fun hwhy => by
      rw [Bool.eq_false_iff, ne_eq, suspendable_iff]
      tauto
    have hcontext := vacate_context i (duckAlike.refl s) fun _ => rfl
    have hpushed := vacate_context i (pushStack_alike (suspendedEntry s i) s) fun j => voiceOf_pushStack _ s j
    refine ⟨fun hwhy => ?_, fun hwhy => ?_, ?_⟩
    · rw [hsusp (suspendable_iff.mpr hwhy), vacate_stack, pushStack_stack, vacate_panel, pushStack_panel]
      refine ⟨rfl, fun hroom => if_pos hroom, fun hfull => ?_⟩
      rw [if_neg (by omega)]
      exact raise_spec _ _
    · rw [hcut (hnot hwhy), vacate_stack, vacate_panel]
      exact ⟨rfl, rfl⟩
    · cases hs : suspendable s i with
      | true =>
        rw [hsusp hs]
        obtain ⟨h1, h2, h3, h4, h5, h6, h7, h8, h9⟩ := hpushed
        exact ⟨h1, h2, h3, h4, h5, h6, h7, h8, h9, fun hwhy => Bool.noConfusion ((hnot hwhy).symm.trans hs)⟩
      | false =>
        rw [hcut hs]
        obtain ⟨h1, h2, h3, h4, h5, h6, h7, h8, h9⟩ := hcontext
        exact ⟨h1, h2, h3, h4, h5, h6, h7, h8, h9, fun _ => rfl⟩
  · rw [appliedDepth, if_pos h0]
  · obtain ⟨hle, hall, hfrom⟩ := leastDepth_spec s g
    simp only [CueRecord.ducks_iff] at hall hfrom
    refine ⟨leastDepth s g, by rw [appliedDepth, if_neg (by omega)], hle, fun i hi => hall i hi.1 hi.2, ?_⟩
    exact hfrom.imp_right fun ⟨i, h1, h2, h3⟩ => ⟨i, ⟨h1, h2⟩, h3⟩
  · have hnone : popEntry s s.pool.stack = none := popEntry_none.mpr fun e he => resumeCheck_eq_false.mpr (hall e he)
    rw [offerSlot, hnone]
  · intro above e rest hstack habove he
    have hpass : resumeCheck s e = true := by
      rw [← Bool.not_eq_false, resumeCheck_eq_false]
      exact he
    have hoffer := offerSlot_split i hstack (fun x hx => resumeCheck_eq_false.mpr (habove x hx)) hpass
    obtain ⟨h1, h2, h3, h4, h5, h6, h7, h8, h9, h10, h11, h12, h13, h14, h15, h16, h17, h18, h19⟩ :=
      resumeVoice_context (i := i) e (s := withStack rest s) h
    dsimp only
    rw [hoffer]
    refine ⟨resumeVoice_stack i e _, h1, h2, h3, h4, h5, h6, h7, h8, h9, h10, h11, h12, h13, h14, h15, h16, h17, h18, ?_, ?_⟩
    · exact h19.from_alike ⟨rfl, rfl, fun _ => ⟨rfl, rfl⟩⟩ fun _ => rfl
    · exact (withStack_poolOnly rest s).trans (resumeVoice_poolOnly i e _)

end Sys2Proof.Machine
end

