-- ==== Sys2Proof/Proofs/SlotTurns.lean ====
section
/-!
SUPPORT. The turn of one slot in an event that goes through all slots, and the voices that it passes by.
-/
namespace Sys2Proof.Machine
open Relation

/-! ## The voices that an event does not name -/

/-- A voice that an event passes by: it keeps its walk, on the FADE path its fade too, and IDLE it is untouched. -/
def bystander (v w : Voice) : Prop :=
  sameWalk v w ∧ (v.path = .fade → w.gainTarget = v.gainTarget ∧ w.rampLeft = v.rampLeft ∧ w.gainNow = v.gainNow) ∧
    (v.state = .idle → w = v)

theorem sameWalk.state {v w : Voice} (h : sameWalk v w) : w.state = v.state := by rw [h]
theorem sameWalk.cue {v w : Voice} (h : sameWalk v w) : w.cue = v.cue := by rw [h]
theorem sameWalk.path {v w : Voice} (h : sameWalk v w) : w.path = v.path := by rw [h]
theorem sameWalk.sounding {v w : Voice} (h : sameWalk v w) : w.sounding = v.sounding := by rw [h]; rfl
theorem sameWalk.unplayed {v w : Voice} (h : sameWalk v w) : w.unplayed = v.unplayed := by rw [h]; rfl

theorem sameWalk.refl (v : Voice) : sameWalk v v := rfl

theorem sameWalk.trans {u v w : Voice} (h : sameWalk u v) (k : sameWalk v w) : sameWalk u w := by
  unfold Machine.sameWalk at *
  rw [k, h]

theorem bystander.refl (v : Voice) : bystander v v := ⟨sameWalk.refl v, fun _ => ⟨rfl, rfl, rfl⟩, fun _ => rfl⟩

theorem bystander.trans {u v w : Voice} (h : bystander u v) (k : bystander v w) : bystander u w := by
  obtain ⟨hwalk, hfade, hidle⟩ := h
  obtain ⟨kwalk, kfade, kidle⟩ := k
  refine ⟨hwalk.trans kwalk, fun hp => ?_, fun hs => ?_⟩
  · obtain ⟨h1, h2, h3⟩ := hfade hp
    obtain ⟨k1, k2, k3⟩ := kfade (hwalk.path.trans hp)
    exact ⟨k1.trans h1, k2.trans h2, k3.trans h3⟩
  · exact (kidle (hwalk.state.trans hs)).trans (hidle hs)

theorem duckChanged_bystander (before : State) (c : CueRecord) (s : State) (i : Fin 16) :
    bystander (voiceOf s i) (duckChanged before c s i) := by
  refine ⟨(duckChanged_duckOnly before c s i).walk, fun hp => ?_, fun hs => duckChanged_of_idle hs⟩
  unfold duckChanged duckVoice
  dsimp only
  split
  · exact ⟨rfl, rfl, rfl⟩
  · exact ⟨rfl, rfl, rfl⟩

theorem duckChange_bystander (before : State) (c : CueRecord) (s : State) (j : Fin 16) :
    bystander (voiceOf s j) (voiceOf (duckChange before c s) j) := by
  rw [voiceOf_duckChange]
  exact duckChanged_bystander before c s j

/-- A cursor moved by a request that was placed (R54). -/
theorem bystander_of_cursor (v : Voice) (hs : v.state ≠ .idle) (cur : Option Cursor) (count : Word) :
    bystander v { v with cursor := cur, cursorCount := count } :=
  ⟨rfl, fun _ => ⟨rfl, rfl, rfl⟩, fun h => absurd h hs⟩

/-! ## One slot's turn -/

/-- What the turn of a slot leaves: it reaches nothing but the pool and the requests, takes entries from the top of the suspend
stack alone, and passes every other slot by. -/
structure SlotTurn (i : Fin 16) (s t : State) : Prop where
  frame : t = { s with pool := t.pool, fetch := t.fetch } := by rfl
  stack : t.pool.stack <:+ s.pool.stack := by exact List.suffix_refl _
  others : ∀ j, j ≠ i → bystander (voiceOf s j) (voiceOf t j)

theorem SlotTurn.refl (i : Fin 16) (s : State) : SlotTurn i s s := { others := fun _ _ => bystander.refl _ }

theorem SlotTurn.trans {i : Fin 16} {s t u : State} (h : SlotTurn i s t) (k : SlotTurn i t u) : SlotTurn i s u where
  frame := by rw [k.frame, h.frame]
  stack := k.stack.trans h.stack
  others j hj := (h.others j hj).trans (k.others j hj)

theorem SlotTurn.tables {i : Fin 16} {s t : State} (h : SlotTurn i s t) : t.tables = s.tables := by rw [h.frame]
theorem SlotTurn.outputs {i : Fin 16} {s t : State} (h : SlotTurn i s t) : t.outputs = s.outputs := by rw [h.frame]

theorem setVoice_turn (i : Fin 16) (v : Voice) (s : State) : SlotTurn i s (setVoice i v s) where
  others j hj := by
    rw [voiceOf_setVoice_other _ _ _ _ hj]
    exact bystander.refl _

theorem cancelRequest_turn (i j : Fin 16) (s : State) : SlotTurn i s (cancelRequest j s) where
  others _ _ := bystander.refl _

theorem duckChange_turn (i : Fin 16) (before : State) (c : CueRecord) (s : State) : SlotTurn i s (duckChange before c s) where
  frame := by rw [duckChange_poolOnly before c s]
  stack := by rw [duckChange_stack]
  others j _ := duckChange_bystander before c s j

theorem lowerDuck_turn (i : Fin 16) (c : CueRecord) (s : State) : SlotTurn i s (lowerDuck c s) where
  others _ _ := bystander.refl _

theorem raiseDuck_turn (i : Fin 16) (c : CueRecord) (s : State) : SlotTurn i s (raiseDuck c s) where
  others _ _ := bystander.refl _

theorem vacate_turn (i : Fin 16) (s : State) : SlotTurn i s (vacate i s) := by
  rw [vacate_eq]
  exact (setVoice_turn i _ s).trans ((cancelRequest_turn i i _).trans ((lowerDuck_turn i _ _).trans (duckChange_turn i _ _ _)))

theorem beginVoice_turn (i : Fin 16) (v : Voice) (s : State) : SlotTurn i s (beginVoice i v s) :=
  (setVoice_turn i v s).trans ((raiseDuck_turn i _ _).trans (duckChange_turn i _ _ _))

theorem resumeVoice_turn (i : Fin 16) (e : StackEntry) (s : State) : SlotTurn i s (resumeVoice i e s) := by
  rw [resumeVoice_eq]
  exact (beginVoice_turn i _ s).trans (setVoice_turn i _ _)

theorem withStack_turn (i : Fin 16) {l : List StackEntry} {s : State} (h : l <:+ s.pool.stack) :
    SlotTurn i s (withStack l s) where
  stack := h
  others _ _ := bystander.refl _

theorem offerSlot_turn (i : Fin 16) (s : State) : SlotTurn i s (offerSlot i s) := by
  rcases offerSlot_cases i s with ⟨-, h⟩ | ⟨e, above, rest, hstack, -, -, h⟩ <;> rw [h]
  · exact withStack_turn i (List.nil_suffix)
  · refine (withStack_turn i ?_).trans (resumeVoice_turn i e _)
    rw [hstack]
    exact ⟨above ++ [e], by simp⟩

theorem endVoice_turn (i : Fin 16) (s : State) : SlotTurn i s (endVoice i s) := (vacate_turn i s).trans (offerSlot_turn i _)

theorem releaseTail_turn (i : Fin 16) (s : State) : SlotTurn i s (releaseTail i s) := by
  unfold releaseTail
  dsimp only
  split
  · split
    · exact (setVoice_turn i _ s).trans (cancelRequest_turn i i _)
    · exact endVoice_turn i s
  · split
    · exact setVoice_turn i _ s
    · exact (setVoice_turn i _ s).trans (cancelRequest_turn i i _)
  · split
    · exact setVoice_turn i _ s
    · exact (setVoice_turn i _ s).trans (cancelRequest_turn i i _)
  · exact SlotTurn.refl i s
  · exact SlotTurn.refl i s

theorem releaseFade_turn (i : Fin 16) (s : State) : SlotTurn i s (releaseFade i s) := by
  unfold releaseFade
  dsimp only
  split
  · exact endVoice_turn i s
  · exact setVoice_turn i _ s
  · exact setVoice_turn i _ s
  · exact SlotTurn.refl i s
  · exact SlotTurn.refl i s

theorem releaseVoice_turn (mode : ReleaseMode) (i : Fin 16) (s : State) : SlotTurn i s (releaseVoice mode i s) := by
  cases mode with
  | tail => exact releaseTail_turn i s
  | fade => exact releaseFade_turn i s

theorem releaseByMode_turn (mode : Byte) (i : Fin 16) (s : State) : SlotTurn i s (releaseByMode mode i s) := by
  unfold releaseByMode
  split
  · exact releaseTail_turn i s
  · split
    · exact releaseFade_turn i s
    · split
      · exact endVoice_turn i s
      · exact releaseVoice_turn _ i s

/-! ## The turns of all slots -/

/-- A run of turns leaves a slot that has no turn in it a bystander. -/
theorem foldl_turns {f : State → Fin 16 → State} (hf : ∀ s i, SlotTurn i s (f s i)) : ∀ (l : List (Fin 16)) (s : State),
    (l.foldl f s = { s with pool := (l.foldl f s).pool, fetch := (l.foldl f s).fetch }) ∧
      (l.foldl f s).pool.stack <:+ s.pool.stack ∧
      ∀ j, j ∉ l → bystander (voiceOf s j) (voiceOf (l.foldl f s) j)
  | [], s => ⟨rfl, List.suffix_refl _, fun _ _ => bystander.refl _⟩
  | x :: l, s => by
    obtain ⟨hframe, hstack, hothers⟩ := foldl_turns hf l (f s x)
    have hx := hf s x
    rw [List.foldl_cons]
    refine ⟨?_, hstack.trans hx.stack, fun j hj => ?_⟩
    · rw [hframe, hx.frame]
    · exact (hx.others j (List.ne_of_not_mem_cons hj)).trans (hothers j (List.not_mem_of_not_mem_cons hj))

/-- The turn of a slot in a run of turns: the state in which it comes has passed the slot by, and so do the turns after it. -/
theorem foldl_turn_of_mem {f : State → Fin 16 → State} (hf : ∀ s i, SlotTurn i s (f s i)) : ∀ (l : List (Fin 16)) (s : State),
    l.Nodup → ∀ i ∈ l, ∃ u, u = { s with pool := u.pool, fetch := u.fetch } ∧ u.pool.stack <:+ s.pool.stack ∧
      bystander (voiceOf s i) (voiceOf u i) ∧ bystander (voiceOf (f u i) i) (voiceOf (l.foldl f s) i)
  | [], _, _, i, hi => absurd hi List.not_mem_nil
  | x :: l, s, hnodup, i, hi => by
    obtain ⟨hx, hl⟩ := List.nodup_cons.mp hnodup
    by_cases hix : i = x
    · subst hix
      exact ⟨s, rfl, List.suffix_refl _, bystander.refl _, (foldl_turns hf l (f s i)).2.2 i hx⟩
    · obtain ⟨u, hframe, hstack, hbefore, hafter⟩ :=
        foldl_turn_of_mem hf l (f s x) hl i ((List.mem_cons.mp hi).resolve_left hix)
      have hturn := hf s x
      refine ⟨u, ?_, hstack.trans hturn.stack, (hturn.others i hix).trans hbefore, hafter⟩
      rw [hframe, hturn.frame]

/-- The turn of a slot among the turns of all slots in ascending order. -/
theorem slots_turn {f : State → Fin 16 → State} (hf : ∀ s i, SlotTurn i s (f s i)) (s : State) (i : Fin 16) :
    ∃ u, u = { s with pool := u.pool, fetch := u.fetch } ∧ u.pool.stack <:+ s.pool.stack ∧
      bystander (voiceOf s i) (voiceOf u i) ∧ bystander (voiceOf (f u i) i) (voiceOf (slots.foldl f s) i) :=
  foldl_turn_of_mem hf slots s slots_nodup i (mem_slots i)

/-- An event that discards stack entries and then gives each slot that a test names its turn: the state in which a named slot's
turn comes, and the slots that are not named. -/
theorem swept_slot {named : State → Fin 16 → Bool} {act : State → Fin 16 → State} (hact : ∀ s i, SlotTurn i s (act s i))
    (test : StackEntry → Bool) {s : State} {i : Fin 16}
    (hnamed : ∀ u : State, u.tables = s.tables → u.outputs = s.outputs → sameWalk (voiceOf s i) (voiceOf u i) →
      named u i = named s i) :
    (named s i = true → ∃ u : State, u.tables = s.tables ∧ (∀ x ∈ u.pool.stack, x ∈ (purgeStack test s).pool.stack) ∧
      bystander (voiceOf s i) (voiceOf u i) ∧ bystander (voiceOf (act u i) i)
        (voiceOf (slots.foldl (fun t j => if named t j then act t j else t) (purgeStack test s)) i)) ∧
    (named s i = false → bystander (voiceOf s i)
      (voiceOf (slots.foldl (fun t j => if named t j then act t j else t) (purgeStack test s)) i)) := by
  have hturn : ∀ t j, SlotTurn j t (if named t j then act t j else t) := fun t j => by
    split
    · exact hact t j
    · exact SlotTurn.refl j t
  obtain ⟨u, hframe, hstack, hbefore, hafter⟩ := slots_turn hturn (purgeStack test s) i
  have htab : u.tables = s.tables := by rw [hframe]; rfl
  rw [hnamed u htab (by rw [hframe]; rfl) hbefore.1] at hafter
  refine ⟨fun hn => ⟨u, htab, fun _ hx => hstack.mem hx, hbefore, ?_⟩, fun hn => ?_⟩
  · rwa [if_pos hn] at hafter
  · rw [hn] at hafter
    exact hbefore.trans hafter

/-- Such an event reaches the pool and the requests alone, and keeps entries that it does not discard, from the bottom up. -/
theorem swept_reach {named : State → Fin 16 → Bool} {act : State → Fin 16 → State} (hact : ∀ s i, SlotTurn i s (act s i))
    (test : StackEntry → Bool) (s : State) (t : State)
    (ht : t = slots.foldl (fun t j => if named t j then act t j else t) (purgeStack test s)) :
    t = { s with pool := t.pool, fetch := t.fetch } ∧ t.pool.stack <:+ s.pool.stack.filter fun x => !test x := by
  have hturn : ∀ t j, SlotTurn j t (if named t j then act t j else t) := fun t j => by
    split
    · exact hact t j
    · exact SlotTurn.refl j t
  obtain ⟨hframe, hstack, -⟩ := foldl_turns hturn slots (purgeStack test s)
  subst ht
  exact ⟨hframe, hstack⟩

/-! ## Requests and grants (R54, R55) -/

theorem placeBlock_turn {i : Fin 16} {cur : Cursor} {s : State} (hs : (voiceOf s i).state ≠ .idle) :
    SlotTurn i s (placeBlock i (voiceOf s i) cur s) ∧
      bystander (voiceOf s i) (voiceOf (placeBlock i (voiceOf s i) cur s) i) := by
  unfold placeBlock
  dsimp only
  split
  · exact ⟨SlotTurn.refl i s, bystander.refl _⟩
  · refine ⟨{ others := fun j hj => ?_ }, ?_⟩
    · rw [voiceOf_setVoice_other _ _ _ _ hj]
      exact bystander.refl _
    · rw [voiceOf_setVoice_same]
      obtain ⟨count, hw⟩ := catchUp_altered (voiceOf s i) cur
      rw [hw]
      exact bystander_of_cursor _ hs _ _

theorem placeRequest_turn (i : Fin 16) (s : State) : SlotTurn i s (placeRequest i s) ∧
    bystander (voiceOf s i) (voiceOf (placeRequest i s) i) := by
  unfold placeRequest
  dsimp only
  split
  · exact ⟨SlotTurn.refl i s, bystander.refl _⟩
  · next h =>
    simp only [Bool.or_eq_true, decide_eq_true_eq, not_or] at h
    split
    · exact ⟨SlotTurn.refl i s, bystander.refl _⟩
    · exact placeBlock_turn h.1.1

theorem grant_turn (i : Fin 16) (s : State) : SlotTurn i s (grant s) where
  frame := by
    unfold grant
    split
    · rfl
    · split <;> rfl
  stack := by
    unfold grant
    split
    · exact List.suffix_refl _
    · split <;> exact List.suffix_refl _
  others j _ := by
    have hv : voiceOf (grant s) j = voiceOf s j := by
      unfold grant
      split
      · rfl
      · split <;> rfl
    rw [hv]
    exact bystander.refl _

theorem voiceOf_grant (s : State) (i : Fin 16) : voiceOf (grant s) i = voiceOf s i := by
  unfold grant
  split
  · rfl
  · split <;> rfl

/-- The requests placed at the end of an event, and the grant, pass every voice by. -/
theorem fetchSettle_passes (s : State) (i : Fin 16) : bystander (voiceOf s i) (voiceOf (fetchSettle s) i) := by
  obtain ⟨u, -, -, hbefore, hafter⟩ := slots_turn (fun t j => (placeRequest_turn j t).1) s i
  rw [fetchSettle, voiceOf_grant]
  exact hbefore.trans ((placeRequest_turn i u).2.trans hafter)

theorem fetchSettle_poolFetch (s : State) :
    fetchSettle s = { s with pool := (fetchSettle s).pool, fetch := (fetchSettle s).fetch } := by
  have h := (foldl_turns (fun t j => (placeRequest_turn j t).1) slots s).1
  have hg := (grant_turn 0 (slots.foldl (fun t i => placeRequest i t) s)).frame
  rw [fetchSettle, hg, h]

theorem fetchSettle_stack (s : State) : (fetchSettle s).pool.stack = s.pool.stack := by
  have hgrant : ∀ u : State, (grant u).pool.stack = u.pool.stack := fun u => by
    unfold grant
    split
    · rfl
    · split <;> rfl
  have hplace : ∀ (u : State) (i : Fin 16), (placeRequest i u).pool.stack = u.pool.stack := fun u i => by
    unfold placeRequest placeBlock
    dsimp only
    split
    · rfl
    · split
      · rfl
      · split <;> rfl
  have hfold : ∀ (l : List (Fin 16)) (u : State), (l.foldl (fun t i => placeRequest i t) u).pool.stack = u.pool.stack := by
    intro l
    induction l with
    | nil => exact fun _ => rfl
    | cons x l ih => exact fun u => (ih _).trans (hplace u x)
  rw [fetchSettle, hgrant, hfold]

end Sys2Proof.Machine
end

