-- ==== Sys2Proof/Proofs/Releases.lean ====
section
/-!
What a release makes of a voice, by mode and state, and of the voices of a choke group (O21).
-/
namespace Sys2Proof.Machine
open Relation

/-! ## One release (R35 to R38, R40) -/

/-- The end of a voice leaves its slot IDLE with what it last showed, or an entry of the stack in it. -/
theorem endVoice_ended (i : Fin 16) (s : State) : endedVoice s (voiceOf s i) (voiceOf (endVoice i s) i) := by
  have hvacated := voiceOf_vacate_same i s
  rw [endVoice]
  rcases offerSlot_cases i (vacate i s) with ⟨-, h⟩ | ⟨e, above, rest, hstack, -, -, h⟩ <;> rw [h]
  · rw [voiceOf_withStack, hvacated]
    exact .inl ⟨rfl, rfl, rfl, rfl, rfl, rfl, rfl, rfl, rfl, rfl, rfl, rfl, rfl, rfl⟩
  · have hd := voiceOf_resumeVoice_same i e (withStack rest (vacate i s))
    rw [vacate_stack] at hstack
    refine .inr ⟨hd.state, e, by rw [hstack]; simp, hd.cue, by rw [hd]; rfl, by rw [hd]; rfl, by rw [hd]; rfl, by rw [hd]; rfl,
      by rw [hd]; rfl, by rw [hd]; rfl, by rw [hd]; rfl, ?_⟩
    rw [Voice.unplayed, hd.buffer0, hd.buffer1]
    rfl

theorem keptRun_trim (b : Buffer) (play : Word) (rest : Nat) : keptRun b (b.trim play rest) play rest := ⟨rfl, rfl⟩

/-- A voice that leaves its walk for the tail is as it was, but for its buffers and its cursor (R35, R59). -/
theorem realign_spec (s : State) (v : Voice) :
    let rest := (stepRecord s (cueRecord s v.cue) v.step).length - v.pos
    realign s v = { v with
      buffer0 := v.buffer0.trim v.playCount rest, buffer1 := v.buffer1.trim v.playCount rest
      cursorCount := (realign s v).cursorCount, cursor := (realign s v).cursor } := by
  unfold realign
  dsimp only
  split <;> rfl

theorem inTail_iff (c : CueRecord) (step : Nat) : c.inTail step = true ↔ c.loopLast < step := by simp [CueRecord.inTail]

theorem hasTail_iff (c : CueRecord) : c.hasTail = true ↔ c.loopLast + 1 < c.stepCount := by simp [CueRecord.hasTail]

/-- The TAIL release of a PRIMING voice (R36). -/
theorem releaseTail_priming {i : Fin 16} {s : State} (h : (voiceOf s i).state = .priming) : releaseTail i s =
    if (voiceCue s i).hasTail then
      cancelRequest i (setVoice i
        { voiceOf s i with
          state := .releasing, path := .tail, primed := false, tailGlide := true, step := (voiceCue s i).loopLast + 1, pos := 0,
          passes := 0, buffer0 := Buffer.empty, buffer1 := Buffer.empty, playCount := 0, cursorCount := 0,
          cursor := some { step := (voiceCue s i).loopLast + 1, pos := 0, passes := 0 } } s)
    else endVoice i s := by
  simp only [releaseTail, h]
  rfl

/-- The TAIL release of a voice on its walk (R35). -/
theorem releaseTail_walking {i : Fin 16} {s : State} (h : (voiceOf s i).state = .playing ∨ (voiceOf s i).state = .resuming) :
    releaseTail i s =
      if (voiceCue s i).inTail (voiceOf s i).step then setVoice i { voiceOf s i with state := .releasing, path := .tail } s
      else cancelRequest i (setVoice i { realign s (voiceOf s i) with state := .releasing, path := .tail } s) := by
  rcases h with h | h
  · simp only [releaseTail, h]
    rfl
  · simp only [releaseTail, h]
    rfl

/-- The FADE release of a voice on its walk, before its ramp is written (R38). -/
def fadedVoice (s : State) (i : Fin 16) : Voice :=
  startRamp 0 (msFrames (voiceCue s i).releaseTime) { voiceOf s i with state := .releasing, path := .fade }

theorem releaseFade_walking {i : Fin 16} {s : State} (h : (voiceOf s i).state = .playing ∨ (voiceOf s i).state = .resuming) :
    releaseFade i s = setVoice i (fadedVoice s i) s := by
  rcases h with h | h
  · simp only [releaseFade, h]
    rfl
  · simp only [releaseFade, h]
    rfl

theorem releaseFade_priming {i : Fin 16} {s : State} (h : (voiceOf s i).state = .priming) : releaseFade i s = endVoice i s := by
  simp only [releaseFade, h]

theorem fadedVoice_eq (s : State) (i : Fin 16) : fadedVoice s i = { voiceOf s i with
    state := .releasing, path := .fade, gainTarget := 0, rampLeft := (voiceCue s i).releaseTime * 48
    gainNow := if (voiceCue s i).releaseTime = 0 then 0 else (voiceOf s i).gainNow
    rampIncrement := (fadedVoice s i).rampIncrement } := by
  unfold fadedVoice startRamp msFrames
  by_cases h : (voiceCue s i).releaseTime = 0
  · simp [h]
  · simp [h]

/-- The states of a sounding voice. -/
theorem Voice.sounding_iff (v : Voice) : v.sounding = true ↔ v.state = .priming ∨ v.state = .playing ∨ v.state = .resuming := by
  unfold Voice.sounding
  cases v.state <;> simp

theorem releaseTail_releasedBy {i : Fin 16} (s : State) : releasedBy s .tail (voiceOf s i) (voiceOf (releaseTail i s) i) := by
  refine ⟨fun h hwhy => ?_, fun h _ htail => ?_, fun h => ?_⟩
  · have hno : (voiceCue s i).hasTail = false := by
      rw [Bool.eq_false_iff, ne_eq, hasTail_iff]
      rcases hwhy with hwhy | hwhy
      · contradiction
      · exact Nat.not_lt_of_le hwhy
    rw [releaseTail_priming h, if_neg (by simp [hno])]
    exact endVoice_ended i s
  · rw [releaseTail_priming h, if_pos (show (voiceCue s i).hasTail = true from (hasTail_iff _).mpr htail), voiceOf_cancelRequest, voiceOf_setVoice_same]
    exact ⟨rfl, rfl, rfl, rfl, rfl, rfl, rfl, rfl, rfl, rfl⟩
  · rw [releaseTail_walking h]
    split
    · next hin =>
      rw [inTail_iff] at hin
      rw [voiceOf_setVoice_same]
      exact ⟨rfl, rfl, rfl, rfl, rfl, rfl, rfl, (fun hm => nomatch hm),
        fun _ => ⟨rfl, fun _ => ⟨rfl, rfl⟩, fun hle => absurd hin (Nat.not_lt_of_le hle)⟩⟩
    · next hin =>
      rw [inTail_iff] at hin
      have hr := realign_spec s (voiceOf s i)
      rw [voiceOf_cancelRequest, voiceOf_setVoice_same, hr]
      exact ⟨rfl, rfl, rfl, rfl, rfl, rfl, rfl, (fun hm => nomatch hm),
        fun _ => ⟨rfl, fun hlt => absurd hlt hin, fun _ => ⟨keptRun_trim _ _ _, keptRun_trim _ _ _⟩⟩⟩

theorem releaseFade_releasedBy {i : Fin 16} (s : State) : releasedBy s .fade (voiceOf s i) (voiceOf (releaseFade i s) i) := by
  refine ⟨fun h _ => ?_, (fun _ hm => nomatch hm), fun h => ?_⟩
  · rw [releaseFade_priming h]
    exact endVoice_ended i s
  · rw [releaseFade_walking h, voiceOf_setVoice_same, fadedVoice_eq]
    exact ⟨rfl, rfl, rfl, rfl, rfl, rfl, rfl, fun _ => ⟨rfl, rfl, rfl, fun h0 => if_pos h0, rfl, rfl⟩, (fun hm => nomatch hm)⟩

theorem releaseVoice_releasedBy (mode : ReleaseMode) (i : Fin 16) (s : State) :
    releasedBy s mode (voiceOf s i) (voiceOf (releaseVoice mode i s) i) := by
  cases mode with
  | tail => exact releaseTail_releasedBy s
  | fade => exact releaseFade_releasedBy s

/-! ## A release among other turns -/

theorem bystander.ended {s u : State} {v v' x w : Voice} (hbefore : bystander v v') (hafter : bystander x w)
    (hstack : ∀ e ∈ u.pool.stack, e ∈ s.pool.stack) (h : endedVoice u v' x) : endedVoice s v w := by
  obtain ⟨hwalk, -, -⟩ := hbefore
  obtain ⟨kwalk, -, kidle⟩ := hafter
  rcases h with ⟨hs, h1, h2, h3, h4, h5, h6, h7, h⟩ | ⟨hs, e, he, h1, h2, h3, h4, h5, h6, h7, h8, h9⟩
  · obtain rfl := kidle hs
    exact .inl ⟨hs, h1.trans (by rw [hwalk]), h2.trans (by rw [hwalk]), h3.trans (by rw [hwalk]), h4.trans (by rw [hwalk]),
      h5.trans (by rw [hwalk]), h6.trans (by rw [hwalk]), h7.trans (by rw [hwalk]), h⟩
  · refine .inr ⟨kwalk.state.trans hs, e, hstack e he, kwalk.cue.trans h1, ?_⟩
    rw [kwalk]
    exact ⟨h2, h3, h4, h5, h6, h7, h8, h9⟩

theorem bystander.released {s u : State} {mode : ReleaseMode} {v v' x w : Voice} (htab : u.tables = s.tables)
    (hstack : ∀ e ∈ u.pool.stack, e ∈ s.pool.stack) (hbefore : bystander v v') (hafter : bystander x w)
    (h : releasedBy u mode v' x) : releasedBy s mode v w := by
  obtain ⟨hend, htail, hwalking⟩ := h
  have hended := fun (k : v.state = .priming) why => hbefore.ended hafter hstack (hend (hbefore.1.state.trans k) why)
  obtain ⟨hwalk, -, -⟩ := hbefore
  obtain ⟨kwalk, kfade, -⟩ := hafter
  have hcue : cueRecord u v'.cue = cueRecord s v.cue := by rw [hwalk.cue, cueRecord_congr htab]
  have hrest : (stepRecord u (cueRecord s v.cue) v'.step).length - v'.pos =
      (stepRecord s (cueRecord s v.cue) v.step).length - v.pos := by rw [stepRecord_congr htab, hwalk]
  simp only [hcue, hrest] at hended htail hwalking
  refine ⟨hended, fun h hm hlt => ?_, fun h => ?_⟩
  · obtain ⟨h1, h2, h3, h4, h5, h6, h7, h8, h9, h10⟩ := htail (by rw [hwalk.state, h]) hm hlt
    rw [hwalk.cue] at h3
    refine ⟨kwalk.state.trans h1, kwalk.path.trans h2, kwalk.cue.trans h3, ?_⟩
    rw [kwalk]
    exact ⟨h4, h5, h6, h7, h8, h9, h10⟩
  · obtain ⟨h1, h2, h3, h4, h5, h6, h7, hf, ht⟩ := hwalking (by rw [hwalk.state]; exact h)
    refine ⟨kwalk.state.trans h1, ?_, ?_, ?_, ?_, ?_, ?_, fun hm => ?_, fun hm => ?_⟩
    · rw [kwalk, h2, hwalk]
    · rw [kwalk, h3, hwalk]
    · rw [kwalk, h4, hwalk]
    · rw [kwalk, h5, hwalk]
    · rw [kwalk, h6, hwalk]
    · rw [kwalk, h7, hwalk]
    · obtain ⟨f1, f2, f3, f4, f5, f6⟩ := hf hm
      obtain ⟨k1, k2, k3⟩ := kfade f1
      refine ⟨kwalk.path.trans f1, k1.trans f2, k2.trans f3, fun h0 => k3.trans (f4 h0), ?_, ?_⟩
      · rw [kwalk, f5, hwalk]
      · rw [kwalk, f6, hwalk]
    · obtain ⟨t1, t2, t3⟩ := ht hm
      refine ⟨kwalk.path.trans t1, fun hlt => ?_, fun hle => ?_⟩
      · obtain ⟨b0, b1⟩ := t2 (by rw [hwalk]; exact hlt)
        exact ⟨by rw [kwalk, b0, hwalk], by rw [kwalk, b1, hwalk]⟩
      · obtain ⟨b0, b1⟩ := t3 (by rw [hwalk]; exact hle)
        rw [kwalk]
        rw [hwalk] at b0 b1
        exact ⟨b0, b1⟩

/-- A released voice sounds no more, but for an entry of the stack that took its slot. -/
theorem releasedBy.silent {s : State} {mode : ReleaseMode} {v w : Voice} (h : releasedBy s mode v w) (hv : v.sounding = true) :
    w.sounding = false ∨ ∃ e ∈ s.pool.stack, w.cue = e.cue := by
  have hreleasing : w.state = .releasing → w.sounding = false := fun hs => by simp [Voice.sounding, hs]
  obtain ⟨hend, htail, hwalking⟩ := h
  rw [Voice.sounding_iff] at hv
  rcases hv with hv | hv
  · by_cases hwhy : mode = .fade ∨ (cueRecord s v.cue).stepCount ≤ (cueRecord s v.cue).loopLast + 1
    · rcases hend hv hwhy with ⟨hs, -⟩ | ⟨-, e, he, hcue, -⟩
      · exact .inl (by simp [Voice.sounding, hs])
      · exact .inr ⟨e, he, hcue⟩
    · rw [not_or] at hwhy
      have hm : mode = .tail := by
        cases mode with
        | tail => rfl
        | fade => exact absurd rfl hwhy.1
      exact .inl (hreleasing (htail hv hm (Nat.lt_of_not_le hwhy.2)).1)
  · exact .inl (hreleasing (hwalking hv).1)

theorem endedVoice.silent {s : State} {v w : Voice} (h : endedVoice s v w) :
    w.state = .idle ∨ ∃ e ∈ s.pool.stack, w.cue = e.cue := by
  rcases h with ⟨hs, -⟩ | ⟨-, e, he, hcue, -⟩
  · exact .inl hs
  · exact .inr ⟨e, he, hcue⟩

/-- A voice that is IDLE does not sound. -/
theorem not_sounding_of_idle {v : Voice} (h : v.state = .idle) : v.sounding = false := by simp [Voice.sounding, h]

/-! ## The choke stage (R6) -/

/-- The choke stage sweeps the slots of its group. -/
theorem chokeStage_sweep {c : CueRecord} (h : c.choke ≠ 0) (s : State) : chokeStage c s =
    slots.foldl (fun t i => if (voiceOf t i).sounding && decide ((voiceCue t i).choke = c.choke)
      then releaseVoice (voiceCue t i).releaseMode i t else t)
      (purgeStack (fun e => decide ((cueRecord s e.cue).choke = c.choke)) s) := chokeStage_eq h s

theorem ownRelease_turn (s : State) (i : Fin 16) : SlotTurn i s (releaseVoice (voiceCue s i).releaseMode i s) :=
  releaseVoice_turn _ i s

/-- A voice on the same walk under the same tables is of the same cue record. -/
theorem voiceCue_of_sameWalk {s u : State} {i : Fin 16} (htab : u.tables = s.tables)
    (h : sameWalk (voiceOf s i) (voiceOf u i)) : voiceCue u i = voiceCue s i := by
  rw [voiceCue, voiceCue, cueRecord_congr htab]
  exact congrArg _ h.cue

/-- A slot after the choke stage: released by its cue's mode, or passed by. -/
theorem chokeStage_slot {c : CueRecord} (h : c.choke ≠ 0) (s : State) (i : Fin 16) :
    ((voiceCue s i).choke = c.choke → (voiceOf s i).sounding = true →
      releasedBy s (voiceCue s i).releaseMode (voiceOf s i) (voiceOf (chokeStage c s) i)) ∧
      (¬ ((voiceCue s i).choke = c.choke ∧ (voiceOf s i).sounding = true) →
        bystander (voiceOf s i) (voiceOf (chokeStage c s) i)) := by
  obtain ⟨hyes, hno⟩ := swept_slot (named := fun t i => (voiceOf t i).sounding && decide ((voiceCue t i).choke = c.choke))
    ownRelease_turn (fun e => decide ((cueRecord s e.cue).choke = c.choke)) (s := s) (i := i)
    fun u htab _ hwalk => by rw [voiceCue_of_sameWalk htab hwalk, hwalk.sounding]
  rw [chokeStage_sweep h]
  refine ⟨fun hc hs => ?_, fun hnot => hno ?_⟩
  · obtain ⟨u, htab, hstack, hbefore, hafter⟩ := hyes (by simp [hc, hs])
    rw [voiceCue_of_sameWalk htab hbefore.1] at hafter
    exact hbefore.released htab (fun x hx => List.mem_of_mem_filter (hstack x hx)) hafter (releaseVoice_releasedBy _ i u)
  · rw [Bool.eq_false_iff]
    refine fun hn => hnot ?_
    simpa [and_comm] using hn

theorem knownCue_iff (s : State) (cue : Nat) : knownCue s cue = true ↔ cue < 1024 ∧ (cueRecord s cue).kind ≠ .noCue := by
  simp [knownCue]

theorem zoneTest_iff (s : State) (mask : Byte) :
    zoneTest s mask = true ↔ ∃ o : Fin 4, maskHasZone mask s.outputs[o].zone = true := by
  have hfour : ∀ o : Fin 4, o ∈ four := by decide
  simp only [zoneTest, List.any_eq_true]
  exact ⟨fun ⟨o, _, h⟩ => ⟨o, h⟩, fun ⟨o, h⟩ => ⟨o, hfour o, h⟩⟩

/-- The zone test reads the zones of the outputs alone. -/
theorem zoneTest_congr {s t : State} (h : t.outputs = s.outputs) (mask : Byte) : zoneTest t mask = zoneTest s mask := by
  rw [Bool.eq_iff_iff, zoneTest_iff, zoneTest_iff, h]

theorem chokeStage_outputs (c : CueRecord) (s : State) : (chokeStage c s).outputs = s.outputs := by
  by_cases h : c.choke = 0
  · rw [chokeStage, if_pos h]
  · rw [(swept_reach ownRelease_turn _ s _ (chokeStage_sweep h s)).1]

/-- The dispatch of a known cue that reaches the station (R4). -/
theorem dispatchFire_here {cue : Nat} {s : State} (hknown : knownCue s cue = true)
    (hzone : zoneTest s (cueRecord s cue).zoneMask = true) (trim : Byte) (edge order : Word) :
    dispatchFire cue trim edge order s =
      playStages cue trim order (chokeStage (cueRecord s cue) (setLastAccepted cue edge s)) := by
  rw [← zoneTest_congr (s := s) (t := chokeStage (cueRecord s cue) (setLastAccepted cue edge s))
    (chokeStage_outputs _ _)] at hzone
  simp only [dispatchFire, hknown, hzone, if_true]

/-- The dispatch of a known cue that does not reach the station (R4). -/
theorem dispatchFire_elsewhere {cue : Nat} {s : State} (hknown : knownCue s cue = true)
    (hzone : zoneTest s (cueRecord s cue).zoneMask = false) (trim : Byte) (edge order : Word) :
    dispatchFire cue trim edge order s = (chokeStage (cueRecord s cue) (setLastAccepted cue edge s), .notHere) := by
  rw [← zoneTest_congr (s := s) (t := chokeStage (cueRecord s cue) (setLastAccepted cue edge s))
    (chokeStage_outputs _ _)] at hzone
  simp only [dispatchFire, hknown, hzone, if_true, Bool.false_eq_true, if_false]

/-- The choke stage of a group reaches the pool and the requests alone, and keeps entries of other groups from the bottom up. -/
theorem chokeStage_reach {c : CueRecord} (h : c.choke ≠ 0) (s : State) :
    chokeStage c s = { s with pool := (chokeStage c s).pool, fetch := (chokeStage c s).fetch } ∧
      (chokeStage c s).pool.stack <:+ s.pool.stack.filter fun e => (cueRecord s e.cue).choke != c.choke := by
  obtain ⟨hframe, hstack⟩ := swept_reach ownRelease_turn _ s _ (chokeStage_sweep h s)
  have hfilter : (s.pool.stack.filter fun e => !decide ((cueRecord s e.cue).choke = c.choke)) =
      s.pool.stack.filter fun e => (cueRecord s e.cue).choke != c.choke :=
    List.filter_congr fun e _ => by rw [Bool.eq_iff_iff]; simp
  rw [hfilter] at hstack
  exact ⟨hframe, hstack⟩

/-- Settles O21: stages 1 and 4 by the branches of the dispatcher, the choke stage slot by slot. -/
theorem unknownAndElsewhere : Obligations.UnknownAndElsewhere := by
  unfold Obligations.UnknownAndElsewhere
  refine ⟨fun cue trim edge order s => ⟨fun h => ?_, fun hcue hkind hzone => ?_⟩,
    fun c s => ⟨fun h => if_pos h, fun h => ?_⟩⟩
  · have hunknown : knownCue s cue = false := by
      rw [Bool.eq_false_iff, ne_eq, knownCue_iff]
      rintro ⟨hlt, hk⟩
      rcases h with h | h
      · exact absurd hlt (Nat.not_lt_of_le h)
      · exact hk h
    simp [dispatchFire, hunknown]
  · have hknown : knownCue s cue = true := (knownCue_iff _ _).mpr ⟨hcue, hkind⟩
    refine dispatchFire_elsewhere hknown ?_ trim edge order
    rw [Bool.eq_false_iff, ne_eq, zoneTest_iff]
    rintro ⟨o, ho⟩
    exact Bool.false_ne_true ((hzone o).symm.trans ho)
  · have hne : c.choke ≠ 0 := Nat.ne_of_gt h
    obtain ⟨hframe, hstack⟩ := chokeStage_reach hne s
    refine ⟨hstack, fun i => ?_, fun i hs hc => (chokeStage_groupFree hne s).1 i ⟨hs, hc⟩, hframe⟩
    obtain ⟨hnamed, hother⟩ := chokeStage_slot hne s i
    exact ⟨hnamed, fun hn => (hother hn).1⟩

end Sys2Proof.Machine
end

