-- ==== Sys2Proof/Proofs/Hushes.lean ====
section
/-!
What a taking leaves besides its effect on the voices, and the HUSH (O26).
-/
namespace Sys2Proof.Machine
open Relation

/-! ## What a taking leaves besides its effect (R24, R145) -/

/-- The head's leaving reaches the queue, the fire order and the sender's last-heard record alone. -/
theorem leaveHead_eq (e : RxEntry) (s : State) : ∃ peers, leaveHead e s = { s with
    dispatch := { s.dispatch with fireOrder := s.dispatch.fireOrder + 1 }
    rxq := { entries := s.rxq.entries.tail, headSince := s.now }, member := { s.member with peers := peers } } :=
  ⟨_, (hasLeft_leaveHead e s).1⟩

/-- The outcome records once one more is posted (R179). -/
def outcomesWith (l : List OutcomeRecord) (r : OutcomeRecord) : List OutcomeRecord :=
  (if l.length < 8 then l else l.drop 1) ++ [r]

theorem getLast_outcomesWith (l : List OutcomeRecord) (r : OutcomeRecord) : (outcomesWith l r).getLast? = some r := by
  simp [outcomesWith]

theorem postOwn_of_own {e : RxEntry} {s : State} (h : senderOf e.frame = ownNumber s) (f : LineFrame) (o : FireOutcome) :
    postOwn e f o s =
      { s with panel := { s.panel with outcomes := outcomesWith s.panel.outcomes (outcomeOf e f o) } } := by
  rw [postOwn, if_pos h]
  rfl

theorem postOwn_of_other {e : RxEntry} {s : State} (h : senderOf e.frame ≠ ownNumber s) (f : LineFrame) (o : FireOutcome) :
    postOwn e f o s = s := if_neg h

/-- The post of an outcome reaches the outcome records alone. -/
theorem postOwn_eq (e : RxEntry) (f : LineFrame) (o : FireOutcome) (s : State) :
    ∃ l, postOwn e f o s = { s with panel := { s.panel with outcomes := l } } := by
  by_cases h : senderOf e.frame = ownNumber s
  · exact ⟨_, postOwn_of_own h f o⟩
  · exact ⟨s.panel.outcomes, postOwn_of_other h f o⟩

theorem postOwn_getLast {e : RxEntry} {s : State} (h : senderOf e.frame = ownNumber s) (f : LineFrame) (o : FireOutcome) :
    (postOwn e f o s).panel.outcomes.getLast? = some (outcomeOf e f o) := by
  rw [postOwn_of_own h]
  exact getLast_outcomesWith _ _

/-- What a taking whose effect is on the voices alone leaves of the state before it, besides the pool and the requests. -/
def takenVoices (s t : State) : Prop :=
  ∃ peers outcomes, t = { s with
    dispatch := { s.dispatch with fireOrder := s.dispatch.fireOrder + 1 }
    rxq := { entries := s.rxq.entries.tail, headSince := s.now }, member := { s.member with peers := peers }
    pool := t.pool, fetch := t.fetch, panel := { s.panel with outcomes := outcomes } }

theorem takenVoices.lastAccepted {s t : State} (h : takenVoices s t) : t.dispatch.lastAccepted = s.dispatch.lastAccepted := by
  obtain ⟨_, _, h⟩ := h
  rw [h]

theorem takenVoices.line {s t : State} (h : takenVoices s t) : t.line = s.line := by obtain ⟨_, _, h⟩ := h; rw [h]
theorem takenVoices.txq {s t : State} (h : takenVoices s t) : t.txq = s.txq := by obtain ⟨_, _, h⟩ := h; rw [h]
theorem takenVoices.lockout {s t : State} (h : takenVoices s t) : t.lockout = s.lockout := by obtain ⟨_, _, h⟩ := h; rw [h]
theorem takenVoices.clocks {s t : State} (h : takenVoices s t) : t.clocks = s.clocks := by obtain ⟨_, _, h⟩ := h; rw [h]
theorem takenVoices.tables {s t : State} (h : takenVoices s t) : t.tables = s.tables := by obtain ⟨_, _, h⟩ := h; rw [h]
theorem takenVoices.outputs {s t : State} (h : takenVoices s t) : t.outputs = s.outputs := by obtain ⟨_, _, h⟩ := h; rw [h]

/-- The head's leaving, an effect on the pool and the requests, and the outcome. -/
theorem takenVoices_of_poolFetch (e : RxEntry) (f : LineFrame) (o : FireOutcome) {s u : State}
    (h : u = { leaveHead e s with pool := u.pool, fetch := u.fetch }) : takenVoices s (postOwn e f o u) := by
  obtain ⟨peers, hleft⟩ := leaveHead_eq e s
  obtain ⟨l, hposted⟩ := postOwn_eq e f o u
  refine ⟨peers, l, ?_⟩
  rw [hposted]
  generalize u.pool = p, u.fetch = q at h
  rw [h, hleft]

theorem fetchSettle_of_poolFetch {s t : State} (h : t = { s with pool := t.pool, fetch := t.fetch }) :
    fetchSettle t = { s with pool := (fetchSettle t).pool, fetch := (fetchSettle t).fetch } := by
  have hsettled := fetchSettle_poolFetch t
  generalize fetchSettle t = u at hsettled
  generalize t.pool = p, t.fetch = q at h
  rw [hsettled, h]

theorem ownNumber_of_poolFetch {e : RxEntry} {s u : State} (h : u = { leaveHead e s with pool := u.pool, fetch := u.fetch }) :
    ownNumber u = ownNumber s := by
  obtain ⟨peers, hleft⟩ := leaveHead_eq e s
  rw [h, hleft]
  rfl

theorem leaveHead_pool (e : RxEntry) (s : State) : (leaveHead e s).pool = s.pool := by
  obtain ⟨peers, hleft⟩ := leaveHead_eq e s
  rw [hleft]

theorem leaveHead_fetch (e : RxEntry) (s : State) : (leaveHead e s).fetch = s.fetch := by
  obtain ⟨peers, hleft⟩ := leaveHead_eq e s
  rw [hleft]

theorem leaveHead_tables (e : RxEntry) (s : State) : (leaveHead e s).tables = s.tables := by
  obtain ⟨peers, hleft⟩ := leaveHead_eq e s
  rw [hleft]

theorem leaveHead_outputs (e : RxEntry) (s : State) : (leaveHead e s).outputs = s.outputs := by
  obtain ⟨peers, hleft⟩ := leaveHead_eq e s
  rw [hleft]

theorem postOwn_pool (e : RxEntry) (f : LineFrame) (o : FireOutcome) (s : State) : (postOwn e f o s).pool = s.pool := by
  obtain ⟨l, h⟩ := postOwn_eq e f o s
  rw [h]

theorem voiceOf_postOwn (e : RxEntry) (f : LineFrame) (o : FireOutcome) (s : State) (i : Fin 16) :
    voiceOf (postOwn e f o s) i = voiceOf s i := by rw [voiceOf, voiceOf, postOwn_pool]

theorem voiceOf_leaveHead (e : RxEntry) (s : State) (i : Fin 16) : voiceOf (leaveHead e s) i = voiceOf s i := by
  rw [voiceOf, voiceOf, leaveHead_pool]

theorem knownCue_congr {s t : State} (h : t.tables = s.tables) (cue : Nat) : knownCue t cue = knownCue s cue := by
  rw [knownCue, knownCue, cueRecord_congr h]

/-! ## HUSH (R19) -/

theorem hushed_iff (s : State) (mask : Byte) (cue : Nat) : hushed s mask cue = true ↔
    ∃ o : Fin 4, maskHasZone mask s.outputs[o].zone = true ∧ maskHasZone (cueRecord s cue).zoneMask s.outputs[o].zone = true := by
  have hfour : ∀ o : Fin 4, o ∈ four := by decide
  simp only [hushed, List.any_eq_true, Bool.and_eq_true]
  exact ⟨fun ⟨o, _, h⟩ => ⟨o, h⟩, fun ⟨o, h⟩ => ⟨o, hfour o, h⟩⟩

theorem hushed_congr {s t : State} (htab : t.tables = s.tables) (hout : t.outputs = s.outputs) (mask : Byte) (cue : Nat) :
    hushed t mask cue = hushed s mask cue := by
  rw [Bool.eq_iff_iff, hushed_iff, hushed_iff, cueRecord_congr htab, hout]

/-- The HUSH cuts the voices that are not IDLE and reach a hushed zone, and passes the others by (R19). -/
theorem hushZones_slot (mask : Byte) (s : State) (i : Fin 16) :
    ((voiceOf s i).state ≠ .idle ∧ hushed s mask (voiceOf s i).cue = true →
      endedVoice (purgeStack (fun e => hushed s mask e.cue) s) (voiceOf s i) (voiceOf (hushZones mask s) i)) ∧
    ((voiceOf s i).state = .idle ∨ hushed s mask (voiceOf s i).cue = false →
      bystander (voiceOf s i) (voiceOf (hushZones mask s) i)) := by
  obtain ⟨hyes, hno⟩ := swept_slot
    (named := fun t i => decide ((voiceOf t i).state ≠ .idle) && hushed t mask (voiceOf t i).cue) (act := fun t i => endVoice i t)
    (fun t i => endVoice_turn i t) (fun e => hushed s mask e.cue) (s := s) (i := i)
    fun u htab hout hwalk => by simp only [hushed_congr htab hout, hwalk.state, hwalk.cue]
  refine ⟨fun h => ?_, fun h => hno ?_⟩
  · obtain ⟨u, -, hstack, hbefore, hafter⟩ := hyes (by simp [h])
    exact hbefore.ended hafter hstack (endVoice_ended i u)
  · rcases h with h | h <;> simp [h]

theorem hushZones_reach (mask : Byte) (s : State) :
    hushZones mask s = { s with pool := (hushZones mask s).pool, fetch := (hushZones mask s).fetch } ∧
      (hushZones mask s).pool.stack <:+ s.pool.stack.filter fun x => !hushed s mask x.cue :=
  swept_reach (named := fun t i => decide ((voiceOf t i).state ≠ .idle) && hushed t mask (voiceOf t i).cue)
    (act := fun t i => endVoice i t) (fun t i => endVoice_turn i t) _ s _ rfl

/-- A cue that is not hushed reaches none of the hushed zones. -/
theorem unreached_of_not_hushed {s t : State} {mask : Byte} {cue : Nat} (htab : t.tables = s.tables)
    (h : hushed s mask cue = false) (o : Fin 4) (hzone : maskHasZone mask s.outputs[o].zone = true) :
    maskHasZone (cueRecord t cue).zoneMask s.outputs[o].zone = false := by
  rw [Bool.eq_false_iff] at h ⊢
  rw [cueRecord_congr htab]
  exact fun hreach => h ((hushed_iff s mask cue).mpr ⟨o, hzone, hreach⟩)

/-- Settles O26: the HUSH is a sweep of the slots whose turn is the end of the voice. -/
theorem hushCutsReachedVoices : Obligations.HushCutsReachedVoices := by
  intro e mask s hhead
  have htab := leaveHead_tables e s
  have hout := leaveHead_outputs e s
  have hh : ∀ cue, hushed (leaveHead e s) mask cue = hushed s mask cue := hushed_congr htab hout mask
  obtain ⟨hframe, hstack⟩ := hushZones_reach mask (leaveHead e s)
  have hsettled := fetchSettle_of_poolFetch hframe
  have htaken := takenVoices_of_poolFetch e (.hush mask) .hushed hsettled
  have hown := ownNumber_of_poolFetch hsettled
  simp only [hh, leaveHead_pool] at hstack
  have hended : ∀ i, (voiceOf s i).state ≠ .idle ∧ hushed s mask (voiceOf s i).cue = true → endedVoice
      (purgeStack (fun x => hushed (leaveHead e s) mask x.cue) (leaveHead e s)) (voiceOf s i)
      (voiceOf (fetchSettle (hushZones mask (leaveHead e s))) i) := fun i h => by
    have hslot := (hushZones_slot mask (leaveHead e s) i).1
    rw [voiceOf_leaveHead, hh] at hslot
    exact (bystander.refl _).ended (fetchSettle_passes _ i) (fun _ hx => hx) (hslot h)
  have hpassed : ∀ i, (voiceOf s i).state = .idle ∨ hushed s mask (voiceOf s i).cue = false →
      bystander (voiceOf s i) (voiceOf (fetchSettle (hushZones mask (leaveHead e s))) i) := fun i h => by
    have hslot := (hushZones_slot mask (leaveHead e s) i).2
    rw [voiceOf_leaveHead, hh] at hslot
    exact (hslot h).trans (fetchSettle_passes _ i)
  have hunhushed : ∀ x ∈ (purgeStack (fun x => hushed (leaveHead e s) mask x.cue) (leaveHead e s)).pool.stack,
      x ∈ s.pool.stack ∧ hushed s mask x.cue = false := fun x hx => by
    simpa [purgeStack, hh, leaveHead_pool] using hx
  refine ⟨_, rfl, ?_⟩
  rw [takeHush_of_head hhead]
  refine ⟨fun i o hs hzone => ?_, fun x hx o hzone => ?_, hushed_iff s mask, fun i => ⟨fun h => ?_, fun h => ?_⟩, ?_, fun h => ?_,
    htaken.lastAccepted, htaken.line, htaken.txq, htaken.lockout, htaken.clocks⟩
  · rw [voiceOf_postOwn] at hs
    refine unreached_of_not_hushed htaken.tables ?_ o hzone
    rw [voiceOf_postOwn]
    by_cases h : (voiceOf s i).state = .idle ∨ hushed s mask (voiceOf s i).cue = false
    · have hwalk := (hpassed i h).1
      rw [hwalk.cue]
      exact h.resolve_left (hwalk.state ▸ hs)
    · rw [not_or, Bool.not_eq_false] at h
      obtain ⟨x, hx, hcue⟩ := (hended i h).silent.resolve_left hs
      rw [hcue]
      exact (hunhushed x hx).2
  · rw [postOwn_pool, fetchSettle_stack] at hx
    have hmem := (List.mem_filter.mp (hstack.mem hx)).2
    rw [Bool.not_eq_true'] at hmem
    exact unreached_of_not_hushed rfl hmem o hzone
  · rw [voiceOf_postOwn]
    exact (bystander.refl _).ended (bystander.refl _) (fun x hx => (hunhushed x hx).1) (hended i h)
  · rw [voiceOf_postOwn]
    exact (hpassed i h).1
  · rw [postOwn_pool, fetchSettle_stack]
    exact hstack
  · rw [postOwn_getLast (h.trans hown.symm)]
    rfl

end Sys2Proof.Machine
end

