-- ==== Sys2Proof/Proofs/ReleaseTakings.lean ====
section
/-!
The RELEASE, and the release of one voice from each state (O25).
-/
namespace Sys2Proof.Machine
open Relation

/-! ## The frames that the buffers hold from a walk count on (R53, R59) -/

theorem Buffer.at_isSome (b : Buffer) (count : Word) : (b.at count).isSome ↔ (count - b.first).toNat < b.frames.length := by
  simp [Buffer.at]

theorem Buffer.runEnd_of_held {b : Buffer} {count : Word} (h : (b.at count).isSome) :
    b.runEnd count = b.first + BitVec.ofNat 32 b.frames.length := if_pos ((b.at_isSome count).mp h)

theorem Buffer.runEnd_of_not_held {b : Buffer} {count : Word} (h : ¬ (b.at count).isSome) : b.runEnd count = count :=
  if_neg fun hlt => h ((b.at_isSome count).mpr hlt)

/-- A word is another plus their distance. -/
theorem add_distance (a b : Word) : a + BitVec.ofNat 32 (b - a).toNat = b := by
  rw [BitVec.ofNat_toNat, BitVec.setWidth_eq, add_sub_cancel]

theorem toNat_distance {m : Nat} (a : Word) (h : m < 2 ^ 32) : (a + BitVec.ofNat 32 m - a).toNat = m := by
  rw [add_sub_cancel_left, BitVec.toNat_ofNat, Nat.mod_eq_of_lt h]

theorem distance_add_le (a b c : Word) : (c - a).toNat ≤ (c - b).toNat + (b - a).toNat := by
  rw [← sub_add_sub_cancel c b a, BitVec.toNat_add]
  exact Nat.mod_le _ _

theorem add_distance_add {a b : Word} {n : Nat} (h : (b - a).toNat ≤ n) :
    b + BitVec.ofNat 32 (n - (b - a).toNat) = a + BitVec.ofNat 32 n := by
  conv_lhs => rw [← add_distance a b]
  rw [add_assoc, ← BitVec.ofNat_add, add_distance, Nat.add_sub_cancel' h]

/-- A buffer holds the frames from a walk count to the end of its run there, and not the frame at that end. -/
theorem Buffer.runEnd_spec {b : Buffer} (hb : b.frames.length ≤ 256) (count : Word) :
    ¬ (b.at (b.runEnd count)).isSome ∧
      ∀ n < (b.runEnd count - count).toNat, (b.at (count + BitVec.ofNat 32 n)).isSome := by
  by_cases h : (b.at count).isSome
  · rw [Buffer.runEnd_of_held h]
    simp only [Buffer.at_isSome] at h ⊢
    obtain ⟨m, hm⟩ : ∃ m, m = (count - b.first).toNat := ⟨_, rfl⟩
    have hcount : count = b.first + BitVec.ofNat 32 m := by rw [hm, add_distance]
    rw [← hm] at h
    rw [hcount]
    have hrun : (b.first + BitVec.ofNat 32 b.frames.length - (b.first + BitVec.ofNat 32 m)).toNat = b.frames.length - m := by
      rw [add_sub_add_left_eq_sub, BitVec.ofNat_sub_ofNat_of_le _ _ (by omega) (by omega), BitVec.toNat_ofNat,
        Nat.mod_eq_of_lt (by omega)]
    refine ⟨?_, fun n hn => ?_⟩
    · rw [toNat_distance _ (by omega)]
      exact Nat.lt_irrefl _
    · rw [hrun] at hn
      rw [add_assoc, ← BitVec.ofNat_add, toNat_distance _ (by omega)]
      omega
  · rw [Buffer.runEnd_of_not_held h]
    exact ⟨h, fun n hn => by simp at hn⟩

/-- The ends of two buffers are not both in the other's run. -/
theorem ends_not_crossed {b0 b1 : Buffer} (h0 : b0.frames.length ≤ 256) (h1 : b1.frames.length ≤ 256)
    (h : (b0.at (b1.first + BitVec.ofNat 32 b1.frames.length)).isSome) :
    ¬ (b1.at (b0.first + BitVec.ofNat 32 b0.frames.length)).isSome := by
  simp only [Buffer.at_isSome] at h ⊢
  intro hcross
  have hsum : b1.first + BitVec.ofNat 32 b1.frames.length - b0.first + (b0.first + BitVec.ofNat 32 b0.frames.length - b1.first) =
      BitVec.ofNat 32 (b1.frames.length + b0.frames.length) := by
    rw [BitVec.ofNat_add]
    abel
  have hnat := congrArg BitVec.toNat hsum
  rw [BitVec.toNat_add, BitVec.toNat_ofNat, Nat.mod_eq_of_lt (by omega), Nat.mod_eq_of_lt (by omega)] at hnat
  omega

/-- Two buffers hold the frames from a walk count to the first that neither holds, which three looks find. -/
theorem unheld_spec {b0 b1 : Buffer} (h0 : b0.frames.length ≤ 256) (h1 : b1.frames.length ≤ 256) (count : Word) :
    ¬ (b0.at (b0.runEnd (b1.runEnd (b0.runEnd count)))).isSome ∧
      ¬ (b1.at (b0.runEnd (b1.runEnd (b0.runEnd count)))).isSome ∧
      ∀ n < (b0.runEnd (b1.runEnd (b0.runEnd count)) - count).toNat,
        (b0.at (count + BitVec.ofNat 32 n)).isSome ∨ (b1.at (count + BitVec.ofNat 32 n)).isSome := by
  obtain ⟨hn1, hr1⟩ := Buffer.runEnd_spec h0 count
  obtain ⟨hn2, hr2⟩ := Buffer.runEnd_spec h1 (b0.runEnd count)
  obtain ⟨hn3, hr3⟩ := Buffer.runEnd_spec h0 (b1.runEnd (b0.runEnd count))
  refine ⟨hn3, ?_, fun n hn => ?_⟩
  · by_cases hsecond : (b0.at (b1.runEnd (b0.runEnd count))).isSome
    · rw [Buffer.runEnd_of_held hsecond]
      by_cases hfirst : (b1.at (b0.runEnd count)).isSome
      · rw [Buffer.runEnd_of_held hfirst] at hsecond
        exact ends_not_crossed h0 h1 hsecond
      · rw [Buffer.runEnd_of_not_held hfirst] at hsecond
        exact absurd hsecond hn1
    · rwa [Buffer.runEnd_of_not_held hsecond]
  · generalize b0.runEnd (b1.runEnd (b0.runEnd count)) = c3 at *
    generalize b1.runEnd (b0.runEnd count) = c2 at *
    generalize b0.runEnd count = c1 at *
    have htotal := distance_add_le count c2 c3
    by_cases hin1 : n < (c1 - count).toNat
    · exact .inl (hr1 n hin1)
    · rw [not_lt] at hin1
      have htwo := distance_add_le count c1 c2
      have hstep := add_distance_add hin1
      by_cases hin2 : n - (c1 - count).toNat < (c2 - c1).toNat
      · have hheld := hr2 _ hin2
        rw [hstep] at hheld
        exact .inr hheld
      · rw [not_lt] at hin2
        have hheld := hr3 (n - (c1 - count).toNat - (c2 - c1).toNat) (by omega)
        rw [add_distance_add hin2, hstep] at hheld
        exact .inl hheld

/-- The frame at a walk count is in one of two buffers. -/
def heldIn (b0 b1 : Buffer) (count : Word) : Prop := (b0.at count).isSome ∨ (b1.at count).isSome

/-- A voice that leaves its walk for the tail after its current step: the frames of the step that it keeps, and its cursor (R35,
R59, R63). -/
theorem realign_held (s : State) {v : Voice} (h0 : v.buffer0.frames.length ≤ 256) (h1 : v.buffer1.frames.length ≤ 256) :
    ∃ held ≤ (stepRecord s (cueRecord s v.cue) v.step).length - v.pos,
      (realign s v).cursorCount = v.playCount + BitVec.ofNat 32 held ∧
      (realign s v).cursor = (if held < (stepRecord s (cueRecord s v.cue) v.step).length - v.pos
        then some { step := v.step, pos := v.pos + held, passes := v.passes }
        else if (cueRecord s v.cue).loopLast + 1 < (cueRecord s v.cue).stepCount
          then some { step := (cueRecord s v.cue).loopLast + 1, pos := 0, passes := v.passes } else none) ∧
      (∀ n < held, heldIn (realign s v).buffer0 (realign s v).buffer1 (v.playCount + BitVec.ofNat 32 n)) ∧
      (held < (stepRecord s (cueRecord s v.cue) v.step).length - v.pos →
        ¬ heldIn (realign s v).buffer0 (realign s v).buffer1 (v.playCount + BitVec.ofNat 32 held)) := by
  unfold realign
  dsimp only
  generalize (stepRecord s (cueRecord s v.cue) v.step).length - v.pos = rest
  obtain ⟨hn0, hn1, hruns⟩ := unheld_spec ((Buffer.trim_length v.buffer0 v.playCount rest).trans h0) ((Buffer.trim_length v.buffer1 v.playCount rest).trans h1)
    v.playCount
  generalize (v.buffer0.trim v.playCount rest).runEnd ((v.buffer1.trim v.playCount rest).runEnd
    ((v.buffer0.trim v.playCount rest).runEnd v.playCount)) = unheld at *
  by_cases hlt : (unheld - v.playCount).toNat < rest
  · rw [if_pos hlt]
    refine ⟨_, Nat.le_of_lt hlt, (add_distance _ _).symm, (if_pos hlt).symm, hruns, fun _ hheld => ?_⟩
    rw [add_distance] at hheld
    exact hheld.elim hn0 hn1
  · rw [if_neg hlt]
    refine ⟨rest, le_rfl, rfl, ?_, fun n hn => hruns n (by omega), fun hirr => absurd hirr (Nat.lt_irrefl _)⟩
    simp only [CueRecord.hasTail, Nat.lt_irrefl, if_false, decide_eq_true_eq]

/-! ## RELEASE (R17, R18) -/

/-- The mode under which a RELEASE of a frame's mode other than CUT releases the voices of a cue (R17, R18). -/
def frameMode (s : State) (cue : Nat) (mode : Byte) : ReleaseMode :=
  if mode = 0 then .tail else if mode = 1 then .fade else (cueRecord s cue).releaseMode

theorem releaseByMode_cut (i : Fin 16) (s : State) : releaseByMode 2 i s = endVoice i s := by
  rw [releaseByMode, if_neg (by decide), if_neg (by decide), if_pos rfl]

theorem releaseByMode_of_not_cut {mode : Byte} (h : mode ≠ 2) (i : Fin 16) (s : State) :
    releaseByMode mode i s = releaseVoice (frameMode s (voiceOf s i).cue mode) i s := by
  unfold releaseByMode frameMode
  by_cases h0 : mode = 0
  · rw [if_pos h0, if_pos h0]
    rfl
  · by_cases h1 : mode = 1
    · rw [if_neg h0, if_pos h1, if_neg h0, if_pos h1]
      rfl
    · rw [if_neg h0, if_neg h1, if_neg h, if_neg h0, if_neg h1]
      rfl

theorem frameMode_congr {s u : State} (h : u.tables = s.tables) (cue : Nat) (mode : Byte) :
    frameMode u cue mode = frameMode s cue mode := by
  rw [frameMode, frameMode, cueRecord_congr h]

/-- The RELEASE of a cue releases its sounding voices, by the frame's mode or by CUT, and passes the others by. -/
theorem releaseCue_slot (cue : Nat) (mode : Byte) (s : State) (i : Fin 16) :
    ((voiceOf s i).cue = cue ∧ (voiceOf s i).sounding = true →
      (mode = 2 → endedVoice (purgeStack (fun e => e.cue == cue) s) (voiceOf s i) (voiceOf (releaseCue cue mode s) i)) ∧
      (mode ≠ 2 → releasedBy (purgeStack (fun e => e.cue == cue) s) (frameMode s cue mode) (voiceOf s i)
        (voiceOf (releaseCue cue mode s) i))) ∧
    (¬ ((voiceOf s i).cue = cue ∧ (voiceOf s i).sounding = true) →
      bystander (voiceOf s i) (voiceOf (releaseCue cue mode s) i)) := by
  obtain ⟨hyes, hno⟩ := swept_slot
    (named := fun t i => (voiceOf t i).sounding && decide ((voiceOf t i).cue = cue)) (act := fun t i => releaseByMode mode i t)
    (fun t i => releaseByMode_turn mode i t) (fun e => e.cue == cue) (s := s) (i := i)
    fun u _ _ hwalk => by rw [hwalk.sounding, hwalk.cue]
  refine ⟨fun ⟨hcue, hs⟩ => ?_, fun h => hno ?_⟩
  · obtain ⟨u, htab, hstack, hbefore, hafter⟩ := hyes (by simp [hcue, hs])
    refine ⟨fun hm => ?_, fun hm => ?_⟩
    · subst hm
      rw [releaseByMode_cut] at hafter
      exact hbefore.ended hafter hstack (endVoice_ended i u)
    · rw [releaseByMode_of_not_cut hm, hbefore.1.cue, hcue, frameMode_congr htab] at hafter
      exact hbefore.released (s := purgeStack (fun e => e.cue == cue) s) htab hstack hafter (releaseVoice_releasedBy _ i u)
  · rw [Bool.eq_false_iff]
    refine fun hn => h ?_
    simpa [and_comm] using hn

theorem releaseCue_reach (cue : Nat) (mode : Byte) (s : State) :
    releaseCue cue mode s = { s with pool := (releaseCue cue mode s).pool, fetch := (releaseCue cue mode s).fetch } ∧
      (releaseCue cue mode s).pool.stack <:+ s.pool.stack.filter fun x => !(x.cue == cue) :=
  swept_reach (named := fun t i => (voiceOf t i).sounding && decide ((voiceOf t i).cue = cue))
    (act := fun t i => releaseByMode mode i t) (fun t i => releaseByMode_turn mode i t) _ s _ rfl

/-- A sounding voice or an entry of the stack is of the cue (R17). -/
theorem cuePlaying_iff (s : State) (cue : Nat) : cuePlaying s cue = true ↔
    (∃ x ∈ s.pool.stack, x.cue = cue) ∨ ∃ i : Fin 16, (voiceOf s i).cue = cue ∧ (voiceOf s i).sounding = true := by
  simp only [cuePlaying, Bool.or_eq_true, List.any_eq_true, beq_iff_eq, Bool.and_eq_true, decide_eq_true_eq, mem_slots, true_and,
    and_comm]

/-- After the RELEASE of a cue no voice of it sounds. -/
theorem releaseCue_silent {cue : Nat} {mode : Byte} {s : State} {i : Fin 16}
    (h : (voiceOf (releaseCue cue mode s) i).cue = cue) : (voiceOf (releaseCue cue mode s) i).sounding = false := by
  obtain ⟨hyes, hno⟩ := releaseCue_slot cue mode s i
  have hpurged : ¬ ∃ e ∈ (purgeStack (fun e => e.cue == cue) s).pool.stack, (voiceOf (releaseCue cue mode s) i).cue = e.cue := by
    rintro ⟨e, he, hcue⟩
    rw [h] at hcue
    simp [purgeStack, hcue] at he
  by_cases hnamed : (voiceOf s i).cue = cue ∧ (voiceOf s i).sounding = true
  · obtain ⟨hcut, hrel⟩ := hyes hnamed
    by_cases hm : mode = 2
    · exact not_sounding_of_idle ((hcut hm).silent.resolve_right hpurged)
    · exact ((hrel hm).silent hnamed.2).resolve_right hpurged
  · have hwalk := (hno hnamed).1
    rw [hwalk.cue] at h
    rw [hwalk.sounding, Bool.eq_false_iff]
    exact fun hs => hnamed ⟨h, hs⟩

/-- The effect of the RELEASE of a known cue, from the state in which the frame stands at the head. -/
theorem release_slot (e : RxEntry) (cue : Nat) (mode : Byte) (s : State) (i : Fin 16) :
    ((voiceOf s i).cue = cue ∧ (voiceOf s i).sounding = true →
      (mode = 2 → endedVoice s (voiceOf s i) (voiceOf (fetchSettle (releaseCue cue mode (leaveHead e s))) i)) ∧
      (mode ≠ 2 → releasedBy s (frameMode s cue mode) (voiceOf s i)
        (voiceOf (fetchSettle (releaseCue cue mode (leaveHead e s))) i))) ∧
    (¬ ((voiceOf s i).cue = cue ∧ (voiceOf s i).sounding = true) →
      sameWalk (voiceOf s i) (voiceOf (fetchSettle (releaseCue cue mode (leaveHead e s))) i)) := by
  obtain ⟨hyes, hno⟩ := releaseCue_slot cue mode (leaveHead e s) i
  have htab := leaveHead_tables e s
  have hsettle := fetchSettle_passes (releaseCue cue mode (leaveHead e s)) i
  have hmem : ∀ x ∈ (purgeStack (fun e => e.cue == cue) (leaveHead e s)).pool.stack, x ∈ s.pool.stack := fun x hx => by
    have hx' := List.mem_of_mem_filter hx
    rwa [leaveHead_pool] at hx'
  rw [voiceOf_leaveHead] at hyes hno
  rw [frameMode_congr htab] at hyes
  refine ⟨fun h => ⟨fun hm => ?_, fun hm => ?_⟩, fun h => ((hno h).trans hsettle).1⟩
  · exact (bystander.refl _).ended hsettle hmem ((hyes h).1 hm)
  · exact (bystander.refl _).released (s := s) (u := purgeStack (fun e => e.cue == cue) (leaveHead e s)) htab hmem hsettle
      ((hyes h).2 hm)

/-- A voice on its walk under FADE (R38). -/
theorem releaseFade_walk {i : Fin 16} {s : State} (h : (voiceOf s i).state = .playing ∨ (voiceOf s i).state = .resuming) :
    voiceOf (releaseFade i s) i = { voiceOf s i with
        state := .releasing, path := .fade, gainTarget := 0, rampLeft := (voiceCue s i).releaseTime * 48
        gainNow := if (voiceCue s i).releaseTime = 0 then 0 else (voiceOf s i).gainNow
        rampIncrement := (voiceOf (releaseFade i s) i).rampIncrement } ∧
      (0 < (voiceCue s i).releaseTime → (voiceOf (releaseFade i s) i).rampIncrement =
        (-((voiceOf s i).gainNow : Int)).tdiv (((voiceCue s i).releaseTime : Int) * 48)) ∧
      releaseFade i s = { s with pool := { s.pool with voices := (releaseFade i s).pool.voices } } ∧
      ∀ j : Fin 16, j ≠ i → voiceOf (releaseFade i s) j = voiceOf s j := by
  rw [releaseFade_walking h, voiceOf_setVoice_same]
  refine ⟨fadedVoice_eq s i, fun hpos => ?_, rfl, fun j hj => voiceOf_setVoice_other _ _ _ _ hj⟩
  rw [fadedVoice, startRamp_increment (show 0 < msFrames (voiceCue s i).releaseTime from Nat.mul_pos hpos (by decide)), msFrames]
  simp

/-- A voice in a step of its tail under TAIL (R35). -/
theorem releaseTail_inTail {i : Fin 16} {s : State} (h : (voiceOf s i).state = .playing ∨ (voiceOf s i).state = .resuming)
    (hlt : (voiceCue s i).loopLast < (voiceOf s i).step) :
    releaseTail i s = setVoice i { voiceOf s i with state := .releasing, path := .tail } s := by
  rw [releaseTail_walking h, if_pos ((inTail_iff _ _).mpr hlt)]

/-- A voice in a step before its tail under TAIL (R35). -/
theorem releaseTail_beforeTail {i : Fin 16} {s : State}
    (h : (voiceOf s i).state = .playing ∨ (voiceOf s i).state = .resuming)
    (hle : (voiceOf s i).step ≤ (voiceCue s i).loopLast) : releaseTail i s =
      cancelRequest i (setVoice i { realign s (voiceOf s i) with state := .releasing, path := .tail } s) := by
  rw [releaseTail_walking h, if_neg (fun hin => absurd ((inTail_iff _ _).mp hin) (Nat.not_lt_of_le hle))]

/-- The voice that leaves its walk for the tail after its current step, and its frames and its cursor (R35, R59). -/
theorem releaseTail_walk {i : Fin 16} {s : State} (h : (voiceOf s i).state = .playing ∨ (voiceOf s i).state = .resuming)
    (hle : (voiceOf s i).step ≤ (voiceCue s i).loopLast) (h0 : (voiceOf s i).buffer0.frames.length ≤ 256)
    (h1 : (voiceOf s i).buffer1.frames.length ≤ 256) :
    ∃ held ≤ (stepRecord s (voiceCue s i) (voiceOf s i).step).length - (voiceOf s i).pos,
      voiceOf (releaseTail i s) i = { voiceOf s i with
        state := .releasing, path := .tail
        buffer0 := (voiceOf (releaseTail i s) i).buffer0, buffer1 := (voiceOf (releaseTail i s) i).buffer1
        cursorCount := (voiceOf s i).playCount + BitVec.ofNat 32 held
        cursor := if held < (stepRecord s (voiceCue s i) (voiceOf s i).step).length - (voiceOf s i).pos
          then some { step := (voiceOf s i).step, pos := (voiceOf s i).pos + held, passes := (voiceOf s i).passes }
          else if (voiceCue s i).loopLast + 1 < (voiceCue s i).stepCount
            then some { step := (voiceCue s i).loopLast + 1, pos := 0, passes := (voiceOf s i).passes } else none } ∧
      keptRun (voiceOf s i).buffer0 (voiceOf (releaseTail i s) i).buffer0 (voiceOf s i).playCount
        ((stepRecord s (voiceCue s i) (voiceOf s i).step).length - (voiceOf s i).pos) ∧
      keptRun (voiceOf s i).buffer1 (voiceOf (releaseTail i s) i).buffer1 (voiceOf s i).playCount
        ((stepRecord s (voiceCue s i) (voiceOf s i).step).length - (voiceOf s i).pos) ∧
      (∀ n < held, heldIn (voiceOf (releaseTail i s) i).buffer0 (voiceOf (releaseTail i s) i).buffer1
        ((voiceOf s i).playCount + BitVec.ofNat 32 n)) ∧
      (held < (stepRecord s (voiceCue s i) (voiceOf s i).step).length - (voiceOf s i).pos →
        ¬ heldIn (voiceOf (releaseTail i s) i).buffer0 (voiceOf (releaseTail i s) i).buffer1
          ((voiceOf s i).playCount + BitVec.ofNat 32 held)) := by
  obtain ⟨held, hrest, hcount, hcursor, hruns, hnot⟩ := realign_held s h0 h1
  have hspec := realign_spec s (voiceOf s i)
  rw [releaseTail_beforeTail h hle, voiceOf_cancelRequest, voiceOf_setVoice_same]
  refine ⟨held, hrest, ?_, ?_, ?_, hruns, hnot⟩
  · rw [hcount, hcursor] at hspec
    rw [hspec]
    rfl
  · rw [hspec]
    exact keptRun_trim _ _ _
  · rw [hspec]
    exact keptRun_trim _ _ _

/-- A voice that is IDLE or RELEASING is not released (R37). -/
theorem release_of_released {i : Fin 16} {s : State} (h : (voiceOf s i).state = .releasing ∨ (voiceOf s i).state = .idle) :
    releaseTail i s = s ∧ releaseFade i s = s := by
  rcases h with h | h
  · exact ⟨by simp only [releaseTail, h], by simp only [releaseFade, h]⟩
  · exact ⟨by simp only [releaseTail, h], by simp only [releaseFade, h]⟩

/-- The taking of a RELEASE of a known cue (R17). -/
theorem takeRelease_known {e : RxEntry} {cue : BitVec 16} {mode : Byte} {s : State}
    (h : standsAtHead s e (.release cue mode)) (hk : knownCue s cue.toNat = true) : takeRelease s =
      postOwn e (.release cue mode) (if cuePlaying (leaveHead e s) cue.toNat then .released else .notPlaying)
        (fetchSettle (releaseCue cue.toNat mode (leaveHead e s))) := by
  rw [takeRelease_of_head h, if_pos ((knownCue_congr (leaveHead_tables e s) _).trans hk)]

/-- The taking of a RELEASE of an unknown cue (R18). -/
theorem takeRelease_unknown {e : RxEntry} {cue : BitVec 16} {mode : Byte} {s : State}
    (h : standsAtHead s e (.release cue mode)) (hk : knownCue s cue.toNat = false) :
    takeRelease s = postOwn e (.release cue mode) .unknownCue (leaveHead e s) := by
  rw [takeRelease_of_head h, knownCue_congr (leaveHead_tables e s), hk, if_neg Bool.false_ne_true]

theorem cuePlaying_leaveHead (e : RxEntry) (s : State) (cue : Nat) : cuePlaying (leaveHead e s) cue = cuePlaying s cue := by
  simp only [cuePlaying, voiceOf_leaveHead, leaveHead_pool]

/-- The head's leaving and the outcome alone. -/
theorem takenVoices_leaveHead (e : RxEntry) (f : LineFrame) (o : FireOutcome) (s : State) :
    takenVoices s (postOwn e f o (leaveHead e s)) := by
  obtain ⟨peers, hleft⟩ := leaveHead_eq e s
  obtain ⟨l, hposted⟩ := postOwn_eq e f o (leaveHead e s)
  refine ⟨peers, l, ?_⟩
  rw [hposted, hleft]

theorem ownNumber_leaveHead (e : RxEntry) (s : State) : ownNumber (leaveHead e s) = ownNumber s := by
  obtain ⟨peers, hleft⟩ := leaveHead_eq e s
  rw [hleft]
  rfl

/-- What the taking of a RELEASE leaves of the blocks that it does not reach. -/
theorem takeRelease_takenVoices {e : RxEntry} {cue : BitVec 16} {mode : Byte} {s : State}
    (h : standsAtHead s e (.release cue mode)) : takenVoices s (takeRelease s) := by
  cases hk : knownCue s cue.toNat with
  | true =>
    rw [takeRelease_known h hk]
    exact takenVoices_of_poolFetch e _ _ (fetchSettle_of_poolFetch (releaseCue_reach _ _ _).1)
  | false =>
    rw [takeRelease_unknown h hk]
    exact takenVoices_leaveHead e _ _ s

/-- Settles O25: the RELEASE is a sweep of the slots whose turn is the release or the end of the voice; a single release by the
voice's state. -/
theorem releaseLeavesNoSoundingVoice : Obligations.ReleaseLeavesNoSoundingVoice := by
  unfold Obligations.ReleaseLeavesNoSoundingVoice
  refine ⟨fun e cue mode s hhead => ?_, fun i s => ⟨fun h => ⟨releaseFade_walk h, fun hlt t ht => ?_, fun hle h0 h1 => ?_⟩,
    fun h hlt => ?_, fun h => ⟨releaseFade_priming h, fun hle => ?_⟩, release_of_released⟩⟩
  · have htaken := takeRelease_takenVoices hhead
    refine ⟨_, rfl, htaken.lastAccepted, htaken.line, htaken.txq, htaken.lockout, htaken.clocks, fun hk => ?_, fun hk => ?_⟩
    · obtain ⟨hframe, hstack⟩ := releaseCue_reach cue.toNat mode (leaveHead e s)
      have hslot := release_slot e cue.toNat mode s
      rw [takeRelease_known hhead hk]
      unfold releasesVoices
      simp only [voiceOf_postOwn]
      rw [leaveHead_pool] at hstack
      refine ⟨fun i hcue => ?_, ?_, fun hm i => ⟨fun hcue hs => ((hslot i).1 ⟨hcue, hs⟩).2 hm, (hslot i).2⟩,
        fun hm i => ⟨fun h => ((hslot i).1 h).1 hm, (hslot i).2⟩, fun hown => ?_⟩
      · have hwalk := (fetchSettle_passes (releaseCue cue.toNat mode (leaveHead e s)) i).1
        rw [hwalk.sounding]
        exact releaseCue_silent (hwalk.cue.symm.trans hcue)
      · rw [postOwn_pool, fetchSettle_stack]
        exact hstack
      · rw [postOwn_getLast (hown.trans (ownNumber_of_poolFetch (fetchSettle_of_poolFetch hframe)).symm),
          cuePlaying_leaveHead]
        simp only [← cuePlaying_iff]
        rfl
    · rw [takeRelease_unknown hhead hk]
      refine ⟨(postOwn_pool _ _ _ _).trans (leaveHead_pool e s), ?_, fun hown => ?_⟩
      · obtain ⟨l, hposted⟩ := postOwn_eq e (.release cue mode) .unknownCue (leaveHead e s)
        rw [hposted]
        exact leaveHead_fetch e s
      · rw [postOwn_getLast (hown.trans (ownNumber_leaveHead e s).symm)]
        rfl
  · rw [ht, releaseTail_inTail h hlt, voiceOf_setVoice_same]
    exact ⟨rfl, rfl⟩
  · obtain ⟨held, hrest, hvoice, hkept0, hkept1, hruns, hnot⟩ := releaseTail_walk h hle h0 h1
    refine ⟨held, hrest, hvoice, hkept0, hkept1, hruns, hnot, ?_⟩
    rw [releaseTail_beforeTail h hle]
    exact ⟨cancelRequest_requests i _, cancelRequest_flight i _⟩
  · rw [releaseTail_priming h, if_pos (show (voiceCue s i).hasTail = true from (hasTail_iff _).mpr hlt)]
    refine ⟨?_, cancelRequest_requests i _, cancelRequest_flight i _⟩
    rw [voiceOf_cancelRequest, voiceOf_setVoice_same]
  · rw [releaseTail_priming h, if_neg fun hin => absurd ((hasTail_iff _).mp hin) (Nat.not_lt_of_le hle)]

end Sys2Proof.Machine
end

