-- ==== Sys2Proof/Proofs/Fires.lean ====
section
/-!
The taking of a FIRE, and the fire that finds an IDLE slot (O20).
-/
namespace Sys2Proof.Machine
open Relation

/-! ## The last-accepted record of a fired cue (R3) -/

theorem find_putRecord_same (cue : Nat) (w : Word) : ∀ l : List (Nat × Word),
    (putRecord cue w l).find? (fun r => r.1 == cue) = some (cue, w)
  | [] => by simp [putRecord]
  | (c, v) :: rest => by
    unfold putRecord
    split
    · simp
    · split
      · simp
      · next hne => rw [List.find?_cons_of_neg (by simpa using Ne.symm hne), find_putRecord_same cue w rest]

theorem find_putRecord_other {cue d : Nat} (h : d ≠ cue) (w : Word) : ∀ l : List (Nat × Word),
    (putRecord cue w l).find? (fun r => r.1 == d) = l.find? (fun r => r.1 == d)
  | [] => by simp [putRecord, h.symm]
  | (c, v) :: rest => by
    have hcue : ¬ (fun r : Nat × Word => r.1 == d) (cue, w) = true := by simpa using h.symm
    unfold putRecord
    split
    · exact List.find?_cons_of_neg hcue
    · split
      · next heq =>
        subst heq
        exact (List.find?_cons_of_neg (p := fun r : Nat × Word => r.1 == d) hcue).trans (List.find?_cons_of_neg (p := fun r : Nat × Word => r.1 == d) (by simpa using h.symm)).symm
      · rw [List.find?_cons, List.find?_cons, find_putRecord_other h w rest]

theorem lastAccepted_setLastAccepted_same (cue : Nat) (w : Word) (s : State) :
    lastAccepted (setLastAccepted cue w s) cue = some w := by
  rw [lastAccepted, setLastAccepted, find_putRecord_same]
  rfl

theorem lastAccepted_setLastAccepted_other {cue d : Nat} (h : d ≠ cue) (w : Word) (s : State) :
    lastAccepted (setLastAccepted cue w s) d = lastAccepted s d := by
  rw [lastAccepted, lastAccepted, setLastAccepted, find_putRecord_other h]

/-! ## The taking of a FIRE (R4, R24) -/

theorem fireNow_eq (cue : Nat) (trim : Byte) (edge : Word) (s : State) : fireNow cue trim edge s =
    (dispatched cue trim edge s, (dispatchFire cue trim edge s.dispatch.fireOrder s).2) := rfl

theorem leaveHead_fireOrder (e : RxEntry) (s : State) :
    (leaveHead e s).dispatch.fireOrder = s.dispatch.fireOrder + 1 := by
  obtain ⟨peers, hleft⟩ := leaveHead_eq e s
  rw [hleft]

/-- A dispatched fire leaves the straps. -/
theorem ownNumber_dispatched (cue : Nat) (trim : Byte) (edge : Word) (s : State) :
    ownNumber (dispatched cue trim edge s) = ownNumber s := by
  rcases fireNow_frame cue trim edge s with h | h
  · rw [fireNow_eq] at h
    dsimp only at h
    obtain ⟨_, _, _, _, h⟩ := h
    rw [ownNumber, h, ownNumber]
  · rw [fireNow_eq] at h
    dsimp only at h
    obtain ⟨_, _, _, _, h⟩ := h
    rw [ownNumber, h, ownNumber]
    rfl

/-- The taking of a FIRE of PANEL at its sender. -/
theorem takeFire_own {e : RxEntry} {cue tag : BitVec 16} {trim : Byte} {s : State}
    (h : standsAtHead s e (.fire cue 1 tag trim)) (hown : senderOf e.frame = ownNumber s) : takeFire s =
      { dispatched cue.toNat trim e.edge (leaveHead e s) with
        panel := { (dispatched cue.toNat trim e.edge (leaveHead e s)).panel with
          outcomes := outcomesWith (dispatched cue.toNat trim e.edge (leaveHead e s)).panel.outcomes
            { tag := tag, cue := cue, kind := .fire, edge := e.edge
              outcome := (dispatchFire cue.toNat trim e.edge (s.dispatch.fireOrder + 1) (leaveHead e s)).2 } } } := by
  rw [takeFire_of_head h (by decide), if_pos rfl, fireNow_eq,
    postOwn_of_own (hown.trans ((ownNumber_dispatched _ _ _ _).trans (ownNumber_leaveHead e s)).symm), leaveHead_fireOrder]
  rfl

/-- The taking of a FIRE of another origin, or of another station. -/
theorem takeFire_other {e : RxEntry} {cue tag : BitVec 16} {origin trim : Byte} {s : State}
    (h : standsAtHead s e (.fire cue origin tag trim)) (ho : origin ≠ 2)
    (hother : origin ≠ 1 ∨ senderOf e.frame ≠ ownNumber s) :
    takeFire s = dispatched cue.toNat trim e.edge (leaveHead e s) := by
  rw [takeFire_of_head h ho, fireNow_eq]
  by_cases h1 : origin = 1
  · have hne := hother.resolve_left (not_not_intro h1)
    have hown : ownNumber (dispatched cue.toNat trim e.edge (leaveHead e s)) = ownNumber s :=
      (ownNumber_dispatched _ _ _ _).trans (ownNumber_leaveHead e s)
    rw [if_pos h1]
    rw [← hown] at hne
    rw [postOwn_of_other hne]
  · rw [if_neg h1]

/-- The taking of a FIRE is the dispatched fire but for the outcome records. -/
theorem takeFire_posts {e : RxEntry} {cue tag : BitVec 16} {origin trim : Byte} {s : State}
    (h : standsAtHead s e (.fire cue origin tag trim)) (ho : origin ≠ 2) : ∃ l,
      takeFire s = { dispatched cue.toNat trim e.edge (leaveHead e s) with
        panel := { (dispatched cue.toNat trim e.edge (leaveHead e s)).panel with outcomes := l } } ∧
      (origin = 1 → senderOf e.frame = ownNumber s → l.getLast? = some
        { tag := tag, cue := cue, kind := .fire, edge := e.edge
          outcome := (dispatchFire cue.toNat trim e.edge (s.dispatch.fireOrder + 1) (leaveHead e s)).2 }) := by
  by_cases hown : origin = 1 ∧ senderOf e.frame = ownNumber s
  · obtain ⟨rfl, hown⟩ := hown
    exact ⟨_, takeFire_own h hown, fun _ _ => getLast_outcomesWith _ _⟩
  · refine ⟨(dispatched cue.toNat trim e.edge (leaveHead e s)).panel.outcomes, ?_, fun h1 hsender => absurd ⟨h1, hsender⟩ hown⟩
    rw [takeFire_other h ho (not_and_or.mp hown)]

/-! ## What a walk keeps -/

theorem sameWalk.level {v w : Voice} (h : sameWalk v w) : w.level = v.level := by rw [h]
theorem sameWalk.fireOrder {v w : Voice} (h : sameWalk v w) : w.fireOrder = v.fireOrder := by rw [h]
theorem sameWalk.trim {v w : Voice} (h : sameWalk v w) : w.trim = v.trim := by rw [h]
theorem sameWalk.step {v w : Voice} (h : sameWalk v w) : w.step = v.step := by rw [h]
theorem sameWalk.pos {v w : Voice} (h : sameWalk v w) : w.pos = v.pos := by rw [h]

/-! ## The fire that finds an IDLE slot and no sounding voice of its cue (R4, R11, R15) -/

theorem soundingVoice_congr {s u : State} (h : u.pool = s.pool) (cue : Nat) : soundingVoice u cue = soundingVoice s cue := by
  unfold soundingVoice slotOlder voiceOf
  rw [h]

theorem idleSlot_congr {s u : State} (h : u.pool = s.pool) : idleSlot u = idleSlot s := by
  unfold idleSlot voiceOf
  rw [h]

/-- A fire of choke group 0 of a cue that is not sounding takes the lowest IDLE slot. -/
theorem dispatchFire_idle {cue : Nat} {i : Fin 16} {s : State} (hknown : knownCue s cue = true)
    (hchoke : (cueRecord s cue).choke = 0) (hzone : zoneTest s (cueRecord s cue).zoneMask = true)
    (hsilent : ∀ j : Fin 16, (voiceOf s j).cue = cue → (voiceOf s j).sounding = false) (hidle : idleSlot s = some i)
    (trim : Byte) (edge order : Word) :
    dispatchFire cue trim edge order s = (startVoice i cue trim order (setLastAccepted cue edge s), .played) := by
  have hunheard : soundingVoice (setLastAccepted cue edge s) cue = none :=
    (soundingVoice_congr rfl cue).trans (soundingVoice_none hsilent)
  rw [dispatchFire_here hknown hzone, chokeStage, if_pos hchoke, playStages_unheard trim order hunheard]
  exact (allocate_cases cue trim order .played _).1 i ((idleSlot_congr rfl).trans hidle)

/-- What such a fire leaves besides the pool and the requests. -/
theorem dispatched_idle {cue : Nat} {i : Fin 16} {s : State} (trim : Byte) (edge : Word)
    (h : dispatchFire cue trim edge s.dispatch.fireOrder s =
      (startVoice i cue trim s.dispatch.fireOrder (setLastAccepted cue edge s), .played)) :
    dispatched cue trim edge s = { setLastAccepted cue edge s with
      pool := (dispatched cue trim edge s).pool, fetch := (dispatched cue trim edge s).fetch } ∧
    (dispatched cue trim edge s).pool.stack = s.pool.stack ∧
    sameWalk (voiceOf (startVoice i cue trim s.dispatch.fireOrder (setLastAccepted cue edge s)) i)
      (voiceOf (dispatched cue trim edge s) i) := by
  rw [dispatched, h]
  dsimp only
  refine ⟨fetchSettle_of_poolFetch ?_, ?_, (fetchSettle_passes _ i).1⟩
  · rw [startVoice_eq]
    exact (beginVoice_turn i _ _).frame
  · rw [fetchSettle_stack, startVoice_eq, beginVoice_stack]
    rfl

/-- Settles O20: the taking by origin and sender, the seven stages of a known cue, and the fire that finds an IDLE slot. -/
theorem firePlaysInLowestIdleSlot : Obligations.FirePlaysInLowestIdleSlot := by
  unfold Obligations.FirePlaysInLowestIdleSlot
  refine ⟨fun e cue tag origin trim s hhead ho => ⟨leaveHead e s, hasLeft_leaveHead e s, fun h1 hown => ?_, fun hother => ?_⟩,
    fun cue trim edge order s hknown hzone => ⟨dispatchFire_here hknown ((zoneTest_iff _ _).mpr hzone) trim edge order,
      lastAccepted_setLastAccepted_same cue edge s, fun d hd => lastAccepted_setLastAccepted_other hd edge s, rfl, rfl⟩,
    fun e cue tag origin trim i s hhead ho hknown hchoke hzone hsilent hidle hlower => ?_⟩
  · subst h1
    exact congrArg Host.Outcome.next (takeFire_own hhead hown)
  · exact congrArg Host.Outcome.next (takeFire_other hhead ho hother)
  · have htab := leaveHead_tables e s
    have hpool := leaveHead_pool e s
    have hrecord := cueRecord_congr htab cue.toNat
    have hdispatch := dispatchFire_idle (i := i) (s := leaveHead e s) ((knownCue_congr htab _).trans hknown)
      (hrecord ▸ hchoke) ((zoneTest_congr (leaveHead_outputs e s) _).trans (hrecord ▸ hzone))
      (fun j => by rw [voiceOf_leaveHead]; exact hsilent j) ((idleSlot_congr hpool).trans (idleSlot_iff.mpr ⟨hidle, hlower⟩))
      trim e.edge (leaveHead e s).dispatch.fireOrder
    obtain ⟨hframe, hstack, hwalk⟩ := dispatched_idle trim e.edge hdispatch
    obtain ⟨l, htaken, hlast⟩ := takeFire_posts hhead ho
    have hslot : (voiceOf (setLastAccepted cue.toNat e.edge (leaveHead e s)) i).state = .idle :=
      (congrArg Voice.state (voiceOf_leaveHead e s i)).trans hidle
    obtain ⟨hstate, hcue, hlevel, horder, htrim, hstep, hpos, -⟩ :=
      startVoice_context cue.toNat trim (leaveHead e s).dispatch.fireOrder hslot
    rw [← leaveHead_fireOrder e s, hdispatch] at hlast
    obtain ⟨peers, hleft⟩ := leaveHead_eq e s
    refine ⟨takeFire s, rfl, ?_⟩
    rw [htaken]
    generalize dispatched cue.toNat trim e.edge (leaveHead e s) = d at *
    refine ⟨hwalk.state.trans hstate, hwalk.cue.trans hcue, hwalk.trim.trans htrim,
      hwalk.fireOrder.trans (horder.trans (leaveHead_fireOrder e s)), hwalk.step.trans hstep,
      hwalk.pos.trans hpos, ?_, ?_, hstack.trans (congrArg VoicePool.stack hpool), hlast, ?_⟩
    · rw [cueRecord_congr ((setLastAccepted_tables cue.toNat e.edge (leaveHead e s)).trans htab)] at hlevel
      exact hwalk.level.trans hlevel
    · rw [hframe]
      exact lastAccepted_setLastAccepted_same cue.toNat e.edge _
    · rw [hframe, hleft]
      exact ⟨rfl, rfl, rfl, rfl⟩

end Sys2Proof.Machine
end

