-- ==== Sys2Proof/Proofs/ClockCounts.lean ====
section
/-!
The decrements of a clock and its compare test (O42, O43).
-/
namespace Sys2Proof.Machine
open Relation

/-! ## What the compare tests and the decrements of a clock reach (R103, R107, R108) -/

/-- What the events of one clock leave: they reach the transmit queue and that clock's record alone, keep its epoch, its fired
flags and every own copy that names the epoch, and add frames of the Segment Clock Unit at the end of the queue. -/
structure ClockFrame (c : Fin 4) (s t : State) : Prop where
  frame : t = { s with txq := t.txq, clocks := t.clocks } := by rfl
  others : ∀ d, d ≠ c → clockOf t d = clockOf s d
  epoch : (clockOf t c).epoch = (clockOf s c).epoch
  fired : (clockOf t c).fired = (clockOf s c).fired
  copies : ∀ p : Fin 4, (clockOf t c).copies[p] = (clockOf s c).copies[p] ∨
    ((clockOf s c).copies[p].current (clockOf s c).epoch = false ∧
      (clockOf t c).copies[p].current (clockOf s c).epoch = true)
  entries : ∃ added, t.txq.entries = s.txq.entries ++ added ∧
    ∀ x ∈ added, x.producer = .clockUnit ∧ x.withdrawn = false ∧ s.txq.nextSeq ≤ x.seq
  seqs : s.txq.nextSeq ≤ t.txq.nextSeq := by exact Nat.le_refl _

theorem ClockFrame.refl (c : Fin 4) (s : State) : ClockFrame c s s where
  others _ _ := rfl
  epoch := rfl
  fired := rfl
  copies _ := .inl rfl
  entries := ⟨[], (List.append_nil _).symm, fun _ hx => absurd hx List.not_mem_nil⟩

theorem ClockFrame.trans {c : Fin 4} {s t u : State} (h : ClockFrame c s t) (k : ClockFrame c t u) : ClockFrame c s u where
  frame := by rw [k.frame, h.frame]
  others d hd := (k.others d hd).trans (h.others d hd)
  epoch := k.epoch.trans h.epoch
  fired := k.fired.trans h.fired
  copies p := by
    have hk := k.copies p
    rw [h.epoch] at hk
    rcases h.copies p with hp | ⟨hold, hnew⟩ <;> rcases hk with kp | ⟨kold, knew⟩
    · exact .inl (kp.trans hp)
    · exact .inr ⟨hp ▸ kold, knew⟩
    · exact .inr ⟨hold, kp ▸ hnew⟩
    · exact .inr ⟨hold, knew⟩
  entries := by
    obtain ⟨a, ha, hall⟩ := h.entries
    obtain ⟨b, hb, kall⟩ := k.entries
    refine ⟨a ++ b, by rw [hb, ha, List.append_assoc], fun x hx => ?_⟩
    rcases List.mem_append.mp hx with hx | hx
    · exact hall x hx
    · obtain ⟨hp, hw, hs⟩ := kall x hx
      exact ⟨hp, hw, h.seqs.trans hs⟩
  seqs := h.seqs.trans k.seqs

/-- A change of a clock's record that keeps its epoch, its fired flags and its copies. -/
theorem withClock_clockFrame {c : Fin 4} {f : ClockRecord → ClockRecord} {s : State} (he : ∀ r, (f r).epoch = r.epoch)
    (hf : ∀ r, (f r).fired = r.fired) (hc : ∀ r, (f r).copies = r.copies) : ClockFrame c s (withClock c f s) where
  others d hd := clockOf_withClock_other c d f s hd
  epoch := by rw [clockOf_withClock_same, he]
  fired := by rw [clockOf_withClock_same, hf]
  copies p := .inl (by rw [clockOf_withClock_same, hc])
  entries := ⟨[], (List.append_nil _).symm, fun _ hx => absurd hx List.not_mem_nil⟩

theorem clockOf_setCopy_same (c p : Fin 4) (o : OwnCopy) (s : State) :
    clockOf (setCopy c p o s) c = { clockOf s c with copies := (clockOf s c).copies.set p o } := clockOf_withClock_same c _ s

theorem setCopy_epoch (c p : Fin 4) (o : OwnCopy) (s : State) :
    (clockOf (setCopy c p o s) c).epoch = (clockOf s c).epoch := by rw [clockOf_setCopy_same]

theorem setCopy_fired (c p : Fin 4) (o : OwnCopy) (s : State) :
    (clockOf (setCopy c p o s) c).fired = (clockOf s c).fired := by rw [clockOf_setCopy_same]

/-- A written copy leaves the rest of the record. -/
theorem setCopy_record (c p : Fin 4) (o : OwnCopy) (s : State) :
    clockOf (setCopy c p o s) c = { clockOf s c with copies := (clockOf (setCopy c p o s) c).copies } := by
  rw [clockOf_setCopy_same]

theorem clockOf_setCopy_other {c d : Fin 4} (h : d ≠ c) (p : Fin 4) (o : OwnCopy) (s : State) :
    clockOf (setCopy c p o s) d = clockOf s d := clockOf_withClock_other c d _ s h

theorem vector_get_set {α : Type} (v : Vector α 4) (p q : Fin 4) (x : α) : (v.set p x)[q] = if q = p then x else v[q] := by
  simp only [Fin.getElem_fin, Vector.getElem_set, Fin.ext_iff, eq_comm]

/-- A copy set where none of the epoch was, to one of the epoch. -/
theorem setCopy_copies {c p : Fin 4} {o : OwnCopy} {s : State}
    (hold : (clockOf s c).copies[p].current (clockOf s c).epoch = false) (hnew : o.current (clockOf s c).epoch = true) (q : Fin 4) :
    (clockOf (setCopy c p o s) c).copies[q] = (clockOf s c).copies[q] ∨
      ((clockOf s c).copies[q].current (clockOf s c).epoch = false ∧
        (clockOf (setCopy c p o s) c).copies[q].current (clockOf s c).epoch = true) := by
  rw [clockOf_setCopy_same]
  dsimp only
  rw [vector_get_set]
  by_cases hq : q = p
  · subst hq
    rw [if_pos rfl]
    exact .inr ⟨hold, hnew⟩
  · rw [if_neg hq]
    exact .inl rfl

/-- The offer of a match of which the point has no copy of the epoch (R107, R108). -/
theorem offerMatch_clockFrame {c p : Fin 4} {s : State}
    (hold : (clockOf s c).copies[p].current (clockOf s c).epoch = false) : ClockFrame c s (offerMatch c p s) := by
  unfold offerMatch
  split
  · exact
      { others := fun d hd => clockOf_setCopy_other hd p _ _
        epoch := setCopy_epoch c p _ _
        fired := setCopy_fired c p _ _
        copies := setCopy_copies (s := placeFrame .clockUnit (clockFire s c p) s) hold (beq_self_eq_true _)
        entries := ⟨_, rfl, fun x hx => by
          obtain rfl := List.mem_singleton.mp hx
          exact ⟨rfl, rfl, Nat.le_refl _⟩⟩
        seqs := Nat.le_succ _ }
  · exact
      { others := fun d hd => clockOf_setCopy_other hd p _ _
        epoch := setCopy_epoch c p _ _
        fired := setCopy_fired c p _ _
        copies := setCopy_copies hold (beq_self_eq_true _)
        entries := ⟨[], (List.append_nil _).symm, fun _ hx => absurd hx List.not_mem_nil⟩ }

/-- One point's turn in the compare test of a decrement (R107). -/
def matchPoint (c : Fin 4) (value : Triple) (s : State) (p : Fin 4) : State :=
  if pointMatches s c p value && matchOffers s c p then offerMatch c p s else s

theorem compareTest_eq (c : Fin 4) (value : Triple) (s : State) : compareTest c value s =
    { four.foldl (matchPoint c value) s with clocks := { (four.foldl (matchPoint c value) s).clocks with
        matchSeq := (four.foldl (matchPoint c value) s).clocks.matchSeq + 1 } } := rfl

/-- A match offers at an ACTIVE station, with a clear flag and no copy of the epoch. -/
theorem matchOffers_iff (s : State) (c p : Fin 4) : matchOffers s c p = true ↔
    (clockOf s c).fired[p] = false ∧ s.member.state = .active ∧ (clockOf s c).copies[p].current (clockOf s c).epoch = false := by
  simp [matchOffers, and_assoc]

/-- What an offer of a match leaves of the clock's record. -/
theorem offerMatch_record (c p : Fin 4) (s : State) :
    clockOf (offerMatch c p s) c = { clockOf s c with copies := (clockOf (offerMatch c p s) c).copies } := by
  unfold offerMatch
  split
  · exact setCopy_record c p _ (placeFrame .clockUnit (clockFire s c p) s)
  · exact setCopy_record c p _ s

theorem matchPoint_clockFrame (c : Fin 4) (value : Triple) (s : State) (p : Fin 4) : ClockFrame c s (matchPoint c value s p) := by
  unfold matchPoint
  split
  · next h =>
    rw [Bool.and_eq_true, matchOffers_iff] at h
    obtain ⟨-, -, -, hold⟩ := h
    exact offerMatch_clockFrame hold
  · exact ClockFrame.refl c s

theorem matchPoint_record (c : Fin 4) (value : Triple) (s : State) (p : Fin 4) :
    clockOf (matchPoint c value s p) c = { clockOf s c with copies := (clockOf (matchPoint c value s p) c).copies } := by
  unfold matchPoint
  split
  · exact offerMatch_record c p s
  · rfl

theorem foldl_matchPoint (c : Fin 4) (value : Triple) : ∀ (l : List (Fin 4)) (s : State),
    ClockFrame c s (l.foldl (matchPoint c value) s) ∧
      clockOf (l.foldl (matchPoint c value) s) c =
        { clockOf s c with copies := (clockOf (l.foldl (matchPoint c value) s) c).copies }
  | [], s => ⟨ClockFrame.refl c s, rfl⟩
  | p :: l, s => by
    obtain ⟨hframe, hrecord⟩ := foldl_matchPoint c value l (matchPoint c value s p)
    rw [List.foldl_cons]
    refine ⟨(matchPoint_clockFrame c value s p).trans hframe, ?_⟩
    rw [hrecord, matchPoint_record c value s p]

theorem compareTest_clockFrame (c : Fin 4) (value : Triple) (s : State) : ClockFrame c s (compareTest c value s) := by
  obtain ⟨h, -⟩ := foldl_matchPoint c value four s
  rw [compareTest_eq]
  generalize four.foldl (matchPoint c value) s = t at h
  exact { h with frame := by rw [h.frame] }

theorem compareTest_record (c : Fin 4) (value : Triple) (s : State) :
    clockOf (compareTest c value s) c = { clockOf s c with copies := (clockOf (compareTest c value s) c).copies } := by
  obtain ⟨-, h⟩ := foldl_matchPoint c value four s
  rw [compareTest_eq]
  generalize four.foldl (matchPoint c value) s = t at h
  exact h

/-! ## The count of a clock (R103) -/

/-- A clock runs, and its phase is a given moment. -/
def runsAt (s : State) (c : Fin 4) (phase : Word) : Prop := (clockOf s c).state = .running ∧ (clockOf s c).phase = some phase

theorem decrementDue_iff {s : State} {c : Fin 4} {phase : Word} (h : runsAt s c phase) :
    decrementDue s c = true ↔ (s.stationClock - phase).toNat < 2147483648 := by
  obtain ⟨hs, hp⟩ := h
  simp [decrementDue, hs, hp]

theorem decrement_of_not_due {s : State} {c : Fin 4} (h : decrementDue s c = false) : decrement c s = s := by
  rw [decrement, h, if_neg Bool.false_ne_true]

theorem decrement_of_not_running {s : State} {c : Fin 4} (h : (clockOf s c).state ≠ .running) : decrement c s = s :=
  decrement_of_not_due (by simp [decrementDue, h])

/-- The state before the compare test of a decrement. -/
def counted (c : Fin 4) (s : State) : State :=
  withClock c (fun r => { r with value := (clockOf s c).value - 1, phase := r.phase.map (· + 10000) }) s

theorem clockOf_counted (c : Fin 4) (s : State) : clockOf (counted c s) c =
    { clockOf s c with value := (clockOf s c).value - 1, phase := (clockOf s c).phase.map (· + 10000) } :=
  clockOf_withClock_same c _ s

theorem decrement_of_due {s : State} {c : Fin 4} (h : decrementDue s c = true) : decrement c s =
    withClock c expireAtZero (compareTest c ((clockOf s c).value - 1) (counted c s)) := by
  rw [decrement, if_pos h]
  rfl

theorem expireAtZero_epoch (r : ClockRecord) : (expireAtZero r).epoch = r.epoch := by
  unfold expireAtZero
  split <;> rfl

theorem expireAtZero_fired (r : ClockRecord) : (expireAtZero r).fired = r.fired := by
  unfold expireAtZero
  split <;> rfl

theorem expireAtZero_copies (r : ClockRecord) : (expireAtZero r).copies = r.copies := by
  unfold expireAtZero
  split <;> rfl

theorem counted_clockFrame (c : Fin 4) (s : State) : ClockFrame c s (counted c s) :=
  withClock_clockFrame (fun _ => rfl) (fun _ => rfl) (fun _ => rfl)

theorem decrement_clockFrame (c : Fin 4) (s : State) : ClockFrame c s (decrement c s) := by
  cases h : decrementDue s c with
  | true =>
    rw [decrement_of_due h]
    exact (counted_clockFrame c s).trans ((compareTest_clockFrame c _ _).trans
      (withClock_clockFrame expireAtZero_epoch expireAtZero_fired expireAtZero_copies))
  | false =>
    rw [decrement_of_not_due h]
    exact ClockFrame.refl c s

theorem catchUp_clockFrame (c : Fin 4) : ∀ (n : Nat) (s : State), ClockFrame c s (catchUp c n s)
  | 0, s => ClockFrame.refl c s
  | n + 1, s => (decrement_clockFrame c s).trans (catchUp_clockFrame c n _)

/-- The record of a clock after a decrement, but for its copies. -/
theorem clockOf_decrement {s : State} {c : Fin 4} (h : decrementDue s c = true) : clockOf (decrement c s) c =
    { expireAtZero { clockOf s c with value := (clockOf s c).value - 1, phase := (clockOf s c).phase.map (· + 10000) } with
      copies := (clockOf (decrement c s) c).copies } := by
  have hrecord := compareTest_record c ((clockOf s c).value - 1) (counted c s)
  rw [clockOf_counted] at hrecord
  rw [decrement_of_due h, clockOf_withClock_same, hrecord]
  unfold expireAtZero
  dsimp only
  split <;> rfl

/-- A decrement that does not bring the clock to 0. -/
theorem decrement_running {s : State} {c : Fin 4} {phase : Word} (h : runsAt s c phase)
    (hdue : (s.stationClock - phase).toNat < 2147483648) (hvalue : (clockOf s c).value ≠ 1) :
    runsAt (decrement c s) c (phase + 10000) ∧ (clockOf (decrement c s) c).value = (clockOf s c).value - 1 := by
  have hrecord := clockOf_decrement ((decrementDue_iff h).mpr hdue)
  have hne : (clockOf s c).value - 1 ≠ 0 := fun h0 => hvalue (sub_eq_zero.mp h0)
  obtain ⟨hs, hp⟩ := h
  rw [expireAtZero, if_neg hne] at hrecord
  rw [runsAt, hrecord]
  exact ⟨⟨hs, by rw [hp]; rfl⟩, rfl⟩

/-- The decrement that brings the clock to 0. -/
theorem decrement_expires {s : State} {c : Fin 4} {phase : Word} (h : runsAt s c phase)
    (hdue : (s.stationClock - phase).toNat < 2147483648) (hvalue : (clockOf s c).value = 1) :
    (clockOf (decrement c s) c).state = .expired ∧ (clockOf (decrement c s) c).value = 0 ∧
      (clockOf (decrement c s) c).phase = none := by
  have hrecord := clockOf_decrement ((decrementDue_iff h).mpr hdue)
  rw [expireAtZero, if_pos (by rw [hvalue]; rfl)] at hrecord
  rw [hrecord]
  exact ⟨rfl, by rw [hvalue]; rfl, rfl⟩

/-- Settles O42. -/
theorem clockCountsDown : Obligations.ClockCountsDown := by
  intro c s
  refine ⟨fun h => congrArg Host.Outcome.next (decrement_of_not_running h), fun phase hs hp => ?_⟩
  have hruns : runsAt s c phase := ⟨hs, hp⟩
  have hframe := decrement_clockFrame c s
  refine ⟨fun hlate => ?_, fun hdue hvalue => ⟨⟨decrement c s, rfl, hframe.others, ?_⟩, fun hlt => ?_, fun h1 => ?_⟩⟩
  · refine congrArg Host.Outcome.next (decrement_of_not_due ?_)
    rw [Bool.eq_false_iff, ne_eq, decrementDue_iff hruns]
    exact Nat.not_lt_of_le hlate
  · have hf := hframe.frame
    generalize decrement c s = t at hf
    rw [hf]
    exact ⟨⟨rfl, rfl, rfl, rfl, rfl, rfl⟩, ⟨rfl, rfl, rfl, rfl⟩, rfl, rfl, rfl, rfl, rfl, rfl⟩
  · have hne : (clockOf s c).value ≠ 1 := fun h => by rw [h] at hlt; exact absurd hlt (by decide)
    obtain ⟨⟨hs', hp'⟩, hv⟩ := decrement_running hruns hdue hne
    exact ⟨decrement c s, rfl, hs', hv, hp', hframe.epoch, hframe.fired⟩
  · obtain ⟨hs', hv, hp'⟩ := decrement_expires hruns hdue h1
    refine ⟨decrement c s, ?_, rfl, hs', hv, hp', hframe.epoch, hframe.fired⟩
    exact congrArg Host.Outcome.next (if_pos h1)

/-! ## The compare test where one point is enabled (R107, R108) -/

/-- A run over a list in which one turn alone does anything. -/
theorem foldl_single {α β : Type} {f : β → α → β} {p : α} {s : β} (hbefore : ∀ q, q ≠ p → f s q = s)
    (hafter : ∀ q, q ≠ p → f (f s p) q = f s p) : ∀ l : List α, l.Nodup → p ∈ l → l.foldl f s = f s p
  | [], _, hp => absurd hp List.not_mem_nil
  | x :: l, hl, hp => by
    obtain ⟨hx, hnodup⟩ := List.nodup_cons.mp hl
    rw [List.foldl_cons]
    by_cases hxp : x = p
    · subst hxp
      have hrest : ∀ m : List α, x ∉ m → m.foldl f (f s x) = f s x := fun m => by
        induction m with
        | nil => exact fun _ => rfl
        | cons y m ih =>
          intro hm
          rw [List.foldl_cons, hafter y (fun h => hm (h ▸ List.mem_cons_self)), ih fun h => hm (List.mem_cons_of_mem _ h)]
      exact hrest l hx
    · rw [hbefore x hxp]
      exact foldl_single hbefore hafter l hnodup ((List.mem_cons.mp hp).resolve_left (Ne.symm hxp))

theorem mem_four : ∀ p : Fin 4, p ∈ four := by decide

theorem comparePoint_congr {s t : State} (h : t.tables = s.tables) (c p : Fin 4) : comparePoint t c p = comparePoint s c p := by
  rw [comparePoint, comparePoint, h]

theorem matchPoint_of_disabled {c p : Fin 4} {s : State} (value : Triple) (h : (comparePoint s c p).enabled = false) :
    matchPoint c value s p = s := by simp [matchPoint, pointMatches, h]

theorem matchPoint_of_matching {c p : Fin 4} {s : State} (h : (comparePoint s c p).enabled = true) :
    matchPoint c (comparePoint s c p).value s p = if matchOffers s c p then offerMatch c p s else s := by
  simp [matchPoint, pointMatches, h]

/-- The compare test of a clock of which one point is enabled. -/
theorem foldl_matchPoint_single {c p : Fin 4} {s : State} (value : Triple)
    (h : ∀ q : Fin 4, q ≠ p → (comparePoint s c q).enabled = false) :
    four.foldl (matchPoint c value) s = matchPoint c value s p := by
  have htab : (matchPoint c value s p).tables = s.tables := by rw [(matchPoint_clockFrame c value s p).frame]
  exact foldl_single (fun q hq => matchPoint_of_disabled value (h q hq))
    (fun q hq => matchPoint_of_disabled value ((congrArg ComparePoint.enabled (comparePoint_congr htab c q)).trans (h q hq)))
    four (by decide) (mem_four p)

/-- The transmit queue and the copies after a decrement are those after its compare test. -/
theorem decrement_tests {c p : Fin 4} {s : State} (hdue : decrementDue s c = true)
    (hvalue : (comparePoint s c p).value = (clockOf s c).value - 1) (hon : (comparePoint s c p).enabled = true)
    (h : ∀ q : Fin 4, q ≠ p → (comparePoint s c q).enabled = false) :
    (decrement c s).txq = (if matchOffers s c p then offerMatch c p (counted c s) else counted c s).txq ∧
      (clockOf (decrement c s) c).copies =
        (clockOf (if matchOffers s c p then offerMatch c p (counted c s) else counted c s) c).copies := by
  have hpoint : ∀ q, comparePoint (counted c s) c q = comparePoint s c q := comparePoint_congr rfl c
  have htest : matchPoint c ((clockOf s c).value - 1) (counted c s) p =
      if matchOffers s c p then offerMatch c p (counted c s) else counted c s := by
    have hmatch := matchPoint_of_matching (s := counted c s) ((congrArg ComparePoint.enabled (hpoint p)).trans hon)
    rw [hpoint, hvalue] at hmatch
    have hoffers : matchOffers (counted c s) c p = matchOffers s c p := by
      simp only [matchOffers, clockOf_counted]
      rfl
    rw [hmatch, hoffers]
  have hfold := foldl_matchPoint_single (s := counted c s) ((clockOf s c).value - 1)
    (fun q hq => (congrArg ComparePoint.enabled (hpoint q)).trans (h q hq))
  rw [decrement_of_due hdue, clockOf_withClock_same, expireAtZero_copies, compareTest_eq, hfold, htest]
  exact ⟨rfl, rfl⟩

theorem placeClockFire_copy (c p : Fin 4) (s : State) :
    (clockOf (placeClockFire c p s) c).copies[p] = .queued (clockOf s c).epoch s.txq.nextSeq := by
  rw [placeClockFire, clockOf_setCopy_same]
  dsimp only
  rw [vector_get_set, if_pos rfl]
  rfl

theorem placeClockFire_frames (c p : Fin 4) (s : State) : (placeClockFire c p s).txq.entries.map TxEntry.frame =
    s.txq.entries.map TxEntry.frame ++ [encodeFrame (ownNumber s)
      (.fire (comparePoint s c p).cue 2 (BitVec.ofNat 8 (c.val * 16 + p.val) ++ (clockOf s c).epoch) 128)] := by
  rw [placeClockFire, setCopy_txq, placeFrame, List.map_append]
  rfl

/-- Settles O43. -/
theorem compareMatchOffersFire : Obligations.CompareMatchOffersFire := by
  intro c p phase s hs hp hlate hvalue hon hmatch honly
  have hdue : decrementDue s c = true := (decrementDue_iff ⟨hs, hp⟩).mpr hlate
  have hepoch := (counted_clockFrame c s).epoch
  obtain ⟨htxq, hcopies⟩ := decrement_tests hdue hmatch hon honly
  refine ⟨fun hactive hfired habsent hroom => ⟨decrement c s, rfl, ?_, ?_, (decrement_clockFrame c s).fired⟩, fun hquiet => ?_⟩
  · have hoffers : matchOffers s c p = true := (matchOffers_iff s c p).mpr ⟨hfired, hactive, by rw [habsent]; rfl⟩
    rw [hcopies, if_pos hoffers, offerMatch, if_pos (show txRoom (counted c s) = true from decide_eq_true hroom),
      placeClockFire_copy, hepoch]
    rfl
  · have hoffers : matchOffers s c p = true := (matchOffers_iff s c p).mpr ⟨hfired, hactive, by rw [habsent]; rfl⟩
    rw [htxq, if_pos hoffers, offerMatch, if_pos (show txRoom (counted c s) = true from decide_eq_true hroom),
      placeClockFire_frames, hepoch]
    rfl
  · have hoffers : matchOffers s c p = false := by
      rw [Bool.eq_false_iff, ne_eq, matchOffers_iff]
      rintro ⟨hf, ha, -⟩
      rcases hquiet with hq | hq
      · exact hq ha
      · exact Bool.false_ne_true (hf.symm.trans hq)
    rw [hoffers, if_neg Bool.false_ne_true] at htxq hcopies
    exact ⟨decrement c s, rfl, htxq, hcopies.trans (by rw [clockOf_counted])⟩

end Sys2Proof.Machine
end

