-- ==== Sys2Proof/Proofs/ClockFrames.lean ====
section
/-!
The taking of a CLOCK frame (O29).
-/
namespace Sys2Proof.Machine
open Relation

/-! ## Words along a count of µs (R105) -/

/-- A distance to a moment moved forward within it. -/
theorem distance_sub {a b : Word} {m : Nat} (h : m ≤ (b - a).toNat) : (b - (a + BitVec.ofNat 32 m)).toNat = (b - a).toNat - m := by
  have hlt : (b - a).toNat < 2 ^ 32 := (b - a).isLt
  conv_lhs => rw [← add_distance a b]
  rw [add_sub_add_left_eq_sub, BitVec.ofNat_sub_ofNat_of_le _ _ (by omega) h, BitVec.toNat_ofNat, Nat.mod_eq_of_lt (by omega)]

/-- The phase of the decrement after `k` others, of a clock that a break edge starts (R105). -/
def phaseAfter (edge : Word) (k : Nat) : Word := edge + BitVec.ofNat 32 (10000 * (k + 1))

theorem phaseAfter_succ (edge : Word) (k : Nat) : phaseAfter edge k + 10000 = phaseAfter edge (k + 1) := by
  unfold phaseAfter
  rw [add_assoc, show (10000 : Word) = BitVec.ofNat 32 10000 from rfl, ← BitVec.ofNat_add]
  congr 2

theorem toNat_sub_one {v : Triple} (h : v ≠ 0) : (v - 1).toNat = v.toNat - 1 := by
  have hpos : v.toNat ≠ 0 := fun h0 => h (BitVec.eq_of_toNat_eq h0)
  rw [BitVec.toNat_sub_of_le (by rw [BitVec.le_def]; exact Nat.one_le_iff_ne_zero.mpr hpos)]
  rfl

theorem catchUp_of_not_running {c : Fin 4} : ∀ (n : Nat) {s : State}, (clockOf s c).state ≠ .running → catchUp c n s = s
  | 0, _, _ => rfl
  | n + 1, s, h => by rw [catchUp, decrement_of_not_running h, catchUp_of_not_running n h]

/-- The decrements that a START has due, after `k` of them (R105). -/
theorem catchUp_counts {c : Fin 4} {edge : Word} : ∀ (n k : Nat) {s : State}, runsAt s c (phaseAfter edge k) →
    (clockOf s c).value ≠ 0 → 10000 * (k + n) ≤ (s.stationClock - edge).toNat →
    (s.stationClock - edge).toNat < 2147483648 →
    (n < (clockOf s c).value.toNat → runsAt (catchUp c n s) c (phaseAfter edge (k + n)) ∧
      (clockOf (catchUp c n s) c).value.toNat = (clockOf s c).value.toNat - n) ∧
    ((clockOf s c).value.toNat ≤ n → (clockOf (catchUp c n s) c).state = .expired ∧ (clockOf (catchUp c n s) c).value = 0 ∧
      (clockOf (catchUp c n s) c).phase = none)
  | 0, k, s, hruns, hvalue, _, _ =>
    ⟨fun _ => ⟨hruns, rfl⟩, fun h => absurd (BitVec.eq_of_toNat_eq (Nat.le_zero.mp h)) hvalue⟩
  | n + 1, k, s, hruns, hvalue, hin, hsmall => by
    have hdue : (s.stationClock - phaseAfter edge k).toNat < 2147483648 := by
      rw [phaseAfter, distance_sub (by omega)]
      omega
    have hclock : (decrement c s).stationClock = s.stationClock := by rw [(decrement_clockFrame c s).frame]
    rw [catchUp]
    by_cases hone : (clockOf s c).value = 1
    · obtain ⟨hs, hv, hp⟩ := decrement_expires hruns hdue hone
      rw [catchUp_of_not_running n (by rw [hs]; decide)]
      refine ⟨fun hlt => ?_, fun _ => ⟨hs, hv, hp⟩⟩
      rw [hone] at hlt
      exact absurd hlt (Nat.not_lt_of_le (Nat.succ_le_succ (Nat.zero_le n)))
    · obtain ⟨hruns', hv⟩ := decrement_running hruns hdue hone
      rw [phaseAfter_succ] at hruns'
      have hvalue' : (clockOf (decrement c s) c).value ≠ 0 := fun h => hone (sub_eq_zero.mp (hv.symm.trans h))
      have hnat := toNat_sub_one hvalue
      have hpos : (clockOf s c).value.toNat ≠ 0 := fun h0 => hvalue (BitVec.eq_of_toNat_eq h0)
      rw [← hv] at hnat
      obtain ⟨hless, hmore⟩ := catchUp_counts n (k + 1) hruns' hvalue' (by rw [hclock]; omega) (by rw [hclock]; exact hsmall)
      rw [hnat] at hless hmore
      rw [show k + (n + 1) = k + 1 + n by omega]
      refine ⟨fun hlt => ?_, fun hle => hmore (by omega)⟩
      obtain ⟨h1, h2⟩ := hless (by omega)
      exact ⟨h1, by omega⟩

/-! ## CLOCK frames (Table 6-2) -/

theorem adoptEpoch_value (epoch : Byte) (value : Triple) (r : ClockRecord) : (adoptEpoch epoch value r).value = value := by
  unfold adoptEpoch
  split <;> rfl

theorem adoptEpoch_epoch (epoch : Byte) (value : Triple) (r : ClockRecord) : (adoptEpoch epoch value r).epoch = epoch := by
  unfold adoptEpoch
  split
  · next h => exact h.symm
  · rfl

theorem adoptEpoch_fired (epoch : Byte) (value : Triple) (r : ClockRecord) (p : Fin 4) :
    (adoptEpoch epoch value r).fired[p] = if epoch = r.epoch then r.fired[p] else false := by
  unfold adoptEpoch
  split
  · rfl
  · simp

theorem adoptEpoch_copies (epoch : Byte) (value : Triple) (r : ClockRecord) (p : Fin 4) :
    (adoptEpoch epoch value r).copies[p] = if epoch = r.epoch then r.copies[p] else .absent := by
  unfold adoptEpoch
  split
  · rfl
  · simp

/-- The clock of a CLOCK frame with the frame's value and epoch (R104). -/
def adopted (c : Fin 4) (epoch : Byte) (value : Triple) (s : State) : State := withClock c (adoptEpoch epoch value) s

theorem clockOf_adopted (c : Fin 4) (epoch : Byte) (value : Triple) (s : State) :
    clockOf (adopted c epoch value s) c = adoptEpoch epoch value (clockOf s c) := clockOf_withClock_same c _ s

theorem clockFrameApplies_iff (s : State) (c : Fin 4) (epoch : Byte) : clockFrameApplies s c epoch = true ↔
    (clockOf s c).state = .unset ∨
      ¬ (0 < ((clockOf s c).epoch - epoch).toNat ∧ ((clockOf s c).epoch - epoch).toNat < 128) := by
  simp only [clockFrameApplies, epochBehind, Bool.or_eq_true, decide_eq_true_eq, Bool.not_eq_true', Bool.and_eq_false_iff,
    decide_eq_false_iff_not, not_and_or]

theorem applyClockOp_behind {s : State} {c : Fin 4} {epoch : Byte} (h : clockFrameApplies s c epoch = false) (op : Byte)
    (value : Triple) (edge : Word) : applyClockOp c op epoch value edge s = s := by
  rw [applyClockOp, h, if_neg Bool.false_ne_true]

theorem applyClockOp_start {s : State} {c : Fin 4} {epoch : Byte} (h : clockFrameApplies s c epoch = true) (value : Triple)
    (edge : Word) : applyClockOp c 2 epoch value edge s = startClock c edge (adopted c epoch value s) := by
  rw [applyClockOp, if_pos h]
  rfl

theorem applyClockOp_stop {s : State} {c : Fin 4} {op epoch : Byte} (h : clockFrameApplies s c epoch = true)
    (hop : op = 1 ∨ op = 3) (value : Triple) (edge : Word) :
    applyClockOp c op epoch value edge s = stopClock c (adopted c epoch value s) := by
  have h2 : op ≠ 2 := by rcases hop with rfl | rfl <;> decide
  rw [applyClockOp, if_pos h]
  dsimp only
  rw [if_neg h2, if_pos hop]
  rfl

theorem applyClockOp_other {op : Byte} (h : op ≠ 1 ∧ op ≠ 2 ∧ op ≠ 3) (c : Fin 4) (epoch : Byte) (value : Triple) (edge : Word)
    (s : State) : applyClockOp c op epoch value edge s = s := by
  obtain ⟨h1, h2, h3⟩ := h
  unfold applyClockOp
  split
  · dsimp only
    rw [if_neg (not_or.mpr ⟨h1, h3⟩)]
  · rfl

theorem stopClock_clockFrame (c : Fin 4) (s : State) : ClockFrame c s (stopClock c s) :=
  withClock_clockFrame (fun _ => rfl) (fun _ => rfl) (fun _ => rfl)

/-- A clock set RUNNING from a break edge, with none of its decrements applied (R105). -/
def started (c : Fin 4) (edge : Word) (s : State) : State :=
  withClock c (fun r => { r with state := .running, phase := some (edge + 10000) }) s

theorem started_clockFrame (c : Fin 4) (edge : Word) (s : State) : ClockFrame c s (started c edge s) :=
  withClock_clockFrame (fun _ => rfl) (fun _ => rfl) (fun _ => rfl)

theorem startClock_of_zero {c : Fin 4} {s : State} (h : (clockOf s c).value = 0) (edge : Word) :
    startClock c edge s = withClock c (fun r => { r with state := .expired, phase := none }) s := if_pos h

theorem startClock_of_count {c : Fin 4} {s : State} (h : (clockOf s c).value ≠ 0) (edge : Word) :
    startClock c edge s = catchUp c ((s.stationClock - edge).toNat / 10000) (started c edge s) := if_neg h

theorem startClock_clockFrame (c : Fin 4) (edge : Word) (s : State) : ClockFrame c s (startClock c edge s) := by
  by_cases h : (clockOf s c).value = 0
  · rw [startClock_of_zero h]
    exact withClock_clockFrame (fun _ => rfl) (fun _ => rfl) (fun _ => rfl)
  · rw [startClock_of_count h]
    exact (started_clockFrame c edge s).trans (catchUp_clockFrame c _ _)

/-- A START of a count of which every decrement due is applied (R105). -/
theorem startClock_counts {c : Fin 4} {s : State} {edge : Word} (h : (clockOf s c).value ≠ 0)
    (hsmall : (s.stationClock - edge).toNat < 2147483648) :
    ((s.stationClock - edge).toNat / 10000 < (clockOf s c).value.toNat →
      runsAt (startClock c edge s) c (phaseAfter edge ((s.stationClock - edge).toNat / 10000)) ∧
        (clockOf (startClock c edge s) c).value.toNat =
          (clockOf s c).value.toNat - (s.stationClock - edge).toNat / 10000) ∧
    ((clockOf s c).value.toNat ≤ (s.stationClock - edge).toNat / 10000 →
      (clockOf (startClock c edge s) c).state = .expired ∧ (clockOf (startClock c edge s) c).value = 0 ∧
        (clockOf (startClock c edge s) c).phase = none) := by
  have hrecord : clockOf (started c edge s) c =
      { clockOf s c with state := .running, phase := some (edge + 10000) } := clockOf_withClock_same c _ s
  have hruns : runsAt (started c edge s) c (phaseAfter edge 0) := by
    rw [runsAt, hrecord]
    exact ⟨rfl, rfl⟩
  have hvalue : (clockOf (started c edge s) c).value = (clockOf s c).value := by rw [hrecord]
  have hcounts := catchUp_counts ((s.stationClock - edge).toNat / 10000) 0 hruns (hvalue ▸ h)
    (show 10000 * (0 + (s.stationClock - edge).toNat / 10000) ≤ (s.stationClock - edge).toNat by omega) hsmall
  rwa [hvalue, Nat.zero_add, ← startClock_of_count h] at hcounts

/-- The operations of Table 6-2 act on the adopted record as the events of its clock do. -/
theorem applyClockOp_clockFrame {s : State} {c : Fin 4} {op epoch : Byte} (h : clockFrameApplies s c epoch = true)
    (hop : op = 1 ∨ op = 2 ∨ op = 3) (value : Triple) (edge : Word) :
    ClockFrame c (adopted c epoch value s) (applyClockOp c op epoch value edge s) := by
  by_cases h2 : op = 2
  · subst h2
    rw [applyClockOp_start h]
    exact startClock_clockFrame c edge _
  · rw [applyClockOp_stop h (hop.imp id fun h => h.resolve_left h2)]
    exact stopClock_clockFrame c _

/-- What a CLOCK frame leaves of the queue and of the copies: frames are added alone, and a copy of the epoch that stays, stays. -/
structure ClockTaken (c : Fin 4) (epoch : Byte) (s t : State) : Prop where
  frame : t = { s with txq := t.txq, clocks := t.clocks }
  others : ∀ d : Fin 4, d ≠ c → clockOf t d = clockOf s d
  copies : ∀ p : Fin 4, epoch = (clockOf s c).epoch → (clockOf s c).copies[p].current epoch = true →
    (clockOf t c).copies[p] = (clockOf s c).copies[p]
  entries : ∃ added, t.txq.entries = s.txq.entries ++ added ∧
    ∀ x ∈ added, x.producer = .clockUnit ∧ x.withdrawn = false ∧ s.txq.nextSeq ≤ x.seq

theorem applyClockOp_clockTaken {s : State} {c : Fin 4} {epoch : Byte} (op : Byte) (value : Triple) (edge : Word) :
    ClockTaken c epoch s (applyClockOp c op epoch value edge s) := by
  have hself : ClockTaken c epoch s s :=
    ⟨rfl, fun _ _ => rfl, fun _ _ _ => rfl, [], (List.append_nil _).symm, fun _ hx => absurd hx List.not_mem_nil⟩
  cases happlies : clockFrameApplies s c epoch with
  | false => rwa [applyClockOp_behind happlies]
  | true =>
    by_cases hop : op = 1 ∨ op = 2 ∨ op = 3
    · have h := applyClockOp_clockFrame happlies hop value edge
      refine ⟨?_, fun d hd => (h.others d hd).trans (clockOf_withClock_other c d _ s hd), fun p he hp => ?_, h.entries⟩
      · rw [h.frame]
        rfl
      · have hcopies := h.copies p
        rw [clockOf_adopted, adoptEpoch_copies, if_pos he, adoptEpoch_epoch, hp] at hcopies
        exact hcopies.resolve_right fun hbad => Bool.false_ne_true hbad.1.symm
    · rw [applyClockOp_other (by simpa [not_or] using hop)]
      exact hself

/-- The copies and the flags of the clock of an operation that applies. -/
theorem applyClockOp_record {s : State} {c : Fin 4} {op epoch : Byte} (h : clockFrameApplies s c epoch = true)
    (hop : op = 1 ∨ op = 2 ∨ op = 3) (value : Triple) (edge : Word) :
    (clockOf (applyClockOp c op epoch value edge s) c).epoch = epoch ∧
      (∀ p : Fin 4, (clockOf (applyClockOp c op epoch value edge s) c).fired[p] =
        if epoch = (clockOf s c).epoch then (clockOf s c).fired[p] else false) ∧
      (epoch ≠ (clockOf s c).epoch → ∀ p : Fin 4,
        (clockOf (applyClockOp c op epoch value edge s) c).copies[p] = .absent ∨
          (clockOf (applyClockOp c op epoch value edge s) c).copies[p].current epoch = true) := by
  have hframe := applyClockOp_clockFrame h hop value edge
  refine ⟨hframe.epoch.trans ?_, fun p => ?_, fun hne p => ?_⟩
  · rw [clockOf_adopted, adoptEpoch_epoch]
  · rw [hframe.fired, clockOf_adopted, adoptEpoch_fired]
  · have hcopies := hframe.copies p
    rw [clockOf_adopted, adoptEpoch_copies, if_neg hne, adoptEpoch_epoch] at hcopies
    exact hcopies.imp_right And.right

/-- A clock set to a state with its phase lost. -/
theorem clockOf_halted (c : Fin 4) (st : ClockState) (s : State) :
    clockOf (withClock c (fun r => { r with state := st, phase := none }) s) c =
      { clockOf s c with state := st, phase := none } := clockOf_withClock_same c _ s

/-- The operations that apply no decrement leave the queue and the adopted copies. -/
theorem applyClockOp_quiet {s : State} {c : Fin 4} {op epoch : Byte} {value : Triple} {edge : Word}
    (h : clockFrameApplies s c epoch = true)
    (hop : op = 1 ∨ op = 3 ∨ (op = 2 ∧ (value = 0 ∨ (s.stationClock - edge).toNat < 10000))) :
    (applyClockOp c op epoch value edge s).txq = s.txq ∧
      (clockOf (applyClockOp c op epoch value edge s) c).copies = (clockOf (adopted c epoch value s) c).copies := by
  have hstop : op = 1 ∨ op = 3 → _ := fun hop => applyClockOp_stop h hop value edge
  rcases hop with hop | hop | ⟨rfl, hwhy⟩
  · rw [hstop (.inl hop), stopClock, clockOf_halted]
    exact ⟨rfl, rfl⟩
  · rw [hstop (.inr hop), stopClock, clockOf_halted]
    exact ⟨rfl, rfl⟩
  · have hvalue : (clockOf (adopted c epoch value s) c).value = value := by rw [clockOf_adopted, adoptEpoch_value]
    rw [applyClockOp_start h]
    by_cases h0 : value = 0
    · rw [startClock_of_zero (hvalue.trans h0), clockOf_halted]
      exact ⟨rfl, rfl⟩
    · have hnone : ((adopted c epoch value s).stationClock - edge).toNat / 10000 = 0 :=
        Nat.div_eq_of_lt (hwhy.resolve_left h0)
      rw [startClock_of_count (by rwa [hvalue]), hnone, catchUp, started, clockOf_withClock_same]
      exact ⟨rfl, rfl⟩

theorem leaveHead_clocks (e : RxEntry) (s : State) : (leaveHead e s).clocks = s.clocks := by
  obtain ⟨peers, hleft⟩ := leaveHead_eq e s
  rw [hleft]

theorem leaveHead_txq (e : RxEntry) (s : State) : (leaveHead e s).txq = s.txq := by
  obtain ⟨peers, hleft⟩ := leaveHead_eq e s
  rw [hleft]

theorem leaveHead_panel (e : RxEntry) (s : State) : (leaveHead e s).panel = s.panel := by
  obtain ⟨peers, hleft⟩ := leaveHead_eq e s
  rw [hleft]

theorem leaveHead_clock (e : RxEntry) (s : State) : (leaveHead e s).stationClock = s.stationClock := by
  obtain ⟨peers, hleft⟩ := leaveHead_eq e s
  rw [hleft]

theorem leaveHead_keepsAudio (e : RxEntry) (s : State) : keepsAudio s (leaveHead e s) := by
  obtain ⟨peers, hleft⟩ := leaveHead_eq e s
  rw [hleft]
  exact ⟨rfl, rfl, rfl, rfl⟩

theorem clockOf_leaveHead (e : RxEntry) (s : State) (c : Fin 4) : clockOf (leaveHead e s) c = clockOf s c := by
  rw [clockOf, clockOf, leaveHead_clocks]

/-- The taking of a CLOCK frame that names a clock. -/
theorem takeClock_named {s : State} {e : RxEntry} {clk op epoch : Byte} {value : Triple} {c : Fin 4}
    (h : standsAtHead s e (.clock clk op epoch value)) (hc : clk.toNat = c.val) :
    takeClock s = applyClockOp c op epoch value e.edge (leaveHead e s) := by
  have hclk : (⟨clk.toNat, hc ▸ c.isLt⟩ : Fin 4) = c := Fin.ext hc
  rw [takeClock_of_head h, dif_pos (hc ▸ c.isLt), hclk]

/-- Settles O29. -/
theorem clockFrameSetsRecord : Obligations.ClockFrameSetsRecord := by
  intro e clk op epoch value s hhead
  refine ⟨fun hwhy => ⟨takeClock s, rfl, ?_⟩, fun c hc => ?_⟩
  · have hleft : takeClock s = leaveHead e s := by
      rw [takeClock_of_head hhead]
      rcases hwhy with hclk | hop
      · exact dif_neg (Nat.not_lt_of_le hclk)
      · split
        · exact applyClockOp_other hop _ _ _ _ _
        · rfl
    rw [hleft]
    exact ⟨leaveHead_clocks e s, leaveHead_txq e s, leaveHead_keepsAudio e s, leaveHead_panel e s⟩
  · have happlies : clockFrameApplies (leaveHead e s) c epoch = clockFrameApplies s c epoch := by
      rw [clockFrameApplies, clockFrameApplies, clockOf_leaveHead]
    refine ⟨fun hset hbehind => ⟨takeClock s, rfl, ?_⟩, fun happly => ⟨takeClock s, rfl, ?_⟩⟩
    · have hnot : clockFrameApplies s c epoch = false := by
        rw [Bool.eq_false_iff, ne_eq, clockFrameApplies_iff]
        exact fun h => h.elim hset fun hn => hn hbehind
      rw [takeClock_named hhead hc, applyClockOp_behind (happlies.trans hnot)]
      exact ⟨leaveHead_clocks e s, leaveHead_txq e s⟩
    · have hyes := happlies.trans ((clockFrameApplies_iff s c epoch).mpr happly)
      have htaken := applyClockOp_clockTaken (s := leaveHead e s) (c := c) (epoch := epoch) op value e.edge
      have hof := clockOf_leaveHead e s
      have htime := leaveHead_clock e s
      have haudio := leaveHead_keepsAudio e s
      rw [takeClock_named hhead hc]
      rw [← hof c, ← htime, ← leaveHead_txq e s, ← leaveHead_panel e s]
      simp only [← hof]
      generalize leaveHead e s = u at *
      have hadopted : (clockOf (adopted c epoch value u) c).value = value := by rw [clockOf_adopted, adoptEpoch_value]
      refine ⟨fun hop => ?_, fun hop => ?_, fun h2 h0 => ?_, fun h2 h0 hsmall => ?_, fun hquiet => ?_, fun hop hne p => ?_,
        htaken.copies, htaken.entries, htaken.others, ?_, ?_⟩
      · obtain ⟨hepoch, hfired, -⟩ := applyClockOp_record hyes hop value e.edge
        exact ⟨hepoch, hfired⟩
      · rw [applyClockOp_stop hyes hop, stopClock, clockOf_halted]
        exact ⟨rfl, hadopted, rfl⟩
      · subst h2
        rw [applyClockOp_start hyes, startClock_of_zero (hadopted.trans h0), clockOf_halted]
        exact ⟨rfl, hadopted.trans h0, rfl⟩
      · subst h2
        have hcounts := startClock_counts (c := c) (s := adopted c epoch value u) (by rwa [hadopted]) hsmall
        rw [hadopted] at hcounts
        rw [applyClockOp_start hyes]
        refine ⟨fun hlt => ?_, hcounts.2⟩
        obtain ⟨⟨hs, hp⟩, hv⟩ := hcounts.1 hlt
        exact ⟨hs, hv, hp⟩
      · obtain ⟨htxq, hcopies⟩ := applyClockOp_quiet hyes hquiet
        refine ⟨htxq, fun p => ?_⟩
        rw [hcopies, clockOf_adopted, adoptEpoch_copies]
      · obtain ⟨-, -, hcopies⟩ := applyClockOp_record hyes hop value e.edge
        exact hcopies hne p
      · obtain ⟨h1, h2, h3, h4⟩ := haudio
        rw [htaken.frame]
        exact ⟨h1, h2, h3, h4⟩
      · rw [htaken.frame]

end Sys2Proof.Machine
end

