-- ==== Sys2Proof/Proofs/RoundExpiries.lean ====
section
/-!
The verdict of a claim list and the expiries of a round (O32, O41).
-/
namespace Sys2Proof.Machine
open Relation

/-! ## The verdict of a claim list (R92) -/

/-- A claim wins over another or is the same by capture, station and input. -/
def Claim.atMost (w c : Claim) : Prop :=
  w.capture < c.capture ∨ (w.capture = c.capture ∧ (w.station < c.station ∨ (w.station = c.station ∧ w.input ≤ c.input)))

theorem Claim.atMost_refl (c : Claim) : c.atMost c := .inr ⟨rfl, .inr ⟨rfl, Nat.le_refl _⟩⟩

theorem Claim.atMost_trans {a b c : Claim} (h : a.atMost b) (k : b.atMost c) : a.atMost c := by
  unfold Claim.atMost at *
  omega

theorem Claim.before_iff (a b : Claim) : a.before b = true ↔ ¬ b.atMost a := by
  simp only [Claim.before, Claim.atMost, Bool.or_eq_true, Bool.and_eq_true, decide_eq_true_eq]
  omega

theorem Claim.atMost_of_not {a b : Claim} (h : ¬ b.atMost a) : a.atMost b := by
  unfold Claim.atMost at *
  omega

/-- The better of the best claim so far and the next one. -/
def betterClaim (best : Option Claim) (c : Claim) : Option Claim :=
  match best with
  | none => some c
  | some b => if c.before b then some c else some b

theorem betterClaim_some (b c : Claim) :
    ∃ w, betterClaim (some b) c = some w ∧ (w = b ∨ w = c) ∧ w.atMost b ∧ w.atMost c := by
  by_cases h : c.before b = true
  · exact ⟨c, if_pos h, .inr rfl, Claim.atMost_of_not ((Claim.before_iff c b).mp h), Claim.atMost_refl c⟩
  · refine ⟨b, if_neg h, .inl rfl, Claim.atMost_refl b, ?_⟩
    rw [Claim.before_iff, not_not] at h
    exact h

theorem foldl_betterClaim : ∀ (l : List Claim) (b : Claim),
    ∃ w, l.foldl betterClaim (some b) = some w ∧ (w = b ∨ w ∈ l) ∧ w.atMost b ∧ ∀ c ∈ l, w.atMost c
  | [], b => ⟨b, rfl, .inl rfl, Claim.atMost_refl b, fun _ h => absurd h List.not_mem_nil⟩
  | c :: l, b => by
    obtain ⟨v, hv, hfrom, hvb, hvc⟩ := betterClaim_some b c
    obtain ⟨w, hw, hmem, hwv, hall⟩ := foldl_betterClaim l v
    refine ⟨w, by rw [List.foldl_cons, hv, hw], ?_, Claim.atMost_trans hwv hvb, fun d hd => ?_⟩
    · rcases hmem with rfl | hmem
      · exact hfrom.imp_right fun (h : w = c) => h ▸ List.mem_cons_self
      · exact .inr (List.mem_cons_of_mem _ hmem)
    · rcases List.mem_cons.mp hd with rfl | hd
      · exact Claim.atMost_trans hwv hvc
      · exact hall d hd

/-- Settles O32: the fold over the list keeps the better claim of two. -/
theorem verdictIsLeastCapture : Obligations.VerdictIsLeastCapture := by
  refine ⟨rfl, fun l hl => ?_⟩
  cases l with
  | nil => exact absurd rfl hl
  | cons c l =>
    obtain ⟨w, hw, hmem, hwc, hall⟩ := foldl_betterClaim l c
    refine ⟨w, hw, ?_, fun d hd => ?_⟩
    · rcases hmem with rfl | hmem
      · exact List.mem_cons_self
      · exact List.mem_cons_of_mem _ hmem
    · rcases List.mem_cons.mp hd with rfl | hd
      · exact hwc
      · exact hall d hd

/-! ## The expiries of a round (R84, R85) -/

theorem holdoffExpiry_due {s : State} (hs : s.lockout.round.state = .holdoff)
    (h : (roundProfile s).holdoff * 1000 ≤ roundTime s) :
    holdoffExpiry s = withRound (fun r => { r with state := .isOpen }) s := if_pos ⟨hs, h⟩

theorem holdoffExpiry_early {s : State} (h : roundTime s < (roundProfile s).holdoff * 1000) : holdoffExpiry s = s :=
  if_neg fun hyes => Nat.not_lt_of_le hyes.2 h

theorem holdoffExpiry_elsewhere {s : State} (h : s.lockout.round.state ≠ .holdoff) : holdoffExpiry s = s :=
  if_neg fun hyes => h hyes.1

theorem windowExpiry_due {s : State} (hs : s.lockout.round.state = .isOpen)
    (h : (roundProfile s).window * 1000 ≤ roundTime s) :
    windowExpiry s = withRound (fun r => { r with state := .settling }) s := if_pos ⟨hs, h⟩

theorem windowExpiry_early {s : State} (h : roundTime s < (roundProfile s).window * 1000) : windowExpiry s = s :=
  if_neg fun hyes => Nat.not_lt_of_le hyes.2 h

theorem windowExpiry_elsewhere {s : State} (h : s.lockout.round.state ≠ .isOpen) : windowExpiry s = s :=
  if_neg fun hyes => h hyes.1

/-- The round record once its settle time has expired. -/
def settledRound (s : State) : State := withRound (fun r => { r with settled := true }) s

theorem settleExpiry_due {s : State} (hs : s.lockout.round.state = .settling) (hn : s.lockout.round.settled = false)
    (h : ((roundProfile s).window + (roundProfile s).settle) * 1000 ≤ roundTime s) :
    settleExpiry s = if s.member.state = .active then offerClose (settledRound s) else settledRound s := if_pos ⟨hs, hn, h⟩

theorem settleExpiry_early {s : State}
    (h : roundTime s < ((roundProfile s).window + (roundProfile s).settle) * 1000) : settleExpiry s = s :=
  if_neg fun hyes => Nat.not_lt_of_le hyes.2.2 h

theorem settleExpiry_elsewhere {s : State} (h : s.lockout.round.state ≠ .settling ∨ s.lockout.round.settled = true) :
    settleExpiry s = s := by
  refine if_neg fun ⟨hs, hn, _⟩ => ?_
  rcases h with h | h
  · exact h hs
  · exact Bool.false_ne_true (hn.symm.trans h)

theorem offerClose_placed {s : State} (h : s.txq.entries.length < 4) : offerClose s =
    withRound (fun r => { r with ownClose := .queued s.txq.nextSeq })
      (placeFrame .lockoutUnit (closeFrame s.lockout.round) s) := if_pos (decide_eq_true h)

theorem offerClose_held {s : State} (h : 4 ≤ s.txq.entries.length) :
    offerClose s = withRound (fun r => { r with ownClose := .held }) s :=
  if_neg fun hroom => Nat.not_lt_of_le h (of_decide_eq_true hroom)

theorem placeFrame_frames (p : Producer) (f : LineFrame) (s : State) :
    (placeFrame p f s).txq.entries.map TxEntry.frame = s.txq.entries.map TxEntry.frame ++ [encodeFrame (ownNumber s) f] := by
  rw [placeFrame, List.map_append]
  rfl

/-- Settles O41. -/
theorem expiriesMoveTheRound : Obligations.ExpiriesMoveTheRound := by
  intro s r p
  refine ⟨fun hs h => congrArg Host.Outcome.next (holdoffExpiry_due hs h), fun h => congrArg Host.Outcome.next (holdoffExpiry_early h),
    fun hs h => congrArg Host.Outcome.next (windowExpiry_due hs h), fun h => congrArg Host.Outcome.next (windowExpiry_early h),
    fun hs hn h => ⟨fun hactive hroom => ?_, fun hactive hfull => ?_, fun hother => ?_⟩,
    fun h => congrArg Host.Outcome.next (holdoffExpiry_elsewhere h), fun h => congrArg Host.Outcome.next (windowExpiry_elsewhere h),
    fun h => ?_⟩
  · refine ⟨settleExpiry s, rfl, ?_⟩
    rw [settleExpiry_due hs hn h, if_pos hactive, offerClose_placed (s := settledRound s) hroom]
    exact ⟨hs, rfl, rfl, placeFrame_frames _ _ _⟩
  · refine ⟨settleExpiry s, rfl, ?_⟩
    rw [settleExpiry_due hs hn h, if_pos hactive, offerClose_held (s := settledRound s) hfull]
    exact ⟨rfl, rfl⟩
  · refine congrArg Host.Outcome.next ?_
    rw [settleExpiry_due hs hn h, if_neg hother]
    rfl
  · refine congrArg Host.Outcome.next ?_
    rcases h with h | h | h
    · exact settleExpiry_elsewhere (.inl h)
    · exact settleExpiry_elsewhere (.inr h)
    · exact settleExpiry_early h

end Sys2Proof.Machine
end

