-- ==== Sys2Proof/Proofs/HeldFrames.lean ====
section
/-!
SUPPORT. The frames that producers hold for want of room, and which of them is offered first (R87, R108).
-/
namespace Sys2Proof.Machine
open Relation

/-! ## The frames that producers hold (R149) -/

/-- An own claim waits for room. -/
def OwnClaim.waits : OwnClaim → Prop
  | .held _ _ => True
  | .queued _ => False
  | .absent => False

/-- The own CLOSE waits for room. -/
def OwnClose.waits : OwnClose → Prop
  | .held => True
  | .queued _ => False
  | .absent => False

/-- An own copy waits for room. -/
def OwnCopy.waits : OwnCopy → Prop
  | .held _ _ _ => True
  | .queued _ _ => False
  | .absent => False

theorem OwnClaim.waits_iff (x : OwnClaim) : x.waits ↔ ∃ fs capture, x = .held fs capture := by
  cases x <;> simp [OwnClaim.waits]

theorem OwnClose.waits_iff (x : OwnClose) : x.waits ↔ x = .held := by
  cases x <;> simp [OwnClose.waits]

theorem OwnCopy.waits_iff (x : OwnCopy) : x.waits ↔ ∃ epoch since order, x = .held epoch since order := by
  cases x <;> simp [OwnCopy.waits]

/-! ### The held CLAIM that is offered first (R87) -/

/-- The better held CLAIM of the best so far and that of an input. -/
def betterHeld (r : Round) (best : Option (Fin 8 × Bool × Nat)) (i : Fin 8) : Option (Fin 8 × Bool × Nat) :=
  match r.ownClaim[i] with
  | .held fs capture =>
    match best with
    | some (_, _, b) => if capture < b then some (i, fs, capture) else best
    | none => some (i, fs, capture)
  | .queued _ => best
  | .absent => best

theorem bestClaim_eq (r : Round) : bestClaim r = inputs.foldl (betterHeld r) none := rfl

theorem betterHeld_of_held {r : Round} {i : Fin 8} {fs : Bool} {capture : Nat} (h : r.ownClaim[i] = .held fs capture) :
    betterHeld r none i = some (i, fs, capture) ∧ ∀ b, betterHeld r (some b) i =
      if capture < b.2.2 then some (i, fs, capture) else some b := by
  unfold betterHeld
  rw [h]
  exact ⟨rfl, fun _ => rfl⟩

theorem betterHeld_of_not_waits {r : Round} {i : Fin 8} (h : ¬ (r.ownClaim[i]).waits) (best : Option (Fin 8 × Bool × Nat)) :
    betterHeld r best i = best := by
  unfold betterHeld
  cases hx : r.ownClaim[i] with
  | absent => rfl
  | queued n => rfl
  | held fs capture =>
    rw [hx] at h
    exact absurd trivial h

/-- A held CLAIM is at least as good as another: of less capture, or of equal capture and no higher input. -/
def heldAtMost (a b : Fin 8 × Bool × Nat) : Prop := a.2.2 < b.2.2 ∨ (a.2.2 = b.2.2 ∧ a.1 ≤ b.1)

theorem heldAtMost_trans {a b c : Fin 8 × Bool × Nat} (h : heldAtMost a b) (k : heldAtMost b c) : heldAtMost a c := by
  unfold heldAtMost at *
  omega

/-- The held CLAIMs of some inputs, in ascending order, are no better than the best of them and of an earlier one. -/
theorem foldl_betterHeld (r : Round) : ∀ (l : List (Fin 8)) (best : Option (Fin 8 × Bool × Nat)), l.Pairwise (· < ·) →
    (∀ b, best = some b → ∀ j ∈ l, b.1 ≤ j) →
    (l.foldl (betterHeld r) best = none ↔ best = none ∧ ∀ j ∈ l, ¬ (r.ownClaim[j]).waits) ∧
    ∀ w, l.foldl (betterHeld r) best = some w →
      (best = some w ∨ r.ownClaim[w.1] = .held w.2.1 w.2.2) ∧ (∀ b, best = some b → heldAtMost w b) ∧
        ∀ j ∈ l, ∀ fs capture, r.ownClaim[j] = .held fs capture → heldAtMost w (j, fs, capture)
  | [], best, _, _ => by
    refine ⟨⟨fun h => ⟨h, fun _ hj => absurd hj List.not_mem_nil⟩, fun h => h.1⟩, fun w hw => ⟨.inl hw, fun b hb => ?_,
      fun _ hj => absurd hj List.not_mem_nil⟩⟩
    obtain rfl := Option.some.inj (hw.symm.trans hb)
    exact .inr ⟨rfl, le_rfl⟩
  | i :: l, best, hsorted, hbest => by
    obtain ⟨hi, hl⟩ := List.pairwise_cons.mp hsorted
    rw [List.foldl_cons]
    by_cases hwaits : (r.ownClaim[i]).waits
    · obtain ⟨fs, capture, hheld⟩ := (OwnClaim.waits_iff _).mp hwaits
      obtain ⟨hnone, hsome⟩ := betterHeld_of_held hheld
      have hstep : ∃ v, betterHeld r best i = some v ∧ (best = some v ∨ v = (i, fs, capture)) ∧
          (∀ b, best = some b → heldAtMost v b) ∧ heldAtMost v (i, fs, capture) := by
        cases best with
        | none => exact ⟨_, hnone, .inr rfl, fun _ h => (nomatch h), .inr ⟨rfl, le_rfl⟩⟩
        | some b =>
          by_cases hlt : capture < b.2.2
          · refine ⟨_, (hsome b).trans (if_pos hlt), .inr rfl, fun c hc => ?_, .inr ⟨rfl, le_rfl⟩⟩
            obtain rfl := Option.some.inj hc
            exact .inl hlt
          · refine ⟨b, (hsome b).trans (if_neg hlt), .inl rfl, fun c hc => ?_, ?_⟩
            · obtain rfl := Option.some.inj hc
              exact .inr ⟨rfl, le_rfl⟩
            · have hle := hbest b rfl i List.mem_cons_self
              unfold heldAtMost
              dsimp only
              omega
      obtain ⟨v, hv, hfrom, hvb, hvi⟩ := hstep
      have hvl : ∀ b, some v = some b → ∀ j ∈ l, b.1 ≤ j := fun b hb j hj => by
        obtain rfl := Option.some.inj hb
        rcases hfrom with hfrom | rfl
        · exact hbest v hfrom j (List.mem_cons_of_mem _ hj)
        · exact le_of_lt (hi j hj)
      rw [hv]
      obtain ⟨hnone', hsome'⟩ := foldl_betterHeld r l (some v) hl hvl
      refine ⟨⟨fun h => (nomatch (hnone'.mp h).1), fun h => absurd hwaits (h.2 i List.mem_cons_self)⟩, fun w hw => ?_⟩
      obtain ⟨hwfrom, hwv, hall⟩ := hsome' w hw
      have hwv := hwv v rfl
      refine ⟨?_, fun b hb => heldAtMost_trans hwv (hvb b hb), fun j hj fs' capture' hj' => ?_⟩
      · rcases hwfrom with hwfrom | hwfrom
        · obtain rfl := Option.some.inj hwfrom
          rcases hfrom with hfrom | rfl
          · exact .inl hfrom
          · exact .inr hheld
        · exact .inr hwfrom
      · rcases List.mem_cons.mp hj with rfl | hj
        · obtain ⟨rfl, rfl⟩ := OwnClaim.held.inj (hheld.symm.trans hj')
          exact heldAtMost_trans hwv hvi
        · exact hall j hj fs' capture' hj'
    · rw [betterHeld_of_not_waits hwaits]
      obtain ⟨hnone', hsome'⟩ := foldl_betterHeld r l best hl fun b hb j hj => hbest b hb j (List.mem_cons_of_mem _ hj)
      refine ⟨hnone'.trans ⟨fun ⟨h, hall⟩ => ⟨h, fun j hj => ?_⟩, fun ⟨h, hall⟩ => ⟨h, fun j hj =>
        hall j (List.mem_cons_of_mem _ hj)⟩⟩, fun w hw => ?_⟩
      · rcases List.mem_cons.mp hj with rfl | hj
        · exact hwaits
        · exact hall j hj
      · obtain ⟨hwfrom, hwb, hall⟩ := hsome' w hw
        refine ⟨hwfrom, hwb, fun j hj fs capture hj' => ?_⟩
        rcases List.mem_cons.mp hj with rfl | hj
        · exact absurd ((OwnClaim.waits_iff _).mpr ⟨fs, capture, hj'⟩) hwaits
        · exact hall j hj fs capture hj'

theorem mem_inputs : ∀ i : Fin 8, i ∈ inputs := by decide

theorem bestClaim_none_iff (r : Round) : bestClaim r = none ↔ ∀ i : Fin 8, ¬ (r.ownClaim[i]).waits := by
  rw [bestClaim_eq, (foldl_betterHeld r inputs none (by decide) fun _ h => (nomatch h)).1]
  exact ⟨fun h i => h.2 i (mem_inputs i), fun h => ⟨rfl, fun i _ => h i⟩⟩

/-- The held CLAIM that is offered first has the least capture, and of equal captures the lowest input (R87). -/
theorem bestClaim_spec {r : Round} {w : Fin 8 × Bool × Nat} (h : bestClaim r = some w) :
    r.ownClaim[w.1] = .held w.2.1 w.2.2 ∧
      ∀ (j : Fin 8) fs capture, r.ownClaim[j] = .held fs capture → heldAtMost w (j, fs, capture) := by
  rw [bestClaim_eq] at h
  obtain ⟨hfrom, -, hall⟩ :=
    (foldl_betterHeld r inputs none (by decide) fun _ h => (nomatch h)).2 w h
  exact ⟨hfrom.resolve_left fun h => (nomatch h), fun j fs capture hj => hall j (mem_inputs j) fs capture hj⟩

/-! ### The held copy that is offered first (R108) -/

/-- The better held copy of the best so far, with its place, and that of a point. -/
def betterCopy (s : State) (best : Option ((Nat × Nat × Nat × Nat) × (Fin 4 × Fin 4))) (cp : Fin 4 × Fin 4) :
    Option ((Nat × Nat × Nat × Nat) × (Fin 4 × Fin 4)) :=
  match copyKey s cp.1 cp.2 with
  | none => best
  | some k =>
    match best with
    | none => some (k, cp)
    | some (b, bp) => if copyBefore k b then some (k, cp) else some (b, bp)

theorem bestCopy_eq (s : State) : bestCopy s = (points.foldl (betterCopy s) none).map (·.2) := rfl

theorem betterCopy_of_none {s : State} {cp : Fin 4 × Fin 4} (h : copyKey s cp.1 cp.2 = none)
    (best : Option ((Nat × Nat × Nat × Nat) × (Fin 4 × Fin 4))) : betterCopy s best cp = best := by
  unfold betterCopy
  rw [h]

theorem betterCopy_of_some {s : State} {cp : Fin 4 × Fin 4} {k : Nat × Nat × Nat × Nat} (h : copyKey s cp.1 cp.2 = some k) :
    betterCopy s none cp = some (k, cp) ∧ ∀ b, betterCopy s (some b) cp = if copyBefore k b.1 then some (k, cp) else some b := by
  unfold betterCopy
  rw [h]
  exact ⟨rfl, fun _ => rfl⟩

/-- A place in the order of R108 is at or before another. -/
def keyAtMost (a b : Nat × Nat × Nat × Nat) : Prop := copyBefore b a = false

theorem keyAtMost_iff (a b : Nat × Nat × Nat × Nat) : keyAtMost a b ↔ a.1 < b.1 ∨ (a.1 = b.1 ∧ (a.2.1 < b.2.1 ∨
    (a.2.1 = b.2.1 ∧ (a.2.2.1 < b.2.2.1 ∨ (a.2.2.1 = b.2.2.1 ∧ a.2.2.2 ≤ b.2.2.2))))) := by
  rw [keyAtMost, Bool.eq_false_iff, ne_eq]
  simp only [copyBefore, Bool.or_eq_true, Bool.and_eq_true, decide_eq_true_eq]
  omega

theorem keyAtMost_refl (a : Nat × Nat × Nat × Nat) : keyAtMost a a := by
  rw [keyAtMost_iff]
  omega

theorem keyAtMost_trans {a b c : Nat × Nat × Nat × Nat} (h : keyAtMost a b) (k : keyAtMost b c) : keyAtMost a c := by
  rw [keyAtMost_iff] at *
  omega

theorem keyAtMost_of_before {a b : Nat × Nat × Nat × Nat} (h : copyBefore a b = true) : keyAtMost a b := by
  rw [keyAtMost_iff]
  simp only [copyBefore, Bool.or_eq_true, Bool.and_eq_true, decide_eq_true_eq] at h
  omega

theorem foldl_betterCopy (s : State) : ∀ (l : List (Fin 4 × Fin 4)) (best : Option ((Nat × Nat × Nat × Nat) × (Fin 4 × Fin 4))),
    (l.foldl (betterCopy s) best = none ↔ best = none ∧ ∀ cp ∈ l, copyKey s cp.1 cp.2 = none) ∧
    ∀ w, l.foldl (betterCopy s) best = some w →
      (best = some w ∨ copyKey s w.2.1 w.2.2 = some w.1) ∧ (∀ b, best = some b → keyAtMost w.1 b.1) ∧
        ∀ cp ∈ l, ∀ k, copyKey s cp.1 cp.2 = some k → keyAtMost w.1 k
  | [], best => by
    refine ⟨⟨fun h => ⟨h, fun _ hj => absurd hj List.not_mem_nil⟩, fun h => h.1⟩, fun w hw => ⟨.inl hw, fun b hb => ?_,
      fun _ hj => absurd hj List.not_mem_nil⟩⟩
    obtain rfl := Option.some.inj (hw.symm.trans hb)
    exact keyAtMost_refl _
  | x :: l, best => by
    rw [List.foldl_cons]
    cases hkey : copyKey s x.1 x.2 with
    | none =>
      rw [betterCopy_of_none hkey]
      obtain ⟨hnone, hsome⟩ := foldl_betterCopy s l best
      refine ⟨hnone.trans ⟨fun ⟨h, hall⟩ => ⟨h, fun cp hcp => ?_⟩, fun ⟨h, hall⟩ => ⟨h, fun cp hcp =>
        hall cp (List.mem_cons_of_mem _ hcp)⟩⟩, fun w hw => ?_⟩
      · rcases List.mem_cons.mp hcp with rfl | hcp
        · exact hkey
        · exact hall cp hcp
      · obtain ⟨hfrom, hwb, hall⟩ := hsome w hw
        refine ⟨hfrom, hwb, fun cp hcp k hk => ?_⟩
        rcases List.mem_cons.mp hcp with rfl | hcp
        · exact (nomatch (hkey.symm.trans hk))
        · exact hall cp hcp k hk
    | some k =>
      obtain ⟨hn, hs⟩ := betterCopy_of_some hkey
      have hstep : ∃ v, betterCopy s best x = some v ∧ (best = some v ∨ v = (k, x)) ∧
          (∀ b, best = some b → keyAtMost v.1 b.1) ∧ keyAtMost v.1 k := by
        cases best with
        | none => exact ⟨_, hn, .inr rfl, fun _ h => (nomatch h), keyAtMost_refl _⟩
        | some b =>
          cases hlt : copyBefore k b.1 with
          | true =>
            refine ⟨_, (hs b).trans (if_pos hlt), .inr rfl, fun c hc => ?_, keyAtMost_refl _⟩
            obtain rfl := Option.some.inj hc
            exact keyAtMost_of_before hlt
          | false =>
            refine ⟨b, (hs b).trans (if_neg (by rw [hlt]; exact Bool.false_ne_true)), .inl rfl, fun c hc => ?_, hlt⟩
            obtain rfl := Option.some.inj hc
            exact keyAtMost_refl _
      obtain ⟨v, hv, hfrom, hvb, hvk⟩ := hstep
      rw [hv]
      obtain ⟨hnone, hsome⟩ := foldl_betterCopy s l (some v)
      refine ⟨⟨fun h => (nomatch (hnone.mp h).1), fun h => (nomatch hkey.symm.trans (h.2 x List.mem_cons_self))⟩,
        fun w hw => ?_⟩
      obtain ⟨hwfrom, hwv, hall⟩ := hsome w hw
      have hwv := hwv v rfl
      refine ⟨?_, fun b hb => keyAtMost_trans hwv (hvb b hb), fun cp hcp k' hk' => ?_⟩
      · rcases hwfrom with hwfrom | hwfrom
        · obtain rfl := Option.some.inj hwfrom
          rcases hfrom with hfrom | rfl
          · exact .inl hfrom
          · exact .inr hkey
        · exact .inr hwfrom
      · rcases List.mem_cons.mp hcp with rfl | hcp
        · obtain rfl := Option.some.inj (hkey.symm.trans hk')
          exact keyAtMost_trans hwv hvk
        · exact hall cp hcp k' hk'

theorem mem_points : ∀ cp : Fin 4 × Fin 4, cp ∈ points := by decide

theorem copyKey_of_held {s : State} {c p : Fin 4} {epoch : Byte} {since order : Nat}
    (h : (clockOf s c).copies[p] = .held epoch since order) : copyKey s c p = some (since, c.val, order, p.val) := by
  unfold clockOf at h
  unfold copyKey
  rw [h]

theorem copyKey_of_not_waits {s : State} {c p : Fin 4} (h : ¬ ((clockOf s c).copies[p]).waits) : copyKey s c p = none := by
  unfold clockOf at h
  unfold copyKey
  cases hx : s.clocks.records[c].copies[p] with
  | held epoch since order =>
    rw [hx] at h
    exact absurd trivial h
  | queued epoch n => rfl
  | absent => rfl

theorem copyKey_none_iff (s : State) (c p : Fin 4) : copyKey s c p = none ↔ ¬ ((clockOf s c).copies[p]).waits := by
  cases h : (clockOf s c).copies[p] with
  | held epoch since order => simp [copyKey_of_held h, OwnCopy.waits]
  | queued epoch n => simp [copyKey_of_not_waits (s := s) (c := c) (p := p) (by rw [h]; exact id), OwnCopy.waits]
  | absent => simp [copyKey_of_not_waits (s := s) (c := c) (p := p) (by rw [h]; exact id), OwnCopy.waits]

theorem bestCopy_none_iff (s : State) : bestCopy s = none ↔ ∀ c p : Fin 4, ¬ ((clockOf s c).copies[p]).waits := by
  rw [bestCopy_eq, Option.map_eq_none_iff, (foldl_betterCopy s points none).1]
  refine ⟨fun h c p => (copyKey_none_iff s c p).mp (h.2 (c, p) (mem_points _)), fun h => ⟨rfl, fun cp _ => ?_⟩⟩
  exact (copyKey_none_iff s cp.1 cp.2).mpr (h cp.1 cp.2)

/-- The held copy that is offered first is at or before every other in the order of R108. -/
theorem bestCopy_spec {s : State} {c p : Fin 4} (h : bestCopy s = some (c, p)) :
    ∃ k, copyKey s c p = some k ∧ ∀ (d q : Fin 4) k', copyKey s d q = some k' → keyAtMost k k' := by
  rw [bestCopy_eq, Option.map_eq_some_iff] at h
  obtain ⟨w, hw, hcp⟩ := h
  obtain ⟨hfrom, -, hall⟩ := (foldl_betterCopy s points none).2 w hw
  have hkey := hfrom.resolve_left fun h => (nomatch h)
  rw [hcp] at hkey
  exact ⟨w.1, hkey, fun d q k' hk' => hall (d, q) (mem_points _) k' hk'⟩

end Sys2Proof.Machine
end

