-- ==== Sys2Proof/Proofs/OfferLayer.lean ====
section
/-!
SUPPORT. The round of offers that follows the freeing of an entry (R149, log entry 8).
-/
namespace Sys2Proof.Machine
open Relation

/-! ## What an offer at a freeing leaves (R149) -/

theorem holds_lockout_iff (s : State) : holds s .lockoutUnit = true ↔
    (∃ i : Fin 8, (s.lockout.round.ownClaim[i]).waits) ∨ s.lockout.round.ownClose = .held := by
  rw [holds, Bool.or_eq_true, decide_eq_true_eq, Option.isSome_iff_ne_none, ne_eq, bestClaim_none_iff, not_forall]
  simp only [not_not]

theorem holds_clock_iff (s : State) : holds s .clockUnit = true ↔ ∃ c p : Fin 4, ((clockOf s c).copies[p]).waits := by
  rw [holds, Option.isSome_iff_ne_none, ne_eq, bestCopy_none_iff]
  simp only [not_forall, not_not]

theorem holds_membership_iff (s : State) : holds s .membership = true ↔ s.member.heldJoin ≠ none := by
  rw [holds, Option.isSome_iff_ne_none]

theorem holds_panel (s : State) : holds s .panelPort = false := rfl

/-- What the offers at a freeing leave besides the transmit queue: of the frames that wait they end waits alone. -/
structure OfferKeeps (s t : State) : Prop where
  frame : OfferFrame s t
  clocks : keepsClocks s t := by exact ⟨rfl, fun _ => rfl⟩
  claims : ∀ i : Fin 8, t.lockout.round.ownClaim[i] = s.lockout.round.ownClaim[i] ∨
    ((s.lockout.round.ownClaim[i]).waits ∧ ¬ (t.lockout.round.ownClaim[i]).waits) := by exact fun _ => .inl rfl
  close : t.lockout.round.ownClose = s.lockout.round.ownClose ∨
    (s.lockout.round.ownClose.waits ∧ ¬ t.lockout.round.ownClose.waits) := by exact .inl rfl
  copies : ∀ c p : Fin 4, (clockOf t c).copies[p] = (clockOf s c).copies[p] ∨
    (((clockOf s c).copies[p]).waits ∧ ¬ ((clockOf t c).copies[p]).waits) := by exact fun _ _ => .inl rfl
  join : t.member.heldJoin = s.member.heldJoin ∨ t.member.heldJoin = none := by exact .inl rfl

theorem OfferKeeps.refl (s : State) : OfferKeeps s s where
  frame := OfferFrame.refl s

/-- Two turns of a wait, one after the other. -/
theorem wait_trans {α : Type} {waits : α → Prop} {x y z : α} (h : y = x ∨ (waits x ∧ ¬ waits y)) (k : z = y ∨ (waits y ∧ ¬ waits z)) :
    z = x ∨ (waits x ∧ ¬ waits z) := by
  rcases h with rfl | ⟨hx, hy⟩
  · exact k
  · rcases k with rfl | ⟨hy', -⟩
    · exact .inr ⟨hx, hy⟩
    · exact absurd hy' hy

theorem OfferKeeps.trans {s t u : State} (h : OfferKeeps s t) (k : OfferKeeps t u) : OfferKeeps s u where
  frame := h.frame.trans k.frame
  clocks := by
    obtain ⟨hseq, hrec⟩ := h.clocks
    obtain ⟨kseq, krec⟩ := k.clocks
    refine ⟨kseq.trans hseq, fun c => ?_⟩
    rw [krec c, hrec c]
  claims i := wait_trans (h.claims i) (k.claims i)
  close := wait_trans h.close k.close
  copies c p := wait_trans (h.copies c p) (k.copies c p)
  join := by
    rcases k.join with heq | hnone
    · rcases h.join with heq' | hnone'
      · exact .inl (heq.trans heq')
      · exact .inr (heq.trans hnone')
    · exact .inr hnone

/-- Offers bring no new wait. -/
theorem OfferKeeps.holds {s t : State} (h : OfferKeeps s t) {q : Producer} (hq : holds t q = true) : Machine.holds s q = true := by
  cases q with
  | lockoutUnit =>
    rw [holds_lockout_iff] at *
    rcases hq with ⟨i, hi⟩ | hclose
    · refine .inl ⟨i, ?_⟩
      rcases h.claims i with heq | ⟨hold, -⟩
      · rwa [heq] at hi
      · exact hold
    · refine .inr ?_
      rcases h.close with heq | ⟨hold, -⟩
      · exact heq.symm.trans hclose
      · exact (OwnClose.waits_iff _).mp hold
  | clockUnit =>
    rw [holds_clock_iff] at *
    obtain ⟨c, p, hcp⟩ := hq
    refine ⟨c, p, ?_⟩
    rcases h.copies c p with heq | ⟨hold, -⟩
    · rwa [heq] at hcp
    · exact hold
  | membership =>
    rw [holds_membership_iff] at *
    rcases h.join with heq | hnone
    · rwa [heq] at hq
    · exact absurd hnone hq
  | panelPort => exact absurd hq Bool.false_ne_true

/-- What the offers at a freeing leave: they end waits alone, and add the frames of producers that held some at the end of the
queue while it has room. -/
structure OfferTurn (s t : State) : Prop extends OfferKeeps s t where
  entries : ∃ added, t.txq.entries = s.txq.entries ++ added ∧
    ∀ x ∈ added, Machine.holds s x.producer = true ∧ x.withdrawn = false ∧ s.txq.nextSeq ≤ x.seq
  length : t.txq.entries.length ≤ max 4 s.txq.entries.length
  seqs : s.txq.nextSeq ≤ t.txq.nextSeq

theorem OfferTurn.refl (s : State) : OfferTurn s s where
  toOfferKeeps := OfferKeeps.refl s
  entries := ⟨[], (List.append_nil _).symm, fun _ hx => absurd hx List.not_mem_nil⟩
  length := Nat.le_max_right _ _
  seqs := Nat.le_refl _

theorem OfferTurn.trans {s t u : State} (h : OfferTurn s t) (k : OfferTurn t u) : OfferTurn s u where
  toOfferKeeps := h.toOfferKeeps.trans k.toOfferKeeps
  entries := by
    obtain ⟨a, ha, hall⟩ := h.entries
    obtain ⟨b, hb, kall⟩ := k.entries
    refine ⟨a ++ b, by rw [hb, ha, List.append_assoc], fun x hx => ?_⟩
    rcases List.mem_append.mp hx with hx | hx
    · exact hall x hx
    · obtain ⟨hp, hw, hs⟩ := kall x hx
      exact ⟨h.toOfferKeeps.holds hp, hw, h.seqs.trans hs⟩
  length := by
    have h1 := h.length
    have h2 := k.length
    omega
  seqs := h.seqs.trans k.seqs

/-- The entries of a queue once a frame is placed in it. -/
theorem placeFrame_entries {s : State} {p : Producer} (f : LineFrame) (hp : holds s p = true) :
    ∃ added, (placeFrame p f s).txq.entries = s.txq.entries ++ added ∧
      ∀ x ∈ added, holds s x.producer = true ∧ x.withdrawn = false ∧ s.txq.nextSeq ≤ x.seq :=
  ⟨_, rfl, fun x hx => by
    obtain rfl := List.mem_singleton.mp hx
    exact ⟨hp, rfl, Nat.le_refl _⟩⟩

theorem placeFrame_length {s : State} {p : Producer} (f : LineFrame) (hroom : txRoom s = true) :
    (placeFrame p f s).txq.entries.length ≤ max 4 s.txq.entries.length := by
  have hlt := of_decide_eq_true hroom
  rw [placeFrame, List.length_append, List.length_singleton]
  omega

theorem vector_get_set8 {α : Type} (v : Vector α 8) (i j : Fin 8) (x : α) : (v.set i x)[j] = if j = i then x else v[j] := by
  simp only [Fin.getElem_fin, Vector.getElem_set, Fin.ext_iff, eq_comm]

theorem offerClaim_placed {s : State} (hroom : txRoom s = true) (i : Fin 8) (fs : Bool) (capture : Nat) :
    offerClaim i fs capture s = withRound (fun r => { r with ownClaim := r.ownClaim.set i (.queued s.txq.nextSeq) })
      (placeFrame .lockoutUnit (claimFrame s.lockout.round i fs capture) s) := if_pos hroom

/-- The Lockout Unit's offer at a freeing, of a queue with room. -/
theorem offerHeldLockout_claim {s : State} {w : Fin 8 × Bool × Nat} (hroom : txRoom s = true)
    (h : bestClaim s.lockout.round = some w) : offerHeldLockout s = offerClaim w.1 w.2.1 w.2.2 s := by
  unfold offerHeldLockout
  rw [h]
  exact if_pos hroom

theorem offerHeldLockout_close {s : State} (hroom : txRoom s = true) (h : bestClaim s.lockout.round = none)
    (hclose : s.lockout.round.ownClose = .held) : offerHeldLockout s = offerClose s := by
  unfold offerHeldLockout
  rw [h]
  exact if_pos (by rw [hclose, hroom]; rfl)

theorem offerHeldLockout_full {s : State} (hroom : txRoom s = false) : offerHeldLockout s = s := by
  unfold offerHeldLockout
  rw [hroom]
  cases bestClaim s.lockout.round with
  | none => exact if_neg (by simp)
  | some w => exact if_neg Bool.false_ne_true

theorem offerHeldClock_some {s : State} {c p : Fin 4} (hroom : txRoom s = true) (h : bestCopy s = some (c, p)) :
    offerHeldClock s = placeClockFire c p s := by
  unfold offerHeldClock
  rw [h]
  exact if_pos hroom

theorem offerHeldClock_full {s : State} (hroom : txRoom s = false) : offerHeldClock s = s := by
  unfold offerHeldClock
  rw [hroom]
  cases bestCopy s with
  | none => rfl
  | some w => exact if_neg Bool.false_ne_true

theorem offerHeldJoin_some {s : State} {reply : Bool} (hroom : txRoom s = true) (h : s.member.heldJoin = some reply) :
    offerHeldJoin s = { placeFrame .membership (joinFrame s reply) s with
      member := { s.member with heldJoin := none } } := by
  unfold offerHeldJoin
  rw [h]
  dsimp only
  rw [if_pos hroom, offerJoin, if_pos hroom]
  rfl

theorem offerHeldJoin_full {s : State} (hroom : txRoom s = false) : offerHeldJoin s = s := by
  unfold offerHeldJoin
  rw [hroom]
  cases s.member.heldJoin with
  | none => rfl
  | some w => exact if_neg Bool.false_ne_true

/-- A producer without room changes nothing. -/
theorem offerHeld_full {s : State} (hroom : txRoom s = false) (q : Producer) : offerHeld s q = s := by
  cases q with
  | lockoutUnit => exact offerHeldLockout_full hroom
  | clockUnit => exact offerHeldClock_full hroom
  | membership => exact offerHeldJoin_full hroom
  | panelPort => rfl

/-- A producer that holds nothing changes nothing. -/
theorem offerHeld_idle {s : State} {q : Producer} (h : holds s q = false) : offerHeld s q = s := by
  rw [Bool.eq_false_iff] at h
  cases q with
  | lockoutUnit =>
    rw [ne_eq, holds_lockout_iff, not_or] at h
    obtain ⟨hclaims, hclose⟩ := h
    show offerHeldLockout s = s
    unfold offerHeldLockout
    rw [(bestClaim_none_iff _).mpr (not_exists.mp hclaims)]
    exact if_neg (by simp [hclose])
  | clockUnit =>
    rw [ne_eq, holds_clock_iff] at h
    show offerHeldClock s = s
    unfold offerHeldClock
    rw [(bestCopy_none_iff s).mpr fun c p hcp => h ⟨c, p, hcp⟩]
  | membership =>
    rw [ne_eq, holds_membership_iff, not_not] at h
    show offerHeldJoin s = s
    unfold offerHeldJoin
    rw [h]
  | panelPort => rfl

/-- The placing of a held frame: the queue gets one more entry, of the producer. -/
theorem offerHeld_turn_of_holds {s : State} {q : Producer} (hroom : txRoom s = true) (h : holds s q = true) :
    OfferTurn s (offerHeld s q) ∧ ∃ f, (offerHeld s q).txq = (placeFrame q f s).txq := by
  have hframe := offerHeld_frame s q
  cases q with
  | lockoutUnit =>
    cases hbest : bestClaim s.lockout.round with
    | some w =>
      have heq : offerHeld s .lockoutUnit = _ := (offerHeldLockout_claim hroom hbest).trans (offerClaim_placed hroom _ _ _)
      obtain ⟨hheld, -⟩ := bestClaim_spec hbest
      rw [heq] at hframe ⊢
      refine ⟨{ frame := hframe, claims := fun j => ?_, entries := placeFrame_entries _ h, length := placeFrame_length _ hroom,
                seqs := Nat.le_succ _ }, _, rfl⟩
      show (s.lockout.round.ownClaim.set w.1 _)[j] = _ ∨ (_ ∧ ¬ ((s.lockout.round.ownClaim.set w.1 _)[j]).waits)
      rw [vector_get_set8]
      by_cases hj : j = w.1
      · rw [if_pos hj, hj, hheld]
        exact .inr ⟨trivial, id⟩
      · rw [if_neg hj]
        exact .inl rfl
    | none =>
      rw [holds_lockout_iff] at h
      have hclose := h.resolve_left fun ⟨i, hi⟩ => (bestClaim_none_iff _).mp hbest i hi
      have hlt := of_decide_eq_true hroom
      have heq : offerHeld s .lockoutUnit = _ := (offerHeldLockout_close hroom hbest hclose).trans (offerClose_placed hlt)
      rw [heq] at hframe ⊢
      refine ⟨{ frame := hframe, close := .inr ⟨?_, id⟩, entries := placeFrame_entries _ ((holds_lockout_iff s).mpr h),
                length := placeFrame_length _ hroom, seqs := Nat.le_succ _ }, _, rfl⟩
      rw [hclose]
      trivial
  | clockUnit =>
    have hsome := h
    rw [holds, Option.isSome_iff_exists] at hsome
    obtain ⟨⟨c, p⟩, hbest⟩ := hsome
    have heq : offerHeld s .clockUnit = placeClockFire c p s := offerHeldClock_some hroom hbest
    obtain ⟨k, hkey, -⟩ := bestCopy_spec hbest
    have hwaits : ((clockOf s c).copies[p]).waits := by
      by_contra hn
      rw [copyKey_of_not_waits hn] at hkey
      exact nomatch hkey
    rw [heq] at hframe ⊢
    refine ⟨{ frame := hframe, clocks := ⟨rfl, fun d => ?_⟩, copies := fun d q => ?_, entries := placeFrame_entries _ h,
              length := placeFrame_length _ hroom, seqs := Nat.le_succ _ }, _, rfl⟩
    · by_cases hd : d = c
      · subst hd
        exact setCopy_record d p _ (placeFrame .clockUnit (clockFire s d p) s)
      · rw [placeClockFire, clockOf_setCopy_other hd]
        rfl
    · by_cases hd : d = c
      · subst hd
        rw [placeClockFire, clockOf_setCopy_same]
        dsimp only
        rw [vector_get_set]
        by_cases hq : q = p
        · rw [if_pos hq, hq]
          exact .inr ⟨hwaits, id⟩
        · rw [if_neg hq]
          exact .inl rfl
      · rw [placeClockFire, clockOf_setCopy_other hd]
        exact .inl rfl
  | membership =>
    have hsome := h
    rw [holds, Option.isSome_iff_exists] at hsome
    obtain ⟨reply, hheld⟩ := hsome
    have heq : offerHeld s .membership = _ := offerHeldJoin_some hroom hheld
    rw [heq] at hframe ⊢
    exact ⟨{ frame := hframe, join := .inr rfl, entries := placeFrame_entries _ h, length := placeFrame_length _ hroom,
             seqs := Nat.le_succ _ }, _, rfl⟩
  | panelPort => exact absurd h Bool.false_ne_true

theorem offerHeld_turn (s : State) (q : Producer) : OfferTurn s (offerHeld s q) := by
  cases hroom : txRoom s with
  | false =>
    rw [offerHeld_full hroom]
    exact OfferTurn.refl s
  | true =>
    cases h : holds s q with
    | false =>
      rw [offerHeld_idle h]
      exact OfferTurn.refl s
    | true => exact (offerHeld_turn_of_holds hroom h).1

theorem foldl_offerHeld_turn : ∀ (l : List Producer) (s : State), OfferTurn s (l.foldl offerHeld s)
  | [], s => OfferTurn.refl s
  | q :: l, s => (offerHeld_turn s q).trans (foldl_offerHeld_turn l _)

/-- Turns only lengthen the queue. -/
theorem OfferTurn.length_le {s t : State} (h : OfferTurn s t) : s.txq.entries.length ≤ t.txq.entries.length := by
  obtain ⟨added, hadded, -⟩ := h.entries
  rw [hadded, List.length_append]
  exact Nat.le_add_right _ _

/-- The producers that hold a frame, in the order in which they are found. -/
def holders (s : State) : List Producer := [Producer.lockoutUnit, .clockUnit, .membership].filter (holds s)

theorem mem_holders (s : State) (q : Producer) : q ∈ holders s ↔ holds s q = true := by
  cases q <;> simp [holders, holds_panel]

/-- The order in which the producers that hold a frame make their offers (log entry 8). -/
def offerOrder (s : State) : List Producer := if (holders s).length < 2 then holders s else freeOrder s.freeCount (holders s)

theorem offerOrder_perm (s : State) : (offerOrder s).Perm (holders s) := by
  unfold offerOrder
  split
  · exact List.Perm.refl _
  · exact freeOrder_perm _ _

/-- The counter of free values once an order was drawn. -/
def drawn (s : State) : State := if (holders s).length < 2 then s else { s with freeCount := s.freeCount + 1 }

theorem drawn_turn (s : State) : OfferTurn s (drawn s) := by
  unfold drawn
  split
  · exact OfferTurn.refl s
  · exact
      { frame := ⟨_, _, _, _, _, s.freeCount + 1, rfl⟩
        entries := ⟨[], (List.append_nil _).symm, fun _ hx => absurd hx List.not_mem_nil⟩
        length := Nat.le_max_right _ _
        seqs := Nat.le_refl _ }

theorem drawn_eq (s : State) : drawn s = { s with freeCount := (drawn s).freeCount } := by
  unfold drawn
  split <;> rfl

theorem offerRound_eq (s : State) : offerRound s = (offerOrder s).foldl offerHeld (drawn s) := by
  unfold offerRound offerOrder drawn
  show (if (holders s).length < 2 then _ else _) = _
  split <;> rfl

theorem offerRound_turn (s : State) : OfferTurn s (offerRound s) := by
  rw [offerRound_eq]
  exact (drawn_turn s).trans (foldl_offerHeld_turn _ _)

theorem offerRounds_one (s : State) : offerRounds 1 s = offerRound s := rfl

/-- Where no producer holds a frame, a freeing brings no offer. -/
theorem offerRound_of_none {s : State} (h : ∀ q, holds s q = false) : offerRound s = s := by
  have hnil : holders s = [] := List.filter_eq_nil_iff.mpr fun q _ => by rw [h q]; exact Bool.false_ne_true
  rw [offerRound_eq, offerOrder, drawn, hnil]
  rfl

/-- Where one producer alone holds a frame, a freeing brings its offer. -/
theorem offerRound_of_one {s : State} {q : Producer} (hq : holds s q = true) (h : ∀ p, p ≠ q → holds s p = false) :
    offerRound s = offerHeld s q := by
  have hone : holders s = [q] := by
    have hf := h .lockoutUnit
    have hc := h .clockUnit
    have hm := h .membership
    unfold holders
    cases q with
    | lockoutUnit => simp [hq, hc (by decide), hm (by decide)]
    | clockUnit => simp [hq, hf (by decide), hm (by decide)]
    | membership => simp [hq, hf (by decide), hc (by decide)]
    | panelPort => exact absurd hq Bool.false_ne_true
  rw [offerRound_eq, offerOrder, drawn, hone]
  rfl

/-- Where a producer holds a frame and the queue has room, a freeing lengthens the queue. -/
theorem offerRound_longer {s : State} {q : Producer} (hq : holds s q = true) (hroom : s.txq.entries.length < 4) :
    s.txq.entries.length < (offerRound s).txq.entries.length := by
  have hmem : q ∈ offerOrder s := (offerOrder_perm s).mem_iff.mpr ((mem_holders s q).mpr hq)
  rw [offerRound_eq]
  cases horder : offerOrder s with
  | nil =>
    rw [horder] at hmem
    exact absurd hmem List.not_mem_nil
  | cons p l =>
    have hp : holds s p = true := (mem_holders s p).mp ((offerOrder_perm s).mem_iff.mp (horder ▸ List.mem_cons_self))
    have hdrawn := drawn_eq s
    have htxq : (drawn s).txq = s.txq := by rw [hdrawn]
    have hholds : holds (drawn s) p = true := by
      rw [hdrawn]
      cases p <;> exact hp
    have hroom' : txRoom (drawn s) = true := decide_eq_true (by rw [htxq]; exact hroom)
    obtain ⟨f, hplaced⟩ := (offerHeld_turn_of_holds hroom' hholds).2
    have hlonger := (foldl_offerHeld_turn l (offerHeld (drawn s) p)).length_le
    rw [hplaced, placeFrame, List.length_append, htxq] at hlonger
    exact hlonger

end Sys2Proof.Machine
end

