-- ==== Sys2Proof/Proofs/Withdrawals.lean ====
section
/-!
SUPPORT. The withdrawal of queued frames, and of the round's own frames (R95, R131, R151).
-/
namespace Sys2Proof.Machine
open Relation

/-! ## The entries that a withdrawal leaves (R131, R151) -/

/-- The entries left by the withdrawal of some: the attempted one stays, marked. -/
def leftOf (att : Nat → Bool) (named : List Nat) (l : List TxEntry) : List TxEntry :=
  (l.filter fun x => !named.contains x.seq || att x.seq).map fun x =>
    if named.contains x.seq then { x with withdrawn := true } else x

theorem leftByWithdrawal_eq (s : State) (named : List Nat) :
    leftByWithdrawal s named = leftOf (attempted s) named s.txq.entries := rfl

theorem leftOf_append (att : Nat → Bool) (named : List Nat) (l m : List TxEntry) :
    leftOf att named (l ++ m) = leftOf att named l ++ leftOf att named m := by
  simp [leftOf]

theorem leftOf_nil (att : Nat → Bool) (l : List TxEntry) : leftOf att [] l = l := by
  simp [leftOf]

theorem leftOf_cons (att : Nat → Bool) (n : Nat) (named : List Nat) : ∀ l : List TxEntry,
    leftOf att (n :: named) l = leftOf att named (leftOf att [n] l)
  | [] => rfl
  | x :: l => by
    have ih := leftOf_cons att n named l
    have hx : leftOf att (n :: named) [x] = leftOf att named (leftOf att [n] [x]) := by
      by_cases hn : x.seq = n
      · cases ha : att x.seq <;> simp [leftOf, hn, hn ▸ ha]
      · by_cases hm : x.seq ∈ named
        · cases ha : att x.seq <;> simp [leftOf, hn, hm, ha]
        · simp [leftOf, hn, hm]
    rw [show x :: l = [x] ++ l from rfl, leftOf_append, leftOf_append, leftOf_append, ih, hx]

theorem mem_leftOf {att : Nat → Bool} {named : List Nat} {l : List TxEntry} {y : TxEntry} (h : y ∈ leftOf att named l) :
    ∃ x ∈ l, y.producer = x.producer ∧ y.seq = x.seq := by
  obtain ⟨x, hx, rfl⟩ := List.mem_map.mp h
  refine ⟨x, List.mem_of_mem_filter hx, ?_⟩
  split <;> exact ⟨rfl, rfl⟩

theorem leftOf_length (att : Nat → Bool) (named : List Nat) (l : List TxEntry) : (leftOf att named l).length ≤ l.length := by
  rw [leftOf, List.length_map]
  exact List.length_filter_le _ _

/-- Entries that are not named stay as they are. -/
theorem leftOf_unnamed {att : Nat → Bool} {named : List Nat} {l : List TxEntry} (h : ∀ x ∈ l, x.seq ∉ named) :
    leftOf att named l = l := by
  have hfilter : (l.filter fun x => !named.contains x.seq || att x.seq) = l :=
    List.filter_eq_self.mpr fun x hx => by simp [h x hx]
  rw [leftOf, hfilter]
  exact (List.map_congr_left fun x hx => if_neg (by simpa using h x hx)).trans (List.map_id' l)

/-! ## One withdrawal -/

/-- The queue with the entry withdrawn, before the offers that follow. -/
def withdrawn (n : Nat) (s : State) : State :=
  { s with txq := { s.txq with entries := leftOf (attempted s) [n] s.txq.entries } }

theorem markWithdrawn_eq {n : Nat} {s : State} (h : attempted s n = true) : markWithdrawn n s = withdrawn n s := by
  have hfilter : (s.txq.entries.filter fun x => !([n] : List Nat).contains x.seq || attempted s x.seq) = s.txq.entries :=
    List.filter_eq_self.mpr fun x _ => by
      by_cases hx : x.seq = n
      · simp [hx, h]
      · simp [hx]
  rw [withdrawn, leftOf, hfilter, markWithdrawn]
  simp only [List.contains_cons, List.contains_nil, Bool.or_false, beq_iff_eq]

theorem attempted_iff (s : State) (n : Nat) : attempted s n = true ↔ ∃ a, s.line.attempt = some a ∧ a.entry = n := by
  unfold attempted
  cases s.line.attempt with
  | none => simp
  | some a => simp

/-- At most one entry is the attempted one. -/
theorem attempted_unique {s : State} {m n : Nat} (hm : attempted s m = true) (hn : attempted s n = true) : m = n := by
  obtain ⟨a, ha, rfl⟩ := (attempted_iff s m).mp hm
  obtain ⟨b, hb, rfl⟩ := (attempted_iff s n).mp hn
  rw [Option.some.inj (ha.symm.trans hb)]

theorem leftOf_unattempted {n : Nat} {s : State} (h : attempted s n = false) (l : List TxEntry) :
    leftOf (attempted s) [n] l = l.filter fun x => x.seq != n := by
  have hfilter : (l.filter fun x => !([n] : List Nat).contains x.seq || attempted s x.seq) = l.filter fun x => x.seq != n :=
    List.filter_congr fun x _ => by
      by_cases hx : x.seq = n
      · simp [hx, h]
      · simp [hx]
  rw [leftOf, hfilter]
  refine (List.map_congr_left fun x hx => if_neg ?_).trans (List.map_id' _)
  simpa using (List.mem_filter.mp hx).2

theorem removeTx_eq {n : Nat} {s : State} (h : attempted s n = false) : removeTx n s = withdrawn n s := by
  rw [withdrawn, leftOf_unattempted h]
  rfl

theorem txEntry_isSome_iff (s : State) (n : Nat) : (txEntry s n).isSome = true ↔ ∃ x ∈ s.txq.entries, x.seq = n := by
  simp [txEntry]

theorem withdrawEntry_of_attempted {n : Nat} {s : State} (h : attempted s n = true) : withdrawEntry n s = withdrawn n s := by
  rw [withdrawEntry, if_pos h, markWithdrawn_eq h]

theorem withdrawEntry_of_queued {n : Nat} {s : State} (h : attempted s n = false) (hx : ∃ x ∈ s.txq.entries, x.seq = n) :
    withdrawEntry n s = offerRound (withdrawn n s) := by
  rw [withdrawEntry, if_neg (by rw [h]; exact Bool.false_ne_true), if_pos ((txEntry_isSome_iff s n).mpr hx), removeTx_eq h,
    offerRounds_one]

theorem withdrawEntry_of_missing {n : Nat} {s : State} (h : attempted s n = false) (hx : ¬ ∃ x ∈ s.txq.entries, x.seq = n) :
    withdrawEntry n s = s ∧ withdrawn n s = s := by
  refine ⟨?_, ?_⟩
  · rw [withdrawEntry, if_neg (by rw [h]; exact Bool.false_ne_true), if_neg fun hsome => hx ((txEntry_isSome_iff s n).mp hsome)]
  · rw [withdrawn, leftOf_unnamed fun x hxs => fun hmem => hx ⟨x, hxs, List.mem_singleton.mp hmem⟩]

/-- A withdrawal leaves its entries, then the turn of the offers. -/
theorem withdrawEntry_turn (n : Nat) (s : State) : OfferTurn (withdrawn n s) (withdrawEntry n s) := by
  cases h : attempted s n with
  | true =>
    rw [withdrawEntry_of_attempted h]
    exact OfferTurn.refl _
  | false =>
    by_cases hx : ∃ x ∈ s.txq.entries, x.seq = n
    · rw [withdrawEntry_of_queued h hx]
      exact offerRound_turn _
    · obtain ⟨hentry, hself⟩ := withdrawEntry_of_missing h hx
      rw [hentry, hself]
      exact OfferTurn.refl _

theorem withdrawn_keeps (n : Nat) (s : State) : OfferKeeps s (withdrawn n s) where
  frame := ⟨_, s.member.heldJoin, s.lockout.round.ownClaim, s.lockout.round.ownClose, s.clocks.records, s.freeCount, rfl⟩

theorem withdrawEntry_keeps (n : Nat) (s : State) : OfferKeeps s (withdrawEntry n s) :=
  (withdrawn_keeps n s).trans (withdrawEntry_turn n s).toOfferKeeps

theorem holds_withdrawn (n : Nat) (s : State) (q : Producer) : holds (withdrawn n s) q = holds s q := by
  cases q <;> rfl

theorem OfferKeeps.attempted {s t : State} (h : OfferKeeps s t) (n : Nat) : Machine.attempted t n = Machine.attempted s n := by
  obtain ⟨_, _, _, _, _, _, h⟩ := h.frame
  rw [h]
  rfl

/-- The entries once one was withdrawn: those left, then frames that waited. -/
theorem withdrawEntry_entries (n : Nat) (s : State) :
    ∃ added, (withdrawEntry n s).txq.entries = leftOf (attempted s) [n] s.txq.entries ++ added ∧
      (∀ x ∈ added, holds s x.producer = true ∧ x.withdrawn = false ∧ s.txq.nextSeq ≤ x.seq) ∧
      (attempted s n = true → added = []) ∧
      (attempted s n = false → (∃ q, holds s q = true) → (∃ x ∈ s.txq.entries, x.seq = n) → s.txq.entries.length ≤ 4 →
        added ≠ []) := by
  obtain ⟨added, hadded, hall⟩ := (withdrawEntry_turn n s).entries
  refine ⟨added, hadded, fun x hx => ?_, fun h => ?_, fun h ⟨q, hq⟩ hx hlen hnil => ?_⟩
  · obtain ⟨hp, hw, hs⟩ := hall x hx
    exact ⟨(holds_withdrawn n s _).symm.trans hp, hw, hs⟩
  · rw [withdrawEntry_of_attempted h] at hadded
    exact List.self_eq_append_right.mp hadded
  · have hroom : (withdrawn n s).txq.entries.length < 4 := by
      obtain ⟨x, hxs, hseq⟩ := hx
      refine lt_of_lt_of_le ?_ hlen
      show (leftOf _ _ _).length < _
      rw [leftOf_unattempted h]
      exact List.length_filter_lt_length_iff_exists.mpr ⟨x, hxs, by simp [hseq]⟩
    have hlonger := offerRound_longer ((holds_withdrawn n s q).trans hq) hroom
    rw [← withdrawEntry_of_queued h hx, hadded, hnil, List.append_nil] at hlonger
    exact Nat.lt_irrefl _ hlonger

theorem withdrawEntry_length (n : Nat) (s : State) : (withdrawEntry n s).txq.entries.length ≤ max 4 s.txq.entries.length := by
  have h := (withdrawEntry_turn n s).length
  have hleft := leftOf_length (attempted s) [n] s.txq.entries
  have hw : (withdrawn n s).txq.entries.length = (leftOf (attempted s) [n] s.txq.entries).length := rfl
  omega

/-! ## The withdrawals of one event -/

theorem withdrawEntries_cons (n : Nat) (l : List Nat) (s : State) :
    withdrawEntries (n :: l) s = withdrawEntries l (withdrawEntry n s) := rfl

theorem withdrawEntries_keeps : ∀ (l : List Nat) (s : State), OfferKeeps s (withdrawEntries l s)
  | [], s => OfferKeeps.refl s
  | n :: l, s => (withdrawEntry_keeps n s).trans (withdrawEntries_keeps l _)

theorem attempted_withdrawEntry (n : Nat) (s : State) : attempted (withdrawEntry n s) = attempted s :=
  funext fun m => (withdrawEntry_keeps n s).attempted m

/-- The entries once some were withdrawn: those left, then frames that waited. -/
theorem withdrawEntries_entries : ∀ (l : List Nat) (s : State),
    ∃ added, (withdrawEntries l s).txq.entries = leftOf (attempted s) l s.txq.entries ++ added ∧
      ∀ x ∈ added, holds s x.producer = true
  | [], s => ⟨[], by rw [leftOf_nil, List.append_nil]; rfl, fun _ hx => absurd hx List.not_mem_nil⟩
  | n :: l, s => by
    obtain ⟨a, ha, hall, -⟩ := withdrawEntry_entries n s
    obtain ⟨b, hb, kall⟩ := withdrawEntries_entries l (withdrawEntry n s)
    rw [attempted_withdrawEntry, ha, leftOf_append, ← leftOf_cons] at hb
    refine ⟨leftOf (attempted s) l a ++ b, by rw [withdrawEntries_cons, hb, List.append_assoc], fun x hx => ?_⟩
    rcases List.mem_append.mp hx with hx | hx
    · obtain ⟨y, hy, hprod, -⟩ := mem_leftOf hx
      rw [hprod]
      exact (hall y hy).1
    · exact (withdrawEntry_keeps n s).holds (kall x hx)

/-- Where a frame waits, the first entry that the withdrawals free takes one. -/
theorem withdrawEntries_longer {q : Producer} : ∀ (l : List Nat) {s : State}, holds s q = true →
    (∀ m ∈ l, m < s.txq.nextSeq) → s.txq.entries.length ≤ 4 →
    (leftOf (attempted s) l s.txq.entries).length < s.txq.entries.length →
    (leftOf (attempted s) l s.txq.entries).length < (withdrawEntries l s).txq.entries.length
  | [], s, _, _, _, hless => by
    rw [leftOf_nil] at hless
    exact absurd hless (Nat.lt_irrefl _)
  | n :: l, s, hq, hold, hlen, hless => by
    have hrest : ∀ m ∈ l, m < s.txq.nextSeq := fun m hm => hold m (List.mem_cons_of_mem _ hm)
    rw [withdrawEntries_cons]
    cases h : attempted s n with
    | true =>
      have heq := withdrawEntry_of_attempted h
      have hsame : (leftOf (attempted s) [n] s.txq.entries).length = s.txq.entries.length := by
        have hmark := congrArg (fun t : State => t.txq.entries.length) (markWithdrawn_eq h)
        rw [← show (withdrawn n s).txq.entries = leftOf (attempted s) [n] s.txq.entries from rfl]
        exact hmark.symm.trans (List.length_map _)
      have hatt : attempted (withdrawn n s) = attempted s := rfl
      rw [heq]
      rw [leftOf_cons] at hless ⊢
      refine withdrawEntries_longer l (s := withdrawn n s) ((holds_withdrawn n s q).trans hq) hrest ?_ ?_
      · exact hsame.le.trans hlen
      · rw [hatt]
        exact hless.trans_eq hsame.symm
    | false =>
      by_cases hx : ∃ x ∈ s.txq.entries, x.seq = n
      · obtain ⟨a, ha, hall, -, hne⟩ := withdrawEntry_entries n s
        obtain ⟨b, hb, -⟩ := withdrawEntries_entries l (withdrawEntry n s)
        have hunnamed : ∀ x ∈ a, x.seq ∉ l := fun x hxa hxl =>
          absurd (hall x hxa).2.2 (Nat.not_le_of_lt (hrest _ hxl))
        rw [attempted_withdrawEntry, ha, leftOf_append, ← leftOf_cons, leftOf_unnamed hunnamed] at hb
        have hpos : 0 < a.length := List.length_pos_iff.mpr (hne h ⟨q, hq⟩ hx hlen)
        rw [hb, List.length_append, List.length_append]
        omega
      · obtain ⟨hentry, hself⟩ := withdrawEntry_of_missing h hx
        have hleft : leftOf (attempted s) [n] s.txq.entries = s.txq.entries := congrArg (fun t : State => t.txq.entries) hself
        rw [hentry]
        rw [leftOf_cons, hleft] at hless ⊢
        exact withdrawEntries_longer l hq hrest hlen hless

/-! ## The withdrawal of the round's own frames (R95) -/

theorem roundEntries_eq (s : State) : roundEntries s = ownRoundFrames s := by
  unfold roundEntries ownRoundFrames
  congr 1
  refine List.filter_congr fun x _ => ?_
  rw [Bool.eq_iff_iff]
  simp [roundFrame]

theorem withdrawRound_eq (s : State) : withdrawRound s = withdrawEntries (ownRoundFrames s) (clearOwn s) := by
  rw [withdrawRound, roundEntries_eq]

theorem clearOwn_claims (s : State) (i : Fin 8) : (clearOwn s).lockout.round.ownClaim[i] = .absent := by
  show (Vector.replicate 8 OwnClaim.absent)[i] = .absent
  simp

theorem holds_clearOwn (s : State) (q : Producer) :
    holds (clearOwn s) q = true ↔ (q = .clockUnit ∨ q = .membership) ∧ holds s q = true := by
  cases q with
  | lockoutUnit =>
    rw [holds_lockout_iff]
    refine ⟨fun h => ?_, fun h => by simp at h⟩
    rcases h with ⟨i, hi⟩ | hclose
    · rw [clearOwn_claims] at hi
      exact absurd hi id
    · exact nomatch hclose
  | clockUnit => exact ⟨fun h => ⟨.inl rfl, h⟩, fun h => h.2⟩
  | membership => exact ⟨fun h => ⟨.inr rfl, h⟩, fun h => h.2⟩
  | panelPort => simp [holds_panel]

/-- What the withdrawal of the round's own frames leaves: no own claim and no own CLOSE, the rest of the round and of the clock
records, and the queue of `withdrewRound`. -/
theorem withdrawRound_spec (s : State) :
    OfferKeeps (clearOwn s) (withdrawRound s) ∧ (∀ i : Fin 8, (withdrawRound s).lockout.round.ownClaim[i] = .absent) ∧
      (withdrawRound s).lockout.round.ownClose = .absent ∧ withdrewRound s (withdrawRound s) := by
  have hkeeps := withdrawEntries_keeps (ownRoundFrames s) (clearOwn s)
  obtain ⟨added, hadded, hall⟩ := withdrawEntries_entries (ownRoundFrames s) (clearOwn s)
  rw [← withdrawRound_eq] at hkeeps hadded
  refine ⟨hkeeps, fun i => ?_, ?_, added, hadded, fun x hx => (holds_clearOwn s _).mp (hall x hx), ?_⟩
  · rcases hkeeps.claims i with heq | ⟨hwaits, -⟩
    · exact heq.trans (clearOwn_claims s i)
    · rw [clearOwn_claims] at hwaits
      exact absurd hwaits id
  · rcases hkeeps.close with heq | ⟨hwaits, -⟩
    · exact heq
    · exact absurd hwaits id
  · intro hsome hseqs hlen hless hnil
    obtain ⟨q, hq⟩ : ∃ q, holds (clearOwn s) q = true := by
      rcases hsome with h | h
      · exact ⟨.clockUnit, (holds_clearOwn s _).mpr ⟨.inl rfl, h⟩⟩
      · exact ⟨.membership, (holds_clearOwn s _).mpr ⟨.inr rfl, h⟩⟩
    have hnamed : ∀ m ∈ ownRoundFrames s, m < s.txq.nextSeq := fun m hm => by
      obtain ⟨x, hx, rfl⟩ := List.mem_map.mp hm
      exact hseqs x (List.mem_of_mem_filter hx)
    have hlonger := withdrawEntries_longer (ownRoundFrames s) (s := clearOwn s) hq hnamed hlen hless
    rw [← withdrawRound_eq, hadded, hnil, List.append_nil] at hlonger
    exact Nat.lt_irrefl _ hlonger

end Sys2Proof.Machine
end

