-- ==== Sys2Proof/Proofs/ClockFires.lean ====
section
/-!
The taking of a clock-origin FIRE (O28), and what a dispatched fire leaves.
-/
namespace Sys2Proof.Machine
open Relation

/-! ## A dispatched fire leaves the blocks besides the voices (R4) -/

theorem dispatched_frame {cue : Nat} {s : State} (h : knownCue s cue = true) (trim : Byte) (edge : Word) :
    VoiceFrame (setLastAccepted cue edge s) (dispatched cue trim edge s) := by
  unfold dispatched dispatchFire
  rw [if_pos h]
  dsimp only
  split
  · exact (chokeStage_frame _ _).trans ((playStages_frame _ _ _ _).trans (fetchSettle_frame _))
  · exact (chokeStage_frame _ _).trans (fetchSettle_frame _)

theorem dispatched_unknown {cue : Nat} {s : State} (h : knownCue s cue = false) (trim : Byte) (edge : Word) :
    dispatched cue trim edge s = fetchSettle s := by
  unfold dispatched dispatchFire
  rw [h]
  rfl

/-- A dispatched fire reaches the last-accepted records, the voices, the requests and the fault flags alone. -/
theorem dispatched_outside (cue : Nat) (trim : Byte) (edge : Word) (s : State) : ∃ last faults pend,
    dispatched cue trim edge s = { s with
      dispatch := { s.dispatch with lastAccepted := last }
      pool := (dispatched cue trim edge s).pool, fetch := (dispatched cue trim edge s).fetch
      panel := { s.panel with faults := faults, faultPending := pend } } := by
  cases h : knownCue s cue with
  | true =>
    obtain ⟨pool, fetch, faults, pend, heq⟩ := dispatched_frame h trim edge
    refine ⟨(setLastAccepted cue edge s).dispatch.lastAccepted, faults, pend, ?_⟩
    rw [heq]
    rfl
  | false =>
    refine ⟨s.dispatch.lastAccepted, s.panel.faults, s.panel.faultPending, ?_⟩
    rw [dispatched_unknown h, fetchSettle_poolFetch s]

theorem dispatched_lastAccepted {cue : Nat} {s : State} (h : knownCue s cue = true) (trim : Byte) (edge : Word) :
    lastAccepted (dispatched cue trim edge s) cue = some edge := by
  obtain ⟨_, _, _, _, heq⟩ := dispatched_frame h trim edge
  rw [heq]
  exact lastAccepted_setLastAccepted_same cue edge s

theorem dispatched_clocks (cue : Nat) (trim : Byte) (edge : Word) (s : State) :
    (dispatched cue trim edge s).clocks = s.clocks := by
  obtain ⟨_, _, _, h⟩ := dispatched_outside cue trim edge s
  rw [h]

theorem dispatched_txq (cue : Nat) (trim : Byte) (edge : Word) (s : State) : (dispatched cue trim edge s).txq = s.txq := by
  obtain ⟨_, _, _, h⟩ := dispatched_outside cue trim edge s
  rw [h]

theorem dispatched_lockout (cue : Nat) (trim : Byte) (edge : Word) (s : State) :
    (dispatched cue trim edge s).lockout = s.lockout := by
  obtain ⟨_, _, _, h⟩ := dispatched_outside cue trim edge s
  rw [h]

theorem dispatched_outcomes (cue : Nat) (trim : Byte) (edge : Word) (s : State) :
    (dispatched cue trim edge s).panel.outcomes = s.panel.outcomes := by
  obtain ⟨_, _, _, h⟩ := dispatched_outside cue trim edge s
  rw [h]

/-! ## Clock-origin FIRE frames (Table 6-3) -/

theorem tag_name (name epoch : Byte) : (name ++ epoch).extractLsb' 8 8 = name := by
  exact BitVec.extractLsb'_append_eq_left

theorem tag_epoch (name epoch : Byte) : (name ++ epoch).extractLsb' 0 8 = epoch := by
  exact BitVec.extractLsb'_append_eq_right

/-- The taking of a clock-origin FIRE that names no point. -/
theorem takeClockFire_unnamed {s : State} {e : RxEntry} {cue : BitVec 16} {name epoch trim : Byte}
    (h : standsAtHead s e (.fire cue 2 (name ++ epoch) trim)) (hname : 3 < name.toNat / 16 ∨ 3 < name.toNat % 16) :
    takeClockFire s = leaveHead e s := by
  rw [takeClockFire_of_head h, dif_neg]
  rw [tag_name]
  omega

/-- The taking of a clock-origin FIRE that names a point. -/
theorem takeClockFire_named {s : State} {e : RxEntry} {cue : BitVec 16} {name epoch trim : Byte} {c p : Fin 4}
    (h : standsAtHead s e (.fire cue 2 (name ++ epoch) trim)) (hname : name.toNat = c.val * 16 + p.val) :
    takeClockFire s = if clockFirePasses (leaveHead e s) c p epoch then passClockFire c p cue trim e.edge (leaveHead e s)
      else leaveHead e s := by
  have hvalid : name.toNat / 16 < 4 ∧ name.toNat % 16 < 4 := by omega
  obtain rfl : c = ⟨name.toNat / 16, hvalid.1⟩ := Fin.ext (by dsimp only; omega)
  obtain rfl : p = ⟨name.toNat % 16, hvalid.2⟩ := Fin.ext (by dsimp only at hname ⊢; omega)
  rw [takeClockFire_of_head h]
  simp only [tag_name, tag_epoch]
  rw [dif_pos hvalid]

/-- The clock of a passed FIRE with the point's flag set (R109). -/
def flagged (c p : Fin 4) (s : State) : State := withClock c (fun r => { r with fired := r.fired.set p true }) s

theorem clockOf_flagged (c p : Fin 4) (s : State) :
    clockOf (flagged c p s) c = { clockOf s c with fired := (clockOf s c).fired.set p true } := clockOf_withClock_same c _ s

theorem flagged_keeps (c p : Fin 4) (s : State) (d q : Fin 4) :
    (clockOf (flagged c p s) d).copies[q] = (clockOf s d).copies[q] := by
  by_cases hd : d = c
  · subst hd
    rw [clockOf_flagged]
  · rw [flagged, clockOf_withClock_other _ _ _ _ hd]

theorem passClockFire_eq (c p : Fin 4) (cue : BitVec 16) (trim : Byte) (edge : Word) (s : State) :
    passClockFire c p cue trim edge s = dispatched cue.toNat trim edge (dropCopy c p (flagged c p s)) := by
  unfold passClockFire flagged
  rw [fireNow_eq]

theorem dropCopy_absent {c p : Fin 4} {s : State} (h : (clockOf s c).copies[p] = .absent) : dropCopy c p s = s := by
  simp only [dropCopy, h]

theorem dropCopy_held {c p : Fin 4} {s : State} {epoch : Byte} {since order : Nat}
    (h : (clockOf s c).copies[p] = .held epoch since order) : dropCopy c p s = setCopy c p .absent s := by
  simp only [dropCopy, h]

theorem dropCopy_queued {c p : Fin 4} {s : State} {epoch : Byte} {n : Nat} (h : (clockOf s c).copies[p] = .queued epoch n) :
    dropCopy c p s = withdrawEntry n (setCopy c p .absent s) := by
  simp only [dropCopy, h]

/-- The copy that a passed FIRE drops is none, and the rest of its clock's record is as it was. -/
theorem dropCopy_record (c p : Fin 4) (s : State) : (clockOf (dropCopy c p s) c).copies[p] = .absent ∧
    clockOf (dropCopy c p s) c = { clockOf s c with copies := (clockOf (dropCopy c p s) c).copies } := by
  have hset : (clockOf (setCopy c p .absent s) c).copies[p] = .absent := by
    rw [clockOf_setCopy_same]
    dsimp only
    rw [vector_get_set, if_pos rfl]
  cases h : (clockOf s c).copies[p] with
  | absent =>
    rw [dropCopy_absent h]
    exact ⟨h, rfl⟩
  | held epoch since order =>
    rw [dropCopy_held h]
    exact ⟨hset, setCopy_record c p .absent s⟩
  | queued epoch n =>
    rw [dropCopy_queued h]
    have hkeeps := withdrawEntry_keeps n (setCopy c p .absent s)
    refine ⟨?_, ?_⟩
    · rcases hkeeps.copies c p with heq | ⟨hwaits, -⟩
      · exact heq.trans hset
      · rw [hset] at hwaits
        exact absurd hwaits id
    · rw [hkeeps.clocks.2 c, setCopy_record c p .absent s]

/-- The transmit queue once a queued copy was dropped. -/
theorem holds_setCopy {c p : Fin 4} {s : State} (h : ¬ ((clockOf s c).copies[p]).waits) (q : Producer) :
    holds (setCopy c p .absent s) q = holds s q := by
  rw [Bool.eq_iff_iff]
  cases q with
  | lockoutUnit => exact Iff.rfl
  | membership => exact Iff.rfl
  | panelPort => exact Iff.rfl
  | clockUnit =>
    have hcopy : ∀ d r : Fin 4, ((clockOf (setCopy c p .absent s) d).copies[r]).waits ↔ ((clockOf s d).copies[r]).waits := by
      intro d r
      by_cases hd : d = c
      · subst hd
        rw [clockOf_setCopy_same]
        dsimp only
        rw [vector_get_set]
        by_cases hr : r = p
        · subst hr
          rw [if_pos rfl]
          exact ⟨fun hw => absurd hw id, fun hw => absurd hw h⟩
        · rw [if_neg hr]
      · rw [clockOf_setCopy_other hd]
    simp only [holds_clock_iff, hcopy]

theorem holds_flagged (c p : Fin 4) (s : State) (q : Producer) : holds (flagged c p s) q = holds s q := by
  rw [Bool.eq_iff_iff]
  cases q with
  | lockoutUnit => exact Iff.rfl
  | membership => exact Iff.rfl
  | panelPort => exact Iff.rfl
  | clockUnit => simp only [holds_clock_iff, flagged_keeps]

theorem holds_leaveHead (e : RxEntry) (s : State) (q : Producer) : holds (leaveHead e s) q = holds s q := by
  obtain ⟨peers, hleft⟩ := leaveHead_eq e s
  rw [hleft]
  cases q <;> rfl

theorem attempted_leaveHead (e : RxEntry) (s : State) : attempted (leaveHead e s) = attempted s := by
  obtain ⟨peers, hleft⟩ := leaveHead_eq e s
  rw [hleft]
  rfl

/-- The queue once the copy of a passed FIRE was dropped. -/
theorem dropCopy_txq_of_unqueued {c p : Fin 4} {s : State} (h : ∀ epoch n, (clockOf s c).copies[p] ≠ .queued epoch n) :
    (dropCopy c p s).txq = s.txq := by
  cases hcopy : (clockOf s c).copies[p] with
  | absent => rw [dropCopy_absent hcopy]
  | held epoch since order => rw [dropCopy_held hcopy, setCopy_txq]
  | queued epoch n => exact absurd hcopy (h epoch n)

theorem dropCopy_txq_of_queued {c p : Fin 4} {s : State} {epoch : Byte} {n : Nat}
    (h : (clockOf s c).copies[p] = .queued epoch n) :
    ∃ added, (dropCopy c p s).txq.entries = leftByWithdrawal s [n] ++ added ∧
      (dropCopy c p s).txq.entries.length ≤ max 4 s.txq.entries.length ∧
      (∀ x ∈ added, holds s x.producer = true ∧ x.withdrawn = false ∧ s.txq.nextSeq ≤ x.seq) ∧
      (attempted s n = true → added = []) ∧
      (attempted s n = false → (∃ q, holds s q = true) → (∃ x ∈ s.txq.entries, x.seq = n) → s.txq.entries.length ≤ 4 →
        added ≠ []) := by
  have hholds := holds_setCopy (c := c) (p := p) (s := s) (by rw [h]; exact id)
  obtain ⟨added, hadded, hall, hatt, hne⟩ := withdrawEntry_entries n (setCopy c p .absent s)
  simp only [hholds] at hall hne
  rw [dropCopy_queued h]
  exact ⟨added, hadded, withdrawEntry_length n (setCopy c p .absent s), hall, hatt, hne⟩

/-- The flag and the dropped copy reach the queue, the own copies and what the offers reach. -/
theorem dropCopy_flagged_eq (c p : Fin 4) (u : State) :
    dropCopy c p (flagged c p u) = { u with
        clocks := (dropCopy c p (flagged c p u)).clocks, txq := (dropCopy c p (flagged c p u)).txq
        lockout := (dropCopy c p (flagged c p u)).lockout, freeCount := (dropCopy c p (flagged c p u)).freeCount
        member := { u.member with heldJoin := (dropCopy c p (flagged c p u)).member.heldJoin } } ∧
      (dropCopy c p (flagged c p u)).panel = u.panel ∧ (dropCopy c p (flagged c p u)).tables = u.tables := by
  obtain ⟨_, _, _, _, _, _, heq⟩ := dropCopy_frame c p (flagged c p u)
  rw [heq]
  exact ⟨rfl, rfl, rfl⟩

theorem clockFirePasses_iff (s : State) (c p : Fin 4) (epoch : Byte) : clockFirePasses s c p epoch = true ↔
    (clockOf s c).state ≠ .unset ∧ (clockOf s c).epoch = epoch ∧ (clockOf s c).fired[p] = false := by
  simp [clockFirePasses, and_assoc]

theorem leaveHead_lastAccepted (e : RxEntry) (s : State) :
    (leaveHead e s).dispatch.lastAccepted = s.dispatch.lastAccepted := by
  obtain ⟨peers, hleft⟩ := leaveHead_eq e s
  rw [hleft]

/-- Settles O28. -/
theorem clockFireTable : Obligations.ClockFireTable := by
  intro e cue name epoch trim s hhead
  have hleft : (leaveHead e s).clocks = s.clocks ∧ (leaveHead e s).pool = s.pool ∧
      (leaveHead e s).dispatch.lastAccepted = s.dispatch.lastAccepted ∧ (leaveHead e s).panel = s.panel :=
    ⟨leaveHead_clocks e s, leaveHead_pool e s, leaveHead_lastAccepted e s, leaveHead_panel e s⟩
  have hclock := clockOf_leaveHead e s
  refine ⟨fun hname => ⟨takeClockFire s, rfl, ?_⟩, fun c p hname => ⟨fun hwhy => ⟨takeClockFire s, rfl, ?_⟩,
    fun hset hepoch hfired => ⟨takeClockFire s, rfl, ?_⟩⟩⟩
  · rw [takeClockFire_unnamed hhead hname]
    exact hleft
  · have hnot : clockFirePasses (leaveHead e s) c p epoch = false := by
      rw [Bool.eq_false_iff, ne_eq, clockFirePasses_iff, hclock]
      rintro ⟨h1, h2, h3⟩
      rcases hwhy with h | h | h
      · exact h1 h
      · exact h h2.symm
      · exact Bool.false_ne_true (h3.symm.trans h)
    rw [takeClockFire_named hhead hname, hnot, if_neg Bool.false_ne_true]
    exact hleft
  · have hpasses : clockFirePasses (leaveHead e s) c p epoch = true := by
      rw [clockFirePasses_iff, hclock]
      exact ⟨hset, hepoch.symm, hfired⟩
    have hcopies : ∀ d q : Fin 4, (clockOf (flagged c p (leaveHead e s)) d).copies[q] = (clockOf s d).copies[q] := fun d q => by
      rw [flagged_keeps, hclock]
    have htxq : (flagged c p (leaveHead e s)).txq = s.txq := leaveHead_txq e s
    have hholds : ∀ q, holds (flagged c p (leaveHead e s)) q = holds s q := fun q =>
      (holds_flagged c p _ q).trans (holds_leaveHead e s q)
    have hatt : attempted (flagged c p (leaveHead e s)) = attempted s := attempted_leaveHead e s
    obtain ⟨habsent, hrecord⟩ := dropCopy_record c p (flagged c p (leaveHead e s))
    rw [clockOf_flagged, hclock] at hrecord
    obtain ⟨hv, hpanel, htab⟩ := dropCopy_flagged_eq c p (leaveHead e s)
    rw [takeClockFire_named hhead hname, if_pos hpasses, passClockFire_eq]
    have hdclock : ∀ v : State, clockOf (dispatched cue.toNat trim e.edge v) c = clockOf v c := fun v => by
      rw [clockOf, clockOf, dispatched_clocks]
    rw [hdclock, dispatched_txq, dispatched_outcomes]
    refine ⟨?_, habsent, ?_, ?_, fun hknown => ?_, ?_, fun hunqueued => ?_, fun held n hq => ?_, leaveHead e s, _,
      hasLeft_leaveHead e s, ?_, rfl⟩
    · rw [hrecord]
      dsimp only
      rw [vector_get_set, if_pos rfl]
    · rw [hrecord]
    · rw [hrecord]
    · exact dispatched_lastAccepted ((knownCue_congr (htab.trans (leaveHead_tables e s)) _).trans hknown) trim e.edge
    · rw [hpanel, leaveHead_panel]
    · rw [dropCopy_txq_of_unqueued fun held n => by rw [hcopies]; exact hunqueued held n, htxq]
    · obtain ⟨added, h1, h2, h3, h4, h5⟩ := dropCopy_txq_of_queued ((hcopies c p).trans hq)
      simp only [hholds, hatt, htxq] at h2 h3 h4 h5
      rw [leftByWithdrawal_eq, hatt, htxq] at h1
      exact ⟨added, h1, h2, h3, h4, h5⟩
    · exact hv

end Sys2Proof.Machine
end

