-- ==== Sys2Proof/Proofs/ArmedRound.lean ====
section
/-!
The taking of an ARM (O30).
-/
namespace Sys2Proof.Machine
open Relation

/-! ## The round that an ARM begins (R82) -/

/-- The expiries of a round move its state, its once-per-round settling and the own CLOSE alone, with the queue. -/
def roundMoved (s t : State) : Prop :=
  ∃ st settled close, t = { s with
    txq := t.txq, lockout := { s.lockout with round := { s.lockout.round with
      state := st, settled := settled, ownClose := close } } }

theorem roundMoved.trans {s t u : State} (h : roundMoved s t) (k : roundMoved t u) : roundMoved s u := by
  obtain ⟨_, _, _, h⟩ := h
  obtain ⟨a, b, c, k⟩ := k
  refine ⟨a, b, c, ?_⟩
  rw [k, h]

theorem roundMoved.refl (s : State) : roundMoved s s := ⟨_, _, _, rfl⟩

theorem holdoffExpiry_moved (s : State) : roundMoved s (holdoffExpiry s) := by
  unfold holdoffExpiry
  split
  · exact ⟨_, _, _, rfl⟩
  · exact roundMoved.refl s

theorem windowExpiry_moved (s : State) : roundMoved s (windowExpiry s) := by
  unfold windowExpiry
  split
  · exact ⟨_, _, _, rfl⟩
  · exact roundMoved.refl s

theorem offerClose_moved (s : State) : roundMoved s (offerClose s) := by
  unfold offerClose
  split
  · exact ⟨_, _, _, rfl⟩
  · exact ⟨_, _, _, rfl⟩

theorem offerClose_state (s : State) : (offerClose s).lockout.round.state = s.lockout.round.state := by
  unfold offerClose
  split <;> rfl

theorem settleExpiry_moved (s : State) : roundMoved s (settleExpiry s) := by
  unfold settleExpiry
  split
  · dsimp only
    have hset : roundMoved s (withRound (fun r => { r with settled := true }) s) := ⟨_, _, _, rfl⟩
    split
    · exact hset.trans (offerClose_moved _)
    · exact hset
  · exact roundMoved.refl s

theorem settleExpiry_state (s : State) : (settleExpiry s).lockout.round.state = s.lockout.round.state := by
  unfold settleExpiry
  split
  · dsimp only
    split
    · exact offerClose_state _
    · rfl
  · rfl

theorem roundMoved.time {s t : State} (h : roundMoved s t) : roundTime t = roundTime s := by
  obtain ⟨_, _, _, h⟩ := h
  rw [h]
  rfl

theorem roundMoved.profile {s t : State} (h : roundMoved s t) : roundProfile t = roundProfile s := by
  obtain ⟨_, _, _, h⟩ := h
  rw [h]
  rfl

/-- The three expiries of a round, each where it is due. -/
def expired (s : State) : State := settleExpiry (windowExpiry (holdoffExpiry s))

theorem expired_moved (s : State) : roundMoved s (expired s) :=
  (holdoffExpiry_moved s).trans ((windowExpiry_moved _).trans (settleExpiry_moved _))

/-- The state of a round of which every expiry due has come. -/
theorem expired_state {s : State}
    (hstart : s.lockout.round.state = if (roundProfile s).holdoff = 0 then .isOpen else .holdoff) : (expired s).lockout.round.state =
      if roundTime s < (roundProfile s).holdoff * 1000 then .holdoff
      else if roundTime s < (roundProfile s).window * 1000 then .isOpen else .settling := by
  have hmoved := holdoffExpiry_moved s
  rw [expired, settleExpiry_state]
  by_cases hearly : roundTime s < (roundProfile s).holdoff * 1000
  · rw [if_pos hearly, holdoffExpiry_early hearly]
    rw [if_neg (by omega)] at hstart
    rw [windowExpiry_elsewhere (by rw [hstart]; decide), hstart]
  · have hopen : (holdoffExpiry s).lockout.round.state = .isOpen := by
      by_cases hzero : (roundProfile s).holdoff = 0
      · rw [if_pos hzero] at hstart
        rw [holdoffExpiry_elsewhere (by rw [hstart]; decide), hstart]
      · rw [if_neg hzero] at hstart
        rw [holdoffExpiry_due hstart (Nat.le_of_not_lt hearly)]
        rfl
    rw [if_neg hearly]
    by_cases hwindow : roundTime s < (roundProfile s).window * 1000
    · rw [if_pos hwindow, windowExpiry_early (by rw [hmoved.time, hmoved.profile]; exact hwindow), hopen]
    · rw [if_neg hwindow, windowExpiry_due hopen (by rw [hmoved.time, hmoved.profile]; exact Nat.le_of_not_lt hwindow)]
      rfl

/-- Until the settle time expires no CLOSE is offered. -/
theorem expired_early {s : State} (h : roundTime s < ((roundProfile s).window + (roundProfile s).settle) * 1000) :
    (expired s).txq = s.txq ∧ (expired s).lockout.round.ownClose = s.lockout.round.ownClose := by
  have hmoved := (holdoffExpiry_moved s).trans (windowExpiry_moved _)
  rw [expired, settleExpiry_early (by rw [hmoved.time, hmoved.profile]; exact h)]
  unfold windowExpiry holdoffExpiry
  constructor <;> (split <;> split <;> rfl)

/-! ## The withdrawal of R95 seen from before the head's leaving -/

theorem withdrewRound_leaveHead {e : RxEntry} {s t : State} (h : withdrewRound (leaveHead e s) t) : withdrewRound s t := by
  have hatt := attempted_leaveHead e s
  have htxq := leaveHead_txq e s
  have hholds := holds_leaveHead e s
  unfold withdrewRound at h ⊢
  simp only [leftByWithdrawal_eq, ownRoundFrames, hatt, htxq, hholds] at h ⊢
  exact h

theorem withdrewRound_congr {s t u : State} (h : withdrewRound s t) (htxq : u.txq = t.txq) : withdrewRound s u := by
  unfold withdrewRound at h ⊢
  rwa [htxq]

/-- What an ARM leaves before the round record is written: the round's own frames withdrawn. -/
theorem armed_spec (e : RxEntry) (s : State) : withdrewRound s (armed e s) ∧
    ∃ claims close txq held records free peers, armed e s = { s with
      dispatch := { s.dispatch with fireOrder := s.dispatch.fireOrder + 1 }
      rxq := { entries := s.rxq.entries.tail, headSince := s.now }
      member := { s.member with peers := peers, heldJoin := held }, txq := txq, freeCount := free
      lockout := { s.lockout with round := { s.lockout.round with ownClaim := claims, ownClose := close } }
      clocks := { s.clocks with records := records } } := by
  obtain ⟨-, -, -, hwithdrew⟩ := withdrawRound_spec (leaveHead e s)
  refine ⟨withdrewRound_leaveHead hwithdrew, ?_⟩
  obtain ⟨peers, hleft⟩ := leaveHead_eq e s
  obtain ⟨txq, held, claims, close, records, free, heq⟩ := withdrawRound_frame (leaveHead e s)
  refine ⟨claims, close, txq, held, records, free, peers, ?_⟩
  rw [armed, heq, hleft]

/-- The round record at an ARM, before its expiries. -/
def freshRound (identity : Byte × Byte) (profile : Nat) (edge : Word) (state : RoundState) (held : Bool) (s : State) : State :=
  withRound (fun _ => Round.fresh identity profile edge state held) s

theorem takeArm_low {s : State} {e : RxEntry} {number profile : Byte} (h : standsAtHead s e (.arm number profile))
    (hp : profile.toNat < 8) : takeArm s = expired (freshRound (senderOf e.frame, number) profile.toNat e.edge
      (if (profileRecord (armed e s) profile.toNat).holdoff = 0 then .isOpen else .holdoff) (armedHeld e s) (armed e s)) := by
  rw [takeArm_of_head h, if_pos hp]
  rfl

theorem takeArm_high {s : State} {e : RxEntry} {number profile : Byte} (h : standsAtHead s e (.arm number profile))
    (hp : 8 ≤ profile.toNat) :
    takeArm s = freshRound (senderOf e.frame, number) 0 e.edge .idle (armedHeld e s) (armed e s) := by
  rw [takeArm_of_head h, if_neg (Nat.not_lt_of_le hp)]
  rfl

/-- The taking of an ARM moves a fresh round. -/
theorem takeArm_moved {s : State} {e : RxEntry} {number profile : Byte} (h : standsAtHead s e (.arm number profile)) :
    ∃ p st, roundMoved (freshRound (senderOf e.frame, number) p e.edge st (armedHeld e s) (armed e s)) (takeArm s) := by
  by_cases hp : profile.toNat < 8
  · rw [takeArm_low h hp]
    exact ⟨_, _, expired_moved _⟩
  · rw [takeArm_high h (Nat.le_of_not_lt hp)]
    exact ⟨_, _, roundMoved.refl _⟩

/-- Round time at the moment of an ARM (R80). -/
theorem freshRound_time (identity : Byte × Byte) (p : Nat) (st : RoundState) (e : RxEntry) (s : State) :
    roundTime (freshRound identity p e.edge st (armedHeld e s) (armed e s)) = min 16777215 (s.stationClock - e.edge).toNat := by
  obtain ⟨-, _, _, _, _, _, _, _, harmed⟩ := armed_spec e s
  have hclock : (armed e s).stationClock = s.stationClock := by rw [harmed]
  have htime : roundTime (freshRound identity p e.edge st (armedHeld e s) (armed e s)) =
      if armedHeld e s then 16777215 else min 16777215 ((armed e s).stationClock - e.edge).toNat := rfl
  rw [htime, armedHeld, hclock]
  split
  · next h =>
    have hle := of_decide_eq_true h
    unfold maxRoundTime at hle
    omega
  · rfl

/-- The profile record that a fresh round is played by is that of its profile. -/
theorem freshRound_profile (identity : Byte × Byte) (p : Nat) (st : RoundState) (e : RxEntry) (s : State) :
    roundProfile (freshRound identity p e.edge st (armedHeld e s) (armed e s)) = profileRecord s p := by
  obtain ⟨-, _, _, _, _, _, _, _, harmed⟩ := armed_spec e s
  have htab : (armed e s).tables = s.tables := by rw [harmed]
  rw [roundProfile, profileRecord, profileRecord, show (freshRound identity p e.edge st (armedHeld e s) (armed e s)).tables =
    (armed e s).tables from rfl, htab]
  rfl

/-- Settles O30: the own frames are withdrawn, the record is written, and the expiries due come. -/
theorem armStartsRound : Obligations.ArmStartsRound := by
  intro e number profile s hhead
  obtain ⟨hwithdrew, claims, close, txq, held, records, free, peers, harmed⟩ := armed_spec e s
  obtain ⟨q, st0, st, settled, ownClose, hmoved⟩ := takeArm_moved hhead
  have hlow : profile.toNat < 8 → _ := takeArm_low hhead
  have hhigh : 8 ≤ profile.toNat → _ := takeArm_high hhead
  refine ⟨takeArm s, rfl, ?_⟩
  generalize takeArm s = t at hmoved hlow hhigh
  rw [freshRound, withRound] at hmoved
  refine ⟨?_, ?_, ?_, ?_, ?_, ?_, ?_, fun i => ?_, ?_, ?_, ?_, ?_, ?_, fun hp => ?_, fun hp _ => ?_⟩
  · rw [hmoved]; rfl
  · rw [hmoved]; rfl
  · rw [hmoved]; rfl
  · rw [hmoved]; rfl
  · rw [hmoved]; rfl
  · rw [hmoved]; rfl
  · rw [hmoved]; rfl
  · rw [hmoved]
    simp [Round.fresh, Round.reset]
  · rw [hmoved, harmed]
  · rw [hmoved, harmed]
  · rw [hmoved, harmed]
    exact ⟨rfl, rfl, rfl, rfl⟩
  · rw [hmoved, harmed]
  · rw [hmoved, harmed]
  · rw [hhigh hp]
    exact ⟨rfl, rfl, rfl, withdrewRound_congr hwithdrew rfl⟩
  · rw [hlow hp]
    have hprofile := freshRound_profile (senderOf e.frame, number) profile.toNat
      (if (profileRecord (armed e s) profile.toNat).holdoff = 0 then .isOpen else .holdoff) e s
    have htime := freshRound_time (senderOf e.frame, number) profile.toNat
      (if (profileRecord (armed e s) profile.toNat).holdoff = 0 then .isOpen else .holdoff) e s
    have hrecord : profileRecord (armed e s) profile.toNat = profileRecord s profile.toNat := by rw [harmed]; rfl
    have hstart : (freshRound (senderOf e.frame, number) profile.toNat e.edge
        (if (profileRecord (armed e s) profile.toNat).holdoff = 0 then .isOpen else .holdoff) (armedHeld e s)
        (armed e s)).lockout.round = Round.fresh (senderOf e.frame, number) profile.toNat e.edge
          (if (profileRecord (armed e s) profile.toNat).holdoff = 0 then .isOpen else .holdoff) (armedHeld e s) := rfl
    have htxq : (freshRound (senderOf e.frame, number) profile.toNat e.edge
        (if (profileRecord (armed e s) profile.toNat).holdoff = 0 then .isOpen else .holdoff) (armedHeld e s)
        (armed e s)).txq = (armed e s).txq := rfl
    generalize freshRound (senderOf e.frame, number) profile.toNat e.edge
      (if (profileRecord (armed e s) profile.toNat).holdoff = 0 then .isOpen else .holdoff) (armedHeld e s) (armed e s) = u at *
    have hstate := expired_state (s := u) (by rw [hprofile, hstart, hrecord]; rfl)
    rw [hprofile, htime] at hstate
    refine ⟨?_, hstate, fun hearly => ?_⟩
    · obtain ⟨_, _, _, h⟩ := expired_moved u
      rw [h, hstart]
      rfl
    · obtain ⟨hq, hclose⟩ := expired_early (s := u) (by rw [hprofile, htime]; exact hearly)
      exact ⟨hclose.trans (by rw [hstart]; rfl), withdrewRound_congr hwithdrew (hq.trans htxq)⟩

end Sys2Proof.Machine
end

