-- ==== Sys2Proof/Proofs/Claims.lean ====
section
/-!
The taking of a CLAIM (O31).
-/
namespace Sys2Proof.Machine
open Relation

/-! ## The taking of a CLAIM (R89 to R92) -/

theorem leaveHead_lockout (e : RxEntry) (s : State) : (leaveHead e s).lockout = s.lockout := by
  obtain ⟨peers, hleft⟩ := leaveHead_eq e s
  rw [hleft]

theorem Round.running_iff (r : Round) : r.running = true ↔ r.state ≠ .idle ∧ r.state ≠ .closed := by
  unfold Round.running
  cases r.state <;> simp

theorem staleClaim_iff (s : State) (rs rn input : Byte) : staleClaim s rs rn input = true ↔
    s.lockout.round.state = .idle ∨ s.lockout.round.state = .closed ∨ s.lockout.round.identity ≠ some (rs, rn) ∨
      7 < input.toNat := by
  have hrunning : s.lockout.round.running = false ↔ s.lockout.round.state = .idle ∨ s.lockout.round.state = .closed := by
    rw [Bool.eq_false_iff, ne_eq, Round.running_iff, not_and_or, not_not, not_not]
  simp only [staleClaim, Bool.or_eq_true, Bool.not_eq_true', hrunning, decide_eq_true_eq, or_assoc]

theorem Round.recompute_own {r : Round} (h : r.source = .own) : r.recompute = { r with verdict := verdictOf r.claims } := by
  simp only [Round.recompute, h]

theorem Round.recompute_line {r : Round} (h : r.source = .line) : r.recompute = r := by
  simp only [Round.recompute, h]

theorem Round.recompute_eq (r : Round) : ∃ v, r.recompute = { r with verdict := v } ∧ (r.source = .own → v = verdictOf r.claims) := by
  by_cases h : r.source = .own
  · exact ⟨_, Round.recompute_own h, fun _ => rfl⟩
  · have hline : r.source = .line := by
      cases hs : r.source with
      | own => exact absurd hs h
      | line => rfl
    exact ⟨r.verdict, Round.recompute_line hline, fun hown => absurd hown h⟩

theorem Round.holdsPair_iff (r : Round) (pair : Nat × Nat) :
    r.holdsPair pair = true ↔ ∃ c ∈ r.claims, (c.station, c.input) = pair := by
  simp [Round.holdsPair]

theorem validClaim_iff (s : State) (pair : Nat × Nat) (capture : Nat) : validClaim s pair capture = true ↔
    (roundProfile s).holdoff * 1000 ≤ capture ∧ capture ≤ (roundProfile s).window * 1000 ∧ pair ∈ (roundProfile s).eligible ∧
      pair ∉ s.lockout.round.excluded ∧ ∀ c ∈ s.lockout.round.claims, (c.station, c.input) ≠ pair := by
  have hheld : s.lockout.round.holdsPair pair = false ↔ ∀ c ∈ s.lockout.round.claims, (c.station, c.input) ≠ pair := by
    rw [Bool.eq_false_iff, ne_eq, Round.holdsPair_iff]
    simp
  have hexcluded : s.lockout.round.excluded.contains pair = false ↔ pair ∉ s.lockout.round.excluded := by
    rw [Bool.eq_false_iff, ne_eq, List.contains_iff_mem]
  have heligible : eligible s pair.1 pair.2 = true ↔ pair ∈ (roundProfile s).eligible := List.contains_iff_mem
  simp only [validClaim, Bool.and_eq_true, Bool.not_eq_true', decide_eq_true_eq, hheld, hexcluded, heligible,
    and_assoc]
  exact Iff.rfl

theorem addClaim_valid {s : State} {pair : Nat × Nat} {capture : Nat} (h : validClaim s pair capture = true) :
    addClaim pair capture s = withRound (fun r =>
      Round.recompute { r with claims := r.claims ++ [{ station := pair.1, input := pair.2, capture := capture }] }) s := if_pos h

theorem addClaim_invalid {s : State} {pair : Nat × Nat} {capture : Nat} (h : validClaim s pair capture = false) :
    addClaim pair capture s = s := if_neg (by rw [h]; exact Bool.false_ne_true)

/-- The round of a FALSE_START claim with its pair excluded (R90). -/
def excluding (pair : Nat × Nat) (s : State) : State := withRound (fun r => { r with excluded := r.excluded ++ [pair] }) s

/-- The round with a pair's entry removed and the verdict computed again (R90, R92). -/
def claimsWithout (pair : Nat × Nat) (s : State) : State :=
  withRound (fun r => Round.recompute { r with claims := r.claims.filter fun c => (c.station, c.input) != pair }) s

theorem excluding_eq {s u : State} (h : u.lockout = s.lockout) (pair : Nat × Nat) : excluding pair u =
    { u with lockout := { s.lockout with
      round := { s.lockout.round with excluded := s.lockout.round.excluded ++ [pair] } } } := by
  rw [excluding, withRound, h]

theorem claimsWithout_eq (pair : Nat × Nat) (s : State) :
    claimsWithout pair s = { s with lockout := (claimsWithout pair s).lockout } := rfl

theorem claimsWithout_lastAccepted (pair : Nat × Nat) (s : State) (cue : Nat) :
    lastAccepted (claimsWithout pair s) cue = lastAccepted s cue := rfl

theorem falseStartClaim_again {s : State} {pair : Nat × Nat} (h : pair ∈ s.lockout.round.excluded) (edge : Word) :
    falseStartClaim pair edge s = s := if_pos (List.contains_iff_mem.mpr h)

theorem falseStartClaim_first {s : State} {pair : Nat × Nat} (h : pair ∉ s.lockout.round.excluded) (edge : Word) :
    falseStartClaim pair edge s =
      claimsWithout pair (internalFire (roundProfile s).falseCue edge (excluding pair s)) :=
  if_neg fun hc => h (List.contains_iff_mem.mp hc)

theorem internalFire_some (n : Nat) (edge : Word) (s : State) : internalFire (some n) edge s = dispatched n 128 edge s := by
  rw [internalFire, fireNow_eq]
theorem internalFire_none (edge : Word) (s : State) : internalFire none edge s = s := rfl

theorem internalFire_lockout (cue : Option Nat) (edge : Word) (s : State) :
    (internalFire cue edge s).lockout = s.lockout := by
  cases cue with
  | none => rfl
  | some n => rw [internalFire_some, dispatched_lockout]

theorem leaveHead_roundProfile (e : RxEntry) (s : State) : roundProfile (leaveHead e s) = roundProfile s := by
  rw [roundProfile, roundProfile, profileRecord, profileRecord, leaveHead_lockout, leaveHead_tables]

/-- The round after the first FALSE_START claim of a pair (R90). -/
theorem falseStart_round {s : State} (pair : Nat × Nat) (cue : Option Nat) (edge : Word) :
    ∃ v, (claimsWithout pair (internalFire cue edge (excluding pair s))).lockout =
      { s.lockout with round := { s.lockout.round with
        excluded := s.lockout.round.excluded ++ [pair]
        claims := s.lockout.round.claims.filter fun c => (c.station, c.input) != pair
        verdict := v } } ∧
      (s.lockout.round.source = .own →
        v = verdictOf (s.lockout.round.claims.filter fun c => (c.station, c.input) != pair)) := by
  obtain ⟨v, hv, hown⟩ := Round.recompute_eq { s.lockout.round with
    excluded := s.lockout.round.excluded ++ [pair]
    claims := s.lockout.round.claims.filter fun c => (c.station, c.input) != pair }
  refine ⟨v, ?_, hown⟩
  rw [claimsWithout, withRound]
  dsimp only
  rw [internalFire_lockout, excluding, withRound]
  dsimp only
  rw [hv]

/-- Settles O31. -/
theorem claimJoinsListOrExcludes : Obligations.ClaimJoinsListOrExcludes := by
  intro e rs rn input flags capture s hhead r p pair
  have hlock := leaveHead_lockout e s
  have hprofile := leaveHead_roundProfile e s
  have hstale : staleClaim (leaveHead e s) rs rn input = staleClaim s rs rn input := by rw [staleClaim, staleClaim, hlock]
  refine ⟨takeClaim s, rfl, fun hwhy => ?_, fun hidle hclosed hid hinput => ?_⟩
  · rw [takeClaim_of_head hhead, if_pos (hstale.trans ((staleClaim_iff s rs rn input).mpr hwhy))]
    exact ⟨hlock, leaveHead_keepsAudio e s, leaveHead_panel e s⟩
  · have hfresh : staleClaim (leaveHead e s) rs rn input = false := by
      rw [hstale, Bool.eq_false_iff, ne_eq, staleClaim_iff]
      rintro (h | h | h | h)
      · exact hidle h
      · exact hclosed h
      · exact h hid
      · exact absurd hinput (Nat.not_lt_of_le h)
    rw [takeClaim_of_head hhead, hfresh, if_neg Bool.false_ne_true]
    refine ⟨fun hflag => ?_, fun hflag => ?_⟩
    · have hvalid := validClaim_iff (leaveHead e s) pair capture.toNat
      rw [hprofile, hlock] at hvalid
      rw [if_neg (show ¬ flagSet flags = true by rw [flagSet, hflag]; exact Bool.false_ne_true)]
      refine ⟨fun h1 h2 h3 h4 h5 => ?_, fun hwhy => ?_⟩
      · rw [addClaim_valid (hvalid.mpr ⟨h1, h2, h3, h4, h5⟩)]
        obtain ⟨v, hv, hown⟩ := Round.recompute_eq { s.lockout.round with
          claims := s.lockout.round.claims ++ [{ station := pair.1, input := pair.2, capture := capture.toNat }] }
        rw [withRound]
        dsimp only
        rw [hlock, hv]
        exact ⟨rfl, hown⟩
      · have hinvalid : validClaim (leaveHead e s) pair capture.toNat = false := by
          rw [Bool.eq_false_iff, ne_eq, hvalid]
          rintro ⟨h1, h2, h3, h4, h5⟩
          rcases hwhy with h | h | h | h | ⟨c, hc, heq⟩
          · exact absurd h (Nat.not_lt_of_le h1)
          · exact absurd h (Nat.not_lt_of_le h2)
          · exact h h3
          · exact h4 h
          · exact h5 c hc heq
        rw [addClaim_invalid hinvalid]
        exact hlock
    · rw [if_pos (show flagSet flags = true from hflag)]
      refine ⟨fun hin => ?_, fun hout => ?_⟩
      · rw [falseStartClaim_again (by rw [hlock]; exact hin)]
        exact ⟨hlock, leaveHead_pool e s⟩
      · rw [falseStartClaim_first (by rw [hlock]; exact hout), hprofile]
        obtain ⟨v, hround, hown⟩ := falseStart_round (s := leaveHead e s) pair (roundProfile s).falseCue e.edge
        rw [hlock] at hround hown
        refine ⟨by rw [hround], by rw [hround], fun hs => ?_, fun cue hcue => ⟨fun hk => ?_, leaveHead e s, hasLeft_leaveHead e s, ?_⟩,
          fun hnone => ?_⟩
        · rw [hround]
          exact hown hs
        · have hknown := (knownCue_congr (s := s) (t := excluding pair (leaveHead e s)) (leaveHead_tables e s) cue).trans hk
          rw [show (roundProfile s).falseCue = some cue from hcue, internalFire_some]
          exact (claimsWithout_lastAccepted pair _ cue).trans (dispatched_lastAccepted hknown 128 e.edge)
        · rw [show (roundProfile s).falseCue = some cue from hcue, internalFire_some, excluding_eq hlock]
          exact claimsWithout_eq pair _
        · rw [show (roundProfile s).falseCue = none from hnone, internalFire_none]
          exact ⟨leaveHead_pool e s, leaveHead_lastAccepted e s⟩

end Sys2Proof.Machine
end

