-- ==== Sys2Proof/Proofs/Closes.lean ====
section
/-!
The taking of a CLOSE (O33).
-/
namespace Sys2Proof.Machine
open Relation

/-! ## A fault flag stays set while the voices change -/

theorem raise_keeps {p : PanelPort} {g : FaultFlag} (h : p.faultSet g = true) (f : FaultFlag) :
    (p.raise f).faultSet g = true := by
  unfold PanelPort.raise
  split
  · exact h
  · unfold PanelPort.faultSet at h ⊢
    rw [BitVec.getLsbD_or, h, Bool.true_or]

theorem suspendVoice_panel (i : Fin 16) (s : State) :
    (suspendVoice i s).panel = s.panel ∨ (suspendVoice i s).panel = s.panel.raise .stackDrop := by
  rw [suspendVoice, vacate_panel, pushStack_panel]
  split
  · exact .inl rfl
  · exact .inr rfl

theorem PoolEffect.faultSet {s t : State} {g : FaultFlag} (h : PoolEffect s t) (hg : s.panel.faultSet g = true) :
    t.panel.faultSet g = true := by
  cases h with
  | alter vs _ _ => exact hg
  | cancel i => exact hg
  | ask r _ => exact hg
  | grant =>
    rw [(grant_turn 0 s).frame]
    exact hg
  | endRead => exact hg
  | vacate i _ =>
    rw [vacate_panel]
    exact hg
  | offer i _ =>
    rw [(offerSlot_turn i s).frame]
    exact hg
  | start i cue trim order _ _ _ =>
    rw [startVoice_eq, (beginVoice_turn i _ s).frame]
    exact hg
  | suspend i _ =>
    rcases suspendVoice_panel i s with h | h
    · rw [h]
      exact hg
    · rw [h]
      exact raise_keeps hg _
  | purge test => exact hg
  | fault f => exact raise_keeps hg f
  | record cue w => exact hg

theorem PoolEffects.faultSet {s t : State} {g : FaultFlag} (h : PoolEffects s t) (hg : s.panel.faultSet g = true) :
    t.panel.faultSet g = true := by
  induction h with
  | refl => exact hg
  | tail _ hstep ih => exact hstep.faultSet ih

theorem dispatched_faultSet {cue : Nat} {trim : Byte} {edge : Word} {s : State} {g : FaultFlag}
    (hl : s.member.state ≠ .loading) (hg : s.panel.faultSet g = true) :
    (dispatched cue trim edge s).panel.faultSet g = true := by
  have hfired := PoolEffects.faultSet (dispatchFire_effects cue trim edge s.dispatch.fireOrder hl) hg
  have hsettled := fetchSettle_poolFetch (dispatchFire cue trim edge s.dispatch.fireOrder s).1
  rw [dispatched]
  generalize fetchSettle (dispatchFire cue trim edge s.dispatch.fireOrder s).1 = u at hsettled
  rw [hsettled]
  exact hfired

/-! ## The taking of a CLOSE (R93 to R95) -/

/-- The round that a CLOSE decides (R93). -/
def closedRound (w : Option Claim) (r : Round) : Round :=
  { r with verdict := w, source := .line, differed := decide (w ≠ r.verdict), state := .closed }

/-- The state in which the cue of the verdict is dispatched (R20, R93). -/
def decided (w : Option Claim) (s : State) : State :=
  { s with
    lockout := { s.lockout with round := closedRound w s.lockout.round }
    panel := if w = s.lockout.round.verdict then s.panel else s.panel.raise .verdictDiffers }

theorem adoptClose_eq (id : Byte × Byte) (w : Option Claim) (edge : Word) (s : State) : adoptClose id w edge s =
    reportVerdictOf id w (decide (w ≠ s.lockout.round.verdict))
      (withdrawRound (internalFire (verdictCue s w) edge (decided w s))) := by
  have hdecided : withRound (fun r => { r with
      verdict := w, source := .line, differed := decide (w ≠ s.lockout.round.verdict), state := .closed })
      (if decide (w ≠ s.lockout.round.verdict) then setFault .verdictDiffers s else s) = decided w s := by
    unfold decided closedRound
    by_cases h : w = s.lockout.round.verdict
    · rw [if_neg (by simp [h]), if_pos h]
      rfl
    · rw [if_pos (decide_eq_true h), if_neg h]
      rfl
  unfold adoptClose
  dsimp only
  rw [hdecided]

/-- What the cue of a verdict leaves besides the voices. -/
theorem internalFire_outside (cue : Option Nat) (edge : Word) (s : State) : ∃ last faults pend,
    internalFire cue edge s = { s with
      dispatch := { s.dispatch with lastAccepted := last }
      pool := (internalFire cue edge s).pool, fetch := (internalFire cue edge s).fetch
      panel := { s.panel with faults := faults, faultPending := pend } } := by
  cases cue with
  | none => exact ⟨s.dispatch.lastAccepted, s.panel.faults, s.panel.faultPending, rfl⟩
  | some n =>
    rw [internalFire_some]
    exact dispatched_outside n 128 edge s

theorem internalFire_faultSet {cue : Option Nat} {edge : Word} {s : State} {g : FaultFlag} (hl : s.member.state ≠ .loading)
    (hg : s.panel.faultSet g = true) : (internalFire cue edge s).panel.faultSet g = true := by
  cases cue with
  | none => exact hg
  | some n =>
    rw [internalFire_some]
    exact dispatched_faultSet hl hg

/-- The withdrawal of R95 seen from a state with the same queue, attempt and held frames. -/
theorem withdrewRound_from {s u t : State} (htxq : u.txq = s.txq) (hatt : attempted u = attempted s)
    (hholds : ∀ q, holds u q = holds s q) (h : withdrewRound u t) : withdrewRound s t := by
  unfold withdrewRound at h ⊢
  simp only [leftByWithdrawal_eq, ownRoundFrames, hatt, htxq, hholds] at h ⊢
  exact h

/-- The verdict's cue in the words of R20. -/
theorem verdictCue_eq (s : State) (w : Option Claim) : verdictCue s w = (match w with
    | some c => if c.station < 32 ∧ c.input < 8 then s.tables.inputMap.getD (c.station * 8 + c.input) none else none
    | none => (profileRecord s s.lockout.round.profile).noClaimCue) := by
  cases w <;> rfl

theorem takeClose_stale {s : State} {e : RxEntry} {rs rn ws wi : Byte} {capture : Triple}
    (h : standsAtHead s e (.close rs rn ws wi capture))
    (hwhy : s.lockout.round.state = .idle ∨ s.lockout.round.state = .closed ∨ s.lockout.round.identity ≠ some (rs, rn)) :
    takeClose s = leaveHead e s := by
  rw [takeClose_of_head h, leaveHead_lockout]
  refine if_neg fun hyes => ?_
  rw [Bool.and_eq_true, Round.running_iff, decide_eq_true_eq] at hyes
  obtain ⟨⟨h1, h2⟩, h3⟩ := hyes
  rcases hwhy with h | h | h
  · exact h1 h
  · exact h2 h
  · exact h h3

theorem takeClose_decides {s : State} {e : RxEntry} {rs rn ws wi : Byte} {capture : Triple}
    (h : standsAtHead s e (.close rs rn ws wi capture)) (h1 : s.lockout.round.state ≠ .idle)
    (h2 : s.lockout.round.state ≠ .closed) (h3 : s.lockout.round.identity = some (rs, rn)) :
    takeClose s = adoptClose (rs, rn) (frameWinner ws wi capture) e.edge (leaveHead e s) := by
  rw [takeClose_of_head h, leaveHead_lockout]
  refine if_pos ?_
  rw [Bool.and_eq_true, Round.running_iff, decide_eq_true_eq]
  exact ⟨⟨h1, h2⟩, h3⟩

/-- The adoption of a CLOSE, block by block. -/
theorem adoptClose_spec (id : Byte × Byte) (w : Option Claim) (edge : Word) (s : State) :
    (∃ claims, (∀ i : Fin 8, claims[i] = OwnClaim.absent) ∧ (adoptClose id w edge s).lockout =
      { s.lockout with round := { closedRound w s.lockout.round with ownClaim := claims, ownClose := .absent } }) ∧
    withdrewRound s (adoptClose id w edge s) ∧
    (∃ faults pend, (adoptClose id w edge s).panel = { s.panel with
      verdictPending := true, faults := faults, faultPending := pend
      lastVerdict :=
        some { station := id.1, number := id.2, verdict := w, differed := decide (w ≠ s.lockout.round.verdict) } }) ∧
    (adoptClose id w edge s).pool = (internalFire (verdictCue s w) edge (decided w s)).pool ∧
    (adoptClose id w edge s).fetch = (internalFire (verdictCue s w) edge (decided w s)).fetch ∧
    (adoptClose id w edge s).dispatch = (internalFire (verdictCue s w) edge (decided w s)).dispatch := by
  obtain ⟨last, faults, pend, hfired⟩ := internalFire_outside (verdictCue s w) edge (decided w s)
  obtain ⟨-, hclaims, hclose, hwithdrew⟩ := withdrawRound_spec (internalFire (verdictCue s w) edge (decided w s))
  obtain ⟨txq, held, claims, close, records, free, hframe⟩ :=
    withdrawRound_frame (internalFire (verdictCue s w) edge (decided w s))
  rw [adoptClose_eq]
  have htxq : (internalFire (verdictCue s w) edge (decided w s)).txq = s.txq := by rw [hfired]; rfl
  have hatt : attempted (internalFire (verdictCue s w) edge (decided w s)) = attempted s := by rw [hfired]; rfl
  have hholds : ∀ q, holds (internalFire (verdictCue s w) edge (decided w s)) q = holds s q := fun q => by
    rw [hfired]
    cases q <;> rfl
  have hdone := withdrewRound_from htxq hatt hholds hwithdrew
  generalize internalFire (verdictCue s w) edge (decided w s) = x at *
  generalize withdrawRound x = y at *
  refine ⟨⟨claims, fun i => ?_, ?_⟩, withdrewRound_congr hdone rfl, ⟨faults, pend, ?_⟩, ?_, ?_, ?_⟩
  · rw [hframe] at hclaims
    exact hclaims i
  · rw [hframe] at hclose
    have hclose' : close = .absent := hclose
    show y.lockout = _
    rw [hframe, hfired, hclose']
    rfl
  · have hy : y.panel = { (decided w s).panel with faults := faults, faultPending := pend } := by rw [hframe, hfired]
    rw [reportVerdictOf]
    dsimp only
    rw [hy, decided]
    dsimp only
    split
    · rfl
    · unfold PanelPort.raise
      split <;> rfl
  · show y.pool = _
    rw [hframe]
  · show y.fetch = _
    rw [hframe]
  · show y.dispatch = _
    rw [hframe]

/-- The fault of a verdict that is not the station's own stays set. -/
theorem adoptClose_faultSet {id : Byte × Byte} {w : Option Claim} {edge : Word} {s : State}
    (hl : s.member.state ≠ .loading) (h : w ≠ s.lockout.round.verdict) :
    (adoptClose id w edge s).panel.faultSet .verdictDiffers = true := by
  have hdecided : (decided w s).panel.faultSet .verdictDiffers = true := by
    rw [decided, if_neg h]
    exact (raise_spec _ _).1
  have hfired := internalFire_faultSet (cue := verdictCue s w) (edge := edge) (s := decided w s) hl hdecided
  obtain ⟨_, _, _, _, _, _, hframe⟩ := withdrawRound_frame (internalFire (verdictCue s w) edge (decided w s))
  rw [adoptClose_eq]
  generalize internalFire (verdictCue s w) edge (decided w s) = x at *
  generalize withdrawRound x = y at *
  show y.panel.faultSet .verdictDiffers = true
  rw [hframe]
  exact hfired

theorem leaveHead_memberState (e : RxEntry) (s : State) : (leaveHead e s).member.state = s.member.state := by
  obtain ⟨peers, hleft⟩ := leaveHead_eq e s
  rw [hleft]

/-- The state of the verdict's dispatch, in the words of the state before the taking. -/
theorem decided_leaveHead (w : Option Claim) (e : RxEntry) (s : State) : decided w (leaveHead e s) = { leaveHead e s with
    lockout := { s.lockout with round := closedRound w s.lockout.round }
    panel := if w = s.lockout.round.verdict then s.panel else s.panel.raise .verdictDiffers } := by
  rw [decided, leaveHead_lockout, leaveHead_panel]

/-- Settles O33: the verdict is adopted, its cue dispatched, and the round's own frames withdrawn. -/
theorem closeDecidesRound : Obligations.CloseDecidesRound := by
  intro e rs rn ws wi capture s hhead r w
  refine ⟨takeClose s, rfl, fun hwhy => ?_, fun h1 h2 h3 => ?_⟩
  · rw [takeClose_stale hhead hwhy]
    exact ⟨leaveHead_lockout e s, leaveHead_keepsAudio e s, leaveHead_panel e s, leaveHead_txq e s⟩
  · have hl : (leaveHead e s).member.state ≠ .loading := by
      obtain ⟨-, -, -, -, -, hstate⟩ := hhead
      rw [leaveHead_memberState]
      rcases hstate with h | h <;> rw [h] <;> decide
    obtain ⟨⟨claims, hclaims, hlockout⟩, hwithdrew, ⟨faults, pend, hpanel⟩, hpool, hfetch, hdispatch⟩ :=
      adoptClose_spec (rs, rn) w e.edge (leaveHead e s)
    have hfault := adoptClose_faultSet (id := (rs, rn)) (w := w) (edge := e.edge) hl
    have hcue : verdictCue (leaveHead e s) w = verdictCue s w := by
      rw [verdictCue_eq, verdictCue_eq, leaveHead_tables, leaveHead_lockout, profileRecord, profileRecord, leaveHead_tables]
    rw [takeClose_decides hhead h1 h2 h3, show frameWinner ws wi capture = w from rfl]
    rw [leaveHead_lockout] at hlockout hfault hpanel
    rw [leaveHead_panel] at hpanel
    rw [hcue] at hpool hfetch hdispatch
    generalize adoptClose (rs, rn) w e.edge (leaveHead e s) = t at *
    refine ⟨?_, ?_, ?_, ?_, ?_, ?_, ?_, fun i => ?_, ?_, ?_, ?_, hfault, ?_, fun hnone => ?_, fun cue hsome => ?_⟩
    · rw [hlockout]; rfl
    · rw [hlockout]; rfl
    · rw [hlockout]; rfl
    · rw [hlockout]; rfl
    · rw [hlockout]; rfl
    · rw [hlockout]; rfl
    · rw [hlockout]
    · rw [hlockout]
      exact hclaims i
    · exact withdrewRound_leaveHead hwithdrew
    · rw [hpanel]
    · rw [hpanel]
    · rw [hpanel]
    · have hno : verdictCue s w = none := (verdictCue_eq s w).trans hnone
      rw [hno, internalFire_none] at hpool hfetch hdispatch
      refine ⟨hpool.trans (leaveHead_pool e s), hfetch.trans (leaveHead_fetch e s), ?_⟩
      rw [hdispatch]
      exact leaveHead_lastAccepted e s
    · have hyes : verdictCue s w = some cue := (verdictCue_eq s w).trans hsome
      rw [hyes, internalFire_some] at hpool hfetch hdispatch
      refine ⟨fun hk => ?_, leaveHead e s, hasLeft_leaveHead e s, ?_⟩
      · have hknown : knownCue (decided w (leaveHead e s)) cue = true :=
          (knownCue_congr (s := s) (t := decided w (leaveHead e s)) (leaveHead_tables e s) cue).trans hk
        rw [lastAccepted, hdispatch]
        exact dispatched_lastAccepted hknown 128 e.edge
      · rw [decided_leaveHead] at hpool hfetch hdispatch
        exact ⟨hpool, hfetch, hdispatch⟩

end Sys2Proof.Machine
end

