-- ==== Sys2Proof/Proofs/Joins.lean ====
section
/-!
The taking of a JOIN and the entry into DUPLICATE (O34).
-/
namespace Sys2Proof.Machine
open Relation

/-! ## A JOIN at the head (R146, R158) -/

/-- The header of a frame names the kind of its fields. -/
theorem kindOf_of_parse {frame : List Byte} {f : LineFrame} (h : parseFrame frame = some f) : kindOf frame = some f.kind := by
  unfold parseFrame at h
  split at h
  all_goals repeat' split at h
  all_goals cases h
  all_goals
    subst_vars
    rfl

/-- A JOIN of a station at a receiver that runs is its owner's to take. -/
theorem takable_join {s : State} {e : RxEntry} {flags : Byte} {identity signature : Word}
    (hhead : s.rxq.entries.head? = some e) (hparse : parseFrame e.frame = some (.join flags identity signature))
    (hready : s.rxq.headSince + 480 ≤ s.now) (hsender : (senderOf e.frame).toNat < 32)
    (hstate : s.member.state = .joining ∨ s.member.state = .active ∨ s.member.state = .listening) :
    takable s = some (e, .join flags identity signature) := by
  have hkind : kindOf e.frame = some .join := kindOf_of_parse hparse
  have hremoved : removedEntry s e = false := by
    rw [Bool.eq_false_iff, ne_eq, removedEntry_iff]
    rintro (⟨-, h⟩ | ⟨h, -⟩ | h)
    · exact h hkind
    · exact h hkind
    · omega
  have hready' : headReady s = true := decide_eq_true hready
  have hreceiving : receiving s = true := by
    rcases hstate with h | h | h <;> simp [receiving, h]
  have hjoin : (LineFrame.join flags identity signature).kind = .join := rfl
  simp [takable, rxHead, hhead, hparse, hready', hremoved, hreceiving, hjoin]

/-! ## The JOIN that a station owes (R159) -/

theorem oweReply_eq (s : State) : ∃ txq held, oweReply s = { s with txq := txq, member := { s.member with heldJoin := held } } := by
  unfold oweReply offerJoin
  split
  · split
    · exact ⟨_, _, rfl⟩
    · exact ⟨_, _, rfl⟩
  · exact ⟨s.txq, s.member.heldJoin, rfl⟩

theorem oweReply_none {s : State} (h : s.member.state ≠ .active ∨ s.member.heldJoin ≠ none ∨ txHoldsJoin s = true) :
    oweReply s = s := by
  refine if_neg fun ⟨h1, h2, h3⟩ => ?_
  rcases h with h | h | h
  · exact h h1
  · exact h h2
  · exact Bool.false_ne_true (h3.symm.trans h)

theorem oweReply_placed {s : State} (h1 : s.member.state = .active) (h2 : s.member.heldJoin = none) (h3 : txHoldsJoin s = false)
    (hroom : s.txq.entries.length < 4) : oweReply s = { placeFrame .membership (joinFrame s true) s with
      member := { s.member with heldJoin := none } } := by
  rw [oweReply, if_pos ⟨h1, h2, h3⟩, offerJoin, if_pos (show txRoom s = true from decide_eq_true hroom)]
  rfl

theorem oweReply_held {s : State} (h1 : s.member.state = .active) (h2 : s.member.heldJoin = none) (h3 : txHoldsJoin s = false)
    (hfull : 4 ≤ s.txq.entries.length) : oweReply s = { s with member := { s.member with heldJoin := some true } } := by
  rw [oweReply, if_pos ⟨h1, h2, h3⟩, offerJoin,
    if_neg (show ¬ txRoom s = true from fun h => Nat.not_lt_of_le hfull (of_decide_eq_true h))]

/-- A station that owes a JOIN of REPLY 1 places it, holds it, or lets a waiting one stand (R159). -/
def owesReply (s t : State) : Prop :=
  (s.member.heldJoin = none → txHoldsJoin s = false →
    (s.txq.entries.length < 4 → t.member.heldJoin = none ∧
      t.txq.entries.map TxEntry.frame = s.txq.entries.map TxEntry.frame ++
        [encodeFrame (ownNumber s) (.join 1 s.member.identity s.member.signature)]) ∧
    (4 ≤ s.txq.entries.length → t.member.heldJoin = some true ∧ t.txq = s.txq)) ∧
  (s.member.heldJoin ≠ none ∨ txHoldsJoin s = true → t.member.heldJoin = s.member.heldJoin ∧ t.txq = s.txq)

/-- What the offers of a JOIN see of the state before the taking. -/
structure JoinView (s u : State) : Prop where
  state : u.member.state = s.member.state
  held : u.member.heldJoin = s.member.heldJoin
  txq : u.txq = s.txq
  identity : u.member.identity = s.member.identity
  signature : u.member.signature = s.member.signature
  straps : u.straps = s.straps

theorem oweReply_owes {s u : State} (h : JoinView s u) (hactive : s.member.state = .active) : owesReply s (oweReply u) := by
  have hactive' := h.state.trans hactive
  have hjoin : txHoldsJoin u = txHoldsJoin s := by rw [txHoldsJoin, txHoldsJoin, h.txq]
  refine ⟨fun h2 h3 => ⟨fun hroom => ?_, fun hfull => ?_⟩, fun hwaits => ?_⟩
  · rw [oweReply_placed hactive' (h.held.trans h2) (hjoin.trans h3) (by rw [h.txq]; exact hroom)]
    refine ⟨rfl, ?_⟩
    have hown : ownNumber u = ownNumber s := by rw [ownNumber, ownNumber, h.straps]
    have hjoined : joinFrame u true = .join 1 s.member.identity s.member.signature := by
      rw [joinFrame, h.identity, h.signature]
      rfl
    exact (placeFrame_frames .membership (joinFrame u true) u).trans (by rw [h.txq, hown, hjoined])
  · rw [oweReply_held hactive' (h.held.trans h2) (hjoin.trans h3) (by rw [h.txq]; exact hfull)]
    exact ⟨rfl, h.txq⟩
  · rw [oweReply_none (.inr (by rw [h.held, hjoin]; exact hwaits))]
    exact ⟨h.held, h.txq⟩

theorem leaveHead_joinView (e : RxEntry) (s : State) : JoinView s (leaveHead e s) := by
  obtain ⟨peers, hleft⟩ := leaveHead_eq e s
  rw [hleft]
  exact ⟨rfl, rfl, rfl, rfl, rfl, rfl⟩

theorem recordPeer_eq (sender : Byte) (identity signature : Word) (s : State) :
    ∃ peers, recordPeer sender identity signature s = { s with member := { s.member with peers := peers } } :=
  ⟨_, updatePeer_eq _ _ _⟩

theorem JoinView.record {s u : State} (h : JoinView s u) (sender : Byte) (identity signature : Word) :
    JoinView s (recordPeer sender identity signature u) := by
  obtain ⟨peers, hrec⟩ := recordPeer_eq sender identity signature u
  rw [hrec]
  exact ⟨h.state, h.held, h.txq, h.identity, h.signature, h.straps⟩

theorem peerOf_of_lt {n : Byte} (h : n.toNat < 32) (s : State) : peerOf s n = some s.member.peers[(⟨n.toNat, h⟩ : Fin 32)] :=
  dif_pos h

/-- The sender's entry of the peer table after its JOIN (R158). -/
theorem peerOf_recorded {e : RxEntry} (h : (senderOf e.frame).toNat < 32) (identity signature : Word) (s : State) :
    peerOf (recordPeer (senderOf e.frame) identity signature (leaveHead e s)) (senderOf e.frame) = some
      { state := if signature = s.member.signature then .present else .foreign
        identity := identity, signature := signature, lastHeard := some e.edge } := by
  have hheard := (hasLeft_leaveHead e s).2 ⟨(senderOf e.frame).toNat, h⟩
  rw [if_pos rfl] at hheard
  rw [peerOf_of_lt h, recordPeer, updatePeer_peers, if_pos rfl, (leaveHead_joinView e s).signature, hheard]

theorem peerOf_oweReply (s : State) (n : Byte) : peerOf (oweReply s) n = peerOf s n := by
  obtain ⟨txq, held, h⟩ := oweReply_eq s
  rw [h]
  rfl

/-! ## The entry into DUPLICATE (R161) -/

/-- One slot's turn in the cut of every voice. -/
def cutSlot (t : State) (i : Fin 16) : State := if (voiceOf t i).state = .idle then t else vacate i t

theorem cutSlot_turn (t : State) (i : Fin 16) : SlotTurn i t (cutSlot t i) := by
  unfold cutSlot
  split
  · exact SlotTurn.refl i t
  · exact vacate_turn i t

theorem cutSlot_idle (t : State) (i : Fin 16) : (voiceOf (cutSlot t i) i).state = .idle := by
  unfold cutSlot
  split
  · assumption
  · rw [voiceOf_vacate_same]
    rfl

theorem cutVoices_eq (s : State) :
    cutVoices s = slots.foldl cutSlot (withStack [] s) := rfl

/-- Once every voice is cut, every slot is IDLE and the suspend stack is empty. -/
theorem cutVoices_silent (s : State) : (∀ i : Fin 16, (voiceOf (cutVoices s) i).state = .idle) ∧ (cutVoices s).pool.stack = [] := by
  rw [cutVoices_eq]
  refine ⟨fun i => ?_, ?_⟩
  · obtain ⟨u, -, -, -, hafter⟩ := slots_turn cutSlot_turn (withStack [] s) i
    exact hafter.1.state.trans (cutSlot_idle u i)
  · exact List.suffix_nil.mp (foldl_turns cutSlot_turn slots (withStack [] s)).2.1

theorem cutVoices_outside (s : State) : ∃ faults pend, cutVoices s = { s with
    pool := (cutVoices s).pool, fetch := (cutVoices s).fetch
    panel := { s.panel with faults := faults, faultPending := pend } } := by
  obtain ⟨pool, fetch, faults, pend, h⟩ := cutVoices_frame s
  refine ⟨faults, pend, ?_⟩
  rw [h]

/-- What a station that enters DUPLICATE is: silent on the line, with empty queues, no voice, no own copy and no round. -/
theorem enterDuplicate_spec (s : State) :
    (enterDuplicate s).member.state = .duplicate ∧ (enterDuplicate s).panel.faultSet .duplicateStation = true ∧
      (enterDuplicate s).line.rx = .off ∧ (enterDuplicate s).line.driver = .released ∧
      (enterDuplicate s).line.attempt = none ∧ (enterDuplicate s).rxq.entries = [] ∧ (enterDuplicate s).txq.entries = [] ∧
      (enterDuplicate s).member.heldJoin = none ∧ (enterDuplicate s).pool.stack = [] ∧
      (∀ i : Fin 16, (voiceOf (enterDuplicate s) i).state = .idle) ∧
      (enterDuplicate s).lockout.round = Round.reset ∧
      ∀ c : Fin 4, clockOf (enterDuplicate s) c = (clockOf s c).silence := by
  obtain ⟨hidle, hstack⟩ := cutVoices_silent (leaveLine (setFault .duplicateStation s))
  have hfault : (leaveLine (setFault .duplicateStation s)).panel.faultSet .duplicateStation = true := (raise_spec _ _).1
  have hstill := PoolEffects.faultSet (cutVoices_effects (leaveLine (setFault .duplicateStation s))) hfault
  obtain ⟨faults, pend, hcut⟩ := cutVoices_outside (leaveLine (setFault .duplicateStation s))
  have hline : (cutVoices (leaveLine (setFault .duplicateStation s))).line =
      { LineInterface.reset with breakEdge := s.line.breakEdge } := by rw [hcut]; rfl
  have hrxq : (cutVoices (leaveLine (setFault .duplicateStation s))).rxq.entries = [] := by rw [hcut]; rfl
  have htxq : (cutVoices (leaveLine (setFault .duplicateStation s))).txq.entries = [] := by rw [hcut]; rfl
  have hclocks : (cutVoices (leaveLine (setFault .duplicateStation s))).clocks = s.clocks := by rw [hcut]; rfl
  rw [enterDuplicate_eq]
  generalize cutVoices (leaveLine (setFault .duplicateStation s)) = t at *
  refine ⟨rfl, hstill, congrArg LineInterface.rx hline, congrArg LineInterface.driver hline,
    congrArg LineInterface.attempt hline, hrxq, htxq, rfl, hstack, hidle, rfl, fun c => ?_⟩
  rw [clockOf, clockOf, dismissed, ← hclocks]
  simp [mapVec]

theorem silence_spec (r : ClockRecord) : r.silence.state = (if r.state = .running then .stopped else r.state) ∧
    r.silence.phase = none ∧ r.silence.value = r.value ∧ r.silence.epoch = r.epoch ∧ r.silence.fired = r.fired ∧
    ∀ p : Fin 4, r.silence.copies[p] = .absent := by
  refine ⟨rfl, rfl, rfl, rfl, rfl, fun p => ?_⟩
  simp [ClockRecord.silence]

/-! ## The taking of a JOIN (R158 to R161) -/

theorem oweReply_lockout (s : State) : (oweReply s).lockout = s.lockout := by
  obtain ⟨txq, held, h⟩ := oweReply_eq s
  rw [h]

/-- What the effect of a JOIN that brings no entry into DUPLICATE leaves as it was before the taking. -/
def joinKept (s t : State) : Prop :=
  t.member.state = s.member.state ∧ t.lockout = s.lockout ∧ t.clocks = s.clocks ∧ keepsAudio s t ∧ t.panel = s.panel

theorem leaveHead_joinKept (e : RxEntry) (s : State) : joinKept s (leaveHead e s) := by
  obtain ⟨peers, hleft⟩ := leaveHead_eq e s
  rw [hleft]
  exact ⟨rfl, rfl, rfl, ⟨rfl, rfl, rfl, rfl⟩, rfl⟩

theorem joinKept.record {s u : State} (h : joinKept s u) (sender : Byte) (identity signature : Word) :
    joinKept s (recordPeer sender identity signature u) := by
  obtain ⟨peers, hrec⟩ := recordPeer_eq sender identity signature u
  rw [hrec]
  exact h

theorem joinKept.owe {s u : State} (h : joinKept s u) : joinKept s (oweReply u) := by
  obtain ⟨txq, held, howe⟩ := oweReply_eq u
  rw [howe]
  exact h

theorem ownNumberJoin_duplicate {s : State} {reply : Bool}
    (h : s.member.state = .joining ∨ (s.member.state = .active ∧ reply = true)) : ownNumberJoin reply s = enterDuplicate s := by
  rcases h with h | ⟨h, rfl⟩
  · simp only [ownNumberJoin, h]
  · simp only [ownNumberJoin, h, if_true]

theorem ownNumberJoin_owes {s : State} (h : s.member.state = .active) : ownNumberJoin false s = oweReply s := by
  simp only [ownNumberJoin, h, Bool.false_eq_true, if_false]

theorem ownNumberJoin_listening {s : State} (h : s.member.state = .listening) (reply : Bool) : ownNumberJoin reply s = s := by
  simp only [ownNumberJoin, h]

/-- Settles O34. -/
theorem joinRecordsPeerOrDuplicate : Obligations.JoinRecordsPeerOrDuplicate := by
  intro e flags identity signature s hhead hparse hready hsender hstate
  have htake := takeJoin_of_takable (takable_join hhead hparse hready hsender hstate)
  have hview := leaveHead_joinView e s
  have hkept := leaveHead_joinKept e s
  have hclock := clockOf_leaveHead e s
  have hpeer := peerOf_recorded hsender identity signature s
  have hrecview := hview.record (senderOf e.frame) identity signature
  have hreckept := hkept.record (senderOf e.frame) identity signature
  refine ⟨takeJoin s, rfl, ?_⟩
  rw [htake]
  generalize recordPeer (senderOf e.frame) identity signature (leaveHead e s) = v at *
  generalize leaveHead e s = u at *
  refine ⟨fun hother => ?_, fun hown hsame => ?_, fun hown hdiffer => ⟨fun hlistening => ?_, fun hactive hflag => ?_, fun hdup => ?_⟩⟩
  · rw [if_neg hother]
    have hkeeps : ∀ w, (w = v ∨ w = oweReply v) → peerOf w (senderOf e.frame) = peerOf v (senderOf e.frame) ∧ joinKept s w := by
      rintro w (rfl | rfl)
      · exact ⟨rfl, hreckept⟩
      · exact ⟨peerOf_oweReply _ _, hreckept.owe⟩
    obtain ⟨hpeers, h1, h2, h3, h4, h5⟩ := hkeeps _ (ite_eq_or_eq (flagSet flags = true) v (oweReply v))
    refine ⟨hpeers.trans hpeer, h1, h2, h3, h4, h5, fun hactive hflag => ?_, fun hnone => ?_⟩
    · have hnoreply : flagSet flags = false := hflag
      rw [hnoreply, if_neg Bool.false_ne_true]
      exact oweReply_owes hrecview hactive
    · have hsame : (if flagSet flags = true then v else oweReply v) = v := by
        by_cases hflag : flagSet flags = true
        · exact if_pos hflag
        · rw [if_neg hflag]
          exact oweReply_none (.inl fun h => hnone.elim (absurd (hrecview.state.symm.trans h)) hflag)
      rw [hsame]
      exact ⟨hrecview.held, hrecview.txq⟩
  · rw [if_pos hown, if_pos hsame]
    obtain ⟨h1, h2, -⟩ := hkept
    exact ⟨h1, hview.txq, h2⟩
  · rw [if_pos hown, if_neg hdiffer, ownNumberJoin_listening (hview.state.trans hlistening)]
    exact ⟨hview.state.trans hlistening, hview.txq⟩
  · have hnoreply : flagSet flags = false := hflag
    rw [if_pos hown, if_neg hdiffer, hnoreply, ownNumberJoin_owes (hview.state.trans hactive)]
    obtain ⟨h1, h2, h3, h4, h5⟩ := hkept.owe
    exact ⟨h1.trans hactive, h2, h3, h4, h5, oweReply_owes hview hactive⟩
  · rw [if_pos hown, if_neg hdiffer, ownNumberJoin_duplicate (reply := flagSet flags) (hdup.imp hview.state.trans fun ⟨h, hf⟩ => ⟨hview.state.trans h, hf⟩)]
    obtain ⟨h1, h2, h3, h4, h5, h6, h7, h8, h9, h10, h11, h12⟩ := enterDuplicate_spec u
    refine ⟨h1, h2, h3, h4, h5, h6, h7, h8, h9, h10, h11, fun c => ?_⟩
    rw [h12 c, hclock c]
    exact silence_spec _

end Sys2Proof.Machine
end

