-- ==== Sys2Proof/Proofs/Presses.lean ====
section
/-!
The debounce of the buzzer inputs (O39) and the classes of a press (O40).
-/
namespace Sys2Proof.Machine
open Relation

/-! ## The buzzer inputs (R77, R78) -/

theorem receiving_of_state {s : State} (h : s.member.state = .joining ∨ s.member.state = .active ∨ s.member.state = .listening) :
    receiving s = true := by
  rcases h with h | h | h <;> simp [receiving, h]

theorem samplesInputs_due {s : State} (hstate : s.member.state = .joining ∨ s.member.state = .active ∨ s.member.state = .listening)
    (hdue : s.lockout.sampleDue ≤ s.now) : samplesInputs s = true := by
  rw [samplesInputs, receiving_of_state hstate, Bool.true_and]
  exact decide_eq_true hdue

theorem presses_iff {active : Bool} {d : Debounce} :
    d.presses active = true ↔ d.level = some false ∧ active = true ∧ d.run = 2 := by
  simp [Debounce.presses, and_assoc]

theorem pressedInputs_empty {s : State}
    (h : ∀ i : Fin 8, ¬ (s.lockout.debounce[i].level = some false ∧ s.lockout.debounce[i].run = 2)) (levels : Byte) :
    pressedInputs s levels = [] :=
  List.filter_eq_nil_iff.mpr fun i _ hpress => by
    obtain ⟨hlevel, -, hrun⟩ := presses_iff.mp hpress
    exact h i ⟨hlevel, hrun⟩

theorem debounceSample_debounce (levels : Byte) (s : State) (i : Fin 8) :
    (debounceSample levels s).lockout.debounce[i] = (s.lockout.debounce[i]).sample (sampleActive s levels i) s.stationClock := by
  simp [debounceSample]

theorem sample_same {d : Debounce} {l : Bool} (h : d.level = some l) (clk : Word) :
    d.sample l clk = { d with run := 0, last := some l } := by
  simp only [Debounce.sample, h, if_true]

theorem sample_first {d : Debounce} {l : Bool} (h : d.level = some l) (hrun : d.run = 0) (clk : Word) :
    d.sample (!l) clk = { d with run := 1, runStart := clk, last := some (!l) } := by
  have hne : (!l) ≠ l := by cases l <;> decide
  simp [Debounce.sample, h, hne, hrun]

theorem sample_second {d : Debounce} {l : Bool} (h : d.level = some l) (hrun : d.run = 1) (clk : Word) :
    d.sample (!l) clk = { d with run := 2, last := some (!l) } := by
  have hne : (!l) ≠ l := by cases l <;> decide
  simp [Debounce.sample, h, hne, hrun]

/-- The third differing sample changes the level; the capture is that of the first. -/
theorem sample_changes {d : Debounce} {l : Bool} (h : d.level = some l) (hrun : d.run = 2) (clk : Word) :
    d.sample (!l) clk = { level := some (!l), run := 0, runStart := d.runStart, last := some (!l) } := by
  have hne : (!l) ≠ l := by cases l <;> decide
  simp [Debounce.sample, h, hne, hrun]

/-- Settles O39. -/
theorem buzzersAreDebounced : Obligations.BuzzersAreDebounced := by
  refine ⟨fun levels s hstate hdue hnone => ?_, fun d l x y z hlevel hrun => ?_, fun l x y z => ?_⟩
  · have hsample : buzzerSample levels s = debounceSample levels s := by
      rw [buzzerSample, if_pos (samplesInputs_due hstate hdue), pressedInputs_empty hnone]
      rfl
    refine ⟨buzzerSample levels s, rfl, ?_⟩
    rw [hsample]
    exact ⟨rfl, rfl, rfl, debounceSample_debounce levels s⟩
  · rw [sample_first hlevel hrun, sample_second (by exact hlevel) rfl, sample_changes (by exact hlevel) rfl]
    exact ⟨hlevel, rfl, rfl, rfl⟩
  · cases l <;> simp [Debounce.sample, Debounce.reset]

/-! ## The classes of a press (R86, R88) -/

theorem offerClaim_held {s : State} (h : 4 ≤ s.txq.entries.length) (i : Fin 8) (fs : Bool) (capture : Nat) :
    offerClaim i fs capture s = withRound (fun r => { r with ownClaim := r.ownClaim.set i (.held fs capture) }) s :=
  if_neg fun hroom => Nat.not_lt_of_le h (of_decide_eq_true hroom)

/-- The pair of a round that may still claim: it is eligible, and it has not pressed (R86). -/
def mayClaim (s : State) (i : Fin 8) : Prop :=
  (s.straps.stn.toNat, i.val) ∈ (roundProfile s).eligible ∧ s.lockout.round.press[i] = .noPress

theorem mayClaim_iff {s : State} {i : Fin 8} :
    (eligible s s.straps.stn.toNat i.val && decide (s.lockout.round.press[i] = .noPress)) = true ↔ mayClaim s i := by
  simp [eligible, mayClaim]

theorem classify_barred {s : State} {i : Fin 8} (h : ¬ mayClaim s i) (time : Nat) : classify s i time = .late :=
  if_neg (mt mayClaim_iff.mp h)

/-- The rows of Table 5-3 at a pair that may claim. -/
theorem classify_eq {s : State} {i : Fin 8} (h : mayClaim s i) (time : Nat) : classify s i time =
    match s.lockout.round.state with
    | .holdoff => if time < msMicros (roundProfile s).holdoff then .falseStart else .late
    | .isOpen =>
      if time < msMicros (roundProfile s).holdoff then .falseStart
      else if time ≤ msMicros (roundProfile s).window then .valid
      else .late
    | .settling =>
      if msMicros (roundProfile s).holdoff ≤ time ∧ time ≤ msMicros (roundProfile s).window then .valid else .late
    | .idle => .late
    | .closed => .late :=
  if_pos (mayClaim_iff.mpr h)

/-- A pair presses before the holdoff in a round that has begun. -/
theorem classify_falseStart {s : State} {i : Fin 8} {time : Nat}
    (hstate : s.lockout.round.state = .holdoff ∨ s.lockout.round.state = .isOpen) (h : mayClaim s i)
    (htime : time < (roundProfile s).holdoff * 1000) : classify s i time = .falseStart := by
  rw [classify_eq h]
  rcases hstate with hs | hs
  all_goals
    rw [hs]
    exact if_pos htime

/-- A pair presses from the holdoff to the window. -/
theorem classify_valid {s : State} {i : Fin 8} {time : Nat}
    (hstate : s.lockout.round.state = .isOpen ∨ s.lockout.round.state = .settling) (h : mayClaim s i)
    (hlow : (roundProfile s).holdoff * 1000 ≤ time) (hhigh : time ≤ (roundProfile s).window * 1000) :
    classify s i time = .valid := by
  rw [classify_eq h]
  rcases hstate with hs | hs
  all_goals rw [hs]
  · exact (if_neg (Nat.not_lt_of_le hlow)).trans (if_pos hhigh)
  · exact if_pos ⟨hlow, hhigh⟩

/-- Everything else is late (log entry 24). -/
theorem classify_late {s : State} {i : Fin 8} {time : Nat}
    (h : s.lockout.round.state = .idle ∨ s.lockout.round.state = .closed ∨ ¬ mayClaim s i ∨
      (s.lockout.round.state = .holdoff ∧ (roundProfile s).holdoff * 1000 ≤ time) ∨
      (s.lockout.round.state = .isOpen ∧ (roundProfile s).holdoff * 1000 ≤ time ∧ (roundProfile s).window * 1000 < time) ∨
      (s.lockout.round.state = .settling ∧ (time < (roundProfile s).holdoff * 1000 ∨ (roundProfile s).window * 1000 < time))) :
    classify s i time = .late := by
  by_cases hmay : mayClaim s i
  · rw [classify_eq hmay]
    rcases h with hs | hs | hs | ⟨hs, hlow⟩ | ⟨hs, hlow, hhigh⟩ | ⟨hs, hout⟩
    · rw [hs]
    · rw [hs]
    · exact absurd hmay hs
    · rw [hs]
      exact if_neg (Nat.not_lt_of_le hlow)
    · rw [hs]
      exact (if_neg (Nat.not_lt_of_le hlow)).trans (if_neg (Nat.not_le_of_lt hhigh))
    · rw [hs]
      exact if_neg fun ⟨h1, h2⟩ => hout.elim (Nat.not_lt_of_le h1) (Nat.not_lt_of_le h2)
  · exact classify_barred hmay time

/-! ## The taking of a press (R86 to R88) -/

/-- The one completed press of a sample is taken with the capture of its run, after the sample itself. -/
theorem press_of_single {s : State} {i : Fin 8} {levels : Byte}
    (hstate : s.member.state = .joining ∨ s.member.state = .active ∨ s.member.state = .listening)
    (hdue : s.lockout.sampleDue ≤ s.now) (hone : pressedInputs s levels = [i]) :
    press i levels s = takePress i s.lockout.debounce[i].runStart (debounceSample levels s) := by
  have hmem : (i : Fin 8) ∈ pressedInputs s levels := hone ▸ List.mem_singleton.mpr rfl
  obtain ⟨hlevel, hactive, hrun⟩ := presses_iff.mp (List.mem_filter.mp hmem).2
  have hcapture : (debounceSample levels s).lockout.debounce[i].runStart = s.lockout.debounce[i].runStart := by
    rw [debounceSample_debounce, hactive, show true = !false from rfl, sample_changes hlevel hrun]
  have hfirst : (samplesInputs s && (pressedInputs s levels).contains i) = true := by
    rw [samplesInputs_due hstate hdue, hone]
    simp
  have hothers : (pressedInputs s levels).filter (· ≠ i) = [] := by
    rw [hone]
    simp
  rw [press, if_pos hfirst, hothers, ← hcapture]
  rfl

theorem takePress_inactive {s : State} (h : s.member.state ≠ .active) (i : Fin 8) (capture : Word) :
    takePress i capture s = latePress i s := if_neg h

theorem takePress_falseStart {s : State} {i : Fin 8} {capture : Word} (h : s.member.state = .active)
    (hclass : classify s i (pressTime s capture) = .falseStart) :
    takePress i capture s = claimPress i true (pressTime s capture) s := by
  simp only [takePress, h, if_true, hclass]

theorem takePress_valid {s : State} {i : Fin 8} {capture : Word} (h : s.member.state = .active)
    (hclass : classify s i (pressTime s capture) = .valid) :
    takePress i capture s = claimPress i false (pressTime s capture) s := by
  simp only [takePress, h, if_true, hclass]

theorem takePress_late {s : State} {i : Fin 8} {capture : Word} (h : s.member.state = .active)
    (hclass : classify s i (pressTime s capture) = .late) : takePress i capture s = latePress i s := by
  simp only [takePress, h, if_true, hclass]

/-- What a press leaves as it was. -/
def pressKeeps (s t : State) : Prop :=
  keepsFixed s t ∧ keepsAudio s t ∧ t.line = s.line ∧ t.rxq = s.rxq ∧ t.member = s.member ∧ t.dispatch = s.dispatch ∧
    t.clocks = s.clocks ∧ t.panel = s.panel

/-- A late press raises the late count of its input, and that alone (R88). -/
theorem latePress_sampled (i : Fin 8) (levels : Byte) (s : State) :
    pressKeeps s (latePress i (debounceSample levels s)) ∧
      (latePress i (debounceSample levels s)).lockout.round.late[i] = min 65535 (s.lockout.round.late[i] + 1) ∧
      (latePress i (debounceSample levels s)).lockout.round.press = s.lockout.round.press ∧
      (latePress i (debounceSample levels s)).txq = s.txq ∧
      (latePress i (debounceSample levels s)).lockout.round.claims = s.lockout.round.claims := by
  refine ⟨⟨⟨rfl, rfl, rfl, rfl, rfl, rfl⟩, ⟨rfl, rfl, rfl, rfl⟩, rfl, rfl, rfl, rfl, rfl, rfl⟩, ?_, rfl, rfl, rfl⟩
  exact (vector_get_set8 _ _ _ _).trans (if_pos rfl)

/-- The press state that a claiming press leaves (R86). -/
def pressOf (falseStart : Bool) : PressState := if falseStart then .falseStart else .claimed

theorem offerClaim_keeps (i : Fin 8) (fs : Bool) (time : Nat) (s : State) :
    pressKeeps s (offerClaim i fs time s) ∧ (offerClaim i fs time s).lockout.round.press = s.lockout.round.press ∧
      (offerClaim i fs time s).lockout.round.late = s.lockout.round.late ∧
      (offerClaim i fs time s).lockout.round.claims = s.lockout.round.claims := by
  unfold offerClaim
  split
  all_goals exact ⟨⟨⟨rfl, rfl, rfl, rfl, rfl, rfl⟩, ⟨rfl, rfl, rfl, rfl⟩, rfl, rfl, rfl, rfl, rfl, rfl⟩, rfl, rfl, rfl⟩

/-- A CLAIM is placed where there is room, else held (R87). -/
theorem offerClaim_spec (i : Fin 8) (fs : Bool) (time : Nat) (s : State) :
    (s.txq.entries.length < 4 → (offerClaim i fs time s).lockout.round.ownClaim[i] = .queued s.txq.nextSeq ∧
      (offerClaim i fs time s).txq.entries.map TxEntry.frame = s.txq.entries.map TxEntry.frame ++
        [encodeFrame (ownNumber s) (.claim s.lockout.round.carried.1 s.lockout.round.carried.2 (BitVec.ofNat 8 i.val)
          (flagByte fs) (BitVec.ofNat 24 time))]) ∧
    (4 ≤ s.txq.entries.length → (offerClaim i fs time s).txq = s.txq ∧
      (offerClaim i fs time s).lockout.round.ownClaim[i] = .held fs time) := by
  refine ⟨fun hroom => ?_, fun hfull => ?_⟩
  · rw [offerClaim_placed (decide_eq_true hroom)]
    exact ⟨(vector_get_set8 _ _ _ _).trans (if_pos rfl), placeFrame_frames _ _ _⟩
  · rw [offerClaim_held hfull]
    exact ⟨rfl, (vector_get_set8 _ _ _ _).trans (if_pos rfl)⟩

/-- The state of a press before it offers its CLAIM: sampled, and its press state set (R86). -/
def pressedState (i : Fin 8) (fs : Bool) (levels : Byte) (s : State) : State :=
  withRound (fun r => { r with press := r.press.set i (pressOf fs) }) (debounceSample levels s)

theorem claimPress_eq (i : Fin 8) (fs : Bool) (time : Nat) (levels : Byte) (s : State) :
    claimPress i fs time (debounceSample levels s) = offerClaim i fs time (pressedState i fs levels s) := rfl

theorem pressedState_press (i : Fin 8) (fs : Bool) (levels : Byte) (s : State) :
    (pressedState i fs levels s).lockout.round.press[i] = pressOf fs :=
  (vector_get_set8 _ _ _ _).trans (if_pos rfl)

theorem pressedState_keeps (i : Fin 8) (fs : Bool) (levels : Byte) (s : State) : pressKeeps s (pressedState i fs levels s) ∧
    (pressedState i fs levels s).txq = s.txq ∧ (pressedState i fs levels s).lockout.round.late = s.lockout.round.late ∧
    (pressedState i fs levels s).lockout.round.claims = s.lockout.round.claims ∧
    (pressedState i fs levels s).lockout.round.carried = s.lockout.round.carried :=
  ⟨⟨⟨rfl, rfl, rfl, rfl, rfl, rfl⟩, ⟨rfl, rfl, rfl, rfl⟩, rfl, rfl, rfl, rfl, rfl, rfl⟩, rfl, rfl, rfl, rfl⟩

theorem pressKeeps.trans {s t u : State} (h : pressKeeps s t) (k : pressKeeps t u) : pressKeeps s u := by
  obtain ⟨⟨a1, a2, a3, a4, a5, a6⟩, ⟨b1, b2, b3, b4⟩, c1, c2, c3, c4, c5, c6⟩ := h
  obtain ⟨⟨d1, d2, d3, d4, d5, d6⟩, ⟨e1, e2, e3, e4⟩, f1, f2, f3, f4, f5, f6⟩ := k
  exact ⟨⟨d1.trans a1, d2.trans a2, d3.trans a3, d4.trans a4, d5.trans a5, d6.trans a6⟩,
    ⟨e1.trans b1, e2.trans b2, e3.trans b3, e4.trans b4⟩, f1.trans c1, f2.trans c2, f3.trans c3, f4.trans c4, f5.trans c5,
    f6.trans c6⟩

theorem pressKeeps.ownNumber {s t : State} (h : pressKeeps s t) : ownNumber t = ownNumber s := by
  obtain ⟨⟨hstraps, -⟩, -⟩ := h
  rw [Machine.ownNumber, Machine.ownNumber, hstraps]

/-- A false start or a valid press sets its press state and offers its CLAIM, placed where there is room, else held (R87). -/
theorem claimPress_sampled (i : Fin 8) (fs : Bool) (time : Nat) (levels : Byte) (s : State) :
    (claimPress i fs time (debounceSample levels s)).lockout.round.press[i] = pressOf fs ∧
      pressKeeps s (claimPress i fs time (debounceSample levels s)) ∧
      (claimPress i fs time (debounceSample levels s)).lockout.round.late = s.lockout.round.late ∧
      (claimPress i fs time (debounceSample levels s)).lockout.round.claims = s.lockout.round.claims ∧
      (s.txq.entries.length < 4 →
        (claimPress i fs time (debounceSample levels s)).lockout.round.ownClaim[i] = .queued s.txq.nextSeq ∧
        (claimPress i fs time (debounceSample levels s)).txq.entries.map TxEntry.frame = s.txq.entries.map TxEntry.frame ++
          [encodeFrame (ownNumber s) (.claim s.lockout.round.carried.1 s.lockout.round.carried.2 (BitVec.ofNat 8 i.val)
            (flagByte fs) (BitVec.ofNat 24 time))]) ∧
      (4 ≤ s.txq.entries.length → (claimPress i fs time (debounceSample levels s)).txq = s.txq ∧
        (claimPress i fs time (debounceSample levels s)).lockout.round.ownClaim[i] = .held fs time) := by
  rw [claimPress_eq]
  have hpress := pressedState_press i fs levels s
  obtain ⟨hkeeps, htxq, hlate, hclaims, hcarried⟩ := pressedState_keeps i fs levels s
  have hown := hkeeps.ownNumber
  generalize pressedState i fs levels s = u at *
  obtain ⟨hkept, h1, h2, h3⟩ := offerClaim_keeps i fs time u
  have hoffer := offerClaim_spec i fs time u
  rw [htxq, hown, hcarried] at hoffer
  rw [h1, h2, h3]
  exact ⟨hpress, hkeeps.trans hkept, hlate, hclaims, hoffer⟩

/-- Settles O40. -/
theorem pressIsClassified : Obligations.PressIsClassified := by
  intro i levels s hdue hone r p time mayClaims others wasLate offered
  have htaken := fun hstate => press_of_single (s := s) (i := i) (levels := levels) hstate hdue hone
  have hlate : ∀ t, press i levels s = latePress i (debounceSample levels s) → t = press i levels s → wasLate t := by
    rintro t h rfl
    rw [h]
    exact latePress_sampled i levels s
  refine ⟨fun hstate => ⟨press i levels s, rfl, hlate _ ?_ rfl⟩, fun hactive => ⟨fun hstate hmay htime => ?_, fun hstate hmay hlow hhigh => ?_, fun h => ?_⟩⟩
  · rw [htaken (hstate.imp id .inr)]
    refine takePress_inactive (s := debounceSample levels s) (fun h => ?_) i _
    rcases hstate with h' | h'
    · exact nomatch h'.symm.trans h
    · exact nomatch h'.symm.trans h
  · refine ⟨press i levels s, rfl, ?_⟩
    have hclass : classify (debounceSample levels s) i time = .falseStart := classify_falseStart hstate hmay htime
    rw [htaken (.inr (.inl hactive)), takePress_falseStart (s := debounceSample levels s) hactive hclass]
    obtain ⟨h1, h2, h3, h4, h5, h6⟩ := claimPress_sampled i true time levels s
    exact ⟨h1, h2, h3, h4, h5, h6⟩
  · refine ⟨press i levels s, rfl, ?_⟩
    have hclass : classify (debounceSample levels s) i time = .valid := classify_valid hstate hmay hlow hhigh
    rw [htaken (.inr (.inl hactive)), takePress_valid (s := debounceSample levels s) hactive hclass]
    obtain ⟨h1, h2, h3, h4, h5, h6⟩ := claimPress_sampled i false time levels s
    exact ⟨h1, h2, h3, h4, h5, h6⟩
  · refine ⟨press i levels s, rfl, hlate _ ?_ rfl⟩
    have hclass : classify (debounceSample levels s) i time = .late := classify_late h
    rw [htaken (.inr (.inl hactive)), takePress_late (s := debounceSample levels s) hactive hclass]

end Sys2Proof.Machine
end

