-- ==== Sys2Proof/Proofs/FrameSteps.lean ====
section
/-!
SUPPORT. One voice, the Mixer and the whole voice pool at a frame clock (R30, R31, R38, R42, R66 to R69).
-/
namespace Sys2Proof.Machine
open Relation

/-! ## One voice at a frame clock (R30, R31, R38, R42) -/

/-- A voice whose ramp alone may have moved. -/
def rampOnly (v w : Voice) : Prop :=
  w = { v with gainNow := w.gainNow, gainTarget := w.gainTarget, rampIncrement := w.rampIncrement
               rampLeft := w.rampLeft, tailGlide := w.tailGlide }

theorem rampOnly.trans {u v w : Voice} (h : rampOnly u v) (k : rampOnly v w) : rampOnly u w := by
  unfold rampOnly at *
  rw [k, h]

theorem startRamp_rampOnly (target n : Nat) (v : Voice) : rampOnly v (startRamp target n v) := by
  unfold startRamp
  split <;> rfl

theorem startTailGlide_none (s : State) {v : Voice} (h : v.tailGlide = false) : startTailGlide s v = v :=
  if_neg (by rw [h]; exact Bool.false_ne_true)

theorem startTailGlide_same {s : State} {v : Voice} (h : v.tailGlide = true) (heq : effectiveTarget s v = v.gainTarget) :
    startTailGlide s v = { v with tailGlide := false } :=
  (if_pos h).trans (if_pos heq)

theorem startTailGlide_moves {s : State} {v : Voice} (h : v.tailGlide = true) (hne : effectiveTarget s v ≠ v.gainTarget) :
    startTailGlide s v = startRamp (effectiveTarget s v) 240 { v with tailGlide := false } :=
  (if_pos h).trans (if_neg hne)

theorem startTailGlide_rampOnly (s : State) (v : Voice) : rampOnly v (startTailGlide s v) := by
  cases h : v.tailGlide with
  | false =>
    rw [startTailGlide_none s h]
    rfl
  | true =>
    have hcleared : rampOnly v { v with tailGlide := false } := rfl
    by_cases heq : effectiveTarget s v = v.gainTarget
    · rw [startTailGlide_same h heq]
      exact hcleared
    · rw [startTailGlide_moves h heq]
      exact hcleared.trans (startRamp_rampOnly _ _ _)

theorem advanceRamp_rampOnly (v : Voice) : rampOnly v (advanceRamp v) := by
  unfold advanceRamp
  split
  · rfl
  · split <;> rfl

/-- The ramp of a voice after a frame clock that it consumes a frame at. -/
def rampAfter (s : State) (v : Voice) : Voice := advanceRamp (startTailGlide s v)

theorem rampAfter_rampOnly (s : State) (v : Voice) : rampOnly v (rampAfter s v) :=
  (startTailGlide_rampOnly s v).trans (advanceRamp_rampOnly _)

/-- A consumed frame moves the voice one frame on, and its ramp. -/
theorem consumeFrame_eq (s : State) (v : Voice) : consumeFrame s v =
    { v with
      pos := v.pos + 1, playCount := v.playCount + 1
      buffer0 := v.buffer0.pass v.playCount, buffer1 := v.buffer1.pass v.playCount
      gainNow := (rampAfter s v).gainNow, gainTarget := (rampAfter s v).gainTarget
      rampIncrement := (rampAfter s v).rampIncrement, rampLeft := (rampAfter s v).rampLeft
      tailGlide := (rampAfter s v).tailGlide } := by
  have hramp := rampAfter_rampOnly s v
  show { rampAfter s v with
      pos := (rampAfter s v).pos + 1, playCount := (rampAfter s v).playCount + 1
      buffer0 := (rampAfter s v).buffer0.pass (rampAfter s v).playCount
      buffer1 := (rampAfter s v).buffer1.pass (rampAfter s v).playCount : Voice } = _
  generalize rampAfter s v = w at *
  rw [hramp]

theorem advanceRamp_ended (v : Voice) : (advanceRamp v).rampLeft = 0 ↔ v.rampLeft ≤ 1 := by
  unfold advanceRamp
  split
  · next h => exact ⟨fun _ => by omega, fun _ => h⟩
  · next h =>
    split
    · next h1 => exact ⟨fun _ => by omega, fun _ => rfl⟩
    · exact ⟨fun h' => absurd (show v.rampLeft - 1 = 0 from h') (by omega), fun _ => by omega⟩

theorem fadeOver_iff {s : State} {v : Voice} : (consumeFrame s v).fadeOver = true ↔
    v.path = .fade ∧ (startTailGlide s v).rampLeft ≤ 1 := by
  rw [Voice.fadeOver, Bool.and_eq_true, decide_eq_true_eq, decide_eq_true_eq, consumeFrame_eq]
  exact and_congr_right fun _ => advanceRamp_ended _

theorem voiceFrame_fadeOver {s : State} {v : Voice} (h : (consumeFrame s v).fadeOver = true) :
    voiceFrame s v = (consumeFrame s v, true) := if_pos h

theorem voiceFrame_within {s : State} {v : Voice} (h : (consumeFrame s v).fadeOver = false)
    (hlt : v.pos + 1 < (stepRecord s (cueRecord s v.cue) v.step).length) : voiceFrame s v = (consumeFrame s v, false) := by
  rw [voiceFrame]
  rw [if_neg (by rw [h]; exact Bool.false_ne_true)]
  refine if_pos ?_
  rw [consumeFrame_eq]
  exact hlt

/-- A consumed frame that is the last of its step. -/
theorem consumeFrame_stepEnd {s : State} {v : Voice}
    (hle : (stepRecord s (cueRecord s v.cue) v.step).length ≤ v.pos + 1) :
    ¬ (consumeFrame s v).pos < (stepRecord s (cueRecord s v.cue) (consumeFrame s v).step).length ∧
      nextStep (cueRecord s v.cue) (consumeFrame s v).onTail (consumeFrame s v).step (consumeFrame s v).passes =
        nextStep (cueRecord s v.cue) v.onTail v.step v.passes := by
  rw [consumeFrame_eq]
  exact ⟨Nat.not_lt_of_le hle, rfl⟩

theorem voiceFrame_walkEnd {s : State} {v : Voice} (h : (consumeFrame s v).fadeOver = false)
    (hle : (stepRecord s (cueRecord s v.cue) v.step).length ≤ v.pos + 1)
    (hnext : nextStep (cueRecord s v.cue) v.onTail v.step v.passes = none) : voiceFrame s v = (consumeFrame s v, true) := by
  obtain ⟨hnot, hwalk⟩ := consumeFrame_stepEnd hle
  simp only [voiceFrame, h, Bool.false_eq_true, if_false, hnot, hwalk, hnext]

theorem voiceFrame_moves {s : State} {v : Voice} {st ps : Nat} (h : (consumeFrame s v).fadeOver = false)
    (hle : (stepRecord s (cueRecord s v.cue) v.step).length ≤ v.pos + 1)
    (hnext : nextStep (cueRecord s v.cue) v.onTail v.step v.passes = some (st, ps)) :
    voiceFrame s v = (enterStep s (consumeFrame s v) st ps, false) := by
  obtain ⟨hnot, hwalk⟩ := consumeFrame_stepEnd hle
  simp only [voiceFrame, h, Bool.false_eq_true, if_false, hnot, hwalk, hnext]

/-- The voice at the first frame of the step that it moves to, before its glide. -/
def movedVoice (v : Voice) (st ps : Nat) : Voice := { v with step := st, pos := 0, passes := ps }

theorem enterStep_rampOnly (s : State) (v : Voice) (st ps : Nat) : rampOnly (movedVoice v st ps) (enterStep s v st ps) := by
  unfold enterStep movedVoice
  dsimp only
  split
  · rfl
  · split
    · rfl
    · exact startRamp_rampOnly _ _ _

theorem enterStep_keeps_ramp {s : State} {v : Voice} {st ps : Nat}
    (h : v.path = .fade ∨ effectiveTarget s { v with step := st } = v.gainTarget) :
    enterStep s v st ps = movedVoice v st ps := by
  unfold enterStep
  dsimp only
  by_cases hfade : v.path = .fade
  · exact if_pos hfade
  · exact (if_neg hfade).trans (if_pos (h.resolve_left hfade))

theorem enterStep_glides {s : State} {v : Voice} {st ps : Nat} (hpath : v.path ≠ .fade)
    (hne : effectiveTarget s { v with step := st } ≠ v.gainTarget) :
    enterStep s v st ps = startRamp (effectiveTarget s { v with step := st }) 240 (movedVoice v st ps) :=
  (if_neg hpath).trans (if_neg hne)

/-! ## The Mixer's part (R61, R66 to R69) -/

/-- The fault flags that the Mixer leaves. -/
def mixPanel (s : State) : PanelPort :=
  let p := if underruns s then s.panel.raise .underrun else s.panel
  if four.any fun o => saturates (outputTotal s (outputZone s o)) then p.raise .clip else p

theorem mix_eq (s : State) : mix s = { s with outputs := mapVec (mixOutput s) s.outputs, panel := mixPanel s } := by
  unfold mix mixPanel
  dsimp only
  split <;> split <;> rfl

theorem raise_butFaults (p : PanelPort) (f : FaultFlag) :
    p.raise f = { p with faults := (p.raise f).faults, faultPending := (p.raise f).faultPending } := by
  unfold PanelPort.raise
  split <;> rfl

theorem mixPanel_butFaults (s : State) :
    mixPanel s = { s.panel with faults := (mixPanel s).faults, faultPending := (mixPanel s).faultPending } := by
  unfold mixPanel
  dsimp only
  split <;> split
  · rw [raise_butFaults, raise_butFaults s.panel]
  · exact raise_butFaults _ _
  · exact raise_butFaults _ _
  · rfl

theorem saturates_iff (n : Int) : saturates n = true ↔ n < -32768 ∨ 32767 < n := by simp [saturates]

theorem mixPanel_clip {s : State} (h : ∃ o : Fin 4, outputTotal s s.outputs[o].zone < -32768 ∨ 32767 < outputTotal s s.outputs[o].zone) :
    (mixPanel s).faultSet .clip = true := by
  obtain ⟨o, ho⟩ := h
  have hany : (four.any fun o => saturates (outputTotal s (outputZone s o))) = true :=
    List.any_eq_true.mpr ⟨o, mem_four o, (saturates_iff _).mpr ho⟩
  unfold mixPanel
  dsimp only
  rw [if_pos hany]
  exact (raise_spec _ _).1

theorem mixPanel_underrun {s : State} (h : ∃ i : Fin 16, (voiceOf s i).consumes = true ∧ (voiceOf s i).frame = none) :
    (mixPanel s).faultSet .underrun = true := by
  obtain ⟨i, hconsumes, hframe⟩ := h
  have hany : underruns s = true := List.any_eq_true.mpr ⟨i, mem_slots i, by rw [hconsumes, hframe]; rfl⟩
  unfold mixPanel
  dsimp only
  rw [if_pos hany]
  split
  · exact raise_keeps (raise_spec _ _).1 _
  · exact (raise_spec _ _).1

theorem mixOutput_clip (s : State) (o : Output) : (mixOutput s o).clip = true ↔
    o.clip = true ∨ outputTotal s o.zone < -32768 ∨ 32767 < outputTotal s o.zone := by
  rw [← saturates_iff, ← Bool.or_eq_true]
  rfl

/-- A sum over a list, as the running total of it. -/
theorem foldl_total {α : Type} (p : α → Bool) (f : α → Int) : ∀ (l : List α) (n : Int),
    l.foldl (fun m a => if p a then m + f a else m) n = n + (l.map fun a => if p a = true then f a else 0).sum
  | [], n => (Int.add_zero n).symm
  | a :: l, n => by
    rw [List.foldl_cons, foldl_total p f l, List.map_cons, List.sum_cons]
    split <;> omega

theorem contribution_some {v : Voice} {x : Sample} (h : v.frame = some x) :
    v.contribution = (x.toInt * (v.gainNow / 65536 : Nat)).tdiv 128 := by
  simp only [Voice.contribution, h, Voice.gain]

theorem contribution_none {v : Voice} (h : v.frame = none) : v.contribution = 0 := by
  simp only [Voice.contribution, h]

theorem feeds_iff {s : State} {i : Fin 16} {zone : Byte} : feeds s i zone = true ↔
    (voiceOf s i).consumes = true ∧ zone.toNat < 8 ∧ (voiceCue s i).zoneMask.getLsbD zone.toNat = true := by
  simp [feeds, maskHasZone]

theorem outputTotal_eq_sum (zone : Byte) (s : State) :
    outputTotal s zone = (slots.map fun i => if feeds s i zone = true then (voiceOf s i).contribution else 0).sum :=
  (foldl_total _ _ slots 0).trans (Int.zero_add _)

/-! ## The whole frame clock -/

/-- The voice of a slot after its own step at a frame clock. -/
def steppedVoice (s : State) (i : Fin 16) : Voice :=
  if (voiceOf s i).consumes then (voiceFrame s (voiceOf s i)).1 else voiceOf s i

theorem steppedVoice_of_consumes {s : State} {i : Fin 16} (h : (voiceOf s i).consumes = true) :
    steppedVoice s i = (voiceFrame s (voiceOf s i)).1 := if_pos h

/-- The state of a frame clock between the steps of the voices and the ends of the voices that end. -/
def steppedState (s : State) : State := stepVoices (mix s)

theorem steppedState_frame (s : State) : steppedState s = { s with
    outputs := mapVec (mixOutput s) s.outputs, panel := mixPanel s, pool := (steppedState s).pool } := by
  unfold steppedState
  rw [mix_eq]
  rfl

theorem steppedState_stack (s : State) : (steppedState s).pool.stack = s.pool.stack := by
  unfold steppedState
  rw [mix_eq]
  rfl

theorem voiceOf_steppedState (s : State) (i : Fin 16) : voiceOf (steppedState s) i = steppedVoice s i := by
  rw [steppedState, voiceOf_stepVoices, voiceOf_mix, steppedVoice, mix_eq]
  rfl

theorem frameClock_eq (s : State) :
    frameClock s = fetchSettle ((endingSlots s).foldl (fun t i => endVoice i t) (steppedState s)) := rfl

theorem frameClock_frame_of_mix (s : State) : frameClock s = { s with
    outputs := mapVec (mixOutput s) s.outputs, panel := mixPanel s, pool := (frameClock s).pool, fetch := (frameClock s).fetch } := by
  have hends := (foldl_turns (fun t i => endVoice_turn i t) (endingSlots s) (steppedState s)).1
  rw [frameClock_eq, fetchSettle_poolFetch, hends, steppedState_frame]

theorem mem_endingSlots {s : State} {i : Fin 16} :
    i ∈ endingSlots s ↔ (voiceOf s i).consumes = true ∧ (voiceFrame s (voiceOf s i)).2 = true := by
  simp [endingSlots, mem_slots]

/-- A voice that does not end at the frame clock keeps the walk of its own step. -/
theorem frameClock_passes {s : State} {i : Fin 16} (h : i ∉ endingSlots s) :
    bystander (steppedVoice s i) (voiceOf (frameClock s) i) := by
  have hends := (foldl_turns (fun t i => endVoice_turn i t) (endingSlots s) (steppedState s)).2.2 i h
  rw [voiceOf_steppedState] at hends
  exact hends.trans (fetchSettle_passes _ i)

/-- A voice that ends at the frame clock leaves its slot IDLE, or an entry of the suspend stack in it. -/
theorem frameClock_ends {s : State} {i : Fin 16} (h : i ∈ endingSlots s) :
    endedVoice s (steppedVoice s i) (voiceOf (frameClock s) i) := by
  obtain ⟨u, -, hstack, hbefore, hafter⟩ :=
    foldl_turn_of_mem (fun t i => endVoice_turn i t) (endingSlots s) (steppedState s) (slots_nodup.filter _) i h
  rw [voiceOf_steppedState] at hbefore
  rw [steppedState_stack] at hstack
  exact bystander.ended hbefore (hafter.trans (fetchSettle_passes _ i)) (fun _ he => hstack.mem he) (endVoice_ended i u)

/-! ## Requests leave the ramps alone -/

/-- The ramp fields of a voice. -/
def sameRamp (v w : Voice) : Prop :=
  w.gainNow = v.gainNow ∧ w.gainTarget = v.gainTarget ∧ w.rampLeft = v.rampLeft ∧ w.rampIncrement = v.rampIncrement

theorem sameRamp.trans {u v w : Voice} (h : sameRamp u v) (k : sameRamp v w) : sameRamp u w :=
  ⟨k.1.trans h.1, k.2.1.trans h.2.1, k.2.2.1.trans h.2.2.1, k.2.2.2.trans h.2.2.2⟩

theorem placeRequest_ramp (i j : Fin 16) (s : State) : sameRamp (voiceOf s j) (voiceOf (placeRequest i s) j) := by
  unfold placeRequest
  dsimp only
  split
  · exact ⟨rfl, rfl, rfl, rfl⟩
  · split
    · exact ⟨rfl, rfl, rfl, rfl⟩
    · next cur _ =>
      unfold placeBlock
      dsimp only
      split
      · exact ⟨rfl, rfl, rfl, rfl⟩
      · show sameRamp _ (voiceOf (setVoice i _ s) j)
        rw [voiceOf_setVoice]
        split
        · next hj =>
          subst hj
          obtain ⟨count, hw⟩ := catchUp_altered (voiceOf s j) cur
          rw [hw]
          exact ⟨rfl, rfl, rfl, rfl⟩
        · exact ⟨rfl, rfl, rfl, rfl⟩

theorem fetchSettle_ramp (s : State) (j : Fin 16) : sameRamp (voiceOf s j) (voiceOf (fetchSettle s) j) := by
  have hfold : ∀ (l : List (Fin 16)) (u : State), sameRamp (voiceOf u j) (voiceOf (l.foldl (fun t i => placeRequest i t) u) j) := by
    intro l
    induction l with
    | nil => exact fun u => ⟨rfl, rfl, rfl, rfl⟩
    | cons x l ih => exact fun u => (placeRequest_ramp x j u).trans (ih _)
  rw [fetchSettle, voiceOf_grant]
  exact hfold slots s

/-- Where no voice ends, every voice keeps the ramp of its own step. -/
theorem frameClock_ramp {s : State} (h : ∀ j : Fin 16, j ∉ endingSlots s) (i : Fin 16) :
    sameRamp (steppedVoice s i) (voiceOf (frameClock s) i) := by
  rw [frameClock_eq, List.eq_nil_iff_forall_not_mem.mpr h, ← voiceOf_steppedState]
  exact fetchSettle_ramp _ i

end Sys2Proof.Machine
end

