-- ==== Sys2Proof/Proofs/FrameClocks.lean ====
section
/-!
The frame clock (O35), RAMP_END and FADE_END (O36).
-/
namespace Sys2Proof.Machine
open Relation

/-! ## The timer's frame clock (R30, R67 to R69) -/

/-- The state that a frame clock of this moment begins from: the moment is the reference. -/
def clocked (s : State) : State := { s with wclk := { s.wclk with reference := s.now } }

theorem frameClockNow_eq (s : State) : frameClockNow s = frameClock (clocked s) := rfl

theorem timerDue_of {s : State} (hmode : s.wclk.mode ≠ .locked) (hdue : 5000 ≤ s.now - s.wclk.reference) : timerDue s = true := by
  rw [timerDue, Bool.and_eq_true]
  exact ⟨decide_eq_true hmode, decide_eq_true hdue⟩

theorem frameClockBySource_timer {s : State} (hmode : s.wclk.mode ≠ .locked) (hdue : 5000 ≤ s.now - s.wclk.reference) :
    frameClockBySource s = frameClock (clocked s) := if_pos (timerDue_of hmode hdue)

theorem outputTotal_clocked (s : State) (zone : Byte) : outputTotal (clocked s) zone = outputTotal s zone := rfl
theorem voiceFrame_clocked (s : State) (v : Voice) : voiceFrame (clocked s) v = voiceFrame s v := rfl
theorem steppedVoice_clocked (s : State) (i : Fin 16) : steppedVoice (clocked s) i = steppedVoice s i := rfl
theorem endingSlots_clocked (s : State) : endingSlots (clocked s) = endingSlots s := rfl

/-- What the frame clock of this moment reaches outside the voice pool. -/
theorem frameClockNow_frame (s : State) : frameClock (clocked s) = { s with
    wclk := { s.wclk with reference := s.now }, outputs := mapVec (mixOutput s) s.outputs, panel := mixPanel s
    pool := (frameClock (clocked s)).pool, fetch := (frameClock (clocked s)).fetch } :=
  frameClock_frame_of_mix (clocked s)

theorem frameClockNow_presented (s : State) (o : Fin 4) : (frameClock (clocked s)).outputs[o] = mixOutput s s.outputs[o] := by
  rw [frameClockNow_frame]
  exact mapVec_get _ _ _

theorem voiceOf_frameClockNow_passes {s : State} {i : Fin 16} (h : i ∉ endingSlots s) :
    bystander (steppedVoice s i) (voiceOf (frameClock (clocked s)) i) := frameClock_passes (s := clocked s) h

theorem voiceOf_frameClockNow_ends {s : State} {i : Fin 16} (h : i ∈ endingSlots s) :
    endedVoice s (steppedVoice s i) (voiceOf (frameClock (clocked s)) i) := frameClock_ends (s := clocked s) h

theorem frameClockNow_ramp {s : State} (h : ∀ j : Fin 16, j ∉ endingSlots s) (i : Fin 16) :
    sameRamp (steppedVoice s i) (voiceOf (frameClock (clocked s)) i) := frameClock_ramp (s := clocked s) h i

theorem not_ending {s : State} {i : Fin 16} (h : (voiceFrame s (voiceOf s i)).2 = false) : i ∉ endingSlots s := fun hmem => by
  rw [mem_endingSlots, h] at hmem
  exact Bool.false_ne_true hmem.2

theorem consumeFrame_walk (s : State) (v : Voice) : (consumeFrame s v).pos = v.pos + 1 ∧
    (consumeFrame s v).playCount = v.playCount + 1 ∧ (consumeFrame s v).step = v.step ∧ (consumeFrame s v).state = v.state ∧
    (consumeFrame s v).path = v.path := by
  rw [consumeFrame_eq]
  exact ⟨rfl, rfl, rfl, rfl, rfl⟩

theorem consumeFrame_ramp (s : State) (v : Voice) : sameRamp (rampAfter s v) (consumeFrame s v) := by
  rw [consumeFrame_eq]
  exact ⟨rfl, rfl, rfl, rfl⟩

theorem sameWalk.playCount {v w : Voice} (h : sameWalk v w) : w.playCount = v.playCount := by rw [h]
theorem sameWalk.passes {v w : Voice} (h : sameWalk v w) : w.passes = v.passes := by rw [h]

/-- A consuming voice that goes on within its step. -/
theorem steppedVoice_within {s : State} {i : Fin 16} (hconsumes : (voiceOf s i).consumes = true)
    (hfade : (consumeFrame s (voiceOf s i)).fadeOver = false)
    (hlt : (voiceOf s i).pos + 1 < (stepRecord s (voiceCue s i) (voiceOf s i).step).length) :
    steppedVoice s i = consumeFrame s (voiceOf s i) ∧ i ∉ endingSlots s := by
  have hframe := voiceFrame_within hfade hlt
  exact ⟨(steppedVoice_of_consumes hconsumes).trans (congrArg Prod.fst hframe), not_ending (congrArg Prod.snd hframe)⟩

/-- A consuming voice that moves to the next step of its walk. -/
theorem steppedVoice_moves {s : State} {i : Fin 16} {st ps : Nat} (hconsumes : (voiceOf s i).consumes = true)
    (hfade : (consumeFrame s (voiceOf s i)).fadeOver = false)
    (hle : (stepRecord s (voiceCue s i) (voiceOf s i).step).length ≤ (voiceOf s i).pos + 1)
    (hnext : nextStep (voiceCue s i) (voiceOf s i).onTail (voiceOf s i).step (voiceOf s i).passes = some (st, ps)) :
    steppedVoice s i = enterStep s (consumeFrame s (voiceOf s i)) st ps ∧ i ∉ endingSlots s := by
  have hframe := voiceFrame_moves hfade hle hnext
  exact ⟨(steppedVoice_of_consumes hconsumes).trans (congrArg Prod.fst hframe), not_ending (congrArg Prod.snd hframe)⟩

/-- A consuming voice whose walk is over ends. -/
theorem ending_of_walkEnd {s : State} {i : Fin 16} (hconsumes : (voiceOf s i).consumes = true)
    (hfade : (consumeFrame s (voiceOf s i)).fadeOver = false)
    (hle : (stepRecord s (voiceCue s i) (voiceOf s i).step).length ≤ (voiceOf s i).pos + 1)
    (hnext : nextStep (voiceCue s i) (voiceOf s i).onTail (voiceOf s i).step (voiceOf s i).passes = none) :
    i ∈ endingSlots s :=
  mem_endingSlots.mpr ⟨hconsumes, congrArg Prod.snd (voiceFrame_walkEnd hfade hle hnext)⟩

theorem ending_of_fadeOver {s : State} {i : Fin 16} (hconsumes : (voiceOf s i).consumes = true)
    (hfade : (consumeFrame s (voiceOf s i)).fadeOver = true) : i ∈ endingSlots s :=
  mem_endingSlots.mpr ⟨hconsumes, congrArg Prod.snd (voiceFrame_fadeOver hfade)⟩

theorem movedVoice_walk (v : Voice) (st ps : Nat) : (movedVoice v st ps).step = st ∧ (movedVoice v st ps).passes = ps ∧
    (movedVoice v st ps).pos = 0 ∧ (movedVoice v st ps).playCount = v.playCount ∧ (movedVoice v st ps).state = v.state :=
  ⟨rfl, rfl, rfl, rfl, rfl⟩

theorem enterStep_walk (s : State) (v : Voice) (st ps : Nat) : (enterStep s v st ps).step = st ∧ (enterStep s v st ps).passes = ps ∧
    (enterStep s v st ps).pos = 0 ∧ (enterStep s v st ps).playCount = v.playCount ∧ (enterStep s v st ps).state = v.state := by
  rw [enterStep_rampOnly s v st ps]
  exact movedVoice_walk v st ps

/-- The effective target of a voice at a step, from the voice that its ramp leaves. -/
theorem effectiveTarget_consumed (s : State) (v : Voice) (st : Nat) :
    effectiveTarget s { consumeFrame s v with step := st } = effectiveTarget s { rampAfter s v with step := st } := by
  have hramp := rampAfter_rampOnly s v
  rw [consumeFrame_eq]
  generalize rampAfter s v = w at *
  rw [hramp]
  rfl

/-- The ramp of a consuming voice that stays in its step is the one that its glide and its advance leave. -/
theorem steppedVoice_ramp_stays {s : State} {i : Fin 16} (hconsumes : (voiceOf s i).consumes = true) (hends : i ∉ endingSlots s)
    (h : ¬ (stepRecord s (voiceCue s i) (voiceOf s i).step).length ≤ (voiceOf s i).pos + 1) :
    sameRamp (rampAfter s (voiceOf s i)) (steppedVoice s i) := by
  have hfade : (consumeFrame s (voiceOf s i)).fadeOver = false :=
    Bool.eq_false_iff.mpr fun hover => hends (ending_of_fadeOver hconsumes hover)
  rw [(steppedVoice_within hconsumes hfade (Nat.lt_of_not_le h)).1]
  exact consumeFrame_ramp s _

/-- The voice after its move to another step, where it does not end. -/
theorem steppedVoice_moved {s : State} {i : Fin 16} (hconsumes : (voiceOf s i).consumes = true) (hends : i ∉ endingSlots s)
    (hmoved : (stepRecord s (voiceCue s i) (voiceOf s i).step).length ≤ (voiceOf s i).pos + 1) :
    ∃ st ps, steppedVoice s i = enterStep s (consumeFrame s (voiceOf s i)) st ps := by
  have hfade : (consumeFrame s (voiceOf s i)).fadeOver = false :=
    Bool.eq_false_iff.mpr fun hover => hends (ending_of_fadeOver hconsumes hover)
  cases hnext : nextStep (voiceCue s i) (voiceOf s i).onTail (voiceOf s i).step (voiceOf s i).passes with
  | none => exact absurd (ending_of_walkEnd hconsumes hfade hmoved hnext) hends
  | some w => exact ⟨w.1, w.2, (steppedVoice_moves hconsumes hfade hmoved hnext).1⟩

/-- The ramp of a voice whose step's effective target its ramp already has, or that fades. -/
theorem steppedVoice_ramp_kept {s : State} {i : Fin 16} (hconsumes : (voiceOf s i).consumes = true) (hends : i ∉ endingSlots s)
    (h : (voiceOf s i).path = .fade ∨
      effectiveTarget s { rampAfter s (voiceOf s i) with step := (steppedVoice s i).step } = (rampAfter s (voiceOf s i)).gainTarget) :
    sameRamp (rampAfter s (voiceOf s i)) (steppedVoice s i) := by
  by_cases hmoved : (stepRecord s (voiceCue s i) (voiceOf s i).step).length ≤ (voiceOf s i).pos + 1
  · obtain ⟨st, ps, hstep⟩ := steppedVoice_moved hconsumes hends hmoved
    rw [hstep, (enterStep_walk s _ st ps).1, ← effectiveTarget_consumed] at h
    rw [hstep, enterStep_keeps_ramp (h.imp (fun hp => (consumeFrame_walk s _).2.2.2.2.trans hp)
      fun ht => ht.trans (consumeFrame_ramp s _).2.1.symm)]
    exact consumeFrame_ramp s _
  · exact steppedVoice_ramp_stays hconsumes hends hmoved

/-- A voice that moves to a step of another effective target starts a glide of 240 frames (R43). -/
theorem steppedVoice_ramp_glides {s : State} {i : Fin 16} (hconsumes : (voiceOf s i).consumes = true) (hends : i ∉ endingSlots s)
    (hmoved : (stepRecord s (voiceCue s i) (voiceOf s i).step).length ≤ (voiceOf s i).pos + 1)
    (hpath : (voiceOf s i).path ≠ .fade)
    (hne : effectiveTarget s { rampAfter s (voiceOf s i) with step := (steppedVoice s i).step } ≠ (rampAfter s (voiceOf s i)).gainTarget) :
    (steppedVoice s i).gainNow = (rampAfter s (voiceOf s i)).gainNow ∧
      (steppedVoice s i).gainTarget = effectiveTarget s { rampAfter s (voiceOf s i) with step := (steppedVoice s i).step } ∧
      (steppedVoice s i).rampLeft = 240 ∧
      (steppedVoice s i).rampIncrement =
        ((effectiveTarget s { rampAfter s (voiceOf s i) with step := (steppedVoice s i).step } : Int) * 65536 -
          (rampAfter s (voiceOf s i)).gainNow).tdiv 240 := by
  obtain ⟨st, ps, hstep⟩ := steppedVoice_moved hconsumes hends hmoved
  obtain ⟨hnow, htarget, -, -⟩ := consumeFrame_ramp s (voiceOf s i)
  have hst : (steppedVoice s i).step = st := by rw [hstep, (enterStep_walk s _ st ps).1]
  rw [hst, ← effectiveTarget_consumed, ← htarget] at hne
  rw [hst, ← effectiveTarget_consumed, hstep,
    enterStep_glides (fun hp => hpath ((consumeFrame_walk s _).2.2.2.2.symm.trans hp)) hne, startRamp_gainTarget, startRamp_rampLeft,
    startRamp_gainNow, startRamp_increment (by decide), ← hnow]
  exact ⟨rfl, rfl, rfl, rfl⟩

/-! ## The walk's order (R31, R35) -/

theorem nextStep_walk (c : CueRecord) (step passes : Nat) : nextStep c false step passes =
    (if step = c.loopLast then
      if passes = 255 then some (c.loopFirst, 255)
      else if passes ≠ 0 then some (c.loopFirst, passes - 1)
      else if c.loopLast + 1 < c.stepCount then some (c.loopLast + 1, 0)
      else none
     else if step + 1 < c.stepCount then some (step + 1, passes) else none) := by
  by_cases hlast : step = c.loopLast
  · by_cases hzero : passes = 0
    · simp [nextStep, hlast, hzero, CueRecord.hasTail]
    · simp [nextStep, hlast, hzero, Nat.pos_of_ne_zero hzero]
  · simp [nextStep, hlast]

theorem nextStep_tail (c : CueRecord) (step passes : Nat) : nextStep c true step passes =
    (if c.loopLast < step then if step + 1 < c.stepCount then some (step + 1, passes) else none
     else if c.loopLast + 1 < c.stepCount then some (c.loopLast + 1, passes) else none) := by
  by_cases htail : c.loopLast < step
  · simp [nextStep, htail, CueRecord.inTail]
  · simp [nextStep, htail, CueRecord.inTail, CueRecord.hasTail]

/-- Settles O35. -/
theorem frameClockMixesAndSteps : Obligations.FrameClockMixesAndSteps := by
  refine ⟨fun s hmode hdue => ⟨frameClock (clocked s), congrArg Host.Outcome.next (frameClockBySource_timer hmode hdue),
      ?_, ?_, ?_, ?_, ?_, ?_, ?_, ?_, ?_⟩, fun zone s => ?_, fun c step passes => ⟨nextStep_walk c step passes, nextStep_tail c step passes⟩,
    fun v s => ⟨startTailGlide_none s, startTailGlide_same, fun h hne => ?_⟩⟩
  · rw [frameClockNow_frame]
  · intro o
    rw [frameClockNow_presented]
    exact ⟨rfl, rfl, rfl, mixOutput_clip s _⟩
  · intro h
    rw [frameClockNow_frame]
    exact mixPanel_clip h
  · intro i hconsumes hfade hlt
    obtain ⟨hstep, hends⟩ := steppedVoice_within hconsumes hfade hlt
    obtain ⟨hwalk, -, -⟩ := voiceOf_frameClockNow_passes hends
    obtain ⟨hpos, hplay, hst, hstate, -⟩ := consumeFrame_walk s (voiceOf s i)
    rw [hwalk.pos, hwalk.playCount, hwalk.step, hwalk.state, hstep]
    exact ⟨hpos, hplay, hst, hstate⟩
  · intro i hconsumes hfade hle
    cases hnext : nextStep (voiceCue s i) (decide ((voiceOf s i).path = .tail)) (voiceOf s i).step (voiceOf s i).passes with
    | none =>
      exact (voiceOf_frameClockNow_ends (ending_of_walkEnd hconsumes hfade hle hnext)).imp And.left And.left
    | some w =>
      obtain ⟨hstep, hends⟩ := steppedVoice_moves hconsumes hfade hle hnext
      obtain ⟨hwalk, -, -⟩ := voiceOf_frameClockNow_passes hends
      obtain ⟨-, hplay, -, hstate, -⟩ := consumeFrame_walk s (voiceOf s i)
      obtain ⟨h1, h2, h3, h4, h5⟩ := enterStep_walk s (consumeFrame s (voiceOf s i)) w.1 w.2
      rw [hwalk.pos, hwalk.playCount, hwalk.step, hwalk.state, hwalk.passes, hstep]
      exact ⟨h1, h2, h3, h4.trans hplay, h5.trans hstate⟩
  · intro hnone i hconsumes
    have hramp := frameClockNow_ramp hnone i
    rw [(voiceOf_frameClockNow_passes (hnone i)).1.step]
    refine ⟨fun h => ?_, fun hmoved hpath hne => ?_⟩
    · have hkept : sameRamp (rampAfter s (voiceOf s i)) (steppedVoice s i) :=
        h.elim (steppedVoice_ramp_stays hconsumes (hnone i)) (steppedVoice_ramp_kept hconsumes (hnone i))
      exact hkept.trans hramp
    · obtain ⟨h1, h2, h3, h4⟩ := steppedVoice_ramp_glides hconsumes (hnone i) hmoved hpath hne
      obtain ⟨k1, k2, k3, k4⟩ := hramp
      exact ⟨k1.trans h1, k2.trans h2, k3.trans h3, k4.trans h4⟩
  · intro i hidle
    have hends : i ∉ endingSlots s := fun hmem => Bool.false_ne_true (hidle.symm.trans (mem_endingSlots.mp hmem).1)
    have hstep : steppedVoice s i = voiceOf s i := if_neg (by rw [hidle]; exact Bool.false_ne_true)
    obtain ⟨hwalk, -, -⟩ := voiceOf_frameClockNow_passes hends
    rw [hwalk.pos, hwalk.state, hstep]
    exact ⟨rfl, rfl⟩
  · intro h
    rw [frameClockNow_frame]
    exact mixPanel_underrun h
  · rw [frameClockNow_frame]
    exact ⟨⟨rfl, rfl, rfl, rfl, rfl, rfl⟩, rfl, rfl, rfl, rfl, rfl, rfl, rfl, mixPanel_butFaults s⟩
  · rw [outputTotal_eq_sum]
    refine congrArg List.sum (List.map_congr_left fun i _ => ?_)
    refine if_congr feeds_iff ?_ rfl
    cases hframe : (voiceOf s i).frame with
    | none => rw [contribution_none hframe]
    | some x => rw [contribution_some hframe]
  · rw [startTailGlide_moves h hne]
    rfl

/-! ## RAMP_END and FADE_END (R38, R42) -/

theorem frameClockDue_timer {s : State} (hmode : s.wclk.mode ≠ .locked) (hdue : 5000 ≤ s.now - s.wclk.reference) :
    frameClockDue s = true := by
  rw [frameClockDue, timerDue_of hmode hdue]
  rfl

theorem startTailGlide_last {s : State} {v : Voice} (h : (startTailGlide s v).rampLeft = 1) :
    (startTailGlide s v).gainTarget = v.gainTarget := by
  cases hglide : v.tailGlide with
  | false => rw [startTailGlide_none s hglide]
  | true =>
    by_cases heq : effectiveTarget s v = v.gainTarget
    · rw [startTailGlide_same hglide heq]
    · rw [startTailGlide_moves hglide heq, startRamp_rampLeft] at h
      omega

theorem rampAfter_last {s : State} {v : Voice} (h : (startTailGlide s v).rampLeft = 1) :
    (rampAfter s v).gainNow = v.gainTarget * 65536 ∧ (rampAfter s v).rampLeft = 0 := by
  rw [rampAfter, advanceRamp, if_neg (by omega), if_pos h, startTailGlide_last h]
  exact ⟨rfl, rfl⟩

/-- Settles O36. -/
theorem rampAndFadeEnd : Obligations.RampAndFadeEnd := by
  intro i s hmode hdue hconsumes v left
  have hclock := frameClockBySource_timer hmode hdue
  have hclockDue := frameClockDue_timer hmode hdue
  have hramp : left = 1 → rampEnd i s = frameClockBySource s := fun h => by
    rw [rampEnd, hclockDue, hconsumes]
    exact if_pos (decide_eq_true h)
  have hfade : v.path = .fade → left ≤ 1 → fadeEnd i s = frameClockBySource s := fun hp h => by
    rw [fadeEnd, hclockDue, hconsumes]
    exact if_pos (fadeOver_iff.mpr ⟨hp, h⟩)
  refine ⟨fun h => ⟨congrArg Host.Outcome.next (hramp h), fun hnone hlt => ⟨rampEnd i s, rfl, ?_⟩⟩, fun h => ?_,
    fun hp h => ⟨congrArg Host.Outcome.next (hfade hp h), fun hstack => ⟨fadeEnd i s, rfl, ?_⟩⟩, fun h => ?_⟩
  · have hover : (consumeFrame s (voiceOf s i)).fadeOver = false :=
      Bool.eq_false_iff.mpr fun hover => hnone i (ending_of_fadeOver hconsumes hover)
    obtain ⟨hstep, hends⟩ := steppedVoice_within hconsumes hover hlt
    obtain ⟨hnow, -, hleft, -⟩ := frameClockNow_ramp hnone i
    obtain ⟨hnow', -, hleft', -⟩ := consumeFrame_ramp s (voiceOf s i)
    obtain ⟨hlast, hzero⟩ := rampAfter_last h
    rw [hramp h, hclock, hnow, hleft, (voiceOf_frameClockNow_passes hends).1.pos, hstep]
    exact ⟨hnow'.trans hlast, hleft'.trans hzero, (consumeFrame_walk s _).1⟩
  · refine congrArg Host.Outcome.next (if_neg fun hall => h ?_)
    rw [Bool.and_eq_true] at hall
    exact of_decide_eq_true hall.2
  · have hover : (consumeFrame s (voiceOf s i)).fadeOver = true := fadeOver_iff.mpr ⟨hp, h⟩
    rw [hfade hp h, hclock]
    have hcue : (steppedVoice s i).cue = (voiceOf s i).cue := by
      rw [steppedVoice_of_consumes hconsumes, voiceFrame_fadeOver hover, consumeFrame_eq]
    rcases voiceOf_frameClockNow_ends (ending_of_fadeOver hconsumes hover) with
      ⟨h1, h2, -, -, -, -, -, -, h3, h4, h5, -⟩ | ⟨-, e, he, -⟩
    · exact ⟨h1, h5, h3, h4, h2.trans hcue⟩
    · rw [hstack] at he
      exact absurd he List.not_mem_nil
  · refine congrArg Host.Outcome.next (if_neg fun hall => ?_)
    rw [Bool.and_eq_true] at hall
    obtain ⟨hp, hleft⟩ := fadeOver_iff.mp hall.2
    exact h.elim (fun h => h hp) (fun h => absurd hleft (Nat.not_le_of_lt h))

end Sys2Proof.Machine
end

