-- ==== Sys2Proof/Proofs/WordClocks.lean ====
section
/-!
The Word Clock Monitor (O37).
-/
namespace Sys2Proof.Machine
open Relation

/-! ## The Word Clock Monitor (R71 to R75) -/

theorem wordClockEdge_locked {s : State} (h : s.wclk.mode = .locked) : wordClockEdge s =
    if edgeInWindow s then edgeFrameClock s
    else if sinceReference s < halfPeriod then withWclk (fun w => { w with lastEdge := some s.now }) s else s := by
  simp only [wordClockEdge, h]

theorem wordClockEdge_lost {s : State} (h : s.wclk.mode = .lost) : wordClockEdge s =
    if recoveryAfterEdge s = 480 then relock s
    else withWclk (fun w => { w with recovery := recoveryAfterEdge s, lastEdge := some s.now }) s := by
  simp only [wordClockEdge, h]

theorem recoveryAfterEdge_first {s : State} (h : s.wclk.lastEdge = none) : recoveryAfterEdge s = s.wclk.recovery := by
  simp only [recoveryAfterEdge, h]

theorem recoveryAfterEdge_next {s : State} {e : Nat} (h : s.wclk.lastEdge = some e) : recoveryAfterEdge s =
    if 4750 ≤ s.now - e ∧ s.now - e ≤ 5250 then s.wclk.recovery + 1 else 0 := by
  simp only [recoveryAfterEdge, h]

theorem edgeInWindow_iff {s : State} : edgeInWindow s = true ↔
    s.wclk.mode = .locked ∧ 2500 ≤ s.now - s.wclk.reference ∧ s.now - s.wclk.reference ≤ 6250 := by
  rw [edgeInWindow, Bool.and_eq_true, Bool.and_eq_true, decide_eq_true_eq, decide_eq_true_eq, decide_eq_true_eq, and_assoc]
  exact Iff.rfl

/-- A frame clock of this moment after a change of the monitor: its record, and what the outputs present. -/
theorem frameClockNow_withWclk (f : WordClock → WordClock) (s : State) :
    (frameClockNow (withWclk f s)).wclk = { f s.wclk with reference := s.now } ∧
      (∀ o : Fin 4, (frameClockNow (withWclk f s)).outputs[o].presented = s.outputs[o].sum) ∧
      (frameClockNow (withWclk f s)).panel = mixPanel s := by
  rw [frameClockNow_eq]
  refine ⟨?_, fun o => ?_, ?_⟩
  · rw [frameClockNow_frame]
    rfl
  · rw [frameClockNow_presented]
    rfl
  · rw [frameClockNow_frame]
    rfl

/-- A raised fault flag is no other flag's. -/
theorem raise_other {f g : FaultFlag} (h : f.mask.getLsbD g.bit = false) (p : PanelPort) :
    (p.raise f).faultSet g = p.faultSet g := by
  unfold PanelPort.raise
  split
  · rfl
  · simp [PanelPort.faultSet, h]

theorem mixPanel_wclkLost (s : State) : (mixPanel s).faultSet .wclkLost = s.panel.faultSet .wclkLost := by
  have hunderrun := raise_other (f := .underrun) (g := .wclkLost) (by decide)
  have hclip := raise_other (f := .clip) (g := .wclkLost) (by decide)
  unfold mixPanel
  dsimp only
  split <;> split
  · exact (hclip _).trans (hunderrun _)
  · exact hclip _
  · exact hunderrun _
  · rfl

theorem substituteDue_of {s : State} (hmode : s.wclk.mode = .locked) (hdue : 6250 ≤ s.now - s.wclk.reference) :
    substituteDue s = true := by
  rw [substituteDue, Bool.and_eq_true]
  exact ⟨decide_eq_true hmode, decide_eq_true hdue⟩

/-- The frame clock of a substitute, which raises the miss count (R72). -/
def substituted (s : State) : State := frameClockNow (withWclk (fun w => { w with miss := w.miss + 1 }) s)

theorem substituted_spec (s : State) : (substituted s).wclk = { s.wclk with miss := s.wclk.miss + 1, reference := s.now } ∧
    ∀ o : Fin 4, (substituted s).outputs[o].presented = s.outputs[o].sum := by
  obtain ⟨hwclk, hout, -⟩ := frameClockNow_withWclk (fun w => { w with miss := w.miss + 1 }) s
  unfold substituted
  exact ⟨hwclk, hout⟩

theorem substituteFrameClock_misses {s : State} (hmode : s.wclk.mode = .locked) (hdue : 6250 ≤ s.now - s.wclk.reference)
    (hmiss : s.wclk.miss < 3) : substituteFrameClock s = substituted s :=
  (if_pos (substituteDue_of hmode hdue)).trans (if_neg (by omega))

theorem substituteFrameClock_loses {s : State} (hmode : s.wclk.mode = .locked) (hdue : 6250 ≤ s.now - s.wclk.reference)
    (hmiss : s.wclk.miss = 3) : substituteFrameClock s = loseWordClock (substituted s) :=
  (if_pos (substituteDue_of hmode hdue)).trans (if_pos hmiss)

/-- The monitor that the 480th good period leaves (R75). -/
theorem relock_spec (s : State) : (relock s).wclk.mode = .locked ∧ (relock s).wclk.miss = 0 ∧ (relock s).wclk.recovery = 0 ∧
    (relock s).wclk.reference = s.now ∧ (relock s).panel.faultSet .wclkLost = s.panel.faultSet .wclkLost ∧
    (s.now - s.wclk.reference < 2500 → (relock s).outputs = s.outputs ∧ (relock s).pool = s.pool) ∧
    (2500 ≤ s.now - s.wclk.reference → ∀ o : Fin 4, (relock s).outputs[o].presented = s.outputs[o].sum) := by
  by_cases hfull : 2500 ≤ s.now - s.wclk.reference
  · have hrelock : relock s = frameClockNow (withWclk (fun w => { w with
        mode := .locked, miss := 0, recovery := 0, lastEdge := some s.now }) s) := if_pos hfull
    obtain ⟨hwclk, hout, hpanel⟩ := frameClockNow_withWclk (fun w => { w with
        mode := .locked, miss := 0, recovery := 0, lastEdge := some s.now }) s
    rw [hrelock, hwclk, hpanel]
    exact ⟨rfl, rfl, rfl, rfl, mixPanel_wclkLost s, fun h => absurd hfull (Nat.not_le_of_lt h), fun _ => hout⟩
  · have hrelock : relock s = withWclk (fun w => { w with reference := s.now }) (withWclk (fun w => { w with
        mode := .locked, miss := 0, recovery := 0, lastEdge := some s.now }) s) := if_neg hfull
    rw [hrelock]
    exact ⟨rfl, rfl, rfl, rfl, rfl, fun _ => ⟨rfl, rfl⟩, fun h => absurd h hfull⟩

/-- Settles O37. -/
theorem wordClockEdgesAndSubstitutes : Obligations.WordClockEdgesAndSubstitutes := by
  refine fun s => ⟨fun hmode => ?_, fun hmode hearly => ?_, fun hmode hlow hhigh => ⟨wordClockEdge s, rfl, ?_⟩, fun hmode hfirst hrec => ?_,
    fun e hmode hedge hbad => ?_, fun e hmode hedge hlow hhigh => ⟨fun hrec => ?_, fun hrec => ?_⟩,
    fun hmode hdue => ⟨fun hmiss => ⟨substituteFrameClock s, rfl, ?_⟩, fun hmiss => ?_⟩⟩
  · exact congrArg Host.Outcome.next (by simp only [wordClockEdge, hmode])
  · refine congrArg Host.Outcome.next ((wordClockEdge_locked hmode).trans ((if_neg fun h => ?_).trans (if_pos hearly)))
    exact Nat.not_le_of_lt hearly (edgeInWindow_iff.mp h).2.1
  · obtain ⟨hwclk, hout, -⟩ := frameClockNow_withWclk (fun w => { w with miss := 0, lastEdge := some s.now }) s
    have hedge : wordClockEdge s = frameClockNow (withWclk (fun w => { w with miss := 0, lastEdge := some s.now }) s) :=
      (wordClockEdge_locked hmode).trans (if_pos (edgeInWindow_iff.mpr ⟨hmode, hlow, hhigh⟩))
    rw [hedge, hwclk]
    exact ⟨rfl, rfl, hmode, hout⟩
  · have hcount := recoveryAfterEdge_first hfirst
    refine congrArg Host.Outcome.next ((wordClockEdge_lost hmode).trans ((if_neg ?_).trans ?_))
    · rw [hcount]
      omega
    · rw [hcount]
      rfl
  · have hcount := (recoveryAfterEdge_next hedge).trans (if_neg hbad)
    refine congrArg Host.Outcome.next ((wordClockEdge_lost hmode).trans ((if_neg ?_).trans ?_))
    · rw [hcount]
      decide
    · rw [hcount]
      rfl
  · have hcount := (recoveryAfterEdge_next hedge).trans (if_pos ⟨hlow, hhigh⟩)
    refine congrArg Host.Outcome.next ((wordClockEdge_lost hmode).trans ((if_neg ?_).trans ?_))
    · rw [hcount]
      omega
    · rw [hcount]
      rfl
  · have hcount : recoveryAfterEdge s = 480 := by rw [recoveryAfterEdge_next hedge, if_pos ⟨hlow, hhigh⟩, hrec]
    have hrelocks : wordClockEdge s = relock s := (wordClockEdge_lost hmode).trans (if_pos hcount)
    have hnamed : wclkRelock s = wordClockEdge s := by
      refine if_pos ?_
      rw [Bool.and_eq_true]
      exact ⟨decide_eq_true hmode, decide_eq_true hcount⟩
    exact ⟨relock s, congrArg Host.Outcome.next (hnamed.trans hrelocks), congrArg Host.Outcome.next hrelocks, relock_spec s⟩
  · obtain ⟨hwclk, hout⟩ := substituted_spec s
    rw [substituteFrameClock_misses hmode hdue hmiss, hwclk]
    exact ⟨hmode, rfl, rfl, hout⟩
  · obtain ⟨hwclk, hout⟩ := substituted_spec s
    have hloses := substituteFrameClock_loses hmode hdue hmiss
    have hnamed : wclkLost s = substituteFrameClock s := if_pos (decide_eq_true hmiss)
    have hsub : exec .substituteFrameClock s = .next (substituteFrameClock s) := rfl
    have hlost : exec .wclkLost s = .next (wclkLost s) := rfl
    rw [hsub, hlost, hnamed, hloses]
    generalize substituted s = u at *
    have hpanel : (loseWordClock u).panel = u.panel.raise .wclkLost := rfl
    refine ⟨loseWordClock u, rfl, rfl, rfl, rfl, rfl, congrArg WordClock.reference hwclk, ?_, hout⟩
    rw [hpanel]
    exact (raise_spec u.panel .wclkLost).1

end Sys2Proof.Machine
end

