-- ==== Sys2Proof/Proofs/LineCommands.lean ====
section
/-!
The commands that queue frames (O44) and the refusals (O45).
-/
namespace Sys2Proof.Machine
open Relation

/-! ## The tests of the line commands (R177, R182 to R186) -/

section
variable {s : State} {args : Bool} {run : State → State × List Byte}

theorem lineTest_notActive (h : s.member.state ≠ .active) : tested (allowsLine s) args run s = (s, [4]) := by
  rw [allowsLine, decide_eq_false h, tested_of_not_allowed]

theorem lineTest_badArgument (h : s.member.state = .active) (hargs : args = false) : tested (allowsLine s) args run s = (s, [3]) := by
  rw [allowsLine, decide_eq_true h, hargs, tested_of_bad_argument]

theorem lineTest_passed (h : s.member.state = .active) (hargs : args = true) : tested (allowsLine s) args run s = run s := by
  rw [allowsLine, decide_eq_true h, hargs, tested_of_passed]

theorem queued_room (h : s.txq.entries.length < 4) : queued run s = run s := if_pos (decide_eq_true h)

theorem queued_full (h : 4 ≤ s.txq.entries.length) : queued run s = (s, [5]) :=
  if_neg fun hroom => Nat.not_lt_of_le h (of_decide_eq_true hroom)

end

theorem tooSoon_iff {s : State} {cue : BitVec 16} : tooSoon s cue = true ↔ txHoldsFire s cue = true ∨
    ∃ w, lastAccepted s cue.toNat = some w ∧ (s.stationClock - w).toNat < (cueRecord s cue.toNat).refire * 1000 := by
  rw [tooSoon, Bool.or_eq_true]
  refine or_congr Iff.rfl ?_
  cases h : lastAccepted s cue.toNat with
  | none => simp
  | some w => simp

theorem tooSoon_false {s : State} {cue : BitVec 16} (htx : txHoldsFire s cue = false)
    (h : ∀ w, lastAccepted s cue.toNat = some w → (cueRecord s cue.toNat).refire * 1000 ≤ (s.stationClock - w).toNat) :
    tooSoon s cue = false := by
  refine Bool.eq_false_iff.mpr fun hsoon => ?_
  rcases tooSoon_iff.mp hsoon with hq | ⟨w, hw, hlt⟩
  · exact Bool.false_ne_true (htx.symm.trans hq)
  · exact Nat.not_lt_of_le (h w hw) hlt

/-! ## FIRE, RELEASE, HUSH, ARM and CLOCK acted on -/

section
variable {s : State} {cue : BitVec 16} {trim mode mask profile clk op : Byte} {value : Triple}

theorem actFire_notActive (h : s.member.state ≠ .active) : act (.fire cue trim) s = (s, [4]) := by
  rw [act, actFire, lineTest_notActive h]

theorem actRelease_notActive (h : s.member.state ≠ .active) : act (.release cue mode) s = (s, [4]) := by
  rw [act, actRelease, lineTest_notActive h]

theorem actHush_notActive (h : s.member.state ≠ .active) : act (.hush mask) s = (s, [4]) := by
  rw [act, actHush, lineTest_notActive h]

theorem actArm_notActive (h : s.member.state ≠ .active) : act (.arm profile) s = (s, [4]) := by
  rw [act, actArm, lineTest_notActive h]

theorem actFire_unknown (h : s.member.state = .active) (hcue : knownCue s cue.toNat = false) :
    act (.fire cue trim) s = (s, [7]) := by
  rw [act, actFire, lineTest_passed h rfl]
  refine if_pos ?_
  rw [hcue]
  rfl

theorem actFire_known (h : s.member.state = .active) (hcue : knownCue s cue.toNat = true) :
    act (.fire cue trim) s = if tooSoon s cue = true then (s, [6]) else queued (placePanelFire cue trim) s := by
  rw [act, actFire, lineTest_passed h rfl]
  refine if_neg ?_
  rw [hcue]
  exact Bool.false_ne_true

theorem actFire_tooSoon (h : s.member.state = .active) (hcue : knownCue s cue.toNat = true) (hsoon : tooSoon s cue = true) :
    act (.fire cue trim) s = (s, [6]) := (actFire_known h hcue).trans (if_pos hsoon)

theorem actFire_goesOn (h : s.member.state = .active) (hcue : knownCue s cue.toNat = true) (hsoon : tooSoon s cue = false) :
    act (.fire cue trim) s = queued (placePanelFire cue trim) s :=
  (actFire_known h hcue).trans (if_neg (by rw [hsoon]; exact Bool.false_ne_true))

theorem actRelease_goesOn (h : s.member.state = .active) (hcue : cue.toNat < 1024) (hmode : mode.toNat < 3) :
    act (.release cue mode) s = queued (fun s => answerOk (bytes2 0) (placeFrame .panelPort (.release cue mode) s)) s :=
  lineTest_passed h (by rw [decide_eq_true hcue, decide_eq_true hmode]; rfl)

theorem actRelease_badArgument (h : s.member.state = .active) (hbad : 1024 ≤ cue.toNat ∨ 3 ≤ mode.toNat) :
    act (.release cue mode) s = (s, [3]) := by
  refine lineTest_badArgument h (Bool.eq_false_iff.mpr fun hall => ?_)
  rw [Bool.and_eq_true, decide_eq_true_eq, decide_eq_true_eq] at hall
  omega

theorem actHush_goesOn (h : s.member.state = .active) :
    act (.hush mask) s = queued (fun s => answerOk (bytes2 0) (placeFrame .panelPort (.hush mask) s)) s :=
  lineTest_passed h rfl

theorem actArm_goesOn (h : s.member.state = .active) (hprofile : profile.toNat < 8) :
    act (.arm profile) s = queued (placeArm profile) s := lineTest_passed h (decide_eq_true hprofile)

theorem actArm_badArgument (h : s.member.state = .active) (hbad : 8 ≤ profile.toNat) : act (.arm profile) s = (s, [3]) :=
  lineTest_badArgument h (decide_eq_false (Nat.not_lt_of_le hbad))

theorem actClock_of_lt (hclk : clk.toNat < 4) : act (.clock clk op value) s =
    tested (allowsLine s) (decide (op = 1) || decide (op = 2) || decide (op = 3)) (fun s =>
      if op ≠ 1 ∧ (clockOf s ⟨clk.toNat, hclk⟩).state = .unset then refuse .notSet s
      else queued (placeClock ⟨clk.toNat, hclk⟩ op value) s) s := dif_pos hclk

theorem actClock_of_le (hclk : 4 ≤ clk.toNat) :
    act (.clock clk op value) s = tested (allowsLine s) false (fun s => (s, [])) s := dif_neg (Nat.not_lt_of_le hclk)

theorem actClock_notActive (h : s.member.state ≠ .active) : act (.clock clk op value) s = (s, [4]) := by
  by_cases hclk : clk.toNat < 4
  · rw [actClock_of_lt hclk, lineTest_notActive h]
  · rw [actClock_of_le (Nat.le_of_not_lt hclk), lineTest_notActive h]

theorem actClock_badArgument (h : s.member.state = .active) (hbad : 4 ≤ clk.toNat ∨ (op ≠ 1 ∧ op ≠ 2 ∧ op ≠ 3)) :
    act (.clock clk op value) s = (s, [3]) := by
  by_cases hclk : clk.toNat < 4
  · obtain ⟨h1, h2, h3⟩ := hbad.resolve_left (Nat.not_le_of_lt hclk)
    rw [actClock_of_lt hclk, lineTest_badArgument h]
    rw [decide_eq_false h1, decide_eq_false h2, decide_eq_false h3]
    rfl
  · rw [actClock_of_le (Nat.le_of_not_lt hclk), lineTest_badArgument h rfl]

theorem actClock_load (h : s.member.state = .active) (hclk : clk.toNat < 4) :
    act (.clock clk 1 value) s = queued (placeClock ⟨clk.toNat, hclk⟩ 1 value) s := by
  refine (actClock_of_lt hclk).trans ((lineTest_passed h ?_).trans ?_)
  · rfl
  · exact if_neg fun hne => hne.1 rfl

theorem actClock_unset {k : Fin 4} (h : s.member.state = .active) (hclk : clk.toNat = k.val) (hop : op = 2 ∨ op = 3)
    (hset : (clockOf s k).state = .unset) : act (.clock clk op value) s = (s, [8]) := by
  have hlt : clk.toNat < 4 := hclk ▸ k.isLt
  obtain rfl : (⟨clk.toNat, hlt⟩ : Fin 4) = k := Fin.ext hclk
  have hargs : (decide (op = 1) || decide (op = 2) || decide (op = 3)) = true := by rcases hop with rfl | rfl <;> decide
  have hne : op ≠ 1 := by rcases hop with rfl | rfl <;> decide
  rw [actClock_of_lt hlt, lineTest_passed h hargs]
  exact if_pos ⟨hne, hset⟩

theorem actClock_goesOn {k : Fin 4} (h : s.member.state = .active) (hclk : clk.toNat = k.val) (hop : op = 2 ∨ op = 3)
    (hset : (clockOf s k).state ≠ .unset) : act (.clock clk op value) s = queued (placeClock k op value) s := by
  have hlt : clk.toNat < 4 := hclk ▸ k.isLt
  obtain rfl : (⟨clk.toNat, hlt⟩ : Fin 4) = k := Fin.ext hclk
  have hargs : (decide (op = 1) || decide (op = 2) || decide (op = 3)) = true := by rcases hop with rfl | rfl <;> decide
  rw [actClock_of_lt hlt, lineTest_passed h hargs]
  exact if_neg fun hunset => hset hunset.2

end

/-! ## The refusals (R177) -/

section
variable {s : State}

theorem fire_refused {cue : BitVec 16} {trim : Byte} {body : List Byte} (hready : panelReady s)
    (hact : act (.fire cue trim) (frameEnded s) = (frameEnded s, body)) :
    answersOnly s .fire (.fire cue trim) 0x02 body := answersOnly_of_act hready (fun _ => rfl) hact (by simp)

theorem release_refused {cue : BitVec 16} {mode : Byte} {body : List Byte} (hready : panelReady s)
    (hact : act (.release cue mode) (frameEnded s) = (frameEnded s, body)) :
    answersOnly s .release (.release cue mode) 0x03 body := answersOnly_of_act hready (fun _ => rfl) hact (by simp)

theorem hush_refused {mask : Byte} {body : List Byte} (hready : panelReady s)
    (hact : act (.hush mask) (frameEnded s) = (frameEnded s, body)) :
    answersOnly s .hush (.hush mask) 0x04 body := answersOnly_of_act hready (fun _ => rfl) hact (by simp)

theorem arm_refused {profile : Byte} {body : List Byte} (hready : panelReady s)
    (hact : act (.arm profile) (frameEnded s) = (frameEnded s, body)) :
    answersOnly s .arm (.arm profile) 0x05 body := answersOnly_of_act hready (fun _ => rfl) hact (by simp)

theorem clock_refused {clk op : Byte} {value : Triple} {body : List Byte} (hready : panelReady s)
    (hact : act (.clock clk op value) (frameEnded s) = (frameEnded s, body)) :
    answersOnly s .clock (.clock clk op value) 0x06 body := answersOnly_of_act hready (fun _ => rfl) hact (by simp)

end

/-- Settles O45. -/
theorem refusedCommandsChangeNothing : Obligations.RefusedCommandsChangeNothing := by
  intro s hready fired released hushed armed clocked
  refine ⟨fun hstate cue a b c value => ⟨fire_refused hready (actFire_notActive (s := frameEnded s) hstate),
      release_refused hready (actRelease_notActive (s := frameEnded s) hstate),
      hush_refused hready (actHush_notActive (s := frameEnded s) hstate),
      arm_refused hready (actArm_notActive (s := frameEnded s) hstate),
      clock_refused hready (actClock_notActive (s := frameEnded s) hstate)⟩, fun hstate cue a b c value => ?_⟩
  have hactive : (frameEnded s).member.state = .active := hstate
  refine ⟨fun h => release_refused hready (actRelease_badArgument hactive h), fun h => arm_refused hready (actArm_badArgument hactive h),
    fun h => clock_refused hready (actClock_badArgument hactive h), fun h => fire_refused hready (actFire_unknown hactive h),
    fun k hk hop hset => clock_refused hready (actClock_unset hactive hk hop hset),
    fun hcue hsoon => fire_refused hready (actFire_tooSoon hactive hcue (tooSoon_iff.mpr hsoon)), fun hfull => ?_⟩
  have hfull' : 4 ≤ (frameEnded s).txq.entries.length := hfull
  exact ⟨hush_refused hready ((actHush_goesOn hactive).trans (queued_full hfull')),
    fun h => arm_refused hready ((actArm_goesOn hactive h).trans (queued_full hfull')),
    fun hcue hmode => release_refused hready ((actRelease_goesOn hactive hcue hmode).trans (queued_full hfull')),
    fun h => clock_refused hready ((actClock_load hactive h).trans (queued_full hfull')),
    fun k hk hop hset => clock_refused hready ((actClock_goesOn hactive hk hop hset).trans (queued_full hfull')),
    fun hcue htx hrefire =>
      fire_refused hready ((actFire_goesOn hactive hcue (tooSoon_false htx hrefire)).trans (queued_full hfull'))⟩

/-! ## The frames that the commands place (R148, R182 to R186) -/

/-- A command's frame stands at the end of the transmit queue, and beside it the Panel Port alone, and of an ARM the Lockout Unit
too, may differ. -/
def commandPlaces (s t : State) (p : Producer) (f : LineFrame) : Prop :=
  t.txq.entries = s.txq.entries ++
    [{ frame := encodeFrame (ownNumber s) f, producer := p, cls := f.kind.cls, seq := s.txq.nextSeq, fails := 0,
       withdrawn := false, placedAt := s.now }] ∧
    t = { s with txq := t.txq, panel := t.panel, lockout := t.lockout } ∧ (p ≠ .lockoutUnit → t.lockout = s.lockout)

theorem commandPlaces_of_placed {s t u : State} {p : Producer} {f : LineFrame} (ht : t = { placeFrame p f u with panel := t.panel })
    (hu : u = { s with panel := u.panel, lockout := u.lockout }) (hlockout : p ≠ .lockoutUnit → u.lockout = s.lockout) :
    commandPlaces s t p f := by
  have htxq : u.txq = s.txq := by rw [hu]
  have hnow : u.now = s.now := by rw [hu]
  have hown : ownNumber u = ownNumber s := by rw [hu]; rfl
  refine ⟨?_, ?_, fun hp => ?_⟩
  · rw [ht, ← htxq, ← hnow, ← hown]
    rfl
  · rw [ht, hu]
    rfl
  · rw [ht]
    exact hlockout hp

/-- A command whose act places a frame: its frame stands in the queue, and its answer in the slot. -/
theorem exec_places {i : Instr} {c : PanelCommand} {frame : List RawChar} {s u : State} {p : Producer} {f : LineFrame}
    {body : List Byte} (hready : panelReady s) (hc : judgeCommand frame = some c)
    (hrow : exec i s = .next (receiveFrame c.row frame s)) (hact : act c (frameEnded s) = (placeFrame p f u, body))
    (hu : u = { s with panel := u.panel, lockout := u.lockout }) (hrx : u.panel.rx = .hunting)
    (hlockout : p ≠ .lockoutUnit → u.lockout = s.lockout) (hload : c ≠ .reload) :
    ∃ t, exec i s = .next t ∧ commandPlaces s t p f ∧ t.lockout = u.lockout ∧ t.panel.fireCounter = u.panel.fireCounter ∧
      t.clocks = s.clocks ∧ t.panel.answer = some { kind := c.code, body := body, reload := false } := by
  obtain ⟨t, hexec, ht, hpanel, -, -⟩ := exec_of_act hready hc hrow hact hrx hload
  refine ⟨t, hexec, commandPlaces_of_placed ht hu hlockout, ?_, ?_, ?_, ?_⟩
  · rw [ht]
    rfl
  · rw [hpanel]
    rfl
  · rw [ht, hu]
    rfl
  · rw [hpanel]

/-- The frame of a CLOCK command (R106). -/
theorem placeClock_eq {s : State} {k : Fin 4} {clk op : Byte} (hclk : clk.toNat = k.val) (value : Triple) :
    placeClock k op value s =
      (placeFrame .clockUnit (.clock clk op (if op = 1 then (clockOf s k).epoch + 1 else (clockOf s k).epoch)
        (if op = 1 then value else (clockOf s k).value)) s,
       [0, if op = 1 then (clockOf s k).epoch + 1 else (clockOf s k).epoch] ++
        bytes3 (if op = 1 then value else (clockOf s k).value)) := by
  have hnumber : nat1 k.val = clk := by rw [nat1, ← hclk, BitVec.ofNat_toNat, BitVec.setWidth_eq]
  rw [placeClock, hnumber]
  rfl

/-- Settles O44. -/
theorem lineCommandsQueueFrames : Obligations.LineCommandsQueueFrames := by
  intro s hready hstate hroom placed
  have hactive : (frameEnded s).member.state = .active := hstate
  have hroom' : (frameEnded s).txq.entries.length < 4 := hroom
  refine ⟨fun cue trim frame hc hcue htx hrefire => ?_, fun cue mode frame hc hcue hmode => ?_, fun mask frame hc => ?_,
    fun profile frame hc hprofile => ?_, fun c clk op value frame hc hclk => ⟨fun hop => ?_, fun hop hset => ?_⟩⟩
  · have hact := (actFire_goesOn (trim := trim) hactive hcue (tooSoon_false htx hrefire)).trans (queued_room hroom')
    obtain ⟨t, hexec, hplaced, -, hcounter, -, hanswer⟩ :=
      exec_places (i := .fire frame) hready hc rfl hact rfl rfl (fun _ => rfl) (by simp)
    exact ⟨t, hexec, hplaced, hcounter, hanswer⟩
  · have hact := (actRelease_goesOn hactive hcue hmode).trans (queued_room hroom')
    obtain ⟨t, hexec, hplaced, -, -, -, hanswer⟩ :=
      exec_places (i := .release frame) hready hc rfl hact rfl rfl (fun _ => rfl) (by simp)
    exact ⟨t, hexec, hplaced, hanswer⟩
  · have hact := (actHush_goesOn (mask := mask) hactive).trans (queued_room hroom')
    obtain ⟨t, hexec, hplaced, -, -, -, hanswer⟩ :=
      exec_places (i := .hush frame) hready hc rfl hact rfl rfl (fun _ => rfl) (by simp)
    exact ⟨t, hexec, hplaced, hanswer⟩
  · have hact := (actArm_goesOn hactive hprofile).trans (queued_room hroom')
    obtain ⟨t, hexec, hplaced, hlockout, -, -, hanswer⟩ :=
      exec_places (i := .arm frame) hready hc rfl hact rfl rfl (fun hp => absurd rfl hp) (by simp)
    exact ⟨t, hexec, hplaced, hlockout, hanswer⟩
  · subst hop
    have hlt : clk.toNat < 4 := hclk ▸ c.isLt
    obtain rfl : (⟨clk.toNat, hlt⟩ : Fin 4) = c := Fin.ext hclk
    have hact := ((actClock_load (value := value) hactive hlt).trans (queued_room hroom')).trans (placeClock_eq rfl value)
    obtain ⟨t, hexec, hplaced, -, -, hclocks, hanswer⟩ :=
      exec_places (i := .clock frame) hready hc rfl hact rfl rfl (fun _ => rfl) (by simp)
    exact ⟨t, hexec, hplaced, hclocks, hanswer⟩
  · have hne : op ≠ 1 := by rcases hop with rfl | rfl <;> decide
    have hact := ((actClock_goesOn (value := value) hactive hclk hop hset).trans (queued_room hroom')).trans (placeClock_eq hclk value)
    rw [if_neg hne, if_neg hne] at hact
    obtain ⟨t, hexec, hplaced, -, -, hclocks, hanswer⟩ :=
      exec_places (i := .clock frame) hready hc rfl hact rfl rfl (fun _ => rfl) (by simp)
    exact ⟨t, hexec, hplaced, hclocks, hanswer⟩

end Sys2Proof.Machine
end

