-- ==== Sys2Proof/Proofs/Reads.lean ====
section
/-!
The reading commands (O46).
-/
namespace Sys2Proof.Machine
open Relation

/-! ## The tests of the reading commands (R177, R187) -/

section
variable {s : State} {args : Bool} {run : State → State × List Byte}

theorem readTest_refused (h : ¬ readsAllowed s) : tested (allowsReads s) args run s = (s, [4]) := by
  rw [allowsReads_eq_false h, tested_of_not_allowed]

theorem readTest_badArgument (h : readsAllowed s) (hargs : args = false) : tested (allowsReads s) args run s = (s, [3]) := by
  rw [(allowsReads_iff s).mpr h, hargs, tested_of_bad_argument]

theorem readTest_passed (h : readsAllowed s) (hargs : args = true) : tested (allowsReads s) args run s = run s := by
  rw [(allowsReads_iff s).mpr h, hargs, tested_of_passed]

end

/-- An argument below a bank's size is the number it names. -/
theorem ofNat_of_eq {n : Nat} [NeZero n] {x : Nat} {i : Fin n} (h : x = i.val) : Fin.ofNat n x = i := by
  rw [h]
  exact Fin.ofNat_val_eq_self i

/-! ## The bits of a character, as a sum -/

theorem bitIf_zero (b : Bool) : bitIf b 0 = if b then 1 else 0 := rfl

/-- Two flags in the two low bits. -/
theorem twoBits_eq_sum (a b : Bool) : bitIf a 0 ||| bitIf b 1 = (if a then 1 else 0) + (if b then 2 else 0) := by
  cases a <;> cases b <;> rfl

/-- Two flags under a set third bit. -/
theorem threeBits_eq_sum (a b : Bool) :
    bitIf a 0 ||| bitIf b 1 ||| bitIf true 2 = (if a then 1 else 0) + (if b then 2 else 0) + 4 := by
  cases a <;> cases b <;> rfl

theorem firedData_eq_sum (r : ClockRecord) : firedData r = (if r.fired[0] then 1 else 0) + (if r.fired[1] then 2 else 0) +
    (if r.fired[2] then 4 else 0) + (if r.fired[3] then 8 else 0) := by
  unfold firedData
  generalize r.fired[0] = a
  generalize r.fired[1] = b
  generalize r.fired[2] = c
  generalize r.fired[3] = d
  cases a <;> cases b <;> cases c <;> cases d <;> rfl

/-! ## The data of the records (Tables 12-5 and 12-6) -/

theorem useFree_false (s : State) : useFree false s = s := rfl

theorem cursorData_some (free : Nat → Byte) (x : Cursor) :
    cursorData free (some x) = [nat1 x.step] ++ nat3 x.pos ++ [nat1 x.passes] := rfl

theorem voiceData_cursor {v : Voice} {x : Cursor} (h : v.cursor = some x) (free : Nat → Byte) : voiceData free v =
    [v.state.code, (if v.primed then 1 else 0) + (if v.ducked then 2 else 0) + 4] ++ nat2 v.cue ++ [nat1 v.level] ++
      bytes4 v.fireOrder ++ [v.trim, nat1 v.step] ++ nat3 v.pos ++ [nat1 v.passes, v.path.code, nat1 v.gain, nat1 v.gainTarget] ++
      bytes4 (BitVec.ofInt 32 v.rampIncrement) ++ nat3 v.rampLeft ++ nat2 v.buffer0.frames.length ++
      nat2 v.buffer1.frames.length ++ ([nat1 x.step] ++ nat3 x.pos ++ [nat1 x.passes]) := by
  rw [voiceData, h, cursorData_some, Option.isSome_some, threeBits_eq_sum]

theorem peerData_eq (p : Peer) : peerData p = [p.state.code] ++ bytes4 p.identity ++ bytes4 p.signature ++
    (if p.lastHeard = none then [0, 0, 0, 0, 0] else 1 :: bytes4 (p.lastHeard.getD 0)) := by
  unfold peerData
  cases p.lastHeard <;> rfl

theorem roundData_identity {s : State} {id : Byte × Byte} (h : s.lockout.round.identity = some id) (free : Nat → Byte) :
    roundData free s = [s.lockout.round.state.code, id.1, id.2, nat1 s.lockout.round.profile] ++ nat3 (roundTime s) ++
      [nat1 s.lockout.round.claims.length] ++ nat2 s.lockout.round.excluded.length ++ verdictData s.lockout.round.verdict ++
      [(if s.lockout.round.source = .line then 1 else 0) + (if s.lockout.round.differed then 2 else 0)] ++
      s.lockout.round.press.toList.map PressState.code ++ s.lockout.round.late.toList.flatMap nat2 := by
  have hid : identityData free s.lockout.round.identity = [id.1, id.2] := by rw [h]; rfl
  have hflags := twoBits_eq_sum (decide (s.lockout.round.source = .line)) s.lockout.round.differed
  simp only [decide_eq_true_eq] at hflags
  simp only [roundData, hid, hflags, List.append_assoc, List.cons_append, List.nil_append]

/-! ## The reading commands acted on -/

section
variable {s : State} {x : Byte}

theorem actReadVoice_refused (h : ¬ readsAllowed s) : act (.readVoice x) s = (s, [4]) := by
  rw [act, actReadVoice, readTest_refused h]

theorem actReadStack_refused (h : ¬ readsAllowed s) : act (.readStack x) s = (s, [4]) := by
  rw [act, actReadStack, readTest_refused h]

theorem actReadRound_refused (h : ¬ readsAllowed s) : act .readRound s = (s, [4]) := by
  rw [act, actReadRound, readTest_refused h]

theorem actReadClaim_refused (h : ¬ readsAllowed s) : act (.readClaim x) s = (s, [4]) := by
  rw [act, actReadClaim, readTest_refused h]

theorem actReadPeer_refused (h : ¬ readsAllowed s) : act (.readPeer x) s = (s, [4]) := by
  rw [act, actReadPeer, readTest_refused h]

theorem actReadClock_refused (h : ¬ readsAllowed s) : act (.readClock x) s = (s, [4]) := by
  rw [act, actReadClock, readTest_refused h]

theorem actReadOutput_refused (h : ¬ readsAllowed s) : act (.readOutput x) s = (s, [4]) := by
  rw [act, actReadOutput, readTest_refused h]

theorem actReadVoice_badArgument (h : readsAllowed s) (hx : 16 ≤ x.toNat) : act (.readVoice x) s = (s, [3]) := by
  rw [act, actReadVoice, readTest_badArgument h (decide_eq_false (Nat.not_lt_of_le hx))]

theorem actReadStack_badArgument (h : readsAllowed s) (hx : 8 ≤ x.toNat) : act (.readStack x) s = (s, [3]) := by
  rw [act, actReadStack, readTest_badArgument h (decide_eq_false (Nat.not_lt_of_le hx))]

theorem actReadClaim_badArgument (h : readsAllowed s) (hx : 32 ≤ x.toNat) : act (.readClaim x) s = (s, [3]) := by
  rw [act, actReadClaim, readTest_badArgument h (decide_eq_false (Nat.not_lt_of_le hx))]

theorem actReadPeer_badArgument (h : readsAllowed s) (hx : 32 ≤ x.toNat) : act (.readPeer x) s = (s, [3]) := by
  rw [act, actReadPeer, readTest_badArgument h (decide_eq_false (Nat.not_lt_of_le hx))]

theorem actReadClock_badArgument (h : readsAllowed s) (hx : 4 ≤ x.toNat) : act (.readClock x) s = (s, [3]) := by
  rw [act, actReadClock, readTest_badArgument h (decide_eq_false (Nat.not_lt_of_le hx))]

theorem actReadOutput_badArgument (h : readsAllowed s) (hx : 4 ≤ x.toNat) : act (.readOutput x) s = (s, [3]) := by
  rw [act, actReadOutput, readTest_badArgument h (decide_eq_false (Nat.not_lt_of_le hx))]

theorem actReadVoice_cursor {i : Fin 16} {c : Cursor} (h : readsAllowed s) (hx : x.toNat = i.val)
    (hc : (voiceOf s i).cursor = some c) :
    act (.readVoice x) s = (s, 0 :: voiceData (freeCharacters s) (voiceOf s i)) := by
  rw [act, actReadVoice, readTest_passed h (decide_eq_true (hx ▸ i.isLt)), ofNat_of_eq hx, answerOk, hc]
  rfl

theorem actReadStack_answers (h : readsAllowed s) (hx : x.toNat < 8) :
    act (.readStack x) s = (s, 0 :: stackData s.pool.stack[x.toNat]?) := by
  rw [act, actReadStack, readTest_passed h (decide_eq_true hx)]
  rfl

theorem actReadRound_identity {id : Byte × Byte} (h : readsAllowed s) (hid : s.lockout.round.identity = some id) :
    act .readRound s = (s, 0 :: roundData (freeCharacters s) s) := by
  rw [act, actReadRound, readTest_passed h rfl, answerOk, hid]
  rfl

theorem actReadClaim_answers (h : readsAllowed s) (hx : x.toNat < 32) :
    act (.readClaim x) s = (s, 0 :: claimData s.lockout.round.claims[x.toNat]?) := by
  rw [act, actReadClaim, readTest_passed h (decide_eq_true hx)]
  rfl

theorem actReadPeer_answers {n : Fin 32} (h : readsAllowed s) (hx : x.toNat = n.val) :
    act (.readPeer x) s = (s, 0 :: peerData s.member.peers[n]) := by
  rw [act, actReadPeer, readTest_passed h (decide_eq_true (hx ▸ n.isLt))]
  obtain rfl := ofNat_of_eq hx
  rfl

theorem actReadClock_answers {c : Fin 4} (h : readsAllowed s) (hx : x.toNat = c.val) :
    act (.readClock x) s = (s, 0 :: clockData (clockOf s c)) := by
  rw [act, actReadClock, readTest_passed h (decide_eq_true (hx ▸ c.isLt)), ofNat_of_eq hx]
  rfl

theorem actReadOutput_answers {o : Fin 4} (h : readsAllowed s) (hx : x.toNat = o.val) :
    act (.readOutput x) s = (s, 0 :: outputData s.outputs[o]) := by
  rw [act, actReadOutput, readTest_passed h (decide_eq_true (hx ▸ o.isLt))]
  obtain rfl := ofNat_of_eq hx
  rfl

end

/-! ## READ_VOICE to READ_OUTPUT (R187) -/

section
variable {s : State} {body : List Byte}

theorem readVoice_answers {x : Byte} (hready : panelReady s) (hact : act (.readVoice x) (frameEnded s) = (frameEnded s, body)) :
    answersOnly s .readVoice (.readVoice x) 0x10 body := answersOnly_of_act hready (fun _ => rfl) hact (by simp)

theorem readStack_answers {x : Byte} (hready : panelReady s) (hact : act (.readStack x) (frameEnded s) = (frameEnded s, body)) :
    answersOnly s .readStack (.readStack x) 0x11 body := answersOnly_of_act hready (fun _ => rfl) hact (by simp)

theorem readRound_answers (hready : panelReady s) (hact : act .readRound (frameEnded s) = (frameEnded s, body)) :
    answersOnly s .readRound .readRound 0x12 body := answersOnly_of_act hready (fun _ => rfl) hact (by simp)

theorem readClaim_answers {x : Byte} (hready : panelReady s) (hact : act (.readClaim x) (frameEnded s) = (frameEnded s, body)) :
    answersOnly s .readClaim (.readClaim x) 0x13 body := answersOnly_of_act hready (fun _ => rfl) hact (by simp)

theorem readPeer_answers {x : Byte} (hready : panelReady s) (hact : act (.readPeer x) (frameEnded s) = (frameEnded s, body)) :
    answersOnly s .readPeer (.readPeer x) 0x14 body := answersOnly_of_act hready (fun _ => rfl) hact (by simp)

theorem readClock_answers {x : Byte} (hready : panelReady s) (hact : act (.readClock x) (frameEnded s) = (frameEnded s, body)) :
    answersOnly s .readClock (.readClock x) 0x15 body := answersOnly_of_act hready (fun _ => rfl) hact (by simp)

theorem readOutput_answers {x : Byte} (hready : panelReady s) (hact : act (.readOutput x) (frameEnded s) = (frameEnded s, body)) :
    answersOnly s .readOutput (.readOutput x) 0x16 body := answersOnly_of_act hready (fun _ => rfl) hact (by simp)

end

/-- Settles O46. -/
theorem readsAnswerTheRecord : Obligations.ReadsAnswerTheRecord := by
  refine ⟨fun s hready hreads => ?_, fun s x hready hrefused => ?_⟩
  · have hallowed : readsAllowed (frameEnded s) := hreads
    refine ⟨fun i slot x hslot hcursor => ?_, fun index hindex hnone => ?_, fun index x hindex hentry => ?_, fun id hid => ?_,
      fun index hindex hnone => ?_, fun index x hindex hclaim => ?_, fun n station hn => ?_, fun c clk hc => ?_, fun o output ho => ?_,
      fun x => ⟨fun h => readVoice_answers hready (actReadVoice_badArgument hallowed h),
        fun h => readStack_answers hready (actReadStack_badArgument hallowed h),
        fun h => readClaim_answers hready (actReadClaim_badArgument hallowed h),
        fun h => readPeer_answers hready (actReadPeer_badArgument hallowed h),
        fun h => readClock_answers hready (actReadClock_badArgument hallowed h),
        fun h => readOutput_answers hready (actReadOutput_badArgument hallowed h)⟩⟩
    · refine readVoice_answers hready ((actReadVoice_cursor hallowed hslot hcursor).trans ?_)
      rw [voiceData_cursor (v := voiceOf (frameEnded s) i) hcursor]
      simp only [nat1, nat2, nat3, Voice.gain, List.append_assoc, List.cons_append, List.nil_append]
      rfl
    · have hact := actReadStack_answers hallowed hindex
      rw [show (frameEnded s).pool.stack[index.toNat]? = none from List.getElem?_eq_none hnone] at hact
      exact readStack_answers hready hact
    · have hact := actReadStack_answers hallowed hindex
      rw [show (frameEnded s).pool.stack[index.toNat]? = some x from hentry] at hact
      exact readStack_answers hready hact
    · refine readRound_answers hready ((actReadRound_identity hallowed hid).trans ?_)
      rw [roundData_identity (s := frameEnded s) hid]
      rfl
    · have hact := actReadClaim_answers hallowed hindex
      rw [show (frameEnded s).lockout.round.claims[index.toNat]? = none from List.getElem?_eq_none hnone] at hact
      exact readClaim_answers hready hact
    · have hact := actReadClaim_answers hallowed hindex
      rw [show (frameEnded s).lockout.round.claims[index.toNat]? = some x from hclaim] at hact
      exact readClaim_answers hready hact
    · have hact := actReadPeer_answers hallowed hn
      rw [peerData_eq] at hact
      exact readPeer_answers hready hact
    · have hact := actReadClock_answers hallowed hc
      rw [clockData, firedData_eq_sum] at hact
      exact readClock_answers hready hact
    · exact readOutput_answers hready (actReadOutput_answers hallowed ho)
  · have hrefused' : ¬ readsAllowed (frameEnded s) := hrefused
    exact ⟨readVoice_answers hready (actReadVoice_refused hrefused'), readStack_answers hready (actReadStack_refused hrefused'),
      readRound_answers hready (actReadRound_refused hrefused'), readClaim_answers hready (actReadClaim_refused hrefused'),
      readPeer_answers hready (actReadPeer_refused hrefused'), readClock_answers hready (actReadClock_refused hrefused'),
      readOutput_answers hready (actReadOutput_refused hrefused')⟩

end Sys2Proof.Machine
end

