-- ==== Sys2Proof/Proofs/PanelFrames.lean ====
section
/-!
The answer slot and the transmitter (O51), and frames with errors (O53).
-/
namespace Sys2Proof.Machine
open Relation

/-! ## Fields and their characters (R192) -/

theorem bytes2_field2 (a b : Byte) : bytes2 (field2 a b) = [a, b] := by
  have high : BitVec.extractLsb' 8 8 (a ++ b) = a := BitVec.extractLsb'_append_eq_left
  have low : BitVec.extractLsb' 0 8 (a ++ b) = b := BitVec.extractLsb'_append_eq_right
  exact congrArg₂ (fun x y => [x, y]) high low

theorem bytes3_field3 (a b c : Byte) : bytes3 (field3 a b c) = [a, b, c] := by
  have high : BitVec.extractLsb' 16 8 (a ++ b ++ c) = a := by
    refine BitVec.eq_of_getLsbD_eq fun i hi => ?_
    rw [BitVec.getLsbD_extractLsb', BitVec.getLsbD_append, if_neg (by omega), BitVec.getLsbD_append, if_neg (by omega),
      show 16 + i - 8 - 8 = i by omega, decide_eq_true hi, Bool.true_and]
  have mid : BitVec.extractLsb' 8 8 (a ++ b ++ c) = b := by
    refine BitVec.eq_of_getLsbD_eq fun i hi => ?_
    rw [BitVec.getLsbD_extractLsb', BitVec.getLsbD_append, if_neg (by omega), BitVec.getLsbD_append, if_pos (by omega),
      show 8 + i - 8 = i by omega, decide_eq_true hi, Bool.true_and]
  have low : BitVec.extractLsb' 0 8 (a ++ b ++ c) = c := BitVec.extractLsb'_append_eq_right
  show [BitVec.extractLsb' 16 8 (a ++ b ++ c), BitVec.extractLsb' 8 8 (a ++ b ++ c), BitVec.extractLsb' 0 8 (a ++ b ++ c)] = [a, b, c]
  rw [high, mid, low]

/-- The check brings the sum of a frame's characters to its value (R135, R193). -/
theorem charSum_withCheck (fixed : Byte) (l : List Byte) : charSum (withCheck fixed l) = fixed := by
  rw [withCheck, charSum, List.foldl_append]
  show charSum l + (fixed - charSum l) = fixed
  rw [BitVec.add_comm, BitVec.sub_add_cancel]

/-! ## The completion of a command (R174, R175) -/

theorem exec_ownRow {c : PanelCommand} (h : c.row ≠ .badCommand) (frame : List RawChar) (s : State) :
    exec (commandInstr c frame) s = .next (receiveFrame c.row frame s) := by
  cases c with
  | badCommand _ => exact absurd rfl h
  | _ => rfl

/-- A character that names no command is judged by itself (R174). -/
theorem single_of_badCommand {frame : List RawChar} {kind : Byte} (h : judgeCommand frame = some (.badCommand kind)) :
    ∃ code, frame = [code] := by
  have hparse : ∀ (code : Byte) (body : List Byte), parseCommand code body ≠ some (.badCommand kind) := fun code body h => by
    unfold parseCommand at h
    repeat' split at h
    all_goals cases h
  cases frame with
  | nil => exact nomatch h
  | cons code rest =>
    cases rest with
    | nil => exact ⟨code, rfl⟩
    | cons x rest =>
      simp only [judgeCommand, judgeChars, judgeWhole, List.map_cons, List.isEmpty_cons, Bool.false_eq_true, if_false] at h
      repeat' split at h
      all_goals first | cases h | exact absurd h (hparse _ _)

/-- The row that a completed command's frame comes with. -/
theorem exec_commandInstr {c : PanelCommand} {frame : List RawChar} (h : judgeCommand frame = some c) (s : State) :
    exec (commandInstr c frame) s = .next (receiveFrame c.row frame s) := by
  cases c with
  | badCommand kind =>
    obtain ⟨code, rfl⟩ := single_of_badCommand h
    rfl
  | _ => rfl

theorem receiveFrame_own {c : PanelCommand} {frame : List RawChar} (h : judgeCommand frame = some c) (s : State) :
    receiveFrame c.row frame s = receiveCommand c s := by
  simp only [receiveFrame, h, if_true]

theorem receiveFrame_other {c : PanelCommand} {row : CommandRow} {frame : List RawChar} (h : judgeCommand frame = some c)
    (hrow : row ≠ c.row) (s : State) : receiveFrame row frame s = s := by
  simp only [receiveFrame, h, if_neg (Ne.symm hrow)]

section
variable {c : PanelCommand} {s : State}

theorem receiveCommand_hunting (h : s.panel.rx = .hunting) : receiveCommand c s = s :=
  if_neg (by rw [h]; decide)

theorem receiveCommand_acts (h : s.panel.rx = .assembling) (hslot : s.panel.answer = none) :
    receiveCommand c s = actNow c (frameEnded s) := by
  simp only [receiveCommand, h, if_true, completeCommand, hslot, frameEnded]

theorem receiveCommand_waits {a : Answer} (h : s.panel.rx = .assembling) (hslot : s.panel.answer = some a)
    (hbuffer : s.panel.buffer = none) :
    receiveCommand c s = { s with panel := { s.panel with rx := .hunting, buffer := some c } } := by
  simp only [receiveCommand, h, if_true, completeCommand, hslot, hbuffer, withPanel]

theorem receiveCommand_discarded {a : Answer} {b : PanelCommand} (h : s.panel.rx = .assembling) (hslot : s.panel.answer = some a)
    (hbuffer : s.panel.buffer = some b) :
    receiveCommand c s = { s with panel := { s.panel with rx := .hunting, overrun := true } } := by
  simp only [receiveCommand, h, if_true, completeCommand, hslot, hbuffer, withPanel]

end

/-! ## ANSWER_SENT (R175, R191) -/

section
variable {s : State} {straps : Straps}

theorem answerSent_sent {a : Answer} {chars : List Byte} (htx : s.panel.tx = .answering chars) (ha : s.panel.answer = some a) :
    answerSent straps s = if a.reload then resetStation straps s else actBuffered (emptySlot s) := by
  simp only [answerSent, sendsAnswer, htx, if_true, answersReload, ha]

theorem answerSent_idle {chars : List Byte} (htx : s.panel.tx = .idle ∨ s.panel.tx = .reporting chars) :
    answerSent straps s = s := by
  rcases htx with htx | htx <;> simp [answerSent, sendsAnswer, htx]

theorem actBuffered_none (h : s.panel.buffer = none) : actBuffered s = s := by
  simp only [actBuffered, h]

theorem actBuffered_some {c : PanelCommand} (h : s.panel.buffer = some c) :
    actBuffered s = actNow c (withPanel (fun p => { p with buffer := none }) s) := by
  simp only [actBuffered, h]

end

/-- Settles O51. -/
theorem answersLeaveInOrder : Obligations.AnswersLeaveInOrder := by
  refine ⟨fun c frame s hc => ⟨fun hrx => ?_, fun hrx => ⟨fun hslot => ?_, fun a hslot hbuffer => ?_, fun a b hslot hbuffer => ?_⟩,
      fun d hrow hbad => ?_⟩, fun straps a chars s htx ha => ⟨fun hload hbuffer => ?_, fun c hload hbuffer => ?_, fun hload => ?_⟩,
    fun chars straps s htx => congrArg Host.Outcome.next (answerSent_idle htx), fun frame s hc hready => ?_,
    fun l => charSum_withCheck _ l, fun s => rfl⟩
  · rw [exec_commandInstr hc, receiveFrame_own hc, receiveCommand_hunting hrx]
  · refine ⟨_, exec_commandInstr hc s, ?_⟩
    rw [receiveFrame_own hc, receiveCommand_acts hrx hslot]
    exact actNow_actsOn c (frameEnded s)
  · rw [exec_commandInstr hc, receiveFrame_own hc, receiveCommand_waits hrx hslot hbuffer]
  · rw [exec_commandInstr hc, receiveFrame_own hc, receiveCommand_discarded hrx hslot hbuffer]
  · rw [exec_ownRow hbad, receiveFrame_other hc hrow]
  · refine congrArg Host.Outcome.next ((answerSent_sent htx ha).trans ?_)
    rw [hload, actBuffered_none (s := emptySlot s) hbuffer]
    rfl
  · refine ⟨answerSent straps s, rfl, ?_⟩
    rw [answerSent_sent htx ha, hload, actBuffered_some (s := emptySlot s) hbuffer]
    exact actNow_actsOn c _
  · refine ⟨resetStation straps s, congrArg Host.Outcome.next ((answerSent_sent htx ha).trans (if_pos hload)), rfl⟩
  · obtain ⟨hnext, -, -⟩ := receiveFrame_actsOn hready hc
    refine ⟨receiveFrame PanelCommand.reload.row frame s, rfl, ?_⟩
    generalize receiveFrame PanelCommand.reload.row frame s = t at *
    constructor
    all_goals
      rw [hnext]
      rfl

/-! ## BAD_COMMAND and BAD_CHECK (R174) -/

section
variable {code : RawChar} {rest : List RawChar}

/-- The command of a code's character alone, with or without an error. -/
theorem judgeCommand_badCommand (hstart : startBitLow code = true) (hparity : (readPanelChar code).parityError = false)
    (hframing : (readPanelChar code).framingError = false) (hnone : commandBody (readPanelChar code).value = none) :
    judgeCommand [code] = some (.badCommand (readPanelChar code).value) := by
  simp [judgeCommand, hstart, judgeChars, ReadChar.bad, hparity, hframing, hnone]

theorem judgeCommand_badCode (hstart : startBitLow code = true)
    (hbad : (readPanelChar code).parityError = true ∨ (readPanelChar code).framingError = true) :
    judgeCommand [code] = some (.badCheck (readPanelChar code).value) := by
  simp [judgeCommand, hstart, judgeChars, ReadChar.bad, hbad]

/-- A whole frame of a code that names a command. -/
theorem judgeCommand_whole {n : Nat} (hstart : ∀ c ∈ code :: rest, startBitLow c = true)
    (hparity : (readPanelChar code).parityError = false) (hframing : (readPanelChar code).framingError = false)
    (hbody : commandBody (readPanelChar code).value = some n) (hlength : rest.length = n + 1) :
    judgeCommand (code :: rest) = judgeWhole ((code :: rest).map readPanelChar) := by
  have hbad : (readPanelChar code).bad = false := by rw [ReadChar.bad, hparity, hframing]; rfl
  have hlength' : (rest.map readPanelChar).length = n + 1 := by rw [List.length_map, hlength]
  rw [judgeCommand, if_pos (List.all_eq_true.mpr hstart)]
  simp only [List.map_cons, judgeChars, hbad, hbody, hlength', Bool.false_eq_true, if_false, if_true]

theorem anyBad_iff {frame : List RawChar} : (frame.map readPanelChar).any ReadChar.bad = true ↔
    ∃ c ∈ frame, (readPanelChar c).parityError = true ∨ (readPanelChar c).framingError = true := by
  simp [ReadChar.bad]

theorem judgeWhole_eq : judgeWhole ((code :: rest).map readPanelChar) =
    if ((code :: rest).map readPanelChar).any ReadChar.bad = true ∨
      charSum ((code :: rest).map fun c => (readPanelChar c).value) ≠ 0xA5
    then some (.badCheck (readPanelChar code).value)
    else parseCommand (readPanelChar code).value (rest.map fun c => (readPanelChar c).value).dropLast := by
  simp only [judgeWhole, List.map_cons, List.map_map, Function.comp_def, Bool.or_eq_true, decide_eq_true_eq]
  rfl

end

/-- A command of the table, with as many body characters as it has, is parsed into those fields (Table 12-5, R192). -/
theorem parseCommand_of_body {code : Byte} {n : Nat} {body : List Byte} (h : commandBody code = some n) (hlength : body.length = n) :
    ∃ c, parseCommand code body = some c ∧ c.code = code ∧ c.row ≠ .badCommand ∧ c.row ≠ .badCheck ∧ c.body = body := by
  obtain ⟨entry, hfind, hn⟩ := Option.map_eq_some_iff.mp h
  have hmem := List.mem_of_find?_eq_some hfind
  have hcode : entry.1 = code := by simpa using List.find?_some hfind
  simp only [commandTable, List.mem_cons, List.not_mem_nil, or_false] at hmem
  rcases hmem with rfl | rfl | rfl | rfl | rfl | rfl | rfl | rfl | rfl | rfl | rfl | rfl | rfl | rfl | rfl | rfl | rfl
  all_goals
    subst hcode hn
    obtain _ | ⟨a, _ | ⟨b, _ | ⟨c, _ | ⟨d, _ | ⟨e, _ | ⟨f, l⟩⟩⟩⟩⟩⟩ := body
    all_goals cases hlength
  all_goals refine ⟨_, rfl, rfl, (fun h => nomatch h), (fun h => nomatch h), ?_⟩
  all_goals simp [PanelCommand.body, bytes2_field2, bytes3_field3]

/-- Settles O53. -/
theorem badFramesAreAnswered : Obligations.BadFramesAreAnswered := by
  intro s hready answered
  have hanswered : ∀ {row : Instr} {frame : List RawChar} {c : PanelCommand} {code : Byte}, judgeCommand frame = some c →
      exec row s = .next (receiveFrame c.row frame s) → act c (frameEnded s) = (frameEnded s, [code]) → c ≠ .reload →
      answered row c.code code := fun hc hrow hact hload => by
    obtain ⟨t, hexec, hrest, hpanel⟩ := exec_of_act hready hc hrow hact rfl hload
    exact ⟨t, hexec, hrest, hpanel⟩
  refine ⟨fun code hstart hparity hframing hnone => ?_, fun code hstart hbad => ?_,
    fun code rest n hstart hparity hframing hbody hlength => ⟨fun hbad => ?_, fun hgood hsum => ?_⟩⟩
  · exact hanswered (judgeCommand_badCommand hstart hparity hframing hnone) rfl rfl (by simp)
  · exact hanswered (judgeCommand_badCode hstart hbad) rfl rfl (by simp)
  · have hwhole := judgeCommand_whole hstart hparity hframing hbody hlength
    rw [judgeWhole_eq, if_pos ?_] at hwhole
    · exact hanswered hwhole rfl rfl (by simp)
    · exact hbad.imp (fun ⟨c, hc, h⟩ => anyBad_iff.mpr ⟨c, List.mem_cons_of_mem _ hc, h⟩) id
  · have hwhole := judgeCommand_whole hstart hparity hframing hbody hlength
    rw [judgeWhole_eq, if_neg ?_] at hwhole
    · have hdropped : (rest.map fun c => (readPanelChar c).value).dropLast.length = n := by simp [hlength]
      obtain ⟨c, hparse, hcode, hrow, hcheck, hfields⟩ := parseCommand_of_body hbody hdropped
      have hjudge := hwhole.trans hparse
      refine ⟨congrArg Host.Outcome.next (receiveFrame_other hjudge (Ne.symm hcheck) s), c, hjudge, hcode, hrow, hcheck, ?_⟩
      have hne : rest ≠ [] := by
        rintro rfl
        exact Nat.succ_ne_zero n hlength.symm
      rw [hfields, ← List.map_dropLast, List.getLastD_eq_getLast?, List.getLast?_eq_some_getLast hne, Option.getD_some,
        ← List.map_singleton (f := fun c => (readPanelChar c).value), ← List.map_append, List.dropLast_append_getLast]
    · rintro (hany | hne)
      · obtain ⟨c, hc, herror⟩ := anyBad_iff.mp hany
        have hclean : (readPanelChar c).parityError = false ∧ (readPanelChar c).framingError = false := by
          rcases List.mem_cons.mp hc with rfl | hc
          · exact ⟨hparity, hframing⟩
          · exact hgood c hc
        obtain ⟨h1, h2⟩ := hclean
        rw [h1, h2] at herror
        exact herror.elim Bool.false_ne_true Bool.false_ne_true
      · exact hne hsum

end Sys2Proof.Machine
end

