-- ==== Sys2Proof/Proofs/CharacterSamples.lean ====
section
/-!
SUPPORT. The fields of a frame and its characters (R134, R192), and a character of the Cue Line in its samples (R116).
-/
namespace Sys2Proof.Machine
open Relation

/-! ## Fields from their characters (R192) -/

theorem field2_extract (v : BitVec 16) : field2 (v.extractLsb' 8 8) (v.extractLsb' 0 8) = v := by
  refine BitVec.eq_of_getLsbD_eq fun i hi => ?_
  show (v.extractLsb' 8 8 ++ v.extractLsb' 0 8).getLsbD i = v.getLsbD i
  rw [BitVec.getLsbD_append, BitVec.getLsbD_extractLsb', BitVec.getLsbD_extractLsb']
  split
  · next h => rw [decide_eq_true h, Bool.true_and, Nat.zero_add]
  · next h => rw [decide_eq_true (by omega), Bool.true_and, Nat.add_sub_cancel' (by omega)]

theorem field3_extract (v : Triple) : field3 (v.extractLsb' 16 8) (v.extractLsb' 8 8) (v.extractLsb' 0 8) = v := by
  refine BitVec.eq_of_getLsbD_eq fun i hi => ?_
  show (v.extractLsb' 16 8 ++ v.extractLsb' 8 8 ++ v.extractLsb' 0 8).getLsbD i = v.getLsbD i
  rw [BitVec.getLsbD_append, BitVec.getLsbD_append, BitVec.getLsbD_extractLsb', BitVec.getLsbD_extractLsb', BitVec.getLsbD_extractLsb']
  split
  · next h => rw [decide_eq_true h, Bool.true_and, Nat.zero_add]
  · split
    · next h => rw [decide_eq_true h, Bool.true_and, Nat.add_sub_cancel' (by omega)]
    · next h => rw [decide_eq_true (by omega), Bool.true_and, show 16 + (i - 8 - 8) = i by omega]

theorem field4_extract (v : Word) :
    field4 (v.extractLsb' 24 8) (v.extractLsb' 16 8) (v.extractLsb' 8 8) (v.extractLsb' 0 8) = v := by
  refine BitVec.eq_of_getLsbD_eq fun i hi => ?_
  show (v.extractLsb' 24 8 ++ v.extractLsb' 16 8 ++ v.extractLsb' 8 8 ++ v.extractLsb' 0 8).getLsbD i = v.getLsbD i
  rw [BitVec.getLsbD_append, BitVec.getLsbD_append, BitVec.getLsbD_append, BitVec.getLsbD_extractLsb', BitVec.getLsbD_extractLsb',
    BitVec.getLsbD_extractLsb', BitVec.getLsbD_extractLsb']
  split
  · next h => rw [decide_eq_true h, Bool.true_and, Nat.zero_add]
  · split
    · next h => rw [decide_eq_true h, Bool.true_and, Nat.add_sub_cancel' (by omega)]
    · split
      · next h => rw [decide_eq_true h, Bool.true_and, show 16 + (i - 8 - 8) = i by omega]
      · next h => rw [decide_eq_true (by omega), Bool.true_and, show 24 + (i - 8 - 8 - 8) = i by omega]

/-! ## Line frames (R134, R135, Table 12-2) -/

/-- A frame's fields are read back from its characters. -/
theorem parseFrame_encodeFrame (station : Byte) (f : LineFrame) : parseFrame (encodeFrame station f) = some f := by
  cases f with
  | hush mask => rfl
  | join flags identity signature =>
    show some (LineFrame.join flags (field4 _ _ _ _) (field4 _ _ _ _)) = _
    rw [field4_extract, field4_extract]
  | close rs rn ws wi capture =>
    show some (LineFrame.close rs rn ws wi (field3 _ _ _)) = _
    rw [field3_extract]
  | claim rs rn input flags capture =>
    show some (LineFrame.claim rs rn input flags (field3 _ _ _)) = _
    rw [field3_extract]
  | arm rn profile => rfl
  | fire cue origin tag trim =>
    show some (LineFrame.fire (field2 _ _) origin (field2 _ _) trim) = _
    rw [field2_extract, field2_extract]
  | release cue mode =>
    show some (LineFrame.release (field2 _ _) mode) = _
    rw [field2_extract]
  | clock clk op epoch value =>
    show some (LineFrame.clock clk op epoch (field3 _ _ _)) = _
    rw [field3_extract]

theorem encodeFrame_length (station : Byte) (f : LineFrame) : (encodeFrame station f).length = f.kind.length := by
  cases f <;> rfl

theorem kindOf_encodeFrame (station : Byte) (f : LineFrame) : kindOf (encodeFrame station f) = some f.kind := by
  cases f <;> rfl

/-! ## One character of the Cue Line (R115, R116) -/

/-- The 16 samples of one bit, of which samples 7, 8 and 9 may be disturbed. -/
def bitTime (level d7 d8 d9 : Bool) : Samples :=
  List.replicate 7 level ++ [level ^^ d7, level ^^ d8, level ^^ d9] ++ List.replicate 6 level

/-- At most one of a bit's three read samples is disturbed. -/
def oneAtMost (d7 d8 d9 : Bool) : Prop := (d7 && d8) = false ∧ (d7 && d9) = false ∧ (d8 && d9) = false

/-- Samples in groups of 16. -/
theorem map_range_groups {α : Type} (g : Nat → α) : ∀ n : Nat,
    (List.range (16 * n)).map g = (List.range n).flatMap fun j => (List.range 16).map fun k => g (16 * j + k)
  | 0 => rfl
  | n + 1 => by
    rw [Nat.mul_succ, List.range_add, List.map_append, map_range_groups g n, List.range_succ (n := n), List.flatMap_append,
      List.flatMap_singleton, List.map_map]
    rfl

theorem sampledChar_eq (bits n7 n8 n9 : BitVec 11) : sampledChar bits n7 n8 n9 =
    (List.range 11).flatMap fun j => bitTime (bits.getLsbD j) (n7.getLsbD j) (n8.getLsbD j) (n9.getLsbD j) := by
  refine (map_range_groups _ 11).trans (congrArg (fun f => (List.range 11).flatMap f) (funext fun j => ?_))
  simp only [Nat.mul_add_div (by decide : 16 > 0), Nat.mul_add_mod]
  simp [bitTime, List.range_succ, List.replicate]

theorem majority_disturbed {d7 d8 d9 : Bool} (h : oneAtMost d7 d8 d9) (level : Bool) :
    majorityHigh (Bool.high (level ^^ d7) + Bool.high (level ^^ d8) + Bool.high (level ^^ d9)) = level := by
  obtain ⟨h78, h79, h89⟩ := h
  revert h78 h79 h89
  cases level <;> cases d7 <;> cases d8 <;> cases d9 <;> decide

theorem charactersIn_nothing {level : Bool} {h k : Hunt} (hstep : huntSample level h = (k, .nothing) ∨ huntSample level h = (k, .started))
    (rest : Samples) : charactersIn (level :: rest) h = charactersIn rest k := by
  rcases hstep with hstep | hstep <;> simp only [charactersIn, hstep]

theorem charactersIn_character {level : Bool} {h k : Hunt} {c : ReadChar} (hstep : huntSample level h = (k, .character c))
    (rest : Samples) : charactersIn (level :: rest) h = ((charactersIn rest k).1, c :: (charactersIn rest k).2) := by
  simp only [charactersIn, hstep]

/-- A sample that no majority reads. -/
theorem huntSample_unread {j k : Nat} (hk : k < 7 ∨ (10 ≤ k ∧ k < 16)) (level : Bool) (highs : Nat) (acc : BitVec 11) :
    huntSample level (.reading (16 * j + k) highs acc) = (.reading (16 * j + (k + 1)) highs acc, .nothing) := by
  have hmod : (16 * j + k) % bitSamples = k := by rw [bitSamples, Nat.mul_add_mod, Nat.mod_eq_of_lt (by omega)]
  rw [huntSample, hmod, tally, if_neg (by omega), if_neg (by omega), if_neg (by omega)]
  rfl

theorem charactersIn_unread (j : Nat) (level : Bool) (highs : Nat) (acc : BitVec 11) (rest : Samples) : ∀ n k : Nat,
    k + n ≤ 7 ∨ (10 ≤ k ∧ k + n ≤ 16) → charactersIn (List.replicate n level ++ rest) (.reading (16 * j + k) highs acc) =
      charactersIn rest (.reading (16 * j + (k + n)) highs acc)
  | 0, k, _ => rfl
  | n + 1, k, h => by
    rw [List.replicate_succ, List.cons_append, charactersIn_nothing (.inl (huntSample_unread (by omega) level highs acc)),
      charactersIn_unread j level highs acc rest n (k + 1) (by omega), Nat.add_right_comm k 1 n]
    rfl

/-- Samples 7 and 8 of a bit are counted. -/
theorem huntSample_seventh (j : Nat) (level : Bool) (highs : Nat) (acc : BitVec 11) :
    huntSample level (.reading (16 * j + 7) highs acc) = (.reading (16 * j + 8) (Bool.high level) acc, .nothing) := by
  have hmod : (16 * j + 7) % bitSamples = 7 := Nat.mul_add_mod _ _ _
  rw [huntSample, hmod]
  rfl

theorem huntSample_eighth (j : Nat) (level : Bool) (highs : Nat) (acc : BitVec 11) :
    huntSample level (.reading (16 * j + 8) highs acc) = (.reading (16 * j + 9) (highs + Bool.high level) acc, .nothing) := by
  have hmod : (16 * j + 8) % bitSamples = 8 := Nat.mul_add_mod _ _ _
  rw [huntSample, hmod]
  rfl

/-- Sample 9 of a bit decides it. -/
theorem huntSample_ninth (j : Nat) (level : Bool) (highs : Nat) (acc : BitVec 11) :
    huntSample level (.reading (16 * j + 9) highs acc) = huntBit (16 * j + 9) (majorityHigh (highs + Bool.high level)) acc := by
  have hmod : (16 * j + 9) % bitSamples = 9 := Nat.mul_add_mod _ _ _
  rw [huntSample, hmod]
  rfl

/-- The first ten samples of a bit: the eleventh comes to the state that the decided bit leaves. -/
theorem charactersIn_deciding {d7 d8 d9 : Bool} (j : Nat) (level : Bool) (acc : BitVec 11) (rest : Samples) :
    charactersIn (List.replicate 7 level ++ [level ^^ d7, level ^^ d8, level ^^ d9] ++ rest) (.reading (16 * j) 0 acc) =
      charactersIn ((level ^^ d9) :: rest) (.reading (16 * j + 9) (Bool.high (level ^^ d7) + Bool.high (level ^^ d8)) acc) := by
  rw [List.append_assoc, ← Nat.add_zero (16 * j), charactersIn_unread j level 0 acc _ 7 0 (.inl (Nat.le_refl _)), Nat.zero_add]
  show charactersIn ((level ^^ d7) :: (level ^^ d8) :: (level ^^ d9) :: rest) _ = _
  rw [charactersIn_nothing (.inl (huntSample_seventh j _ 0 acc)), charactersIn_nothing (.inl (huntSample_eighth j _ _ acc))]

/-- The bits of a character read so far, below a bit number. -/
def readBits (bits : BitVec 11) : Nat → BitVec 11
  | 0 => 0
  | n + 1 => if bits.getLsbD n then readBits bits n ||| BitVec.ofNat 11 (1 <<< n) else readBits bits n

theorem readBits_getLsbD (bits : BitVec 11) (i : Nat) : ∀ n ≤ 11, (readBits bits n).getLsbD i = (decide (i < n) && bits.getLsbD i)
  | 0, _ => by simp [readBits]
  | n + 1, hn => by
    have ih := readBits_getLsbD bits i n (by omega)
    have hone : (BitVec.ofNat 11 (1 <<< n)).getLsbD i = decide (i = n) := by
      rw [BitVec.getLsbD_ofNat, Nat.one_shiftLeft, Nat.testBit_two_pow, ← Bool.decide_and]
      exact decide_eq_decide.mpr (by omega)
    by_cases hi : i = n
    · subst hi
      rw [readBits]
      split
      · next h => rw [BitVec.getLsbD_or, hone, h]; simp
      · next h => rw [ih]; simp [h]
    · have hlt : decide (i < n + 1) = decide (i < n) := decide_eq_decide.mpr (by omega)
      rw [hlt, ← ih, readBits]
      split
      · rw [BitVec.getLsbD_or, hone, decide_eq_false hi, Bool.or_false]
      · rfl

theorem readBits_all (bits : BitVec 11) : readBits bits 11 = bits := by
  refine BitVec.eq_of_getLsbD_eq fun i hi => ?_
  rw [readBits_getLsbD bits i 11 (Nat.le_refl _), decide_eq_true hi, Bool.true_and]

theorem bit_of_ninth (j : Nat) : (16 * j + 9) / bitSamples = j := by
  rw [bitSamples, Nat.mul_add_div (by decide)]
  rfl

/-- A decided bit before the stop bit: the search goes on. -/
theorem huntBit_inside {j : Nat} (hj : j < 10) (bits : BitVec 11) (hstart : bits.getLsbD 0 = false) :
    ∃ f, (f = .nothing ∨ f = .started) ∧
      huntBit (16 * j + 9) (bits.getLsbD j) (readBits bits j) = (.reading (16 * j + 10) 0 (readBits bits (j + 1)), f) := by
  have hbits : (if bits.getLsbD j then readBits bits j ||| (1 <<< j) else readBits bits j) = readBits bits (j + 1) := rfl
  unfold huntBit
  rw [bit_of_ninth, hbits]
  by_cases h0 : j = 0
  · subst h0
    exact ⟨.started, .inr rfl, by rw [if_pos rfl, hstart]; rfl⟩
  · exact ⟨.nothing, .inl rfl, by rw [if_neg h0, if_pos hj]⟩

/-- The decided stop bit ends the character. -/
theorem huntBit_stop (bits : BitVec 11) (hstop : bits.getLsbD 10 = true) :
    huntBit (16 * 10 + 9) (bits.getLsbD 10) (readBits bits 10) = (.hunting, .character (readLineBits bits)) := by
  have hbits : (if bits.getLsbD 10 then readBits bits 10 ||| (1 <<< 10) else readBits bits 10) = readBits bits 11 := rfl
  unfold huntBit
  rw [bit_of_ninth, hbits, readBits_all, hstop]
  rfl

section
variable {bits n7 n8 n9 : BitVec 11}

/-- The samples of a character's bit. -/
def charBit (bits n7 n8 n9 : BitVec 11) (j : Nat) : Samples :=
  bitTime (bits.getLsbD j) (n7.getLsbD j) (n8.getLsbD j) (n9.getLsbD j)

theorem charactersIn_bit {j : Nat} (hj : j < 10) (hstart : bits.getLsbD 0 = false)
    (hone : ∀ j, oneAtMost (n7.getLsbD j) (n8.getLsbD j) (n9.getLsbD j)) (rest : Samples) :
    charactersIn (charBit bits n7 n8 n9 j ++ rest) (.reading (16 * j) 0 (readBits bits j)) =
      charactersIn rest (.reading (16 * (j + 1)) 0 (readBits bits (j + 1))) := by
  obtain ⟨f, hf, hbit⟩ := huntBit_inside hj bits hstart
  have hninth := huntSample_ninth j (bits.getLsbD j ^^ n9.getLsbD j)
    (Bool.high (bits.getLsbD j ^^ n7.getLsbD j) + Bool.high (bits.getLsbD j ^^ n8.getLsbD j)) (readBits bits j)
  rw [majority_disturbed (hone j), hbit] at hninth
  rw [charBit, bitTime, List.append_assoc, charactersIn_deciding,
    charactersIn_nothing (hf.imp (fun h => h ▸ hninth) (fun h => h ▸ hninth)),
    charactersIn_unread j _ 0 _ rest 6 10 (.inr ⟨Nat.le_refl _, Nat.le_refl _⟩)]
  rfl

/-- The bits of a character before its stop bit. -/
theorem charactersIn_bits (hstart : bits.getLsbD 0 = false)
    (hone : ∀ j, oneAtMost (n7.getLsbD j) (n8.getLsbD j) (n9.getLsbD j)) : ∀ n ≤ 10, ∀ rest : Samples,
    charactersIn ((List.range n).flatMap (charBit bits n7 n8 n9) ++ rest) (.reading 0 0 0) =
      charactersIn rest (.reading (16 * n) 0 (readBits bits n))
  | 0, _, _ => rfl
  | n + 1, hn, rest => by
    rw [List.range_succ, List.flatMap_append, List.flatMap_singleton, List.append_assoc, charactersIn_bits hstart hone n (by omega),
      charactersIn_bit (by omega) hstart hone]

theorem charactersIn_high : ∀ n : Nat, charactersIn (List.replicate n true) .hunting = (.hunting, [])
  | 0 => rfl
  | n + 1 => by
    rw [List.replicate_succ, charactersIn_nothing (k := .hunting) (.inl rfl), charactersIn_high n]

theorem charactersIn_stopBit (hstop : bits.getLsbD 10 = true)
    (hone : ∀ j, oneAtMost (n7.getLsbD j) (n8.getLsbD j) (n9.getLsbD j)) :
    charactersIn (charBit bits n7 n8 n9 10) (.reading (16 * 10) 0 (readBits bits 10)) = (.hunting, [readLineBits bits]) := by
  have hninth := huntSample_ninth 10 (bits.getLsbD 10 ^^ n9.getLsbD 10)
    (Bool.high (bits.getLsbD 10 ^^ n7.getLsbD 10) + Bool.high (bits.getLsbD 10 ^^ n8.getLsbD 10)) (readBits bits 10)
  rw [majority_disturbed (hone 10), huntBit_stop bits hstop] at hninth
  rw [charBit, bitTime, charactersIn_deciding, charactersIn_character hninth, hstop, charactersIn_high]

/-- A low start bit begins a character just as it would continue one. -/
theorem charactersIn_start (rest : Samples) :
    charactersIn (false :: rest) .hunting = charactersIn (false :: rest) (.reading 0 0 0) := by
  rw [charactersIn_nothing (k := .reading 1 0 0) (.inl rfl), charactersIn_nothing (k := .reading 1 0 0) (.inl rfl)]

/-- A character of a low start bit and a high stop bit is found in its samples, whatever disturbs one of each bit's three read
samples (R116). -/
theorem charactersIn_sampledChar (hstart : bits.getLsbD 0 = false) (hstop : bits.getLsbD 10 = true)
    (hone : ∀ j, oneAtMost (n7.getLsbD j) (n8.getLsbD j) (n9.getLsbD j)) :
    charactersIn (sampledChar bits n7 n8 n9) .hunting = (.hunting, [readLineBits bits]) := by
  have hfirst : ∃ rest, sampledChar bits n7 n8 n9 = false :: rest := by
    rw [sampledChar_eq, ← hstart]
    exact ⟨_, rfl⟩
  obtain ⟨rest, hrest⟩ := hfirst
  have hbits : sampledChar bits n7 n8 n9 = (List.range 10).flatMap (charBit bits n7 n8 n9) ++ charBit bits n7 n8 n9 10 := by
    rw [sampledChar_eq, List.range_succ, List.flatMap_append, List.flatMap_singleton]
    rfl
  rw [hrest, charactersIn_start, ← hrest, hbits, charactersIn_bits hstart hone 10 (Nat.le_refl _), charactersIn_stopBit hstop hone]

end

end Sys2Proof.Machine
end

