-- ==== Sys2Proof/Proofs/ReadBack.lean ====
section
/-!
Frames and characters are read back as sent (O54).
-/
namespace Sys2Proof.Machine
open Relation

/-! ## The two codes of a character (R115, R173) -/

/-- Each of the 256 characters of the Cue Line: a low start bit, a high stop bit, odd parity, and its value. -/
theorem lineBits_spec : ∀ v : Byte, (lineBits v).getLsbD 0 = false ∧ (lineBits v).getLsbD 10 = true ∧
    oddHighs (lineBits v) = true ∧ readLineBits (lineBits v) = { value := v, parityError := false, framingError := false } := by
  decide +kernel

/-- Each of the 256 characters of the Panel Port: a low start bit, a high stop bit, even parity, and its value. -/
theorem panelBits_spec : ∀ v : Byte, (panelBits v).getLsbD 0 = false ∧ (panelBits v).getLsbD 10 = true ∧
    oddHighs (panelBits v) = false ∧ (panelBits v).extractLsb' 1 8 = v := by
  decide +kernel

theorem oneAtMost_of_disjoint {n7 n8 n9 : BitVec 11} (h78 : n7 &&& n8 = 0) (h79 : n7 &&& n9 = 0) (h89 : n8 &&& n9 = 0) (j : Nat) :
    oneAtMost (n7.getLsbD j) (n8.getLsbD j) (n9.getLsbD j) := by
  have hbit : ∀ {a b : BitVec 11}, a &&& b = 0 → (a.getLsbD j && b.getLsbD j) = false := fun {a b} h => by
    rw [← BitVec.getLsbD_and, h]
    exact BitVec.getLsbD_zero
  exact ⟨hbit h78, hbit h79, hbit h89⟩

/-- The majority of three samples of which one at most is disturbed. -/
theorem majority_of_oneAtMost (level : Bool) {d7 d8 d9 : Bool} (h : oneAtMost d7 d8 d9) :
    ((level ^^ d7) && (level ^^ d8) || (level ^^ d7) && (level ^^ d9) || (level ^^ d8) && (level ^^ d9)) = level := by
  obtain ⟨h78, h79, h89⟩ := h
  revert h78 h79 h89
  cases level <;> cases d7 <;> cases d8 <;> cases d9 <;> decide

theorem majority_eq {bits n7 n8 n9 : BitVec 11} (hone : ∀ j, oneAtMost (n7.getLsbD j) (n8.getLsbD j) (n9.getLsbD j)) :
    majority { s7 := bits ^^^ n7, s8 := bits ^^^ n8, s9 := bits ^^^ n9 } = bits := by
  refine BitVec.eq_of_getLsbD_eq fun i _ => ?_
  simp only [majority, BitVec.getLsbD_or, BitVec.getLsbD_and, BitVec.getLsbD_xor]
  exact majority_of_oneAtMost (bits.getLsbD i) (hone i)

theorem readPanelChar_of_majority {c : RawChar} {v : Byte} (h : majority c = panelBits v) :
    startBitLow c = true ∧ readPanelChar c = { value := v, parityError := false, framingError := false } := by
  obtain ⟨hstart, hstop, hparity, hvalue⟩ := panelBits_spec v
  refine ⟨?_, ?_⟩
  · rw [startBitLow, h, hstart]
    rfl
  · rw [readPanelChar, h, hstop, hparity, hvalue]
    rfl

theorem majority_cleanChar (bits : BitVec 11) : majority (cleanChar bits) = bits := by
  simp [majority, cleanChar]

/-! ## Command frames (R174, R193, Table 12-5) -/

/-- A command's body is parsed into it. -/
theorem parseCommand_body {c : PanelCommand} (hcommand : c.row ≠ .badCommand) (hcheck : c.row ≠ .badCheck) :
    parseCommand c.code c.body = some c ∧ commandBody c.code = some c.body.length := by
  cases c with
  | fire cue trim =>
    refine ⟨?_, rfl⟩
    show some (PanelCommand.fire (field2 _ _) trim) = _
    rw [field2_extract]
  | release cue mode =>
    refine ⟨?_, rfl⟩
    show some (PanelCommand.release (field2 _ _) mode) = _
    rw [field2_extract]
  | clock clk op value =>
    refine ⟨?_, rfl⟩
    show some (PanelCommand.clock clk op (field3 _ _ _)) = _
    rw [field3_extract]
  | badCommand kind => exact absurd rfl hcommand
  | badCheck kind => exact absurd rfl hcheck
  | _ => exact ⟨rfl, rfl⟩

/-- The characters of a command's frame are received as sent. -/
theorem readPanelChar_clean (v : Byte) : startBitLow (cleanChar (panelBits v)) = true ∧
    readPanelChar (cleanChar (panelBits v)) = { value := v, parityError := false, framingError := false } :=
  readPanelChar_of_majority (majority_cleanChar _)

theorem values_of_clean (l : List Byte) :
    ((l.map fun v => cleanChar (panelBits v)).map fun c => (readPanelChar c).value) = l := by
  rw [List.map_map]
  refine (List.map_congr_left fun v _ => ?_).trans (List.map_id l)
  simp only [Function.comp_apply, (readPanelChar_clean v).2, id]

/-- The frame of every command, as a host sends it, completes that command. -/
theorem judgeCommand_commandFrame {c : PanelCommand} (hcommand : c.row ≠ .badCommand) (hcheck : c.row ≠ .badCheck) :
    judgeCommand (commandFrame c) = some c := by
  obtain ⟨hparse, hbody⟩ := parseCommand_body hcommand hcheck
  have hcode : readPanelChar (cleanChar (panelBits c.code)) = { value := c.code, parityError := false, framingError := false } :=
    (readPanelChar_clean c.code).2
  have hframe : commandFrame c = cleanChar (panelBits c.code) ::
      ((c.body ++ [panelCheck - charSum (c.code :: c.body)]).map fun v => cleanChar (panelBits v)) := rfl
  have hclean : ∀ x ∈ commandFrame c, ∃ v, x = cleanChar (panelBits v) := fun x hx => by
    obtain ⟨v, -, rfl⟩ := List.mem_map.mp hx
    exact ⟨v, rfl⟩
  have hstart : ∀ x ∈ commandFrame c, startBitLow x = true := fun x hx => by
    obtain ⟨v, rfl⟩ := hclean x hx
    exact (readPanelChar_clean v).1
  have hgood : ¬ ((commandFrame c).map readPanelChar).any ReadChar.bad = true := fun hany => by
    obtain ⟨x, hx, herror⟩ := anyBad_iff.mp hany
    obtain ⟨v, rfl⟩ := hclean x hx
    rw [(readPanelChar_clean v).2] at herror
    exact herror.elim Bool.false_ne_true Bool.false_ne_true
  have hsum : charSum ((commandFrame c).map fun x => (readPanelChar x).value) = 0xA5 := by
    rw [commandFrame, values_of_clean]
    exact charSum_withCheck _ _
  rw [hframe] at hstart hgood hsum ⊢
  rw [judgeCommand_whole hstart (by rw [hcode]) (by rw [hcode]) (by rw [hcode]; exact hbody) (by simp), judgeWhole_eq,
    if_neg fun h => h.elim hgood fun hne => hne hsum, values_of_clean, List.dropLast_concat, hcode]
  exact hparse

/-- Settles O54. -/
theorem lineFramesReadBack : Obligations.LineFramesReadBack := by
  refine ⟨fun station f => ⟨parseFrame_encodeFrame station f, charSum_withCheck _ _, encodeFrame_length station f, rfl,
      kindOf_encodeFrame station f⟩, lineBits_spec, fun v n7 n8 n9 h78 h79 h89 => ?_, fun v => ?_,
    fun c hcommand hcheck => ⟨judgeCommand_commandFrame hcommand hcheck, charSum_withCheck _ _⟩⟩
  · have hone := oneAtMost_of_disjoint h78 h79 h89
    obtain ⟨hstart, hstop, -, hread⟩ := lineBits_spec v
    exact ⟨(charactersIn_sampledChar hstart hstop hone).trans (by rw [hread]), readPanelChar_of_majority (majority_eq hone)⟩
  · obtain ⟨hstart, hstop, hparity, -⟩ := panelBits_spec v
    exact ⟨hstart, hstop, hparity⟩

end Sys2Proof.Machine
end

