-- ==== Sys2Proof/Proofs/ImageChecks.lean ====
section
/-!
SUPPORT. The checks of an image's header, section table and records (R165, R168, Table 10-3).
-/
namespace Sys2Proof.Machine
open Relation

/-! ## The first failure of a list of checks (R168) -/

theorem firstFailure_some {r : FaultReason} : ∀ {l : List (Option FaultReason)}, firstFailure l = some r ↔
    ∃ earlier later, l = earlier ++ some r :: later ∧ ∀ x ∈ earlier, x = none
  | [] => by simp [firstFailure]
  | some q :: rest => by
    rw [firstFailure]
    constructor
    · rintro ⟨⟩
      exact ⟨[], rest, rfl, fun _ hx => absurd hx List.not_mem_nil⟩
    · rintro ⟨_ | ⟨x, earlier⟩, later, heq, hnone⟩
      · exact (List.cons.inj heq).1
      · obtain ⟨rfl, -⟩ := List.cons.inj heq
        exact nomatch hnone _ List.mem_cons_self
  | none :: rest => by
    rw [firstFailure, firstFailure_some (l := rest)]
    constructor
    · rintro ⟨earlier, later, rfl, hnone⟩
      exact ⟨none :: earlier, later, rfl, List.forall_mem_cons.mpr ⟨rfl, hnone⟩⟩
    · rintro ⟨_ | ⟨x, earlier⟩, later, heq, hnone⟩
      · exact nomatch (List.cons.inj heq).1
      · exact ⟨earlier, later, (List.cons.inj heq).2, (List.forall_mem_cons.mp hnone).2⟩

theorem failsUnless_true (r : FaultReason) : failsUnless r true = none := rfl

theorem failsUnless_eq (r : FaultReason) (ok : Bool) : failsUnless r ok = if ok = true then none else some r := rfl

theorem firstFailure_cons (r : FaultReason) (ok : Bool) (rest : List (Option FaultReason)) :
    firstFailure (failsUnless r ok :: rest) = if ok = true then firstFailure rest else some r := by
  cases ok <;> rfl

/-- A section's checks: its count, then its records in their order. -/
theorem checkSection_some {x : Staged} {check : List Byte → Option FaultReason} {r : FaultReason} :
    checkSection x check = some r ↔ (x.countField ≠ x.count ∧ r = .limit) ∨
      (x.countField = x.count ∧ ∃ earlier b later, x.records = earlier ++ b :: later ∧ check b = some r ∧
        ∀ y ∈ earlier, check y = none) := by
  rw [checkSection, firstFailure_cons]
  by_cases hcount : x.countField = x.count
  · rw [decide_eq_true hcount, if_pos rfl, firstFailure_some]
    refine ⟨fun ⟨earlier, later, heq, hnone⟩ => .inr ⟨hcount, ?_⟩, ?_⟩
    · obtain ⟨before, rest, hrecords, rfl, hrest⟩ := List.map_eq_append_iff.mp heq
      obtain ⟨b, after, rfl, hb, -⟩ := List.map_eq_cons_iff.mp hrest
      exact ⟨before, b, after, hrecords, hb, fun y hy => hnone _ (List.mem_map_of_mem hy)⟩
    · rintro (⟨hne, -⟩ | ⟨-, earlier, b, later, hrecords, hb, hnone⟩)
      · exact absurd hcount hne
      · refine ⟨earlier.map check, later.map check, ?_, fun y hy => ?_⟩
        · rw [hrecords, List.map_append, List.map_cons, hb]
        · obtain ⟨z, hz, rfl⟩ := List.mem_map.mp hy
          exact hnone z hz
  · rw [decide_eq_false hcount, if_neg Bool.false_ne_true]
    refine ⟨fun h => .inl ⟨hcount, (Option.some.inj h).symm⟩, ?_⟩
    rintro (⟨-, rfl⟩ | ⟨heq, -⟩)
    · rfl
    · exact absurd heq hcount

/-! ## The checks of the records (Table 10-3) -/

theorem checkStation_eq (b : List Byte) :
    checkStation b = if ∀ z ∈ b.take 4, z.toNat < 8 ∨ z = 255 then none else some .limit := by
  rw [checkStation, failsUnless_eq]
  refine if_congr ?_ rfl rfl
  simp only [List.all_eq_true, Bool.or_eq_true, decide_eq_true_eq]

theorem within_iff {lo hi n : Nat} : within lo hi n = true ↔ lo ≤ n ∧ n ≤ hi := by simp [within]

/-- A named cue kind. -/
theorem cueKindOf_named {n : Nat} (hlow : n ≠ 0) (hhigh : ¬ 4 < n) : cueKindOf n ≠ .noCue := by
  have hcases : n = 1 ∨ n = 2 ∨ n = 3 ∨ n = 4 := by omega
  rcases hcases with rfl | rfl | rfl | rfl <;> decide

theorem even_iff_getLsbD (n : Nat) : (!(BitVec.ofNat 16 n).getLsbD 0) = true ↔ n % 2 = 0 := by
  rw [BitVec.getLsbD_ofNat, Nat.testBit_zero]
  simp

theorem checkCue_eq (steps : Nat) (b : List Byte) :
    let f := fun k => (recordFieldsOf cueWidths b).getD k 0
    checkCue steps b =
      if 4 < f 0 then some .limit
      else if f 0 = 0 then none
      else if ¬ (1 ≤ f 1 ∧ f 1 ≤ 15 ∧ f 2 ≤ 15 ∧ f 3 ≤ 65535 ∧ f 3 % 2 = 0 ∧ f 4 ≤ 128 ∧ f 5 ≤ 2000 ∧ f 6 ≤ 255 ∧
          f 7 ≤ 4095 ∧ 1 ≤ f 8 ∧ f 8 ≤ 64 ∧ f 9 ≤ 63 ∧ f 10 ≤ 63 ∧ f 11 ≤ 255 ∧ f 12 ≤ 1 ∧ f 13 ≤ 10000 ∧ f 14 ≤ 2000 ∧
          f 15 ≤ 2 ∧ f 16 ≤ 60000) then some .limit
      else if steps < f 7 + f 8 then some .reference
      else if f 9 ≤ f 10 ∧ f 10 < f 8 then none else some .limit := by
  intro f
  obtain ⟨x0, x1, x2, x3, x4, x5, x6, x7, x8, x9, x10, x11, x12, x13, x14, x15, x16, hfields⟩ :
      ∃ x0 x1 x2 x3 x4 x5 x6 x7 x8 x9 x10 x11 x12 x13 x14 x15 x16, recordFieldsOf cueWidths b =
        [x0, x1, x2, x3, x4, x5, x6, x7, x8, x9, x10, x11, x12, x13, x14, x15, x16] :=
    ⟨_, _, _, _, _, _, _, _, _, _, _, _, _, _, _, _, _, rfl⟩
  simp only [f, checkCue, cueOf, hfields, List.getD_cons_zero, List.getD_cons_succ]
  by_cases hbig : 4 < x0
  · rw [if_pos hbig, if_pos hbig]
  by_cases hzero : x0 = 0
  · rw [if_neg hbig, if_neg hbig, if_pos hzero, if_pos hzero]
  rw [if_neg hbig, if_neg hbig, if_neg hzero, if_neg hzero, if_neg (cueKindOf_named hzero hbig)]
  simp only [firstFailure_cons, cueRanges, List.zip_cons_cons, List.zip_nil_left, List.all_cons, List.all_nil, Bool.and_eq_true,
    within_iff, even_iff_getLsbD, decide_eq_true_eq, Nat.zero_le, true_and, and_true]
  rw [← ite_and, ite_not]
  refine if_congr (by simp only [and_assoc, and_left_comm, and_comm]) ?_ rfl
  rw [← ite_not (steps < _)]
  exact if_congr Nat.not_lt.symm rfl rfl

theorem checkStep_eq (clips : List ClipRecord) (b : List Byte) : checkStep clips b =
    if (stepOf b).length < 1 then some .limit
    else if clips.length ≤ (stepOf b).clip then some .reference
    else if (clips.getD (stepOf b).clip { address := 0, length := 0 }).length < (stepOf b).start + (stepOf b).length
      then some .reference
    else none := by
  simp only [checkStep, firstFailure_cons, decide_eq_true_eq]
  rw [← ite_not ((stepOf b).length < 1), ← ite_not (clips.length ≤ _), ← ite_not (_ < (stepOf b).start + _)]
  exact if_congr Nat.not_lt.symm (if_congr Nat.not_le.symm (if_congr Nat.not_lt.symm rfl rfl) rfl) rfl

theorem checkClip_eq (b : List Byte) : checkClip b =
    if 1 ≤ (clipOf b).length ∧ (clipOf b).length ≤ 8388608 ∧ (clipOf b).address + 2 * (clipOf b).length ≤ 16777216
      then none else some .limit := by
  simp only [checkClip, firstFailure_cons, decide_eq_true_eq, within_iff]
  rw [← ite_and]
  exact if_congr and_assoc rfl rfl

theorem checkInput_eq (b : List Byte) :
    checkInput b = if numberOf b < 1024 ∨ numberOf b = 65535 then none else some .reference := by
  rw [checkInput, failsUnless_eq]
  exact if_congr (by simp only [cueOrNone, Bool.or_eq_true, decide_eq_true_eq]) rfl rfl

theorem distinctPairs_iff : ∀ l : List (Nat × Nat), distinctPairs l = true ↔ l.Nodup
  | [] => by simp [distinctPairs]
  | p :: rest => by simp [distinctPairs, distinctPairs_iff rest]

theorem cueInRange_iff (c : Option Nat) : cueInRange c = true ↔ ∀ n ∈ c, n < 1024 := by
  cases c <;> simp [cueInRange]

theorem checkProfile_eq (b : List Byte) :
    let p := (profileOf b).1
    let pairs := (profileOf b).2
    checkProfile b =
      if ¬ (p.holdoff ≤ 10000 ∧ 1 ≤ p.window ∧ p.window ≤ 16000 ∧ 1 ≤ p.settle ∧ p.settle ≤ 250 ∧ 1 ≤ pairs ∧
          pairs ≤ 32 ∧ (∀ x ∈ p.eligible, x.1 < 32 ∧ x.2 < 8) ∧ p.eligible.Nodup) then some .limit
      else if ¬ (p.holdoff < p.window ∧ p.window + p.settle ≤ 16000) then some .limit
      else if (∀ n ∈ p.falseCue, n < 1024) ∧ (∀ n ∈ p.noClaimCue, n < 1024) then none else some .reference := by
  intro p pairs
  have hcheck : checkProfile b = firstFailure
    [failsUnless .limit (within 0 10000 p.holdoff && within 1 16000 p.window && within 1 250 p.settle && within 1 32 pairs &&
        (p.eligible.all fun x => decide (x.1 < 32) && decide (x.2 < 8)) && distinctPairs p.eligible),
      failsUnless .limit (decide (p.holdoff < p.window) && decide (p.window + p.settle ≤ 16000)),
      failsUnless .reference (cueInRange p.falseCue && cueInRange p.noClaimCue)] := rfl
  rw [hcheck, ite_not, ite_not]
  simp only [firstFailure_cons, Bool.and_eq_true, List.all_eq_true, decide_eq_true_eq, within_iff, distinctPairs_iff, cueInRange_iff,
    and_assoc, Nat.zero_le, true_and]
  rfl

theorem checkCompare_eq (b : List Byte) : checkCompare b =
    if (compareOf b).enabled = true ∧ 1024 ≤ (compareOf b).cue.toNat then some .reference else none := by
  have hcheck : checkCompare b =
    failsUnless .reference (!(compareOf b).enabled || decide ((compareOf b).cue.toNat < 1024)) := rfl
  rw [hcheck, failsUnless_eq, ← ite_not]
  refine if_congr ?_ rfl rfl
  simp only [Bool.or_eq_true, Bool.not_eq_true', decide_eq_true_eq, not_or, Bool.not_eq_false, Nat.not_lt]

/-! ## The header and the section table (R165) -/

/-- An entry of the section table that is good by itself. -/
def sectionGood (length : Nat) (e : Section) : Prop :=
  1 ≤ e.kind ∧ e.kind ≤ 7 ∧ countAllowed e.kind e.count = true ∧ 58 ≤ e.offset ∧ e.stop ≤ length - 4

/-- Two sections that share no byte. -/
def sectionsApart (a b : Section) : Prop := b.stop ≤ a.offset ∨ a.stop ≤ b.offset

theorem sectionPasses_iff (length : Nat) (earlier : List Section) (e : Section) : sectionPasses length earlier e = true ↔
    sectionGood length e ∧ (∀ x ∈ earlier, x.kind ≠ e.kind) ∧ ∀ x ∈ earlier, sectionsApart x e := by
  simp only [sectionPasses, sectionGood, sectionsApart, Bool.and_eq_true, decide_eq_true_eq, Bool.not_eq_true',
    List.any_eq_false, beq_iff_eq, List.all_eq_true, Bool.or_eq_true]
  exact ⟨fun ⟨⟨⟨⟨⟨⟨h1, h2⟩, h3⟩, h4⟩, h5⟩, h6⟩, h7⟩ => ⟨⟨h1, h2, h4, h5, h6⟩, h3, h7⟩,
    fun ⟨⟨h1, h2, h4, h5, h6⟩, h3, h7⟩ => ⟨⟨⟨⟨⟨⟨h1, h2⟩, h3⟩, h4⟩, h5⟩, h6⟩, h7⟩⟩

/-- The section table passes: each entry is good, of a kind of its own, and apart from every other. -/
theorem sectionsPass_iff (length : Nat) : ∀ (l earlier : List Section), sectionsPass length earlier l = true ↔
    (∀ e ∈ l, sectionGood length e) ∧ (∀ e ∈ l, ∀ x ∈ earlier, x.kind ≠ e.kind ∧ sectionsApart x e) ∧
      (l.map Section.kind).Nodup ∧ l.Pairwise sectionsApart
  | [], earlier => by simp [sectionsPass]
  | e :: rest, earlier => by
    rw [sectionsPass, Bool.and_eq_true, sectionPasses_iff, sectionsPass_iff length rest (e :: earlier)]
    simp only [List.forall_mem_cons, List.map_cons, List.nodup_cons, List.pairwise_cons, List.mem_map, not_exists, not_and]
    constructor
    · rintro ⟨⟨hgood, hkinds, hapart⟩, hgoods, hcross, hnodup, hpair⟩
      exact ⟨⟨hgood, hgoods⟩, ⟨fun x hx => ⟨hkinds x hx, hapart x hx⟩, fun y hy => (hcross y hy).2⟩,
        ⟨fun y hy h => (hcross y hy).1.1 h.symm, hnodup⟩, fun y hy => (hcross y hy).1.2, hpair⟩
    · rintro ⟨⟨hgood, hgoods⟩, ⟨hfirst, hcross⟩, ⟨hnew, hnodup⟩, hapart, hpair⟩
      exact ⟨⟨hgood, fun x hx => (hfirst x hx).1, fun x hx => (hfirst x hx).2⟩, hgoods,
        fun y hy => ⟨⟨fun h => hnew y hy h.symm, hapart y hy⟩, hcross y hy⟩, hnodup, hpair⟩

end Sys2Proof.Machine
end

