-- ==== Sys2Proof/Proofs/ImageLoads.lean ====
section
/-!
The load of a show image (O5).
-/
namespace Sys2Proof.Machine
open Relation

/-! ## The stages of a load (Table 9-2, R164 to R168) -/

/-- The unit identity word. -/
def identityWord (flash : List Host.Cell) : Nat := numberOf ((Memory.readRange flash 0 8).take 4)

/-- The word beside it. -/
def inverseWord (flash : List Host.Cell) : Nat := numberOf (((Memory.readRange flash 0 8).drop 4).take 4)

theorem unitIdentity_eq (flash : List Host.Cell) : unitIdentity flash =
    if identityWord flash + inverseWord flash = 4294967295 then some (BitVec.ofNat 32 (identityWord flash)) else none := rfl

/-- The image length that the header gives. -/
def headerLength (flash : List Host.Cell) : Nat := numberOf (((imageBytes flash 0 58).drop 4).take 4)

/-- The section table that the header gives. -/
def headerSections (flash : List Host.Cell) : List Section := (chunks 7 7 ((imageBytes flash 0 58).drop 9)).map sectionOf

/-- The header passes (R165). -/
def headerGood (flash : List Host.Cell) : Prop :=
  numberOf ((imageBytes flash 0 58).take 4) = 0x4E530100 ∧ headerLength flash ≤ 1048576 ∧ 62 ≤ headerLength flash ∧
    numberOf (((imageBytes flash 0 58).drop 8).take 1) = 7 ∧ ((headerSections flash).map Section.kind).Nodup ∧
    (∀ e ∈ headerSections flash, 1 ≤ e.kind ∧ e.kind ≤ 7 ∧ countAllowed e.kind e.count = true ∧ 58 ≤ e.offset ∧
      e.offset + 2 + e.count * recordSize e.kind ≤ headerLength flash - 4) ∧
    (headerSections flash).Pairwise fun a b => b.offset + 2 + b.count * recordSize b.kind ≤ a.offset ∨
      a.offset + 2 + a.count * recordSize a.kind ≤ b.offset

theorem headerGood_iff (flash : List Host.Cell) : headerGood flash ↔
    numberOf ((imageBytes flash 0 58).take 4) = 0x4E530100 ∧ headerLength flash ≤ 1048576 ∧ headerSize + 4 ≤ headerLength flash ∧
      numberOf ((((imageBytes flash 0 58).drop 4).drop 4).take 1) = 7 ∧
      sectionsPass (headerLength flash) [] (headerSections flash) = true := by
  rw [sectionsPass_iff, List.drop_drop]
  constructor
  · rintro ⟨h1, h2, h3, h4, h5, h6, h7⟩
    exact ⟨h1, h2, h3, h4, h6, fun _ _ _ hx => absurd hx List.not_mem_nil, h5, h7⟩
  · rintro ⟨h1, h2, h3, h4, h6, -, h5, h7⟩
    exact ⟨h1, h2, h3, h4, h5, h6, h7⟩

theorem imageHeader_good {flash : List Host.Cell} (h : headerGood flash) :
    imageHeader flash = some (headerLength flash, headerSections flash) := if_pos ((headerGood_iff flash).mp h)

theorem imageHeader_bad {flash : List Host.Cell} (h : ¬ headerGood flash) : imageHeader flash = none :=
  if_neg (mt (headerGood_iff flash).mpr h)

/-- The signature of what stands before the signature word (R167). -/
def signatureBefore (flash : List Host.Cell) : Nat := signatureOf (imageBytes flash 0 (headerLength flash - 4))

theorem imageSignature_eq (flash : List Host.Cell) : imageSignature flash (headerLength flash) =
    if numberOf (imageBytes flash (headerLength flash - 4) 4) = signatureBefore flash
      then some (BitVec.ofNat 32 (signatureBefore flash)) else none := rfl

section
variable {flash : List Host.Cell}

theorem loadImage_unitBlock (h : identityWord flash + inverseWord flash ≠ 4294967295) : loadImage flash = .error .unitBlock := by
  simp only [loadImage, (unitIdentity_eq flash).trans (if_neg h)]

theorem loadImage_header (h : identityWord flash + inverseWord flash = 4294967295) (hbad : ¬ headerGood flash) :
    loadImage flash = .error .header := by
  simp only [loadImage, (unitIdentity_eq flash).trans (if_pos h), imageHeader_bad hbad]

theorem loadImage_signature (h : identityWord flash + inverseWord flash = 4294967295) (hgood : headerGood flash)
    (hsigned : numberOf (imageBytes flash (headerLength flash - 4) 4) ≠ signatureBefore flash) :
    loadImage flash = .error .signature := by
  simp only [loadImage, (unitIdentity_eq flash).trans (if_pos h), imageHeader_good hgood, (imageSignature_eq flash).trans (if_neg hsigned)]

theorem loadImage_limits {r : FaultReason} (h : identityWord flash + inverseWord flash = 4294967295) (hgood : headerGood flash)
    (hsigned : numberOf (imageBytes flash (headerLength flash - 4) 4) = signatureBefore flash)
    (hfails : stageFour (stage flash (headerSections flash)) = some r) : loadImage flash = .error r := by
  simp only [loadImage, (unitIdentity_eq flash).trans (if_pos h), imageHeader_good hgood,
    (imageSignature_eq flash).trans (if_pos hsigned), hfails]

theorem loadImage_good (h : identityWord flash + inverseWord flash = 4294967295) (hgood : headerGood flash)
    (hsigned : numberOf (imageBytes flash (headerLength flash - 4) 4) = signatureBefore flash)
    (hpasses : stageFour (stage flash (headerSections flash)) = none) : loadImage flash =
      .ok { identity := BitVec.ofNat 32 (identityWord flash), signature := BitVec.ofNat 32 (signatureBefore flash)
            tables := tablesOf (stage flash (headerSections flash)) } := by
  simp only [loadImage, (unitIdentity_eq flash).trans (if_pos h), imageHeader_good hgood,
    (imageSignature_eq flash).trans (if_pos hsigned), hpasses]

end

theorem signatureOf_append (l : List Byte) (b : Byte) :
    signatureOf (l ++ [b]) = (signatureOf l * 131 + b.toNat) % 4294967291 := by
  rw [signatureOf, List.foldl_append]
  rfl

/-! ## The end of a load (R155, R157) -/

section
variable {flash : List Host.Cell} {s : State}

theorem imageLoad_elsewhere (h : s.member.state ≠ .loading) : imageLoad flash s = s := if_neg h

theorem imageLoad_good {i : LoadedImage} (h : s.member.state = .loading) (hload : loadImage (Memory.ofCells flash) = .ok i) :
    imageLoad flash s = enterLine (fillTables i { s with flash := Memory.ofCells flash }) := by
  simp only [imageLoad, h, if_true, hload]

theorem imageLoad_fails {r : FaultReason} (h : s.member.state = .loading) (hload : loadImage (Memory.ofCells flash) = .error r) :
    imageLoad flash s = failLoad r { s with flash := Memory.ofCells flash } := by
  simp only [imageLoad, h, if_true, hload]

end

/-- The tables, the words and the output zones of a good load, before the station's own peer entry. -/
def tabled (i : LoadedImage) (s : State) : State :=
  { s with
    tables := i.tables, member := { s.member with identity := i.identity, signature := i.signature }
    outputs := Vector.ofFn fun o => { s.outputs[o] with
      zone := (i.tables.stations.getD s.straps.stn.toNat { zones := [255, 255, 255, 255], polarity := 0 }).zones.getD o.val 255 } }

theorem fillTables_tabled (i : LoadedImage) (s : State) : fillTables i s =
    updatePeer (ownNumber s) (fun p => { p with identity := i.identity, signature := i.signature }) (tabled i s) := rfl

theorem fillTables_eq (i : LoadedImage) (s : State) :
    ∃ peers, fillTables i s = { tabled i s with member := { (tabled i s).member with peers := peers } } := by
  rw [fillTables_tabled]
  exact ⟨_, updatePeer_eq _ _ _⟩

theorem tabled_zone (i : LoadedImage) (s : State) (o : Fin 4) : (tabled i s).outputs[o].zone =
    (i.tables.stations.getD s.straps.stn.toNat { zones := [255, 255, 255, 255], polarity := 0 }).zones.getD o.val 255 := by
  simp [tabled]

theorem ownNumber_lt (s : State) : (ownNumber s).toNat < 32 := by
  have hstn := s.straps.stn.isLt
  rw [ownNumber, BitVec.toNat_setWidth]
  omega

theorem peerOf_fillTables (i : LoadedImage) (s : State) :
    (peerOf (fillTables i s) (ownNumber s)).map (fun p => (p.identity, p.signature)) = some (i.identity, i.signature) := by
  rw [peerOf_of_lt (ownNumber_lt s), fillTables_tabled, updatePeer_peers, if_pos rfl]
  rfl

theorem offerJoin_placed {s : State} (h : s.txq.entries.length < 4) (reply : Bool) :
    offerJoin reply s = { placeFrame .membership (joinFrame s reply) s with member := { s.member with heldJoin := none } } :=
  if_pos (decide_eq_true h)

theorem offerJoin_eq (reply : Bool) (s : State) :
    ∃ txq held, offerJoin reply s = { s with txq := txq, member := { s.member with heldJoin := held } } := by
  unfold offerJoin
  split
  · exact ⟨_, _, rfl⟩
  · exact ⟨_, _, rfl⟩

/-- The state in which a good load's station begins to listen or to join. -/
def entered (m : StationState) (s : State) : State :=
  { beginReceiving s with member := { s.member with state := m } }

theorem enterLine_listening {s : State} (h : s.straps.listen = true) : enterLine s = entered .listening s := if_pos h

theorem enterLine_joining {s : State} (h : s.straps.listen = false) : enterLine s = offerJoin false (entered .joining s) :=
  if_neg (by
    show ¬ s.straps.listen = true
    rw [h]
    exact Bool.false_ne_true)

/-- What the entry on the line leaves, and the JOIN that it may place (R119, R155, R157). -/
theorem enterLine_spec (s : State) : ∃ txq held, enterLine s = { entered (if s.straps.listen then .listening else .joining) s with
    txq := txq, member := { s.member with state := if s.straps.listen then .listening else .joining, heldJoin := held } } ∧
    (s.straps.listen = false → s.txq.entries.length < 4 →
      txq.entries.map TxEntry.frame = s.txq.entries.map TxEntry.frame ++
        [encodeFrame (ownNumber s) (.join 0 s.member.identity s.member.signature)] ∧ held = none) ∧
    (s.straps.listen = true → txq = s.txq) := by
  cases h : s.straps.listen with
  | true =>
    exact ⟨s.txq, s.member.heldJoin, enterLine_listening h, (fun h => nomatch h), fun _ => rfl⟩
  | false =>
    rw [enterLine_joining h]
    by_cases hroom : s.txq.entries.length < 4
    · rw [offerJoin_placed (s := entered .joining s) hroom]
      exact ⟨_, none, rfl, fun _ _ => ⟨placeFrame_frames _ _ _, rfl⟩, (fun h => nomatch h)⟩
    · obtain ⟨txq, held, hoffer⟩ := offerJoin_eq false (entered .joining s)
      exact ⟨txq, held, hoffer, fun _ hlt => absurd hlt hroom, (fun h => nomatch h)⟩

/-- Settles O5. -/
theorem imageLoadFillsTablesOrFails : Obligations.ImageLoadFillsTablesOrFails := by
  refine ⟨fun flash s => ⟨fun h => congrArg Host.Outcome.next (imageLoad_elsewhere h), fun i h hload => ⟨imageLoad flash s, rfl, ?_⟩,
      fun r h hload => ⟨imageLoad flash s, rfl, ?_⟩⟩,
    fun flash => ⟨loadImage_unitBlock, loadImage_header, loadImage_signature, fun h hgood hsigned =>
      ⟨fun r => loadImage_limits h hgood hsigned, loadImage_good h hgood hsigned⟩⟩,
    ⟨fun x check r => checkSection_some, fun staged r => firstFailure_some, checkStation_eq, checkCue_eq, checkStep_eq, checkClip_eq,
      checkInput_eq, checkProfile_eq, checkCompare_eq⟩, rfl, signatureOf_append⟩
  · have hpeer := peerOf_fillTables i { s with flash := Memory.ofCells flash }
    have hzone := tabled_zone i { s with flash := Memory.ofCells flash }
    obtain ⟨peers, hfill⟩ := fillTables_eq i { s with flash := Memory.ofCells flash }
    rw [imageLoad_good h hload]
    rw [hfill] at hpeer ⊢
    obtain ⟨txq, held, henter, hplaced, hlistens⟩ := enterLine_spec
      { tabled i { s with flash := Memory.ofCells flash } with
        member := { (tabled i { s with flash := Memory.ofCells flash }).member with peers := peers } }
    rw [henter]
    exact ⟨rfl, rfl, rfl, rfl, rfl, rfl, hpeer, hzone, hplaced, hlistens, rfl, rfl, rfl, rfl, rfl, rfl⟩
  · rw [imageLoad_fails h hload]
    exact ⟨rfl, (raise_spec _ _).1, (raise_spec _ _).2, rfl, rfl, rfl, rfl, rfl, rfl, rfl, rfl⟩

end Sys2Proof.Machine
end

