-- ==== Sys2Proof/Proofs/SampleStages.lean ====
section
/-!
SUPPORT. The stages of a sample of the line: what is heard, sent, received and concluded (section 7.2).
-/
namespace Sys2Proof.Machine
open Relation

/-! ## The stages of a sample -/

/-- The state once a sample has been heard: the runs of lows and highs, and the veto owed (R117, R125). -/
def heard (clk : Word) (level : Bool) (s : State) : State := withLine (fun l => (l.pulse clk level).owedSample) s

/-- The state after the transmitter's part of a sample. -/
def sent (clk : Word) (level : Bool) (s : State) : State := (sendingSample level (heard clk level s)).1

/-- The state after the receiver's part. -/
def received (clk : Word) (level : Bool) (s : State) : State := (receiverSample level (sent clk level s)).1

/-- The state once an attempt that the receiver did not follow has ended. -/
def concluded (clk : Word) (level : Bool) (s : State) : State := (ownSlotEnd (received clk level s)).1

theorem followSample_eq (clk : Word) (level : Bool) (s : State) : followSample clk level s =
    (drive (concluded clk level s), (sendingSample level (heard clk level s)).2 ++ (receiverSample level (sent clk level s)).2 ++
      (ownSlotEnd (received clk level s)).2) := rfl

theorem lineSample_off {clk : Word} {level : Bool} {s : State} (h : s.line.rx = .off) : lineSample clk level s = (s, []) := if_pos h

theorem lineSample_begins {clk : Word} {level : Bool} {s : State} (h : s.line.rx ≠ .off) (ha : s.line.attempt = none) :
    lineSample clk level s = ((beginSample (drive (concluded clk level s))).1,
      (followSample clk level s).2 ++ (beginSample (drive (concluded clk level s))).2) := by
  rw [lineSample, if_neg h, ha]
  rfl

/-! ## What is heard -/

theorem heard_low (clk : Word) (s : State) : (heard clk false s).line = { s.line with
    lows := s.line.lows + 1, highs := 0, lowEdge := if s.line.lows = 0 then clk else s.line.lowEdge
    vetoOwed := (heard clk false s).line.vetoOwed } := rfl

theorem heard_eq (clk : Word) (level : Bool) (s : State) : (heard clk level s).line = { s.line with
    lows := if level then 0 else s.line.lows + 1, highs := if level then s.line.highs + 1 else 0
    lowEdge := (heard clk level s).line.lowEdge, vetoOwed := (heard clk level s).line.vetoOwed } := by
  cases level <;> rfl

theorem heard_outside (clk : Word) (level : Bool) (s : State) : heard clk level s = { s with line := (heard clk level s).line } := rfl

theorem owedSample_none {l : LineInterface} (h : l.vetoOwed = none) : l.owedSample = l := by
  cases l
  subst h
  rfl

theorem owedSample_some {l : LineInterface} {n : Nat} (h : l.vetoOwed = some n) :
    l.owedSample.vetoOwed = if n < 222 then some (n + 1) else none := by
  simp only [LineInterface.owedSample, h]
  exact if_congr (by simp [charSamples, bitSamples, slotSamples]; omega) rfl rfl

theorem pulse_vetoOwed (clk : Word) (level : Bool) (l : LineInterface) : (l.pulse clk level).vetoOwed = l.vetoOwed := by
  unfold LineInterface.pulse
  split <;> rfl

theorem heard_owes {clk : Word} {level : Bool} {s : State} (h : s.line.vetoOwed = none) : (heard clk level s).line.vetoOwed = none :=
  (congrArg LineInterface.vetoOwed (owedSample_none ((pulse_vetoOwed clk level s.line).trans h))).trans
    ((pulse_vetoOwed clk level s.line).trans h)

theorem heard_owed {clk : Word} {level : Bool} {s : State} {n : Nat} (h : s.line.vetoOwed = some n) :
    (heard clk level s).line.vetoOwed = if n < 222 then some (n + 1) else none :=
  owedSample_some ((pulse_vetoOwed clk level s.line).trans h)

/-- A low that is short before a sample is no break after it (R117). -/
theorem heard_lows_of_short {clk : Word} {level : Bool} {s : State} (h : shortLow s level) : (heard clk level s).line.lows < 176 := by
  rw [heard_eq]
  show (if level then 0 else s.line.lows + 1) < 176
  rcases h with rfl | h
  · exact Nat.zero_lt_of_ne_zero (by decide)
  · split <;> omega

/-- A low that is not stuck before a sample has not lasted more than 64 tb after it (R121). -/
theorem heard_lows_of_loose {clk : Word} {level : Bool} {s : State} (h : level = true ∨ s.line.lows < 1024) :
    (heard clk level s).line.lows ≤ 1024 := by
  rw [heard_eq]
  show (if level then 0 else s.line.lows + 1) ≤ 1024
  rcases h with rfl | h
  · exact Nat.zero_le _
  · split <;> omega

/-! ## The transmitter's part leaves the receiver alone -/

/-- The line without what is the transmitter's: the attempt, the driver and the veto owed. -/
def LineInterface.receiver (l : LineInterface) : LineInterface := { l with attempt := none, driver := .released, vetoOwed := none }

/-- The transmitter's part of a sample leaves the receiver, the station state, the receive queue and the two clocks alone. -/
structure LeavesReceiver (s t : State) : Prop where
  receiver : t.line.receiver = s.line.receiver := by rfl
  state : t.member.state = s.member.state := by rfl
  rxq : t.rxq = s.rxq := by rfl

theorem LeavesReceiver.refl (s : State) : LeavesReceiver s s := {}

theorem LeavesReceiver.trans {s t u : State} (h : LeavesReceiver s t) (k : LeavesReceiver t u) : LeavesReceiver s u where
  receiver := k.receiver.trans h.receiver
  state := k.state.trans h.state
  rxq := k.rxq.trans h.rxq

section
variable {s t : State}

theorem LeavesReceiver.rx (h : LeavesReceiver s t) : t.line.rx = s.line.rx := (congrArg LineInterface.rx h.receiver :)
theorem LeavesReceiver.idleCount (h : LeavesReceiver s t) : t.line.idleCount = s.line.idleCount :=
  (congrArg LineInterface.idleCount h.receiver :)
theorem LeavesReceiver.gapLeft (h : LeavesReceiver s t) : t.line.gapLeft = s.line.gapLeft := (congrArg LineInterface.gapLeft h.receiver :)
theorem LeavesReceiver.hunt (h : LeavesReceiver s t) : t.line.hunt = s.line.hunt := (congrArg LineInterface.hunt h.receiver :)
theorem LeavesReceiver.lows (h : LeavesReceiver s t) : t.line.lows = s.line.lows := (congrArg LineInterface.lows h.receiver :)
theorem LeavesReceiver.highs (h : LeavesReceiver s t) : t.line.highs = s.line.highs := (congrArg LineInterface.highs h.receiver :)
theorem LeavesReceiver.lowEdge (h : LeavesReceiver s t) : t.line.lowEdge = s.line.lowEdge := (congrArg LineInterface.lowEdge h.receiver :)
theorem LeavesReceiver.breakEdge (h : LeavesReceiver s t) : t.line.breakEdge = s.line.breakEdge :=
  (congrArg LineInterface.breakEdge h.receiver :)
theorem LeavesReceiver.frame (h : LeavesReceiver s t) : t.line.frame = s.line.frame := (congrArg LineInterface.frame h.receiver :)
theorem LeavesReceiver.assembling (h : LeavesReceiver s t) : t.line.assembling = s.line.assembling :=
  (congrArg LineInterface.assembling h.receiver :)
theorem LeavesReceiver.jamWait (h : LeavesReceiver s t) : t.line.jamWait = s.line.jamWait := (congrArg LineInterface.jamWait h.receiver :)
theorem LeavesReceiver.jamReady (h : LeavesReceiver s t) : t.line.jamReady = s.line.jamReady :=
  (congrArg LineInterface.jamReady h.receiver :)
theorem LeavesReceiver.jamLeft (h : LeavesReceiver s t) : t.line.jamLeft = s.line.jamLeft := (congrArg LineInterface.jamLeft h.receiver :)
theorem LeavesReceiver.passed (h : LeavesReceiver s t) : t.line.passed = s.line.passed := (congrArg LineInterface.passed h.receiver :)
theorem LeavesReceiver.slotFirst (h : LeavesReceiver s t) : t.line.slotFirst = s.line.slotFirst :=
  (congrArg LineInterface.slotFirst h.receiver :)
theorem LeavesReceiver.slotSecond (h : LeavesReceiver s t) : t.line.slotSecond = s.line.slotSecond :=
  (congrArg LineInterface.slotSecond h.receiver :)
theorem LeavesReceiver.slotVeto (h : LeavesReceiver s t) : t.line.slotVeto = s.line.slotVeto :=
  (congrArg LineInterface.slotVeto h.receiver :)

end

theorem OfferFrame.leavesReceiver {s t : State} (h : OfferFrame s t) : LeavesReceiver s t := by
  obtain ⟨_, _, _, _, _, _, rfl⟩ := h
  exact {}

theorem setFault_leavesReceiver (f : FaultFlag) (s : State) : LeavesReceiver s (setFault f s) := {}

theorem endAttempt_leavesReceiver (s : State) : LeavesReceiver s (endAttempt s) := {}

theorem removed_leavesReceiver (n : Nat) (s : State) : LeavesReceiver s (offerRounds 1 (removeTx n (endAttempt s))) :=
  (endAttempt_leavesReceiver s).trans ((removeTx_frame n _).trans (offerRounds_frame 1 _)).leavesReceiver

theorem postDropped_leavesReceiver (e : TxEntry) (w : Word) (s : State) : LeavesReceiver s (postDropped e w s) := by
  unfold postDropped
  split
  · split
    · exact {}
    · exact .refl s
  · exact .refl s

theorem rejoin_leavesReceiver (e : TxEntry) (s : State) : LeavesReceiver s (rejoin e s) := by
  unfold rejoin
  split
  · exact (offerJoin_frame _ s).leavesReceiver
  · exact .refl s

theorem dropFrame_leavesReceiver (a : Attempt) (e : TxEntry) (s : State) : LeavesReceiver s (dropFrame a e s) :=
  (endAttempt_leavesReceiver s).trans (((removeTx_frame _ _).trans (forgetEntry_frame _ _)).leavesReceiver.trans
    ((setFault_leavesReceiver _ _).trans ((postDropped_leavesReceiver _ _ _).trans ((rejoin_leavesReceiver _ _).trans
      (offerRounds_frame 1 _).leavesReceiver))))

theorem endUncounted_leavesReceiver (a : Attempt) (s : State) : LeavesReceiver s (endUncounted a s) := by
  unfold endUncounted
  split
  · split
    · exact removed_leavesReceiver _ s
    · exact endAttempt_leavesReceiver s
  · exact endAttempt_leavesReceiver s

theorem endFailed_leavesReceiver (a : Attempt) (s : State) : LeavesReceiver s (endFailed a s) := by
  unfold endFailed
  split
  · split
    · exact removed_leavesReceiver _ s
    · split
      · exact dropFrame_leavesReceiver a _ s
      · exact {}
  · exact endAttempt_leavesReceiver s

theorem sendSample_leavesReceiver (a : Attempt) (frame : List Byte) (n k : Nat) (level : Bool) (s : State) :
    LeavesReceiver s (sendSample a frame n k level s).1 := by
  unfold sendSample
  dsimp only
  split
  · split
    · exact {}
    · exact endUncounted_leavesReceiver a s
    · unfold failAttempt
      split
      · exact LeavesReceiver.trans {} (endFailed_leavesReceiver a _)
      · exact endFailed_leavesReceiver a s
  · exact {}

theorem sendingSample_leavesReceiver (level : Bool) (s : State) : LeavesReceiver s (sendingSample level s).1 := by
  unfold sendingSample
  split
  · unfold attemptSample
    split
    · exact {}
    · split
      · exact {}
      · exact .refl s
    · exact {}
    · split
      · exact sendSample_leavesReceiver _ _ _ _ level s
      · exact .refl s
    · exact {}
  · exact .refl s

/-- What the receiver finds at a sample is what was heard. -/
theorem sent_leavesReceiver (clk : Word) (level : Bool) (s : State) : LeavesReceiver (heard clk level s) (sent clk level s) :=
  sendingSample_leavesReceiver level _

/-- The receiver after a sample is as the receiver's part leaves it. -/
theorem ownSlotEnd_receiver (s : State) : (ownSlotEnd s).1.line.receiver = s.line.receiver := by
  unfold ownSlotEnd
  split
  · rfl
  · split
    · split
      · rfl
      · split
        · show (offerRounds 1 _).line.receiver = _
          rw [offerRounds_line, endAccepted_line]
          rfl
        · show (endFailed _ s).line.receiver = _
          rw [endFailed_line]
          rfl
    · rfl

theorem lineSample_receiver {clk : Word} {level : Bool} {s : State} (h : s.line.rx ≠ .off) :
    (lineSample clk level s).1.line.receiver = (received clk level s).line.receiver := by
  have hfollow : (followSample clk level s).1.line.receiver = (received clk level s).line.receiver :=
    ownSlotEnd_receiver (received clk level s)
  cases ha : s.line.attempt with
  | none =>
    rw [lineSample_begins h ha]
    show (beginSample (followSample clk level s).1).1.line.receiver = _
    rw [beginSample_eq]
    exact hfollow
  | some a =>
    rw [lineSample_of_attempt h ha]
    exact hfollow

end Sys2Proof.Machine
end

