-- ==== Sys2Proof/Proofs/LineSteps.lean ====
section
/-!
SUPPORT. The steps of the receiver and of the transmitter at a sample (chapter 7).
-/
namespace Sys2Proof.Machine
open Relation

/-! ## The events of a sample, stage by stage -/

/-- The events that only the receiver's part of a sample brings. -/
def LineEvent.ofReceiver (e : LineEvent) : Prop :=
  e ∉ [LineEvent.attemptStart, .arbitrationLost, .bitError, .frameAccepted, .frameVetoed, .frameDropped]

theorem failureEvents_mem {s : State} {e f : LineEvent} (h : f ∈ failureEvents s e) : f = e ∨ f = .frameDropped := by
  unfold failureEvents at h
  split at h
  · simpa using h
  · exact .inl (List.mem_singleton.mp h)

theorem sendingSample_events {level : Bool} {s : State} {e : LineEvent} (h : e ∈ (sendingSample level s).2) :
    e = .arbitrationLost ∨ e = .bitError ∨ e = .frameDropped := by
  unfold sendingSample at h
  split at h
  · unfold attemptSample at h
    split at h
    · exact absurd h List.not_mem_nil
    · exact absurd h List.not_mem_nil
    · exact absurd h List.not_mem_nil
    · split at h
      · unfold sendSample at h
        dsimp only at h
        split at h
        · split at h
          · exact absurd h List.not_mem_nil
          · exact .inl (List.mem_singleton.mp h)
          · exact .inr (failureEvents_mem h)
        · exact absurd h List.not_mem_nil
      · exact absurd h List.not_mem_nil
    · exact absurd h List.not_mem_nil
  · exact absurd h List.not_mem_nil

theorem ownSlotEnd_events {s : State} {e : LineEvent} (h : e ∈ (ownSlotEnd s).2) :
    e = .frameAccepted ∨ e = .frameVetoed ∨ e = .frameDropped := by
  unfold ownSlotEnd at h
  split at h
  · exact absurd h List.not_mem_nil
  · split at h
    · split at h
      · exact absurd h List.not_mem_nil
      · split at h
        · exact .inl (List.mem_singleton.mp h)
        · exact .inr (failureEvents_mem h)
    · exact absurd h List.not_mem_nil

theorem beginSample_events {s : State} {e : LineEvent} (h : e ∈ (beginSample s).2) : e = .attemptStart := by
  unfold beginSample at h
  split at h
  · exact absurd h List.not_mem_nil
  · exact List.mem_singleton.mp h

/-- The events of a sample: the transmitter's, the receiver's, those of an end that the receiver did not follow, and the beginning
of an attempt. -/
theorem mem_lineSample {clk : Word} {level : Bool} {s : State} {e : LineEvent} (hrx : s.line.rx ≠ .off) :
    e ∈ (lineSample clk level s).2 ↔ (e ∈ (sendingSample level (heard clk level s)).2 ∨
      e ∈ (receiverSample level (sent clk level s)).2 ∨ e ∈ (ownSlotEnd (received clk level s)).2) ∨
      (s.line.attempt = none ∧ e ∈ (beginSample (drive (concluded clk level s))).2) := by
  cases ha : s.line.attempt with
  | none =>
    rw [lineSample_begins hrx ha, followSample_eq]
    simp only [List.mem_append, or_assoc, true_and]
  | some a =>
    rw [lineSample_of_attempt hrx ha, followSample_eq]
    simp only [List.mem_append, or_assoc, reduceCtorEq, false_and, or_false]

theorem mem_lineSample_receiver {clk : Word} {level : Bool} {s : State} {e : LineEvent} (hrx : s.line.rx ≠ .off)
    (he : e.ofReceiver) : e ∈ (lineSample clk level s).2 ↔ e ∈ (receiverSample level (sent clk level s)).2 := by
  simp only [LineEvent.ofReceiver, List.mem_cons, List.not_mem_nil, or_false, not_or] at he
  obtain ⟨h1, h2, h3, h4, h5, h6⟩ := he
  rw [mem_lineSample hrx]
  constructor
  · rintro ((h | h | h) | ⟨-, h⟩)
    · rcases sendingSample_events h with rfl | rfl | rfl
      · exact absurd rfl h2
      · exact absurd rfl h3
      · exact absurd rfl h6
    · exact h
    · rcases ownSlotEnd_events h with rfl | rfl | rfl
      · exact absurd rfl h4
      · exact absurd rfl h5
      · exact absurd rfl h6
    · exact absurd (beginSample_events h) h1
  · exact fun h => .inl (.inr (.inl h))

/-! ## The rows of the line -/

theorem playLine_single (level : Bool) (u : State) : playLine [level] 0 u = (lineSample u.stationClock level u).1 :=
  congrArg Prod.fst (sampleAt_zero level u)

section
variable {e : LineEvent} {before : Samples} {level : Bool} {s : State}

theorem lineCommand_happens (h : e ∈ (lineSample (playLine before 1 s).stationClock level (playLine before 1 s)).2) :
    lineCommand e (before ++ [level]) s = (lineSample (playLine before 1 s).stationClock level (playLine before 1 s)).1 := by
  rw [lineCommand, runLine_concat]
  exact if_pos (List.contains_iff_mem.mpr h)

theorem lineCommand_not (h : e ∉ (lineSample (playLine before 1 s).stationClock level (playLine before 1 s)).2) :
    lineCommand e (before ++ [level]) s = s := by
  rw [lineCommand, runLine_concat]
  exact if_neg fun hmem => h (List.contains_iff_mem.mp hmem)

end

/-! ## The receiver's part (section 7.2) -/

/-- With no low that is a break and no jam, the receiver does what its state does. -/
theorem receiverSample_state {level : Bool} {s : State} (hlows : s.line.lows < 176) (hjam : s.line.jamLeft = 0) :
    receiverSample level s = stateSample level s := by
  rw [receiverSample, if_neg (by rw [stuckSamples]; omega), if_neg (by rw [charSamples]; omega), if_neg (by omega)]

/-- What the receiver's part leaves of the line in every state but STUCK and the slot's end: the runs, the attempt and the veto
owed. -/
structure LineKept (s t : State) : Prop where
  lows : t.line.lows = s.line.lows := by rfl
  highs : t.line.highs = s.line.highs := by rfl
  lowEdge : t.line.lowEdge = s.line.lowEdge := by rfl
  attempt : t.line.attempt = s.line.attempt := by rfl
  vetoOwed : t.line.vetoOwed = s.line.vetoOwed := by rfl

theorem LineKept.trans {s t u : State} (h : LineKept s t) (k : LineKept t u) : LineKept s u where
  lows := k.lows.trans h.lows
  highs := k.highs.trans h.highs
  lowEdge := k.lowEdge.trans h.lowEdge
  attempt := k.attempt.trans h.attempt
  vetoOwed := k.vetoOwed.trans h.vetoOwed

theorem outsideSample_kept (level : Bool) (s : State) : LineKept s (outsideSample level s).1 := by
  unfold outsideSample
  split <;> exact {}

theorem gapSample_kept (level : Bool) (h k : Hunt) (s : State) : LineKept s (gapSample level h k s).1 := by
  unfold gapSample
  dsimp only
  split <;> exact {}

theorem headerUnusable_kept (s : State) : LineKept s (headerUnusable s) := by
  unfold headerUnusable
  split <;> exact {}

theorem charDone_kept (c : ReadChar) (s : State) : LineKept s (charDone c s).1 := by
  unfold charDone
  split
  · unfold frameChar
    dsimp only
    split
    · exact headerUnusable_kept s
    · split <;> exact {}
  · exact {}

theorem frameSample_kept (level : Bool) (s : State) : LineKept s (frameSample level s).1 := by
  unfold frameSample
  split
  · exact {}
  · dsimp only
    split
    · exact {}
    · exact LineKept.trans {} (charDone_kept _ _)
    · split
      · exact {}
      · exact LineKept.trans {} (gapSample_kept _ _ _ _)

theorem stateSample_kept {level : Bool} {s : State} (h : s.line.rx ≠ .slot) : LineKept s (stateSample level s).1 := by
  unfold stateSample
  split
  · exact {}
  · split <;> exact {}
  · split <;> exact {}
  · exact outsideSample_kept level s
  · dsimp only
    split <;> exact {}
  · exact frameSample_kept level s
  · exact frameSample_kept level s
  · exact frameSample_kept level s
  · unfold endMarkSample
    split <;> exact {}
  · contradiction

theorem jamSample_kept (s : State) : LineKept s (jamSample s) := by
  unfold jamSample
  split <;> exact {}

/-- A receiver outside the slot, of a low that is not stuck, leaves all but the line as it was. -/
theorem receiverSample_lineOnly {level : Bool} {s : State} (hrx : s.line.rx ≠ .slot) (hlows : s.line.lows ≤ 1024) :
    lineOnly s (receiverSample level s).1 := by
  unfold receiverSample
  rw [if_neg (fun h => Nat.not_lt_of_le hlows h.1)]
  split
  · show lineOnly s (breakDetect s)
    exact withLine_lineOnly _ s
  · split
    · exact jamSample_lineOnly s
    · exact stateSample_lineOnly hrx

/-- The slot's part of a sample, where the station sends no frame of its own in it. -/
theorem slotAttempt_none_of {s : State} (h : s.line.attempt = none) : slotAttempt s = none := by
  simp only [slotAttempt, h]

theorem slotAttempt_some_of {s : State} {a : Attempt} {n x y : Nat} (h : s.line.attempt = some a) (hp : a.phase = .slot n x y) :
    slotAttempt s = some a := by
  simp only [slotAttempt, h, hp]

theorem slotAttempt_none_of_phase {s : State} {a : Attempt} (h : s.line.attempt = some a) (hp : ∀ n x y, a.phase ≠ .slot n x y) :
    slotAttempt s = none := by
  simp only [slotAttempt, h]
  split
  · next n x y hphase => exact absurd hphase (hp n x y)
  all_goals rfl

theorem ownSlotEnd_of_none {s : State} (h : slotAttempt s = none) : ownSlotEnd s = (s, []) := by
  simp only [ownSlotEnd, h]

theorem frameAccepted_of_none {s : State} (h : slotAttempt s = none) :
    frameAccepted s = enqueueAccepted s.line.frame s.line.breakEdge (leaveSlot s) := by
  simp only [frameAccepted, h]

theorem frameAccepted_of_some {s : State} {a : Attempt} (h : slotAttempt s = some a) :
    frameAccepted s = offerRounds 1 (enqueueAccepted s.line.frame s.line.breakEdge (endAccepted a (leaveSlot s))) := by
  simp only [frameAccepted, h]

theorem frameVetoed_of_none {s : State} (h : slotAttempt s = none) : frameVetoed s = (leaveSlot s, [.frameVetoed]) := by
  simp only [frameVetoed, h]

theorem frameVetoed_of_some {s : State} {a : Attempt} (h : slotAttempt s = some a) :
    frameVetoed s = (endFailed a (leaveSlot s), failureEvents s .frameVetoed) := by
  simp only [frameVetoed, h]

/-! ## Where no attempt is in progress -/

/-- What a sample leaves where no attempt is in progress before it: of the blocks, the receive queue and the Panel Port alone can
differ. -/
structure NoAttempt (s t : State) : Prop where
  attempt : t.line.attempt = none
  frame : t = { s with line := t.line, rxq := t.rxq, panel := t.panel } := by rfl

theorem lineOnly.noAttempt {s t : State} (h : lineOnly s t) (ha : t.line.attempt = none) : NoAttempt s t where
  attempt := ha
  frame := by rw [h]

theorem enqueueAccepted_frame_eq (chars : List ReadChar) (w : Word) (s : State) : enqueueAccepted chars w s =
    { s with rxq := (enqueueAccepted chars w s).rxq, panel := (enqueueAccepted chars w s).panel } := by
  unfold enqueueAccepted
  split
  · rfl
  · split
    · split <;> rfl
    · rfl

/-- The highs of the slot's first bit time, and of its second, after a sample (R128). -/
def firstTally (level : Bool) (s : State) : Nat :=
  if s.line.passed < 16 then tally s.line.passed s.line.slotFirst level else s.line.slotFirst

def secondTally (level : Bool) (s : State) : Nat :=
  if s.line.passed < 16 then s.line.slotSecond else tally (s.line.passed - 16) s.line.slotSecond level

theorem slotSample_eq (level : Bool) (s : State) : slotSample level s =
    if s.line.passed + 1 < 32 then
      (withLine (fun l => { l with
        passed := s.line.passed + 1, slotFirst := firstTally level s, slotSecond := secondTally level s }) s, [])
    else if majorityHigh (firstTally level s) && majorityHigh (secondTally level s) then (frameAccepted s, [.frameAccepted])
    else frameVetoed s := rfl

theorem slotSample_runs {level : Bool} {s : State} (h : s.line.passed < 31) : slotSample level s =
    (withLine (fun l => { l with
      passed := s.line.passed + 1, slotFirst := firstTally level s, slotSecond := secondTally level s }) s, []) := by
  rw [slotSample_eq, if_pos (by omega)]

/-- At its last sample the slot is judged by what it has read. -/
theorem slotSample_last {level : Bool} {s : State} (h : s.line.passed = 31) : slotSample level s =
    if 2 ≤ s.line.slotFirst ∧ 2 ≤ s.line.slotSecond then (frameAccepted s, [.frameAccepted]) else frameVetoed s := by
  have hfirst : firstTally level s = s.line.slotFirst := if_neg (by omega)
  have hsecond : secondTally level s = s.line.slotSecond := by
    rw [secondTally, if_neg (by omega), h]
    rfl
  rw [slotSample_eq, if_neg (by omega), hfirst, hsecond]
  exact if_congr (by simp [majorityHigh]) rfl rfl

theorem frameAccepted_noAttempt {s : State} (h : s.line.attempt = none) : NoAttempt s (frameAccepted s) := by
  rw [frameAccepted_of_none (slotAttempt_none_of h)]
  refine { attempt := ?_, frame := ?_ }
  · rw [enqueueAccepted_line]
    exact h
  · rw [enqueueAccepted_frame_eq]
    rfl

theorem frameVetoed_noAttempt {s : State} (h : s.line.attempt = none) : NoAttempt s (frameVetoed s).1 := by
  rw [frameVetoed_of_none (slotAttempt_none_of h)]
  exact { attempt := h }

theorem slotSample_noAttempt {level : Bool} {s : State} (h : s.line.attempt = none) : NoAttempt s (slotSample level s).1 := by
  rw [slotSample_eq]
  split
  · exact { attempt := h }
  · cases majorityHigh (firstTally level s) && majorityHigh (secondTally level s) with
    | true => exact frameAccepted_noAttempt h
    | false => exact frameVetoed_noAttempt h

theorem receiverSample_noAttempt {level : Bool} {s : State} (h : s.line.attempt = none) :
    NoAttempt s (receiverSample level s).1 := by
  unfold receiverSample
  split
  · show NoAttempt s (lineStuck s)
    simp only [lineStuck, h]
    exact { attempt := h }
  · split
    · refine { attempt := ?_ }
      show s.line.attempt.map _ = none
      rw [h]
      rfl
    · split
      · exact (jamSample_lineOnly s).noAttempt ((jamSample_kept s).attempt.trans h)
      · by_cases hrx : s.line.rx = .slot
        · have hslot : stateSample level s = slotSample level s := by simp only [stateSample, hrx]
          rw [hslot]
          exact slotSample_noAttempt h
        · exact (stateSample_lineOnly hrx).noAttempt ((stateSample_kept hrx).attempt.trans h)

section
variable {clk : Word} {level : Bool} {s : State}

theorem sent_of_none (h : s.line.attempt = none) : sent clk level s = heard clk level s := by
  have hheard : (heard clk level s).line.attempt = none := by
    rw [heard_eq]
    exact h
  simp only [sent, sendingSample, hheard]

theorem received_of_none (h : s.line.attempt = none) :
    received clk level s = (receiverSample level (heard clk level s)).1 := by
  rw [received, sent_of_none h]

theorem received_noAttempt (h : s.line.attempt = none) : NoAttempt s (received clk level s) := by
  have hheard : (heard clk level s).line.attempt = none := by
    rw [heard_eq]
    exact h
  rw [received_of_none h]
  obtain ⟨hattempt, hframe⟩ := receiverSample_noAttempt (level := level) hheard
  refine ⟨hattempt, ?_⟩
  rw [hframe, heard_outside]

theorem concluded_of_none (h : s.line.attempt = none) : concluded clk level s = received clk level s := by
  rw [concluded, ownSlotEnd_of_none (slotAttempt_none_of (received_noAttempt h).attempt)]

end

/-! ## What is driven, and the beginning of an attempt (R114, R122) -/

theorem drive_driver (s : State) : (drive s).line.driver =
    if 0 < s.line.jamLeft then .jam
    else if (decide (s.line.rx = .slot) && s.line.slotVeto) || s.line.drivesOwed then .veto
    else if drivesAttempt s then .attempt
    else .released := rfl

theorem drivesOwed_none {l : LineInterface} (h : l.vetoOwed = none) : l.drivesOwed = false := by
  simp only [LineInterface.drivesOwed, h]

theorem drivesOwed_some {l : LineInterface} {n : Nat} (h : l.vetoOwed = some n) : l.drivesOwed = decide (192 ≤ n + 1) := by
  simp only [LineInterface.drivesOwed, h]
  rfl

theorem drivesAttempt_none {s : State} (h : s.line.attempt = none) : drivesAttempt s = false := by
  simp only [drivesAttempt, h]

theorem drive_quiet {s : State} (hjam : s.line.jamLeft = 0) (hslot : (decide (s.line.rx = .slot) && s.line.slotVeto) = false)
    (howed : s.line.drivesOwed = false) : (drive s).line.driver = if drivesAttempt s then .attempt else .released := by
  rw [drive_driver, if_neg (by omega), hslot, howed]
  rfl

theorem drive_released {s : State} (hjam : s.line.jamLeft = 0) (hslot : (decide (s.line.rx = .slot) && s.line.slotVeto) = false)
    (howed : s.line.drivesOwed = false) (hattempt : drivesAttempt s = false) : (drive s).line.driver = .released := by
  rw [drive_quiet hjam hslot howed, hattempt]
  rfl

/-- What is driven after a sample that leaves no attempt is no attempt's. -/
theorem drive_not_attempt {s : State} (h : s.line.attempt = none) : (drive s).line.driver ≠ .attempt := by
  rw [drive_driver, drivesAttempt_none h]
  split
  · exact fun h => nomatch h
  · split
    · exact fun h => nomatch h
    · exact fun h => nomatch h

theorem idleHolds_iff {s : State} : idleHolds s = true ↔
    s.line.rx = .outside ∧ 224 ≤ s.line.idleCount ∧ s.line.lows = 0 ∧ s.line.hunt.pending = false := by
  rw [idleHolds, Bool.and_eq_true, Bool.and_eq_true, Bool.and_eq_true, decide_eq_true_eq, decide_eq_true_eq, decide_eq_true_eq,
    Bool.not_eq_true', and_assoc, and_assoc]
  exact Iff.rfl

theorem beginSample_of_not {s : State} (h : idleHolds s ≠ true ∨ s.line.attempt ≠ none ∨ s.line.vetoOwed ≠ none) :
    beginSample s = (s, []) := by
  have hnone : nextAttempt s = none := by
    cases hnext : nextAttempt s with
    | none => rfl
    | some e =>
      obtain ⟨-, -, hidle, hattempt, howed, -⟩ := nextAttempt_some hnext
      exact (h.elim (· hidle) fun h => h.elim (· hattempt) (· howed)).elim
  simp only [beginSample, hnone]

theorem beginSample_of_rx {s : State} (h : s.line.rx ≠ .outside) : beginSample s = (s, []) :=
  beginSample_of_not (.inl fun hidle => h (idleHolds_iff.mp hidle).1)

theorem beginSample_of_count {s : State} (h : s.line.idleCount < 224) : beginSample s = (s, []) :=
  beginSample_of_not (.inl fun hidle => Nat.not_le_of_lt h (idleHolds_iff.mp hidle).2.1)

theorem beginSample_of_low {s : State} (h : s.line.lows ≠ 0) : beginSample s = (s, []) :=
  beginSample_of_not (.inl fun hidle => h (idleHolds_iff.mp hidle).2.2.1)

theorem maySend_iff {s : State} {e : TxEntry} : maySend s e = true ↔
    s.member.state = .active ∨ (s.member.state = .joining ∧ kindOf e.frame = some .join) := by
  simp [maySend]

/-- The beginning of the attempt of the head. -/
theorem beginSample_starts {s : State} {e : TxEntry} (hmay : mayAttempt s e) (hidle : idleHolds s = true)
    (hattempt : s.line.attempt = none) (howed : s.line.vetoOwed = none) (hdriver : s.line.driver = .released) :
    beginSample s = (withLine (fun l => { l with driver := .attempt, attempt := some (Attempt.start e) }) s, [.attemptStart]) := by
  obtain ⟨hhead, hstate⟩ := hmay
  have hhead' : txHead (placedEntries s) = some e := hhead
  have hnext : nextAttempt s = some e := by
    simp only [nextAttempt, hhead', maySend_iff.mpr hstate, hidle, hattempt, howed, hdriver, Option.isNone_none, Bool.and_self,
      decide_true, if_true]
  simp only [beginSample, hnext]

theorem beginSample_stays {s : State} (h : ∀ e, ¬ mayAttempt s e) : beginSample s = (s, []) := by
  have hnone : nextAttempt s = none := by
    cases hnext : nextAttempt s with
    | none => rfl
    | some e =>
      obtain ⟨hhead, hmay, -⟩ := nextAttempt_some hnext
      exact absurd ⟨hhead, maySend_iff.mp hmay⟩ (h e)
  simp only [beginSample, hnone]

end Sys2Proof.Machine
end

