-- ==== Sys2Proof/Proofs/LineFrames.lean ====
section
/-!
What the rows of the line leave as it was (O17).
-/
namespace Sys2Proof.Machine
open Relation

/-! ## What a sample of the line leaves of the clock records -/

theorem keepsClocks.of_eq {s t : State} (h : t.clocks = s.clocks) : keepsClocks s t := by
  refine ⟨congrArg SegmentClocks.matchSeq h, fun c => ?_⟩
  rw [clockOf, clockOf, h]

theorem keepsClocks.refl (s : State) : keepsClocks s s := .of_eq rfl

theorem keepsClocks.trans {s t u : State} (h : keepsClocks s t) (k : keepsClocks t u) : keepsClocks s u := by
  obtain ⟨hseq, hrecord⟩ := h
  obtain ⟨kseq, krecord⟩ := k
  refine ⟨kseq.trans hseq, fun c => ?_⟩
  rw [krecord c, hrecord c]

theorem lineOnly.keepsClocks {s t : State} (h : lineOnly s t) : Machine.keepsClocks s t := .of_eq (congrArg State.clocks h :)

theorem offerRounds_keepsClocks (s : State) : keepsClocks s (offerRounds 1 s) := (offerRound_turn s).clocks

theorem forgetEntry_keepsClocks (n : Nat) (s : State) : keepsClocks s (forgetEntry n s) := by
  refine ⟨rfl, fun c => ?_⟩
  simp [clockOf, forgetEntry, mapVec, withRound]

theorem rejoin_clocks (e : TxEntry) (s : State) : (rejoin e s).clocks = s.clocks := by
  unfold rejoin
  split
  · obtain ⟨txq, held, heq⟩ := offerJoin_eq false s
    rw [heq]
  · rfl

theorem postDropped_clocks (e : TxEntry) (w : Word) (s : State) : (postDropped e w s).clocks = s.clocks := by
  unfold postDropped
  split
  · split <;> rfl
  · rfl

theorem joinAccepted_clocks (e : TxEntry) (s : State) : (joinAccepted e s).clocks = s.clocks := by
  unfold joinAccepted
  split <;> rfl

theorem enqueueAccepted_clocks (chars : List ReadChar) (w : Word) (s : State) : (enqueueAccepted chars w s).clocks = s.clocks := by
  rw [enqueueAccepted_frame_eq]

theorem removed_keepsClocks (n : Nat) (s : State) : keepsClocks s (offerRounds 1 (removeTx n (endAttempt s))) :=
  (keepsClocks.of_eq rfl).trans (offerRounds_keepsClocks _)

theorem endUncounted_keepsClocks (a : Attempt) (s : State) : keepsClocks s (endUncounted a s) := by
  unfold endUncounted
  split
  · split
    · exact removed_keepsClocks _ s
    · exact .of_eq rfl
  · exact .of_eq rfl

theorem dropFrame_keepsClocks (a : Attempt) (e : TxEntry) (s : State) : keepsClocks s (dropFrame a e s) := by
  have hforget : keepsClocks s (setFault .txDropped (forgetEntry a.entry (removeTx a.entry (endAttempt s)))) :=
    (forgetEntry_keepsClocks a.entry (removeTx a.entry (endAttempt s))).trans (.of_eq rfl)
  exact (hforget.trans (.of_eq ((rejoin_clocks _ _).trans (postDropped_clocks _ _ _)))).trans (offerRounds_keepsClocks _)

theorem endFailed_keepsClocks (a : Attempt) (s : State) : keepsClocks s (endFailed a s) := by
  unfold endFailed
  split
  · split
    · exact removed_keepsClocks _ s
    · split
      · exact dropFrame_keepsClocks a _ s
      · exact .of_eq rfl
  · exact .of_eq rfl

theorem endAccepted_keepsClocks (a : Attempt) (s : State) : keepsClocks s (endAccepted a s) := by
  unfold endAccepted
  split
  · exact (forgetEntry_keepsClocks a.entry (removeTx a.entry (endAttempt s))).trans (.of_eq (joinAccepted_clocks _ _))
  · exact .of_eq rfl

theorem sendSample_keepsClocks (a : Attempt) (frame : List Byte) (n k : Nat) (level : Bool) (s : State) :
    keepsClocks s (sendSample a frame n k level s).1 := by
  unfold sendSample
  dsimp only
  split
  · split
    · exact .of_eq rfl
    · exact endUncounted_keepsClocks a s
    · unfold failAttempt
      split
      · exact (keepsClocks.of_eq rfl).trans (endFailed_keepsClocks a _)
      · exact endFailed_keepsClocks a s
  · exact .of_eq rfl

theorem sendingSample_keepsClocks (level : Bool) (s : State) : keepsClocks s (sendingSample level s).1 := by
  unfold sendingSample
  split
  · unfold attemptSample
    split
    · exact .of_eq rfl
    · split
      · exact .of_eq rfl
      · exact .of_eq rfl
    · exact .of_eq rfl
    · split
      · exact sendSample_keepsClocks _ _ _ _ level s
      · exact .of_eq rfl
    · exact .of_eq rfl
  · exact .of_eq rfl

theorem frameAccepted_keepsClocks (s : State) : keepsClocks s (frameAccepted s) := by
  cases h : slotAttempt s with
  | none =>
    rw [frameAccepted_of_none h]
    exact .of_eq (enqueueAccepted_clocks _ _ _)
  | some a =>
    rw [frameAccepted_of_some h]
    exact ((endAccepted_keepsClocks a (leaveSlot s)).trans (.of_eq (enqueueAccepted_clocks _ _ _))).trans
      (offerRounds_keepsClocks _)

theorem frameVetoed_keepsClocks (s : State) : keepsClocks s (frameVetoed s).1 := by
  cases h : slotAttempt s with
  | none =>
    rw [frameVetoed_of_none h]
    exact .of_eq rfl
  | some a =>
    rw [frameVetoed_of_some h]
    exact endFailed_keepsClocks a (leaveSlot s)

theorem slotSample_keepsClocks (level : Bool) (s : State) : keepsClocks s (slotSample level s).1 := by
  rw [slotSample_eq]
  split
  · exact .of_eq rfl
  · cases majorityHigh (firstTally level s) && majorityHigh (secondTally level s) with
    | true => exact frameAccepted_keepsClocks s
    | false => exact frameVetoed_keepsClocks s

theorem stateSample_slot {level : Bool} {s : State} (h : s.line.rx = .slot) : stateSample level s = slotSample level s := by
  simp only [stateSample, h]

theorem receiverSample_keepsClocks (level : Bool) (s : State) : keepsClocks s (receiverSample level s).1 := by
  unfold receiverSample
  split
  · show keepsClocks s (lineStuck s)
    unfold lineStuck
    dsimp only
    split
    · exact (keepsClocks.of_eq rfl).trans (endUncounted_keepsClocks _ _)
    · exact .of_eq rfl
  · split
    · exact .of_eq rfl
    · split
      · exact (jamSample_lineOnly s).keepsClocks
      · by_cases hslot : s.line.rx = .slot
        · rw [stateSample_slot hslot]
          exact slotSample_keepsClocks level s
        · exact (stateSample_lineOnly hslot).keepsClocks

theorem ownSlotEnd_keepsClocks (s : State) : keepsClocks s (ownSlotEnd s).1 := by
  unfold ownSlotEnd
  split
  · exact .refl s
  · split
    · split
      · exact .refl s
      · split
        · exact (endAccepted_keepsClocks _ s).trans (offerRounds_keepsClocks _)
        · exact endFailed_keepsClocks _ s
    · exact .refl s

theorem followSample_keepsClocks (clk : Word) (level : Bool) (s : State) : keepsClocks s (followSample clk level s).1 :=
  (keepsClocks.of_eq rfl).trans ((sendingSample_keepsClocks level (heard clk level s)).trans
    ((receiverSample_keepsClocks level _).trans ((ownSlotEnd_keepsClocks _).trans (.of_eq rfl))))

theorem lineSample_keepsClocks (clk : Word) (level : Bool) (s : State) : keepsClocks s (lineSample clk level s).1 := by
  unfold lineSample
  split
  · exact .refl s
  · dsimp only
    split
    · exact (followSample_keepsClocks clk level s).trans (beginSample_lineOnly _).keepsClocks
    · exact followSample_keepsClocks clk level s

theorem sampleAt_keepsClocks (n : Nat) (level : Bool) (s : State) : keepsClocks s (sampleAt n level s).1 :=
  lineSample_keepsClocks (clockBefore s n) level { s with now := momentBefore s n }

theorem playLine_keepsClocks : ∀ (line : Samples) (n : Nat) (s : State), keepsClocks s (playLine line n s)
  | [], _, s => .refl s
  | level :: rest, n, s => (sampleAt_keepsClocks _ level s).trans (playLine_keepsClocks rest n _)

theorem lineCommand_keepsClocks (e : LineEvent) (line : Samples) (s : State) : keepsClocks s (lineCommand e line s) := by
  unfold lineCommand
  split
  · unfold runLine
    split
    · exact .refl s
    · exact (playLine_keepsClocks _ 1 s).trans (sampleAt_keepsClocks 0 _ _)
  · exact .refl s

/-! ## The frame of the line's rows -/

theorem lineCommand_keeps {e : LineEvent} {line : Samples} {s t : State}
    (h : (.next (lineCommand e line s) : Host.Outcome State Fault Refusal) = .next t) :
    keepsFixed s t ∧ keepsAudio s t ∧ t.dispatch = s.dispatch ∧ keepsPeers s t ∧ keepsRound s t ∧ keepsClocks s t ∧
      t.panel = { s.panel with
        faults := t.panel.faults, faultPending := t.panel.faultPending, outcomes := t.panel.outcomes } := by
  injection h with h
  subst h
  have hclocks := lineCommand_keepsClocks e line s
  obtain ⟨line', rxq, txq, state, held, claims, close, records, faults, pend, outcomes, free, heq⟩ := lineCommand_frame e line s
  rw [heq] at hclocks ⊢
  exact ⟨⟨rfl, rfl, rfl, rfl, rfl, rfl⟩, ⟨rfl, rfl, rfl, rfl⟩, rfl, rfl, rfl, hclocks, rfl⟩

/-- Settles O17: a line command is its samples, and a sample reaches only what the frame of a sample names (`SampleFrame`), of the
clock records their own copies alone. -/
theorem lineEventsFrame : Obligations.LineEventsFrame := by
  intro row line s t hrow h
  simp only [List.mem_cons, List.not_mem_nil, or_false] at hrow
  rcases hrow with rfl | rfl | rfl | rfl | rfl | rfl | rfl | rfl | rfl | rfl | rfl | rfl | rfl | rfl | rfl
  all_goals exact lineCommand_keeps h

end Sys2Proof.Machine
end

