-- ==== Sys2Proof/Proofs/ReceiverSamples.lean ====
section
/-!
SUPPORT. The receiver at a sample that is no break, state by state (section 7.2).
-/
namespace Sys2Proof.Machine
open Relation

/-! ## A sample at a receiver that hears no break and drives no jam -/

section
variable {clk : Word} {level : Bool} {s : State}

/-- What the receiver finds at a sample, but for the runs, is what it found before it. -/
theorem sent_receiver (clk : Word) (level : Bool) (s : State) : (sent clk level s).line.receiver = { s.line.receiver with
    lows := if level then 0 else s.line.lows + 1, highs := if level then s.line.highs + 1 else 0
    lowEdge := (heard clk level s).line.lowEdge } := by
  rw [(sent_leavesReceiver clk level s).receiver, heard_eq]
  rfl

@[simp] theorem sent_rx : (sent clk level s).line.rx = s.line.rx :=
  (congrArg LineInterface.rx (sent_receiver clk level s) :)

@[simp] theorem sent_idleCount : (sent clk level s).line.idleCount = s.line.idleCount :=
  (congrArg LineInterface.idleCount (sent_receiver clk level s) :)

@[simp] theorem sent_gapLeft : (sent clk level s).line.gapLeft = s.line.gapLeft :=
  (congrArg LineInterface.gapLeft (sent_receiver clk level s) :)

@[simp] theorem sent_hunt : (sent clk level s).line.hunt = s.line.hunt :=
  (congrArg LineInterface.hunt (sent_receiver clk level s) :)

@[simp] theorem sent_jamLeft : (sent clk level s).line.jamLeft = s.line.jamLeft :=
  (congrArg LineInterface.jamLeft (sent_receiver clk level s) :)

@[simp] theorem sent_frame : (sent clk level s).line.frame = s.line.frame :=
  (congrArg LineInterface.frame (sent_receiver clk level s) :)

@[simp] theorem sent_assembling : (sent clk level s).line.assembling = s.line.assembling :=
  (congrArg LineInterface.assembling (sent_receiver clk level s) :)

@[simp] theorem sent_jamWait : (sent clk level s).line.jamWait = s.line.jamWait :=
  (congrArg LineInterface.jamWait (sent_receiver clk level s) :)

@[simp] theorem sent_jamReady : (sent clk level s).line.jamReady = s.line.jamReady :=
  (congrArg LineInterface.jamReady (sent_receiver clk level s) :)

@[simp] theorem sent_passed : (sent clk level s).line.passed = s.line.passed :=
  (congrArg LineInterface.passed (sent_receiver clk level s) :)

@[simp] theorem sent_slotFirst : (sent clk level s).line.slotFirst = s.line.slotFirst :=
  (congrArg LineInterface.slotFirst (sent_receiver clk level s) :)

@[simp] theorem sent_slotSecond : (sent clk level s).line.slotSecond = s.line.slotSecond :=
  (congrArg LineInterface.slotSecond (sent_receiver clk level s) :)

@[simp] theorem sent_breakEdge : (sent clk level s).line.breakEdge = s.line.breakEdge :=
  (congrArg LineInterface.breakEdge (sent_receiver clk level s) :)

theorem sent_lows : (sent clk level s).line.lows = if level then 0 else s.line.lows + 1 :=
  (congrArg LineInterface.lows (sent_receiver clk level s) :)

theorem sent_highs : (sent clk level s).line.highs = if level then s.line.highs + 1 else 0 :=
  (congrArg LineInterface.highs (sent_receiver clk level s) :)

theorem sent_state : (sent clk level s).member.state = s.member.state := (sent_leavesReceiver clk level s).state

theorem sent_rxq : (sent clk level s).rxq = s.rxq := (sent_leavesReceiver clk level s).rxq

theorem received_state (hjam : s.line.jamLeft = 0) (hshort : shortLow s level) :
    receiverSample level (sent clk level s) = stateSample level (sent clk level s) := by
  have hsent := sent_leavesReceiver clk level s
  refine receiverSample_state ?_ ?_
  · rw [hsent.lows]
    exact heard_lows_of_short hshort
  · rw [sent_jamLeft]
    exact hjam

theorem lineSample_receiver_state (hrx : s.line.rx ≠ .off) (hjam : s.line.jamLeft = 0) (hshort : shortLow s level) :
    (lineSample clk level s).1.line.receiver = (stateSample level (sent clk level s)).1.line.receiver := by
  rw [lineSample_receiver hrx, received, received_state hjam hshort]

theorem playLine_receiver_state (hrx : s.line.rx ≠ .off) (hjam : s.line.jamLeft = 0) (hshort : shortLow s level) :
    (playLine [level] 0 s).line.receiver = (stateSample level (sent s.stationClock level s)).1.line.receiver := by
  rw [playLine_single, lineSample_receiver_state hrx hjam hshort]

theorem mem_lineSample_state {e : LineEvent} (hrx : s.line.rx ≠ .off) (hjam : s.line.jamLeft = 0) (hshort : shortLow s level)
    (he : e.ofReceiver) : e ∈ (lineSample clk level s).2 ↔ e ∈ (stateSample level (sent clk level s)).2 := by
  rw [mem_lineSample_receiver hrx he, received_state hjam hshort]

/-- The state's part is the only one besides the stuck line and the break that brings an event of the receiver. -/
theorem mem_stateSample_of_mem {e : LineEvent} (he : e.ofReceiver) (hstuck : e ≠ .lineStuck) (hbreak : e ≠ .breakDetect)
    (h : e ∈ (lineSample clk level s).2) : e ∈ (stateSample level (sent clk level s)).2 := by
  have hrx : s.line.rx ≠ .off := by
    intro hoff
    rw [lineSample_off hoff] at h
    exact absurd h List.not_mem_nil
  rw [mem_lineSample_receiver hrx he] at h
  unfold receiverSample at h
  split at h
  · exact absurd (List.mem_singleton.mp h) hstuck
  · split at h
    · exact absurd (List.mem_singleton.mp h) hbreak
    · split at h
      · exact absurd h List.not_mem_nil
      · exact h

/-- Where no attempt is in progress, a sample that no slot ends at changes the line alone. -/
theorem lineSample_lineOnly (hattempt : s.line.attempt = none) (hrx : s.line.rx ≠ .slot) (hloose : level = true ∨ s.line.lows < 1024) :
    lineOnly s (lineSample clk level s).1 := by
  by_cases hoff : s.line.rx = .off
  · rw [lineSample_off hoff]
    exact .refl s
  · rw [lineSample_begins hoff hattempt, concluded_of_none hattempt, received_of_none hattempt]
    have hheard : (heard clk level s).line.rx ≠ .slot := by
      rw [heard_eq]
      exact hrx
    exact ((withLine_lineOnly _ s).trans (receiverSample_lineOnly hheard (heard_lows_of_loose hloose))).trans
      ((withLine_lineOnly _ _).trans (beginSample_lineOnly _))

end

theorem shortLow.loose {s : State} {level : Bool} (h : shortLow s level) : level = true ∨ s.line.lows < 1024 :=
  h.imp_right fun h => by omega

/-! ## Equations of the receiver's states -/

section
variable {level : Bool} {w : State}

theorem stateSample_outside (h : w.line.rx = .outside) : stateSample level w = outsideSample level w := by
  simp only [stateSample, h]

theorem stateSample_inBreak (h : w.line.rx = .inBreak) : stateSample level w =
    (if level then withLine (fun l => { l with rx := .headerWait, gapLeft := gapSamples, hunt := .hunting }) w else w, []) := by
  simp only [stateSample, h]

theorem stateSample_frame_of (h : w.line.rx = .headerWait ∨ w.line.rx = .character ∨ w.line.rx = .between) :
    stateSample level w = frameSample level w := by
  rcases h with h | h | h
  · simp only [stateSample, h]
  · simp only [stateSample, h]
  · simp only [stateSample, h]

theorem stateSample_endMark (h : w.line.rx = .endMark) : stateSample level w = endMarkSample w := by
  simp only [stateSample, h]

theorem outsideSample_started {h : Hunt} (hfound : huntSample level w.line.hunt = (h, .started)) : outsideSample level w =
    (withLine (fun l => { l with idleCount := 0, hunt := .waitHigh }) w, [.strayStartBit]) := by
  simp only [outsideSample, hfound]

theorem outsideSample_other {h : Hunt} {f : Found} (hfound : huntSample level w.line.hunt = (h, f)) (hf : f ≠ .started) :
    outsideSample level w = (withLine (fun l => { l with
      hunt := h, idleCount := if level && !l.hunt.pending then l.idleCount + 1 else l.idleCount }) w, []) := by
  unfold outsideSample
  rw [hfound]
  cases f with
  | nothing => rfl
  | started => exact absurd rfl hf
  | character c => rfl

theorem frameSample_nothing {h : Hunt} (hjam : jamStarts level w = false) (hrx : w.line.rx ≠ .character)
    (hfound : huntSample level w.line.hunt = (h, .nothing)) :
    frameSample level w = gapSample level w.line.hunt h (withLine (fun l => { l with hunt := h }) w) := by
  rw [frameSample, hjam, if_neg Bool.false_ne_true, hfound]
  exact if_neg hrx

theorem frameSample_character {h : Hunt} {c : ReadChar} (hjam : jamStarts level w = false)
    (hfound : huntSample level w.line.hunt = (h, .character c)) :
    frameSample level w = charDone c (withLine (fun l => { l with hunt := h }) w) := by
  rw [frameSample, hjam, if_neg Bool.false_ne_true, hfound]

theorem jamStarts_high (w : State) : jamStarts true w = false := by
  simp [jamStarts]

/-- A jam begins only where no start bit is being tested (R126). -/
theorem jamStarts_of_hunt (h : w.line.hunt ≠ .hunting) : jamStarts level w = false := by
  simp [jamStarts, h]

theorem gapSample_error {h k : Hunt} (hleft : gapAfter level h w.line.gapLeft = 0) (hk : k.pending = false) :
    gapSample level h k w = (gapError w, [.gapError]) := if_pos ⟨hleft, hk⟩

theorem gapSample_runs {h k : Hunt} (hleft : gapAfter level h w.line.gapLeft ≠ 0) :
    gapSample level h k w = (withLine (fun l => { l with gapLeft := gapAfter level h w.line.gapLeft }) w, []) :=
  if_neg fun hc => hleft hc.1

theorem slotSample_events {e : LineEvent} (h : e ∈ (slotSample level w).2) :
    e = .frameAccepted ∨ e = .frameVetoed ∨ e = .frameDropped := by
  rw [slotSample_eq] at h
  split at h
  · exact absurd h List.not_mem_nil
  · split at h
    · exact .inl (List.mem_singleton.mp h)
    · cases ha : slotAttempt w with
      | none =>
        rw [frameVetoed_of_none ha] at h
        exact .inr (.inl (List.mem_singleton.mp h))
      | some a =>
        rw [frameVetoed_of_some ha] at h
        exact .inr (failureEvents_mem h)

/-- The events that a character of a frame can bring. -/
theorem charDone_events {c : ReadChar} {e : LineEvent} (h : e ∈ (charDone c w).2) : e = .headerUnusable := by
  unfold charDone frameChar at h
  dsimp only at h
  split at h
  · split at h
    · exact List.mem_singleton.mp h
    · split at h
      · exact absurd h List.not_mem_nil
      · exact absurd h List.not_mem_nil
  · exact absurd h List.not_mem_nil

/-- The events of a sample in a frame; a gap is an error only where its count has run out (R120). -/
theorem frameSample_events {e : LineEvent} (h : e ∈ (frameSample level w).2) :
    e = .jam ∨ e = .headerUnusable ∨ (e = .gapError ∧ w.line.gapLeft ≤ 1) := by
  unfold frameSample at h
  split at h
  · exact .inl (List.mem_singleton.mp h)
  · dsimp only at h
    split at h
    · exact absurd h List.not_mem_nil
    · exact .inr (.inl (charDone_events h))
    · split at h
      · exact absurd h List.not_mem_nil
      · by_cases hleft : gapAfter level w.line.hunt w.line.gapLeft = 0
        · unfold gapSample at h
          dsimp only at h
          split at h
          · refine .inr (.inr ⟨List.mem_singleton.mp h, ?_⟩)
            unfold gapAfter at hleft
            split at hleft
            · omega
            · omega
          · exact absurd h List.not_mem_nil
        · have hruns := gapSample_runs (w := withLine (fun l => { l with hunt := (huntSample level w.line.hunt).1 }) w)
            (k := (huntSample level w.line.hunt).1) hleft
          rw [hruns] at h
          exact absurd h List.not_mem_nil

/-- The events that the receiver's states bring. -/
theorem stateSample_events {e : LineEvent} (h : e ∈ (stateSample level w).2) :
    e ∈ [LineEvent.syncIdle, .stuckRecovery, .strayStartBit, .jam, .headerUnusable, .vetoSlotStart, .frameAccepted, .frameVetoed,
      .frameDropped] ∨ (e = .gapError ∧ w.line.gapLeft ≤ 1) := by
  have hframe : e ∈ (frameSample level w).2 → e = .jam ∨ e = .headerUnusable ∨ (e = .gapError ∧ w.line.gapLeft ≤ 1) :=
    frameSample_events
  simp only [List.mem_cons, List.not_mem_nil, or_false]
  unfold stateSample at h
  split at h
  · exact absurd h List.not_mem_nil
  · split at h
    · simp [List.mem_singleton.mp h]
    · exact absurd h List.not_mem_nil
  · split at h
    · simp [List.mem_singleton.mp h]
    · exact absurd h List.not_mem_nil
  · unfold outsideSample at h
    split at h
    · simp [List.mem_singleton.mp h]
    · exact absurd h List.not_mem_nil
  · exact absurd h List.not_mem_nil
  · grind
  · grind
  · grind
  · unfold endMarkSample at h
    split at h
    · exact absurd h List.not_mem_nil
    · simp [List.mem_singleton.mp h]
  · have hslot := slotSample_events h
    grind

theorem gapError_runs_out (h : LineEvent.gapError ∈ (stateSample level w).2) : w.line.gapLeft ≤ 1 := by
  rcases stateSample_events h with hmem | ⟨-, hleft⟩
  · simp at hmem
  · exact hleft

end

end Sys2Proof.Machine
end

