-- ==== Sys2Proof/Proofs/QuietLine.lean ====
section
/-!
Idle, stray start bits and gaps (O6).
-/
namespace Sys2Proof.Machine
open Relation

/-! ## Idle is found (R119, R121) -/

theorem heard_pulse {clk : Word} {level : Bool} {s : State} (h : s.line.vetoOwed = none) :
    heard clk level s = withLine (LineInterface.pulse clk level) s := by
  rw [heard, withLine, owedSample_none ((pulse_vetoOwed clk level s.line).trans h), withLine]

theorem drive_eq_released {s : State} (hjam : s.line.jamLeft = 0) (hslot : s.line.rx ≠ .slot) (howed : s.line.vetoOwed = none)
    (hattempt : s.line.attempt = none) : drive s = withLine (fun l => { l with driver := .released }) s := by
  have hdriver : (drive s).line.driver = .released := drive_released hjam (by rw [decide_eq_false hslot]; rfl)
    (drivesOwed_none howed) (drivesAttempt_none hattempt)
  rw [withLine, ← hdriver]
  rfl

/-- What a row of the quiet line does at the state that it leaves. -/
structure QuietRow (row : Samples → Instr) (rx : RxState) (e : LineEvent) : Prop where
  exec : ∀ l s, Machine.exec (row l) s = .next (lineCommand e l s)
  receiver : e.ofReceiver
  notStuck : e ≠ .lineStuck
  notBreak : e ≠ .breakDetect
  hears : rx ≠ .off
  sample : ∀ level w, w.line.rx = rx → stateSample level w = if 224 ≤ w.line.highs then (idleLine w, [e]) else (w, [])

theorem syncIdle_quiet : QuietRow .syncIdle .sync .syncIdle where
  exec _ _ := rfl
  receiver := by simp [LineEvent.ofReceiver]
  notStuck := (nomatch ·)
  notBreak := (nomatch ·)
  hears := (nomatch ·)
  sample level w h := by
    simp only [stateSample, h]
    rfl

theorem stuckRecovery_quiet : QuietRow .stuckRecovery .stuck .stuckRecovery where
  exec _ _ := rfl
  receiver := by simp [LineEvent.ofReceiver]
  notStuck := (nomatch ·)
  notBreak := (nomatch ·)
  hears := (nomatch ·)
  sample level w h := by
    simp only [stateSample, h]
    rfl

/-- The line once idle has been found at a high sample. -/
def LineInterface.idled (l : LineInterface) : LineInterface :=
  { l with
    rx := .outside, idleCount := 224, assembling := false, frame := [], jamWait := false, jamReady := false
    hunt := .hunting, highs := l.highs + 1, lows := 0, driver := .released }

section
variable {row : Samples → Instr} {e : LineEvent} {before : Samples} {s u : State}

theorem QuietRow.stays {level : Bool} (hrow : QuietRow row u.line.rx e) (hu : playLine before 1 s = u)
    (hhighs : level = false ∨ u.line.highs < 223) : Machine.exec (row (before ++ [level])) s = .next s := by
  rw [hrow.exec, lineCommand_not]
  rw [hu]
  intro hmem
  have hstate := mem_stateSample_of_mem hrow.receiver hrow.notStuck hrow.notBreak hmem
  have hlt : ¬ 224 ≤ (sent u.stationClock level u).line.highs := by
    rw [sent_highs]
    rcases hhighs with rfl | h
    · simp
    · split <;> omega
  rw [hrow.sample level _ sent_rx, if_neg hlt] at hstate
  exact absurd hstate List.not_mem_nil

theorem QuietRow.idles (hrow : QuietRow row u.line.rx e) (hattempt : u.line.attempt = none) (hjam : u.line.jamLeft = 0)
    (howed : u.line.vetoOwed = none) (hhighs : 223 ≤ u.line.highs) : lineSample u.stationClock true u =
      ((beginSample { u with line := u.line.idled }).1, e :: (beginSample { u with line := u.line.idled }).2) := by
  have hheard : heard u.stationClock true u = withLine (LineInterface.pulse u.stationClock true) u := heard_pulse howed
  have hstate : receiverSample true (heard u.stationClock true u) = (idleLine (heard u.stationClock true u), [e]) := by
    have hsent := received_state (clk := u.stationClock) hjam (.inl rfl : shortLow u true)
    rw [sent_of_none hattempt] at hsent
    rw [hsent, hrow.sample true _ (by rw [heard_eq]), if_pos]
    rw [hheard]
    show 224 ≤ u.line.highs + 1
    omega
  have hreceived : received u.stationClock true u = idleLine (heard u.stationClock true u) := by
    rw [received_of_none hattempt, hstate]
  have hdrive : drive (concluded u.stationClock true u) = { u with line := u.line.idled } := by
    have hreleased := drive_eq_released (s := idleLine (withLine (LineInterface.pulse u.stationClock true) u)) hjam
      (fun h : RxState.outside = .slot => nomatch h) howed hattempt
    rw [concluded_of_none hattempt, hreceived, hheard, hreleased]
    rfl
  have hown : ownSlotEnd (received u.stationClock true u) = (received u.stationClock true u, []) :=
    ownSlotEnd_of_none (slotAttempt_none_of (received_noAttempt hattempt).attempt)
  have hsending : (sendingSample true (heard u.stationClock true u)).2 = [] := by
    have hnone : (heard u.stationClock true u).line.attempt = none := by
      rw [heard_eq]
      exact hattempt
    simp only [sendingSample, hnone]
  rw [lineSample_begins hrow.hears hattempt, hdrive, followSample_eq, sent_of_none hattempt, hstate, hown, hsending]
  rfl

theorem QuietRow.begins (hrow : QuietRow row u.line.rx e) (hu : playLine before 1 s = u) (hattempt : u.line.attempt = none)
    (hjam : u.line.jamLeft = 0) (howed : u.line.vetoOwed = none) (hhighs : 223 ≤ u.line.highs) :
    ((∀ x, ¬ mayAttempt u x) → Machine.exec (row (before ++ [true])) s = .next { u with line := u.line.idled }) ∧
      ∀ x, mayAttempt u x → Machine.exec (row (before ++ [true])) s =
        .next { u with line := { u.line.idled with driver := .attempt, attempt := some (Attempt.start x) } } := by
  have hsample := hrow.idles hattempt hjam howed hhighs
  have hexec : Machine.exec (row (before ++ [true])) s = .next (beginSample { u with line := u.line.idled }).1 := by
    rw [hrow.exec, lineCommand_happens, hu, hsample]
    rw [hu, hsample]
    exact List.mem_cons_self
  constructor
  · intro hmay
    rw [hexec, beginSample_stays (s := { u with line := u.line.idled }) hmay]
  · intro x hmay
    have hidle : idleHolds { u with line := u.line.idled } = true := idleHolds_iff.mpr ⟨rfl, Nat.le_refl _, rfl, rfl⟩
    rw [hexec, beginSample_starts (s := { u with line := u.line.idled }) hmay hidle hattempt howed rfl]
    rfl

end

/-! ## The receiver outside a frame (R119) -/

theorem tally_ninth (highs : Nat) (level : Bool) : tally 9 highs level = highs + Bool.high level := rfl

theorem huntSample_reading {level : Bool} {index highs : Nat} {bits : BitVec 11} (h : index ≠ 9 ∨ 2 ≤ highs + Bool.high level) :
    ∃ k f, huntSample level (.reading index highs bits) = (k, f) ∧ f ≠ .started := by
  rw [huntSample]
  split
  · next hmod =>
    unfold huntBit
    dsimp only
    split
    · next hzero =>
      have hindex : index = 9 := by simp [bitSamples] at hmod hzero; omega
      subst hindex
      rcases h with h | h
      · exact absurd rfl h
      · have hhigh : majorityHigh (tally (9 % bitSamples) highs level) = true := decide_eq_true h
        rw [hhigh]
        exact ⟨_, _, rfl, (nomatch ·)⟩
    · split
      · exact ⟨_, _, rfl, (nomatch ·)⟩
      · exact ⟨_, _, rfl, (nomatch ·)⟩
  · exact ⟨_, _, rfl, (nomatch ·)⟩

theorem huntSample_start_passes {level : Bool} {highs : Nat} {bits : BitVec 11} (h : highs + Bool.high level < 2) :
    huntSample level (.reading 9 highs bits) = (.reading 10 0 bits, .started) := by
  have hlow : majorityHigh (highs + Bool.high level) = false := decide_eq_false (by omega)
  have hninth := huntSample_ninth 0 level highs bits
  rw [hlow] at hninth
  exact hninth

theorem huntSample_start_noise {level : Bool} {highs : Nat} {bits : BitVec 11} (h : 2 ≤ highs + Bool.high level) :
    huntSample level (.reading 9 highs bits) = (.hunting, .nothing) := by
  have hhigh : majorityHigh (highs + Bool.high level) = true := decide_eq_true h
  have hninth := huntSample_ninth 0 level highs bits
  rw [hhigh] at hninth
  exact hninth

theorem strayStartBit_started {level : Bool} {w : State} (h : LineEvent.strayStartBit ∈ (stateSample level w).2)
    (hrx : w.line.rx = .outside) : (huntSample level w.line.hunt).2 = .started := by
  rw [stateSample_outside hrx] at h
  by_cases hf : (huntSample level w.line.hunt).2 = .started
  · exact hf
  · rw [outsideSample_other rfl hf] at h
    exact absurd h List.not_mem_nil

section
variable {clk : Word} {level : Bool} {u : State}

/-- OUTSIDE, a sample that ends no start bit's test counts a high while none is being tested. -/
theorem lineSample_outside {k : Hunt} {f : Found} (hrx : u.line.rx = .outside) (hjam : u.line.jamLeft = 0) (hshort : shortLow u level)
    (hfound : huntSample level u.line.hunt = (k, f)) (hf : f ≠ .started) : (playLine [level] 0 u).line.idleCount =
      if level && !u.line.hunt.pending then u.line.idleCount + 1 else u.line.idleCount := by
  have hsample := playLine_receiver_state (by rw [hrx]; exact (nomatch ·)) hjam hshort
  rw [stateSample_outside (sent_rx.trans hrx), outsideSample_other (by rw [sent_hunt]; exact hfound) hf] at hsample
  have hcount := (congrArg LineInterface.idleCount hsample :)
  refine hcount.trans ?_
  show (if level && !(sent u.stationClock level u).line.hunt.pending then (sent u.stationClock level u).line.idleCount + 1
    else (sent u.stationClock level u).line.idleCount) = _
  rw [sent_hunt, sent_idleCount]

theorem huntSample_waits {h : Hunt} (hh : h = .hunting ∨ h = .waitHigh) :
    (∃ k, huntSample level h = (k, .nothing)) ∧ h.pending = false := by
  rcases hh with rfl | rfl
  · exact ⟨⟨_, rfl⟩, rfl⟩
  · exact ⟨⟨_, rfl⟩, rfl⟩

end

/-! ## Gaps (R120) -/

section
variable {level : Bool} {u : State}

theorem playLine_leaves_break (hrx : u.line.rx = .inBreak) (hjam : u.line.jamLeft = 0) :
    (playLine [true] 0 u).line.rx = .headerWait ∧ (playLine [true] 0 u).line.gapLeft = 96 ∧
      (playLine [true] 0 u).line.hunt = .hunting := by
  have hsample := playLine_receiver_state (level := true) (by rw [hrx]; exact (nomatch ·)) hjam (.inl rfl)
  rw [stateSample_inBreak (sent_rx.trans hrx)] at hsample
  exact ⟨(congrArg LineInterface.rx hsample :), (congrArg LineInterface.gapLeft hsample :), (congrArg LineInterface.hunt hsample :)⟩

/-- Between the characters of a frame a search that finds nothing is a sample of the gap. -/
theorem stateSample_gap {k : Hunt} (hrx : u.line.rx = .headerWait ∨ u.line.rx = .between) (hjam : jamStarts level u = false)
    (hfound : huntSample level u.line.hunt = (k, .nothing)) :
    stateSample level u = gapSample level u.line.hunt k (withLine (fun l => { l with hunt := k }) u) := by
  rw [stateSample_frame_of (hrx.imp_right .inr), frameSample_nothing hjam ?_ hfound]
  rcases hrx with h | h
  · rw [h]
    exact (nomatch ·)
  · rw [h]
    exact (nomatch ·)

theorem not_off_of_gap (h : u.line.rx = .headerWait ∨ u.line.rx = .between) : u.line.rx ≠ .off := by
  rcases h with h | h
  · rw [h]
    exact (nomatch ·)
  · rw [h]
    exact (nomatch ·)

theorem playLine_gap_runs (hrx : u.line.rx = .headerWait ∨ u.line.rx = .between) (hjam : u.line.jamLeft = 0)
    (hhunt : u.line.hunt = .hunting) (hleft : 1 < u.line.gapLeft) :
    (playLine [true] 0 u).line.rx = u.line.rx ∧ (playLine [true] 0 u).line.gapLeft = u.line.gapLeft - 1 := by
  have hsample := playLine_receiver_state (level := true) (not_off_of_gap hrx) hjam (.inl rfl)
  have hgap := stateSample_gap (level := true) (k := .hunting) (u := sent u.stationClock true u) (by rw [sent_rx]; exact hrx)
    (jamStarts_high _) (by rw [sent_hunt, hhunt]; rfl)
  have hafter : gapAfter true (sent u.stationClock true u).line.hunt (sent u.stationClock true u).line.gapLeft = u.line.gapLeft - 1 := by
    rw [sent_hunt, sent_gapLeft, hhunt]
    rfl
  have hruns := gapSample_runs (level := true) (h := (sent u.stationClock true u).line.hunt) (k := .hunting)
    (w := withLine (fun l => { l with hunt := .hunting }) (sent u.stationClock true u)) (by
      show gapAfter true (sent u.stationClock true u).line.hunt (sent u.stationClock true u).line.gapLeft ≠ 0
      rw [hafter]
      omega)
  rw [hgap, hruns] at hsample
  have hrx' := (congrArg LineInterface.rx hsample :)
  have hleft' := (congrArg LineInterface.gapLeft hsample :)
  exact ⟨hrx'.trans sent_rx, hleft'.trans hafter⟩

/-- Where a gap has run out and no start bit is being tested after the sample, the gap is an error. -/
theorem gap_ends {before : Samples} {s : State} (hu : playLine before 1 s = u) (hrx : u.line.rx = .headerWait ∨ u.line.rx = .between)
    (hleft : u.line.gapLeft ≤ 1) (hjam : u.line.jamLeft = 0) (hshort : shortLow u level) {k : Hunt}
    (hfound : huntSample level u.line.hunt = (k, .nothing)) (hpending : k.pending = false)
    (hafter : u.line.hunt.waits = true → level = true) (hstart : u.line.hunt = .hunting → level = true) :
    ∃ t, exec (.gapError (before ++ [level])) s = .next t ∧ t.line.rx = .outside ∧
      t.line.idleCount = (if level then u.line.highs + 1 else 0) ∧ t.line.assembling = false ∧ t.line.frame = [] ∧
      t.line.jamWait = false ∧ t.line.jamReady = false ∧ (u.line.attempt = none → t = { u with line := t.line }) := by
  have hoff := not_off_of_gap hrx
  have hjams : jamStarts level (sent u.stationClock level u) = false := by
    by_cases hhunt : u.line.hunt = .hunting
    · rw [hstart hhunt]
      exact jamStarts_high _
    · exact jamStarts_of_hunt (by rw [sent_hunt]; exact hhunt)
  have hgap := stateSample_gap (u := sent u.stationClock level u) (by rw [sent_rx]; exact hrx) hjams (by rw [sent_hunt]; exact hfound)
  have hzero : gapAfter level (sent u.stationClock level u).line.hunt (sent u.stationClock level u).line.gapLeft = 0 := by
    rw [sent_hunt, sent_gapLeft, gapAfter, if_neg]
    · omega
    · simp only [Bool.and_eq_true, Bool.not_eq_true']
      rintro ⟨hwaits, hlow⟩
      rw [hafter hwaits] at hlow
      exact (nomatch hlow)
  have herror := gapSample_error (level := level) (h := (sent u.stationClock level u).line.hunt) (k := k)
    (w := withLine (fun l => { l with hunt := k }) (sent u.stationClock level u)) hzero hpending
  have hsample := playLine_receiver_state hoff hjam hshort
  rw [hgap, herror, playLine_single] at hsample
  have hmem : LineEvent.gapError ∈ (lineSample u.stationClock level u).2 := by
    rw [mem_lineSample_state hoff hjam hshort (by simp [LineEvent.ofReceiver]), hgap, herror]
    exact List.mem_singleton_self _
  have hexec : exec (.gapError (before ++ [level])) s = .next (lineSample u.stationClock level u).1 := by
    show Host.Outcome.next (lineCommand .gapError (before ++ [level]) s) = _
    rw [lineCommand_happens, hu]
    rw [hu]
    exact hmem
  refine ⟨_, hexec, (congrArg LineInterface.rx hsample :), ?_, (congrArg LineInterface.assembling hsample :),
    (congrArg LineInterface.frame hsample :), (congrArg LineInterface.jamWait hsample :), (congrArg LineInterface.jamReady hsample :),
    fun hattempt => lineSample_lineOnly hattempt ?_ hshort.loose⟩
  · exact (congrArg LineInterface.idleCount hsample :).trans sent_highs
  · rcases hrx with h | h
    · rw [h]
      exact (nomatch ·)
    · rw [h]
      exact (nomatch ·)

end

/-! ## Stray start bits (R119) -/

section
variable {before : Samples} {level : Bool} {s u : State} {highs : Nat} {bits : BitVec 11}

theorem strayStartBit_happens (hu : playLine before 1 s = u) (hrx : u.line.rx = .outside) (hjam : u.line.jamLeft = 0)
    (hhunt : u.line.hunt = .reading 9 highs bits) (hshort : shortLow u level) (hlow : highs + Bool.high level < 2) :
    ∃ t, exec (.strayStartBit (before ++ [level])) s = .next t ∧ t.line.rx = .outside ∧ t.line.idleCount = 0 ∧
      t.line.hunt = .waitHigh ∧ t.line.assembling = u.line.assembling ∧ (u.line.attempt = none → t = { u with line := t.line }) := by
  have hoff : u.line.rx ≠ .off := by
    rw [hrx]
    exact (nomatch ·)
  have hfound : huntSample level (sent u.stationClock level u).line.hunt = (.reading 10 0 bits, .started) := by
    rw [sent_hunt, hhunt]
    exact huntSample_start_passes hlow
  have hstate := (stateSample_outside (level := level) (sent_rx.trans hrx)).trans (outsideSample_started hfound)
  have hsample := playLine_receiver_state hoff hjam hshort
  rw [hstate, playLine_single] at hsample
  have hmem : LineEvent.strayStartBit ∈ (lineSample u.stationClock level u).2 := by
    rw [mem_lineSample_state hoff hjam hshort (by simp [LineEvent.ofReceiver]), hstate]
    exact List.mem_singleton_self _
  have hexec : exec (.strayStartBit (before ++ [level])) s = .next (lineSample u.stationClock level u).1 := by
    show Host.Outcome.next (lineCommand .strayStartBit (before ++ [level]) s) = _
    rw [lineCommand_happens, hu]
    rw [hu]
    exact hmem
  refine ⟨_, hexec, (congrArg LineInterface.rx hsample :).trans (sent_rx.trans hrx), (congrArg LineInterface.idleCount hsample :),
    (congrArg LineInterface.hunt hsample :), (congrArg LineInterface.assembling hsample :).trans sent_assembling,
    fun hattempt => lineSample_lineOnly hattempt ?_ hshort.loose⟩
  rw [hrx]
  exact (nomatch ·)

theorem strayStartBit_stays {index : Nat} (hu : playLine before 1 s = u) (hrx : u.line.rx = .outside)
    (hhunt : u.line.hunt = .reading index highs bits) (hhigh : 2 ≤ highs + Bool.high level) :
    exec (.strayStartBit (before ++ [level])) s = .next s := by
  show Host.Outcome.next (lineCommand .strayStartBit (before ++ [level]) s) = _
  rw [lineCommand_not]
  rw [hu]
  intro hmem
  have hstate := mem_stateSample_of_mem (e := .strayStartBit) (by simp [LineEvent.ofReceiver]) (nomatch ·) (nomatch ·) hmem
  have hstarted := strayStartBit_started hstate (sent_rx.trans hrx)
  rw [sent_hunt, hhunt] at hstarted
  obtain ⟨k, f, hfound, hf⟩ := huntSample_reading (index := index) (bits := bits) (.inr hhigh)
  rw [hfound] at hstarted
  exact hf hstarted

theorem gapError_stays (hu : playLine before 1 s = u) (hleft : 1 < u.line.gapLeft) :
    exec (.gapError (before ++ [level])) s = .next s := by
  show Host.Outcome.next (lineCommand .gapError (before ++ [level]) s) = _
  rw [lineCommand_not]
  rw [hu]
  intro hmem
  have hout := gapError_runs_out (mem_stateSample_of_mem (e := .gapError) (by simp [LineEvent.ofReceiver]) (nomatch ·) (nomatch ·) hmem)
  rw [sent_gapLeft] at hout
  omega

end

/-- Settles O6, receiver state by receiver state: SYNC and STUCK, OUTSIDE, the break, and the gaps of a frame. -/
theorem quietLineEvents : Obligations.QuietLineEvents := by
  intro before s
  generalize hu : playLine before 1 s = u
  refine ⟨?quiet, ?outside, fun hrx hjam => playLine_leaves_break hrx hjam,
    fun hrx hjam hhunt hleft => playLine_gap_runs hrx hjam hhunt hleft, fun level hleft => gapError_stays hu hleft, ?gap⟩
  case quiet =>
    intro row hrow
    have hquiet : ∃ e, QuietRow row u.line.rx e := by
      rcases hrow with ⟨rfl, hrx⟩ | ⟨rfl, hrx⟩
      · exact ⟨_, hrx ▸ syncIdle_quiet⟩
      · exact ⟨_, hrx ▸ stuckRecovery_quiet⟩
    obtain ⟨e, hquiet⟩ := hquiet
    exact ⟨fun hattempt hjam howed hhighs => hquiet.begins hu hattempt hjam howed hhighs, fun hhighs => hquiet.stays hu (.inr hhighs),
      hquiet.stays hu (.inl rfl)⟩
  case outside =>
    intro hrx hjam
    constructor
    · intro hhunt
      constructor
      · obtain ⟨⟨k, hfound⟩, hpending⟩ := huntSample_waits (level := true) hhunt
        rw [lineSample_outside hrx hjam (.inl rfl) hfound (nomatch ·), hpending]
        rfl
      · intro hshort
        obtain ⟨⟨k, hfound⟩, -⟩ := huntSample_waits (level := false) hhunt
        exact lineSample_outside hrx hjam hshort hfound (nomatch ·)
    · intro level index highs bits hhunt hshort
      refine ⟨fun hnoise => ?_, fun hindex hlow => ?_, fun hhigh => strayStartBit_stays hu hrx hhunt hhigh⟩
      · obtain ⟨k, f, hfound, hf⟩ := huntSample_reading (bits := bits) hnoise
        rw [lineSample_outside hrx hjam hshort (hhunt ▸ hfound) hf, hhunt, Hunt.pending, Bool.not_true, Bool.and_false]
        rfl
      · exact strayStartBit_happens hu hrx hjam (hindex ▸ hhunt) hshort hlow
  case gap =>
    intro level hrx hleft hjam hshort hends
    rcases hends with ⟨rfl, hhunt⟩ | ⟨highs, bits, hhunt, hhigh⟩
    · have hfound : huntSample true u.line.hunt = (.hunting, .nothing) := by
        rcases hhunt with h | h
        · rw [h]
          rfl
        · rw [h]
          rfl
      exact gap_ends hu hrx hleft hjam hshort hfound rfl (fun _ => rfl) (fun _ => rfl)
    · refine gap_ends hu hrx hleft hjam hshort (k := .hunting) ?_ rfl ?_ ?_
      · rw [hhunt]
        exact huntSample_start_noise hhigh
      · rw [hhunt]
        exact (nomatch ·)
      · rw [hhunt]
        exact (nomatch ·)

end Sys2Proof.Machine
end

