-- ==== Sys2Proof/Proofs/Breaks.lean ====
section
/-!
The break and its edge (O7).
-/
namespace Sys2Proof.Machine
open Relation

/-! ## The runs of lows and highs (R117) -/

/-- The receiver's part leaves the runs as they were heard. -/
structure RunsKept (s t : State) : Prop where
  lows : t.line.lows = s.line.lows := by rfl
  highs : t.line.highs = s.line.highs := by rfl
  lowEdge : t.line.lowEdge = s.line.lowEdge := by rfl

theorem LineKept.runs {s t : State} (h : LineKept s t) : RunsKept s t := { h with }

theorem RunsKept.of_ended {s t : State} {l : LineInterface} (h : t.line = l.ended) (hlows : l.lows = s.line.lows := by rfl)
    (hhighs : l.highs = s.line.highs := by rfl) (hedge : l.lowEdge = s.line.lowEdge := by rfl) : RunsKept s t where
  lows := by rw [h]; exact hlows
  highs := by rw [h]; exact hhighs
  lowEdge := by rw [h]; exact hedge

theorem frameAccepted_runs (s : State) : RunsKept s (frameAccepted s) := by
  cases h : slotAttempt s with
  | none =>
    rw [frameAccepted_of_none h]
    have hline := enqueueAccepted_line s.line.frame s.line.breakEdge (leaveSlot s)
    exact { lows := by rw [hline]; rfl, highs := by rw [hline]; rfl, lowEdge := by rw [hline]; rfl }
  | some a =>
    rw [frameAccepted_of_some h]
    refine .of_ended (l := (leaveSlot s).line) ?_
    rw [offerRounds_line, enqueueAccepted_line, endAccepted_line]

theorem frameVetoed_runs (s : State) : RunsKept s (frameVetoed s).1 := by
  cases h : slotAttempt s with
  | none =>
    rw [frameVetoed_of_none h]
    exact {}
  | some a =>
    rw [frameVetoed_of_some h]
    exact .of_ended (endFailed_line a (leaveSlot s))

theorem slotSample_runs_kept (level : Bool) (s : State) : RunsKept s (slotSample level s).1 := by
  rw [slotSample_eq]
  split
  · exact {}
  · cases majorityHigh (firstTally level s) && majorityHigh (secondTally level s) with
    | true => exact frameAccepted_runs s
    | false => exact frameVetoed_runs s

theorem receiverSample_runs (level : Bool) (s : State) : RunsKept s (receiverSample level s).1 := by
  unfold receiverSample
  split
  · show RunsKept s (lineStuck s)
    unfold lineStuck
    dsimp only
    split
    · exact .of_ended (endUncounted_line _ _)
    · exact {}
  · split
    · exact {}
    · split
      · exact (jamSample_kept s).runs
      · by_cases hslot : s.line.rx = .slot
        · rw [stateSample_slot hslot]
          exact slotSample_runs_kept level s
        · exact (stateSample_kept hslot).runs

section
variable {clk : Word} {level : Bool} {s : State}

theorem lineSample_lows (h : s.line.rx ≠ .off) :
    (lineSample clk level s).1.line.lows = if level then 0 else s.line.lows + 1 :=
  (congrArg LineInterface.lows (lineSample_receiver h) :).trans ((receiverSample_runs level _).lows.trans sent_lows)

theorem sent_lowEdge : (sent clk level s).line.lowEdge = (heard clk level s).line.lowEdge := (sent_leavesReceiver clk level s).lowEdge

theorem lineSample_lowEdge (h : s.line.rx ≠ .off) : (lineSample clk level s).1.line.lowEdge = (heard clk level s).line.lowEdge :=
  (congrArg LineInterface.lowEdge (lineSample_receiver h) :).trans ((receiverSample_runs level _).lowEdge.trans sent_lowEdge)

theorem heard_lowEdge_first (h : s.line.lows = 0) : (heard clk false s).line.lowEdge = clk := by
  rw [heard_low]
  exact if_pos h

theorem heard_lowEdge_later (h : s.line.lows ≠ 0) : (heard clk false s).line.lowEdge = s.line.lowEdge := by
  rw [heard_low]
  exact if_neg h

theorem playLine_at (n : Nat) : (playLine [level] n s).line = (lineSample (clockBefore s n) level { s with now := momentBefore s n }).1.line := by
  show (sampleAt (0 + n) level s).1.line = _
  rw [Nat.zero_add]
  rfl

theorem playLine_lows (h : s.line.rx ≠ .off) (n : Nat) :
    (playLine [level] n s).line.lows = if level then 0 else s.line.lows + 1 := by
  rw [playLine_at, lineSample_lows (s := { s with now := momentBefore s n }) h]

theorem playLine_lowEdge (h : s.line.rx ≠ .off) (n : Nat) :
    (playLine [level] n s).line.lowEdge = (heard (clockBefore s n) level s).line.lowEdge := by
  rw [playLine_at, lineSample_lowEdge (s := { s with now := momentBefore s n }) h]
  rfl

end

/-- The clock value of a sample is the station clock at the moment of the sample (R117). -/
theorem clockBefore_eq {n : Nat} {s : State} (hclock : clockAgrees s) (hn : n * sampleTicks s.straps.lrate ≤ s.now) :
    clockBefore s n = BitVec.ofNat 32 ((s.now - n * sampleTicks s.straps.lrate) / 240) := by
  have hsplit : s.now / ticksPerMicro = (s.now - n * sampleTicks s.straps.lrate) / 240 +
      (n * sampleTicks s.straps.lrate + 239 - s.now % 240) / 240 := by
    rw [ticksPerMicro]
    omega
  rw [clockBefore, hclock, hsplit, BitVec.ofNat_add, BitVec.add_sub_cancel]

/-! ## The break (R117) -/

section
variable {clk : Word} {u : State}

theorem received_break (hoff : u.line.rx ≠ .off) (hsync : u.line.rx ≠ .sync) (hstuck : u.line.rx ≠ .stuck)
    (hjam : u.line.jamLeft = 0) (hlows : u.line.lows = 175) :
    receiverSample false (sent clk false u) = (breakDetect (sent clk false u), [.breakDetect]) := by
  have hnow : (sent clk false u).line.lows = 176 := by
    rw [sent_lows, hlows]
    rfl
  have hhears : hearsBreaks (sent clk false u) = true := by
    rw [hearsBreaks, sent_jamLeft, sent_rx, hjam]
    cases hrx : u.line.rx with
    | off => exact absurd hrx hoff
    | sync => exact absurd hrx hsync
    | stuck => exact absurd hrx hstuck
    | outside => rfl
    | inBreak => rfl
    | headerWait => rfl
    | character => rfl
    | between => rfl
    | endMark => rfl
    | slot => rfl
  rw [receiverSample, if_neg (by rw [hnow, stuckSamples]; omega), if_pos ⟨hnow, hhears⟩]

theorem sendingSample_breaking {level : Bool} {w : State} {a : Attempt} {n : Nat} (h : w.line.attempt = some a)
    (hphase : a.phase = .breaking n) :
    sendingSample level w = (setPhase (if n + 1 < breakSamples then .breaking (n + 1) else .waiting) w, []) := by
  simp only [sendingSample, h, attemptSample, hphase]

theorem Attempt.stamp_eq (edge : Word) (a : Attempt) : a.stamp edge = { a with edge := some (a.edge.getD edge) } := by
  rw [Attempt.stamp]
  cases h : a.edge with
  | none => rfl
  | some w =>
    dsimp only
    rw [Option.getD_some, ← h]

/-- No slot ends at the break that a frame's own transmitter sends. -/
theorem slotAttempt_break {w : State} {a : Attempt} {n : Nat} {p : AttemptPhase} (h : w.line.attempt = some a)
    (hp : a.phase = p) (hphase : p = .breaking n ∨ p = .waiting) : slotAttempt w = none := by
  refine slotAttempt_none_of_phase h fun k x y hk => ?_
  rcases hphase with rfl | rfl
  · exact nomatch hp.symm.trans hk
  · exact nomatch hp.symm.trans hk

end

section
variable {u : State}

/-- A break in the break of the station's own attempt stamps it. -/
theorem lineSample_own_break {clk : Word} {a : Attempt} {n : Nat} (hattempt : u.line.attempt = some a) (hphase : a.phase = .breaking n)
    (hoff : u.line.rx ≠ .off) (hsync : u.line.rx ≠ .sync) (hstuck : u.line.rx ≠ .stuck) (hjam : u.line.jamLeft = 0)
    (hlows : u.line.lows = 175) : lineOnly u (lineSample clk false u).1 ∧
      (lineSample clk false u).1.line.attempt.map (fun x => (x.entry, x.edge)) = some (a.entry, some (a.edge.getD u.line.lowEdge)) := by
  have hedge : (heard clk false u).line.lowEdge = u.line.lowEdge := heard_lowEdge_later (by omega)
  have hheard : (heard clk false u).line.attempt = some a := by
    rw [heard_eq]
    exact hattempt
  have hsent : sent clk false u = setPhase (if n + 1 < breakSamples then .breaking (n + 1) else .waiting) (heard clk false u) := by
    rw [sent, sendingSample_breaking hheard hphase]
  generalize hp : (if n + 1 < breakSamples then AttemptPhase.breaking (n + 1) else .waiting) = p at hsent
  have hreceived : received clk false u = breakDetect (sent clk false u) := by
    rw [received, received_break hoff hsync hstuck hjam hlows]
  have hafter : (received clk false u).line.attempt = some { a with phase := p, edge := some (a.edge.getD u.line.lowEdge) } := by
    rw [hreceived, hsent]
    show ((heard clk false u).line.attempt.map fun a => { a with phase := p }).map (Attempt.stamp (heard clk false u).line.lowEdge) = _
    rw [hheard, hedge, Option.map_some, Option.map_some, Attempt.stamp_eq]
  have hconcluded : concluded clk false u = received clk false u := by
    have hslot : slotAttempt (received clk false u) = none := by
      refine slotAttempt_break (n := n + 1) hafter rfl ?_
      rw [← hp]
      split
      · exact .inl rfl
      · exact .inr rfl
    rw [concluded, ownSlotEnd_of_none hslot]
  have hsample : (lineSample clk false u).1 = drive (received clk false u) := by
    rw [lineSample_of_attempt hoff hattempt, followSample_eq, hconcluded]
  rw [hsample]
  constructor
  · rw [hreceived, hsent]
    rfl
  · show (received clk false u).line.attempt.map _ = _
    rw [hafter]
    rfl

end

/-- Settles O7: the break at the 176th sample of a low, the runs that lead to it, and the clock value of a sample. -/
theorem breakDetectCapturesEdge : Obligations.BreakDetectCapturesEdge := by
  refine ⟨?_, ?_, fun n s hclock hn => clockBefore_eq hclock hn⟩
  · intro before s
    dsimp only
    generalize hu : playLine before 1 s = u
    intro hoff hsync hstuck hjam hlows
    have hevents := received_break (clk := u.stationClock) hoff hsync hstuck hjam hlows
    have hsample := lineSample_receiver (clk := u.stationClock) (level := false) hoff
    rw [received, hevents] at hsample
    have hmem : LineEvent.breakDetect ∈ (lineSample u.stationClock false u).2 := by
      rw [mem_lineSample_receiver hoff (by simp [LineEvent.ofReceiver]), hevents]
      exact List.mem_singleton_self _
    have hexec : exec (.breakDetect (before ++ [false])) s = .next (lineSample u.stationClock false u).1 := by
      show Host.Outcome.next (lineCommand .breakDetect (before ++ [false]) s) = _
      rw [lineCommand_happens, hu]
      rw [hu]
      exact hmem
    refine ⟨_, hexec, (congrArg LineInterface.rx hsample :), (congrArg LineInterface.breakEdge hsample :).trans ?_,
      (congrArg LineInterface.assembling hsample :), (congrArg LineInterface.frame hsample :),
      (congrArg LineInterface.jamWait hsample :), (congrArg LineInterface.jamReady hsample :),
      (congrArg LineInterface.slotVeto hsample :), fun hattempt => ?_,
      fun a n hattempt hphase => lineSample_own_break hattempt hphase hoff hsync hstuck hjam hlows⟩
    · show (sent u.stationClock false u).line.lowEdge = _
      rw [sent_lowEdge, heard_lowEdge_later (by omega)]
    · have hreceived : received u.stationClock false u = breakDetect (heard u.stationClock false u) := by
        rw [received, hevents, sent_of_none hattempt]
      have hnone := (received_noAttempt (clk := u.stationClock) (level := false) hattempt).attempt
      have hbegin := beginSample_of_rx (s := drive (breakDetect (heard u.stationClock false u)))
        (fun h : RxState.inBreak = .outside => nomatch h)
      rw [lineSample_begins hoff hattempt, concluded_of_none hattempt, hreceived, hbegin]
      rw [hreceived] at hnone
      exact ⟨rfl, hnone⟩
  · intro n u hoff
    refine ⟨fun hlows => ?_, fun hlows => ?_, ?_⟩
    · rw [playLine_lows hoff, playLine_lowEdge hoff, heard_lowEdge_first hlows]
      exact ⟨by rw [hlows]; rfl, rfl⟩
    · rw [playLine_lows hoff, playLine_lowEdge hoff, heard_lowEdge_later (Nat.ne_of_gt hlows)]
      exact ⟨rfl, rfl⟩
    · rw [playLine_lows hoff]
      rfl

end Sys2Proof.Machine
end

