-- ==== Sys2Proof/Proofs/AttemptEnds.lean ====
section
/-!
The ends of attempts (section 7.5), and the stuck line (O8).
-/
namespace Sys2Proof.Machine
open Relation

/-! ## The ends of attempts (section 7.5) -/

section
variable {a : Attempt} {e : TxEntry} {s : State}

theorem endUncounted_kept (he : txEntry s a.entry = some e) (hw : e.withdrawn = false) : endUncounted a s = endAttempt s := by
  simp only [endUncounted, he, hw]
  rfl

theorem endUncounted_missing (he : txEntry s a.entry = none) : endUncounted a s = endAttempt s := by
  simp only [endUncounted, he]

theorem holds_removed (n : Nat) (s : State) (q : Producer) : holds (removeTx n (endAttempt s)) q = holds s q := by
  cases q <;> rfl

/-- With no frame held, a removal offers none. -/
theorem removed_eq (n : Nat) (h : ∀ p, holds s p = false) :
    offerRounds 1 (removeTx n (endAttempt s)) = removeTx n (endAttempt s) := by
  rw [offerRounds_one, offerRound_of_none fun q => (holds_removed n s q).trans (h q)]

theorem endUncounted_withdrawn (he : txEntry s a.entry = some e) (hw : e.withdrawn = true) (h : ∀ p, holds s p = false) :
    endUncounted a s = removeTx a.entry (endAttempt s) := by
  have hend : endUncounted a s = offerRounds 1 (removeTx a.entry (endAttempt s)) := by
    simp only [endUncounted, he, hw]
    rfl
  rw [hend, removed_eq _ h]

theorem endFailed_withdrawn (he : txEntry s a.entry = some e) (hw : e.withdrawn = true) (h : ∀ p, holds s p = false) :
    endFailed a s = removeTx a.entry (endAttempt s) := by
  have hend : endFailed a s = offerRounds 1 (removeTx a.entry (endAttempt s)) := by
    simp only [endFailed, he, hw]
    rfl
  rw [hend, removed_eq _ h]

theorem endFailed_counts (he : txEntry s a.entry = some e) (hw : e.withdrawn = false) (hfails : e.fails < 7) :
    endFailed a s = countFailure a.entry (endAttempt s) := by
  have hless : e.fails + 1 ≠ 8 := by omega
  simp only [endFailed, he, hw, Bool.false_eq_true, if_false, if_neg hless]

theorem endFailed_drops (he : txEntry s a.entry = some e) (hw : e.withdrawn = false) (hfails : e.fails = 7) :
    endFailed a s = dropFrame a e s := by
  have hlast : e.fails + 1 = 8 := by omega
  simp only [endFailed, he, hw, Bool.false_eq_true, if_false, if_pos hlast]

theorem failureDrops_of (ha : s.line.attempt = some a) (he : txEntry s a.entry = some e) :
    failureDrops s = (decide (e.fails + 1 = 8) && !e.withdrawn) := by
  simp only [failureDrops, ha, he]

theorem failureEvents_head (s : State) (e : LineEvent) : e ∈ failureEvents s e := by
  rw [failureEvents]
  split
  · exact List.mem_cons_self
  · exact List.mem_singleton_self e

end

theorem OfferFrame.panel {s t : State} (h : OfferFrame s t) : t.panel = s.panel := by
  obtain ⟨_, _, _, _, _, _, rfl⟩ := h
  rfl

theorem offerRounds_panel (n : Nat) (s : State) : (offerRounds n s).panel = s.panel := (offerRounds_frame n s).panel

theorem endUncounted_panel (a : Attempt) (s : State) : (endUncounted a s).panel = s.panel := by
  unfold endUncounted
  split
  · split
    · rw [offerRounds_panel]
      rfl
    · rfl
  · rfl

/-! The transmitter's part of a sample sets no flag but TX_DROPPED. -/

theorem dropFrame_faultSet {g : FaultFlag} (hg : FaultFlag.txDropped.mask.getLsbD g.bit = false) (a : Attempt) (e : TxEntry) (s : State) :
    (dropFrame a e s).panel.faultSet g = s.panel.faultSet g := by
  have hpost : ∀ w t, (postDropped e w t).panel.faultSet g = t.panel.faultSet g := by
    intro w t
    unfold postDropped
    split
    · split
      · rfl
      · rfl
    · rfl
  have hjoin : ∀ t, (rejoin e t).panel = t.panel := by
    intro t
    unfold rejoin
    split
    · exact (offerJoin_frame false t).panel
    · rfl
  rw [dropFrame, offerRounds_panel, hjoin, hpost]
  exact raise_other hg _

theorem endFailed_faultSet {g : FaultFlag} (hg : FaultFlag.txDropped.mask.getLsbD g.bit = false) (a : Attempt) (s : State) :
    (endFailed a s).panel.faultSet g = s.panel.faultSet g := by
  unfold endFailed
  split
  · split
    · rw [offerRounds_panel]
      rfl
    · split
      · exact dropFrame_faultSet hg a _ s
      · rfl
  · rfl

theorem sendSample_faultSet {g : FaultFlag} (hg : FaultFlag.txDropped.mask.getLsbD g.bit = false) (a : Attempt) (frame : List Byte)
    (n k : Nat) (level : Bool) (s : State) : (sendSample a frame n k level s).1.panel.faultSet g = s.panel.faultSet g := by
  unfold sendSample
  dsimp only
  split
  · split
    · rfl
    · rw [endUncounted_panel]
    · unfold failAttempt
      split
      · exact endFailed_faultSet hg a _
      · exact endFailed_faultSet hg a s
  · rfl

theorem sendingSample_faultSet {g : FaultFlag} (hg : FaultFlag.txDropped.mask.getLsbD g.bit = false) (level : Bool) (s : State) :
    (sendingSample level s).1.panel.faultSet g = s.panel.faultSet g := by
  unfold sendingSample
  split
  · unfold attemptSample
    split
    · rfl
    · split
      · rfl
      · rfl
    · rfl
    · split
      · exact sendSample_faultSet hg _ _ _ _ level s
      · rfl
    · rfl
  · rfl

/-- An attempt that has not begun its characters, or has ended them, goes through a sample. -/
theorem sendingSample_goes_on {level : Bool} {s : State} (h : ∀ a k x, s.line.attempt = some a → a.phase ≠ .sending k x) :
    lineOnly s (sendingSample level s).1 ∧
      (sendingSample level s).1.line.attempt.map Attempt.entry = s.line.attempt.map Attempt.entry := by
  have hphase : ∀ p, (setPhase p s).line.attempt.map Attempt.entry = s.line.attempt.map Attempt.entry := by
    intro p
    show (s.line.attempt.map _).map Attempt.entry = _
    rw [Option.map_map]
    rfl
  unfold sendingSample
  split
  · next a ha =>
    unfold attemptSample
    split
    · exact ⟨rfl, hphase _⟩
    · split
      · exact ⟨rfl, hphase _⟩
      · exact ⟨rfl, rfl⟩
    · exact ⟨rfl, hphase _⟩
    · next k x hsending => exact absurd hsending (h a k x ha)
    · exact ⟨rfl, hphase _⟩
  · exact ⟨rfl, rfl⟩

/-! ## The stuck line (R121) -/

/-- The line once it is found stuck, an attempt still standing. -/
def LineInterface.stuck (l : LineInterface) : LineInterface :=
  { l with
    rx := .stuck, idleCount := 0, assembling := false, frame := [], jamWait := false, jamReady := false, jamLeft := 0,
    slotVeto := false, vetoOwed := none, hunt := .hunting }

/-- The state with the stuck line and its flag. -/
def stuckState (s : State) : State := setFault .lineStuck (withLine LineInterface.stuck s)

section
variable {s : State}

theorem lineStuck_none (h : s.line.attempt = none) : lineStuck s = stuckState s := by
  simp only [lineStuck, h]
  rfl

theorem lineStuck_some {a : Attempt} (h : s.line.attempt = some a) : lineStuck s = endUncounted a (stuckState s) := by
  simp only [lineStuck, h]
  rfl

theorem lineStuck_panel (s : State) : (lineStuck s).panel = (stuckState s).panel := by
  cases h : s.line.attempt with
  | none => rw [lineStuck_none h]
  | some a => rw [lineStuck_some h, endUncounted_panel]

/-- What the stuck line leaves of the line: no attempt, nothing owed, nothing in assembly. -/
theorem lineStuck_line (s : State) : (lineStuck s).line.receiver = s.line.stuck.receiver ∧ (lineStuck s).line.attempt = none ∧
    (lineStuck s).line.vetoOwed = none := by
  cases h : s.line.attempt with
  | none =>
    rw [lineStuck_none h]
    exact ⟨rfl, h, rfl⟩
  | some a =>
    have hline : (endUncounted a (stuckState s)).line = s.line.stuck.ended := endUncounted_line a (stuckState s)
    rw [lineStuck_some h, hline]
    exact ⟨rfl, rfl, rfl⟩

theorem lineStuck_rxq (s : State) : (lineStuck s).rxq = s.rxq := by
  cases h : s.line.attempt with
  | none =>
    rw [lineStuck_none h]
    rfl
  | some a =>
    rw [lineStuck_some h, (endUncounted_leavesReceiver a _).rxq]
    rfl

end

section
variable {clk : Word} {u : State}

theorem received_stuck (hrx : u.line.rx ≠ .stuck) (hlows : 1024 ≤ u.line.lows) :
    receiverSample false (sent clk false u) = (lineStuck (sent clk false u), [.lineStuck]) := by
  have hnow : 1024 < (sent clk false u).line.lows := by
    rw [sent_lows]
    exact Nat.lt_succ_of_le hlows
  rw [receiverSample, if_pos ⟨hnow, by rw [sent_rx]; exact hrx⟩]

/-- A sample at which the line is stuck is the stuck line, and nothing is driven after it. -/
theorem lineSample_stuck (hoff : u.line.rx ≠ .off) (hrx : u.line.rx ≠ .stuck) (hlows : 1024 ≤ u.line.lows) :
    (lineSample clk false u).1 = drive (lineStuck (sent clk false u)) ∧ LineEvent.lineStuck ∈ (lineSample clk false u).2 := by
  have hreceived : received clk false u = lineStuck (sent clk false u) := by rw [received, received_stuck hrx hlows]
  obtain ⟨hreceiver, hattempt, -⟩ := lineStuck_line (sent clk false u)
  have hrx' : (lineStuck (sent clk false u)).line.rx = .stuck := (congrArg LineInterface.rx hreceiver :)
  have hconcluded : concluded clk false u = lineStuck (sent clk false u) := by
    rw [concluded, hreceived, ownSlotEnd_of_none (slotAttempt_none_of hattempt)]
  constructor
  · cases ha : u.line.attempt with
    | none =>
      rw [lineSample_begins hoff ha, hconcluded, beginSample_of_rx]
      show (lineStuck (sent clk false u)).line.rx ≠ .outside
      rw [hrx']
      exact (nomatch ·)
    | some a => rw [lineSample_of_attempt hoff ha, followSample_eq, hconcluded]
  · rw [mem_lineSample_receiver hoff (by simp [LineEvent.ofReceiver]), received_stuck hrx hlows]
    exact List.mem_singleton_self _

/-- Before an attempt's characters, the stuck line ends it and leaves the queue, but for a withdrawn entry. -/
theorem lineStuck_txq (h : ∀ a k x, u.line.attempt = some a → a.phase ≠ .sending k x) :
    ((∀ x ∈ u.txq.entries, x.withdrawn = false) → (lineStuck (sent clk false u)).txq = u.txq) ∧
      ∀ a e, u.line.attempt = some a → txEntry u a.entry = some e → e.withdrawn = true → (∀ p, holds u p = false) →
        (lineStuck (sent clk false u)).txq.entries = u.txq.entries.filter fun x => x.seq != a.entry := by
  have hheard : (heard clk false u).line.attempt = u.line.attempt := by rw [heard_eq]
  obtain ⟨honly, hentry⟩ := sendingSample_goes_on (level := false) (s := heard clk false u) (by rw [hheard]; exact h)
  have hsent : lineOnly u (sent clk false u) := (withLine_lineOnly _ u).trans honly
  have hentry' : (sent clk false u).line.attempt.map Attempt.entry = u.line.attempt.map Attempt.entry := by
    rw [← hheard]
    exact hentry
  have htxq : (stuckState (sent clk false u)).txq = u.txq := (congrArg State.txq hsent :)
  have htx : ∀ n, txEntry (stuckState (sent clk false u)) n = txEntry u n := fun n => by rw [txEntry, htxq, txEntry]
  have hholds : ∀ p, holds (stuckState (sent clk false u)) p = holds u p := by
    intro p
    rw [hsent]
    cases p <;> rfl
  constructor
  · intro hall
    cases ha : (sent clk false u).line.attempt with
    | none => rw [lineStuck_none ha, htxq]
    | some b =>
      rw [lineStuck_some ha]
      cases he : txEntry u b.entry with
      | none => rw [endUncounted_missing ((htx _).trans he)]; exact htxq
      | some e =>
        rw [endUncounted_kept ((htx _).trans he) (hall e (List.mem_of_find?_eq_some he))]
        exact htxq
  · intro a e ha he hw hnone
    obtain ⟨b, hb, hba⟩ : ∃ b, (sent clk false u).line.attempt = some b ∧ b.entry = a.entry := by
      rw [ha] at hentry'
      exact Option.map_eq_some_iff.mp hentry'
    rw [← hba] at he
    rw [lineStuck_some hb, endUncounted_withdrawn ((htx _).trans he) hw fun p => (hholds p).trans (hnone p), ← hba]
    show (stuckState (sent clk false u)).txq.entries.filter _ = _
    rw [htxq]

end

/-- Settles O8: the sample at which a low has lasted more than 64 tb, whatever the transmitter does at it. -/
theorem lineStuckEndsAttempt : Obligations.LineStuckEndsAttempt := by
  intro before s
  dsimp only
  generalize hu : playLine before 1 s = u
  intro hoff hrx
  constructor
  · intro hlows
    show Host.Outcome.next (lineCommand .lineStuck (before ++ [false]) s) = _
    rw [lineCommand_not]
    rw [hu, mem_lineSample_receiver hoff (by simp [LineEvent.ofReceiver])]
    intro hmem
    unfold receiverSample at hmem
    split at hmem
    · next h =>
      rw [sent_lows] at h
      exact absurd h.1 (by rw [stuckSamples]; exact Nat.not_lt_of_le hlows)
    · split at hmem
      · exact nomatch List.mem_singleton.mp hmem
      · split at hmem
        · exact absurd hmem List.not_mem_nil
        · rcases stateSample_events hmem with h | ⟨h, -⟩
          · simp at h
          · exact nomatch h
  · intro hlows
    obtain ⟨hsample, hmem⟩ := lineSample_stuck (clk := u.stationClock) hoff hrx hlows
    obtain ⟨hreceiver, hattempt, howed⟩ := lineStuck_line (sent u.stationClock false u)
    have hrx' : (lineStuck (sent u.stationClock false u)).line.rx = .stuck := (congrArg LineInterface.rx hreceiver :)
    have hjam : (lineStuck (sent u.stationClock false u)).line.jamLeft = 0 := (congrArg LineInterface.jamLeft hreceiver :)
    have hexec : exec (.lineStuck (before ++ [false])) s = .next (drive (lineStuck (sent u.stationClock false u))) := by
      show Host.Outcome.next (lineCommand .lineStuck (before ++ [false]) s) = _
      rw [lineCommand_happens, hu, hsample]
      rw [hu]
      exact hmem
    have hdriver : (drive (lineStuck (sent u.stationClock false u))).line.driver = .released := by
      refine drive_released hjam ?_ (drivesOwed_none howed) (drivesAttempt_none hattempt)
      rw [hrx']
      rfl
    have hflag : (sent u.stationClock false u).panel.faultSet .lineStuck = u.panel.faultSet .lineStuck :=
      sendingSample_faultSet (by decide) false (heard u.stationClock false u)
    obtain ⟨hset, hpending⟩ := raise_spec (sent u.stationClock false u).panel .lineStuck
    have hpanel : (drive (lineStuck (sent u.stationClock false u))).panel = (sent u.stationClock false u).panel.raise .lineStuck :=
      lineStuck_panel _
    refine ⟨_, hexec, hrx', (congrArg LineInterface.assembling hreceiver :), (congrArg LineInterface.frame hreceiver :), hdriver,
      hattempt, howed, hjam, ?_, fun hclear => ?_, (lineStuck_rxq _).trans sent_rxq, fun h => lineStuck_txq h⟩
    · rw [hpanel]
      exact hset
    · rw [hpanel]
      exact hpending (hflag.trans hclear)

end Sys2Proof.Machine
end

