-- ==== Sys2Proof/Proofs/SlotEnds.lean ====
section
/-!
The end of the veto slot (R128), and a veto (O11).
-/
namespace Sys2Proof.Machine
open Relation

/-! ## The end of the veto slot (R128) -/

theorem slotAttempt_congr {s t : State} (h : t.line.attempt = s.line.attempt) : slotAttempt t = slotAttempt s := by
  rw [slotAttempt, slotAttempt, h]

/-- At the end of a slot the receiver leaves it, and an attempt in the slot is over. -/
structure SlotLeft (s t : State) : Prop where
  receiver : t.line.receiver = (leaveSlot s).line.receiver
  slotAttempt : Machine.slotAttempt t = none
  vetoOwed : t.line.vetoOwed = s.line.vetoOwed

theorem frameAccepted_left (s : State) : SlotLeft s (frameAccepted s) := by
  cases h : slotAttempt s with
  | none =>
    have hline : (frameAccepted s).line = (leaveSlot s).line := by rw [frameAccepted_of_none h, enqueueAccepted_line]
    refine ⟨by rw [hline], ?_, by rw [hline]; rfl⟩
    rw [← h]
    refine slotAttempt_congr ?_
    rw [hline]
    rfl
  | some a =>
    have hline : (frameAccepted s).line = (leaveSlot s).line.ended := by
      rw [frameAccepted_of_some h, offerRounds_line, enqueueAccepted_line, endAccepted_line]
    exact ⟨by rw [hline]; rfl, slotAttempt_none_of (by rw [hline]; rfl), by rw [hline]; rfl⟩

theorem frameVetoed_left (s : State) : SlotLeft s (frameVetoed s).1 := by
  cases h : slotAttempt s with
  | none =>
    rw [frameVetoed_of_none h]
    exact ⟨rfl, (slotAttempt_congr rfl).trans h, rfl⟩
  | some a =>
    have hline : (frameVetoed s).1.line = (leaveSlot s).line.ended := by
      rw [frameVetoed_of_some h]
      exact endFailed_line a (leaveSlot s)
    exact ⟨by rw [hline]; rfl, slotAttempt_none_of (by rw [hline]; rfl), by rw [hline]; rfl⟩

theorem frameVetoed_events {s : State} {e : LineEvent} (h : e ∈ (frameVetoed s).2) : e = .frameVetoed ∨ e = .frameDropped := by
  cases ha : slotAttempt s with
  | none =>
    rw [frameVetoed_of_none ha] at h
    exact .inl (List.mem_singleton.mp h)
  | some a =>
    rw [frameVetoed_of_some ha] at h
    exact failureEvents_mem h

theorem frameVetoed_happens (s : State) : LineEvent.frameVetoed ∈ (frameVetoed s).2 := by
  cases ha : slotAttempt s with
  | none =>
    rw [frameVetoed_of_none ha]
    exact List.mem_singleton_self _
  | some a =>
    rw [frameVetoed_of_some ha]
    exact failureEvents_head s _

section
variable {clk : Word} {level : Bool} {u : State}

theorem received_high (h : slotEnds u level) (hhigh : slotHigh u) :
    receiverSample level (sent clk level u) = (frameAccepted (sent clk level u), [.frameAccepted]) := by
  obtain ⟨hrx, hpassed, hjam, hshort⟩ := h
  rw [received_state hjam hshort, stateSample_slot (sent_rx.trans hrx), slotSample_last (sent_passed.trans hpassed),
    if_pos (by rw [sent_slotFirst, sent_slotSecond]; exact hhigh)]

theorem received_low (h : slotEnds u level) (hlow : ¬ slotHigh u) :
    receiverSample level (sent clk level u) = frameVetoed (sent clk level u) := by
  obtain ⟨hrx, hpassed, hjam, hshort⟩ := h
  rw [received_state hjam hshort, stateSample_slot (sent_rx.trans hrx), slotSample_last (sent_passed.trans hpassed),
    if_neg (by rw [sent_slotFirst, sent_slotSecond]; exact hlow)]

theorem received_left (h : slotEnds u level) : SlotLeft (sent clk level u) (received clk level u) := by
  by_cases hhigh : slotHigh u
  · rw [received, received_high h hhigh]
    exact frameAccepted_left _
  · rw [received, received_low h hhigh]
    exact frameVetoed_left _

theorem slotEnds.hears (h : slotEnds u level) : u.line.rx ≠ .off := by
  rw [h.1]
  exact (nomatch ·)

/-- After the end of a slot no attempt begins, and the sample is the receiver's. -/
theorem lineSample_slotEnd (h : slotEnds u level) : (lineSample clk level u).1 = drive (received clk level u) := by
  have hleft := received_left (clk := clk) h
  have hconcluded : concluded clk level u = received clk level u := by rw [concluded, ownSlotEnd_of_none hleft.slotAttempt]
  cases ha : u.line.attempt with
  | none =>
    have hcount : (drive (received clk level u)).line.idleCount = 0 := (congrArg LineInterface.idleCount hleft.receiver :)
    rw [lineSample_begins h.hears ha, hconcluded, beginSample_of_count (by omega)]
  | some a => rw [lineSample_of_attempt h.hears ha, followSample_eq, hconcluded]

/-- The events of a slot's end are the receiver's, the transmitter's and the beginning of an attempt. -/
theorem mem_slotEnd {e : LineEvent} (h : slotEnds u level) (he : e ∈ (lineSample clk level u).2) :
    e ∈ [LineEvent.arbitrationLost, .bitError, .attemptStart] ∨ (e = .frameDropped ∧ u.line.attempt ≠ none) ∨
      e ∈ (receiverSample level (sent clk level u)).2 := by
  have hnone := ownSlotEnd_of_none (received_left (clk := clk) h).slotAttempt
  rw [mem_lineSample h.hears, hnone] at he
  rcases he with (he | he | he) | ⟨-, he⟩
  · rcases sendingSample_events he with rfl | rfl | rfl
    · exact .inl (by simp)
    · exact .inl (by simp)
    · refine .inr (.inl ⟨rfl, fun hattempt => ?_⟩)
      have hheard : (heard clk level u).line.attempt = none := by
        rw [heard_eq]
        exact hattempt
      simp only [sendingSample, hheard] at he
      exact absurd he List.not_mem_nil
  · exact .inr (.inr he)
  · exact absurd he List.not_mem_nil
  · exact .inl (by simp [beginSample_events he])

theorem mem_lineSample_of_received {e : LineEvent} (h : u.line.rx ≠ .off) (he : e ∈ (receiverSample level (sent clk level u)).2) :
    e ∈ (lineSample clk level u).2 := (mem_lineSample h).mpr (.inl (.inr (.inl he)))

/-- What is driven after a slot's end that leaves no attempt and owes no veto. -/
theorem slotEnd_released (h : slotEnds u level) (hattempt : (received clk level u).line.attempt = none)
    (howed : (sent clk level u).line.vetoOwed = none) : (drive (received clk level u)).line.driver = .released := by
  have hleft := received_left (clk := clk) h
  have hrx : (received clk level u).line.rx = .outside := (congrArg LineInterface.rx hleft.receiver :)
  have hjam : (received clk level u).line.jamLeft = 0 :=
    (congrArg LineInterface.jamLeft hleft.receiver :).trans (sent_jamLeft.trans h.2.2.1)
  refine drive_released hjam ?_ (drivesOwed_none (hleft.vetoOwed.trans howed)) (drivesAttempt_none hattempt)
  rw [hrx]
  rfl

/-- The attempt that is in its slot at a sample, after the transmitter's part. -/
theorem sent_slot {a : Attempt} {n x y : Nat} (ha : u.line.attempt = some a) (hphase : a.phase = .slot n x y) :
    lineOnly u (sent clk level u) ∧ (sent clk level u).line.vetoOwed = (heard clk level u).line.vetoOwed ∧
      ∃ n x y, slotAttempt (sent clk level u) = some { a with phase := .slot n x y } := by
  have hheard : (heard clk level u).line.attempt = some a := by
    rw [heard_eq]
    exact ha
  obtain ⟨n', x', y', hsent⟩ : ∃ n x y, sent clk level u = setPhase (.slot n x y) (heard clk level u) := by
    rw [sent]
    simp only [sendingSample, hheard, attemptSample, hphase]
    exact ⟨_, _, _, rfl⟩
  rw [hsent]
  refine ⟨rfl, rfl, n', x', y', slotAttempt_some_of (n := n') (x := x') (y := y') ?_ rfl⟩
  show (heard clk level u).line.attempt.map _ = _
  rw [hheard]
  rfl

end

/-! ## The accepted frame (R127, R144) -/

section
variable {chars : List ReadChar} {w : Word} {s : State}

theorem enqueueAccepted_errors (h : frameErrors chars = true) : enqueueAccepted chars w s = s := if_pos h

theorem enqueueAccepted_room (h : frameErrors chars = false) (hroom : s.rxq.entries.length < 8) : enqueueAccepted chars w s =
    pushRx { frame := chars.map (·.value), edge := w, joining := decide (s.member.state = .joining) } s := by
  have hfull : rxFull s = false := decide_eq_false (by omega)
  rw [enqueueAccepted, h, hfull]
  rfl

theorem enqueueAccepted_full (h : frameErrors chars = false) (hfull : 8 ≤ s.rxq.entries.length) : enqueueAccepted chars w s =
    if s.member.state = .listening then setFault .rxOverrun s else s := by
  have hfull' : rxFull s = true := decide_eq_true hfull
  rw [enqueueAccepted, h, hfull']
  rfl

end

/-! ## A slot that reads low (O11) -/

/-- The slot's end in its own words: its samples 7, 8 and 9 of each bit time are counted (R128). -/
theorem playLine_slot {level : Bool} {u : State} (hrx : u.line.rx = .slot) (hpassed : u.line.passed < 31) (hjam : u.line.jamLeft = 0)
    (hshort : shortLow u level) : (playLine [level] 0 u).line.rx = .slot ∧ (playLine [level] 0 u).line.passed = u.line.passed + 1 ∧
      (playLine [level] 0 u).line.slotFirst = firstTally level u ∧ (playLine [level] 0 u).line.slotSecond = secondTally level u := by
  have hsample := playLine_receiver_state (by rw [hrx]; exact (nomatch ·)) hjam hshort
  rw [stateSample_slot (sent_rx.trans hrx), slotSample_runs (by rw [sent_passed]; exact hpassed)] at hsample
  refine ⟨(congrArg LineInterface.rx hsample :).trans (sent_rx.trans hrx), (congrArg LineInterface.passed hsample :).trans ?_,
    (congrArg LineInterface.slotFirst hsample :).trans ?_, (congrArg LineInterface.slotSecond hsample :).trans ?_⟩
  · show (sent u.stationClock level u).line.passed + 1 = _
    rw [sent_passed]
  · show firstTally level (sent u.stationClock level u) = _
    rw [firstTally, sent_passed, sent_slotFirst, firstTally]
  · show secondTally level (sent u.stationClock level u) = _
    rw [secondTally, sent_passed, sent_slotSecond, secondTally]

theorem firstTally_eq (level : Bool) (u : State) : firstTally level u = if u.line.passed = 7 then Bool.high level
    else if u.line.passed = 8 ∨ u.line.passed = 9 then u.line.slotFirst + Bool.high level else u.line.slotFirst := by
  rw [firstTally]
  split
  · rfl
  · rw [if_neg (by omega), if_neg (by omega)]

theorem secondTally_eq (level : Bool) (u : State) : secondTally level u = if u.line.passed = 23 then Bool.high level
    else if u.line.passed = 24 ∨ u.line.passed = 25 then u.line.slotSecond + Bool.high level else u.line.slotSecond := by
  rw [secondTally]
  split
  · rw [if_neg (by omega), if_neg (by omega)]
  · rw [tally]
    exact if_congr (by omega) rfl (if_congr (by omega) rfl rfl)

section
variable {before : Samples} {level : Bool} {s u : State}

theorem frameVetoed_exec (hu : playLine before 1 s = u) (h : slotEnds u level) (hlow : ¬ slotHigh u) :
    exec (.frameVetoed (before ++ [level])) s = .next (drive (frameVetoed (sent u.stationClock level u)).1) := by
  have hreceived : received u.stationClock level u = (frameVetoed (sent u.stationClock level u)).1 := by
    rw [received, received_low h hlow]
  show Host.Outcome.next (lineCommand .frameVetoed (before ++ [level]) s) = _
  rw [lineCommand_happens, hu, lineSample_slotEnd h, hreceived]
  rw [hu]
  refine mem_lineSample_of_received h.hears ?_
  rw [received_low h hlow]
  exact frameVetoed_happens _

theorem frameVetoed_stays (hu : playLine before 1 s = u) (h : slotEnds u level) (hhigh : slotHigh u) :
    exec (.frameVetoed (before ++ [level])) s = .next s := by
  show Host.Outcome.next (lineCommand .frameVetoed (before ++ [level]) s) = _
  rw [lineCommand_not]
  rw [hu]
  intro hmem
  rcases mem_slotEnd h hmem with hmem | ⟨hmem, -⟩ | hmem
  · simp at hmem
  · exact nomatch hmem
  · rw [received_high h hhigh] at hmem
    exact nomatch List.mem_singleton.mp hmem

theorem frameAccepted_exec (hu : playLine before 1 s = u) (h : slotEnds u level) (hhigh : slotHigh u) :
    exec (.frameAccepted (before ++ [level])) s = .next (drive (frameAccepted (sent u.stationClock level u))) := by
  have hreceived : received u.stationClock level u = frameAccepted (sent u.stationClock level u) := by
    rw [received, received_high h hhigh]
  show Host.Outcome.next (lineCommand .frameAccepted (before ++ [level]) s) = _
  rw [lineCommand_happens, hu, lineSample_slotEnd h, hreceived]
  rw [hu]
  refine mem_lineSample_of_received h.hears ?_
  rw [received_high h hhigh]
  exact List.mem_singleton_self _

theorem frameAccepted_stays (hu : playLine before 1 s = u) (h : slotEnds u level) (hlow : ¬ slotHigh u) :
    exec (.frameAccepted (before ++ [level])) s = .next s := by
  show Host.Outcome.next (lineCommand .frameAccepted (before ++ [level]) s) = _
  rw [lineCommand_not]
  rw [hu]
  intro hmem
  rcases mem_slotEnd h hmem with hmem | ⟨hmem, -⟩ | hmem
  · simp at hmem
  · exact nomatch hmem
  · rw [received_low h hlow] at hmem
    rcases frameVetoed_events hmem with h | h
    · exact nomatch h
    · exact nomatch h

end

section
variable {level : Bool} {u : State}

/-- A vetoed frame at a station that sends none. -/
theorem vetoed_other (h : slotEnds u level) (hlow : ¬ slotHigh u) (ha : u.line.attempt = none) :
    let t := drive (frameVetoed (sent u.stationClock level u)).1
    t = { u with line := t.line } ∧ t.line.rx = .outside ∧ t.line.idleCount = 0 ∧ t.line.assembling = false ∧ t.line.frame = [] ∧
      t.line.slotVeto = false ∧ t.line.attempt = none ∧ (u.line.vetoOwed = none → t.line.driver = .released) := by
  have hheard : (heard u.stationClock level u).line.attempt = none := by
    rw [heard_eq]
    exact ha
  have hreceived : received u.stationClock level u = leaveSlot (heard u.stationClock level u) := by
    rw [received, received_low h hlow, sent_of_none ha, frameVetoed_of_none (slotAttempt_none_of hheard)]
  have hvetoed : (frameVetoed (sent u.stationClock level u)).1 = leaveSlot (heard u.stationClock level u) := by
    rw [sent_of_none ha, frameVetoed_of_none (slotAttempt_none_of hheard)]
  have hreleased := slotEnd_released (clk := u.stationClock) h (by rw [hreceived]; exact hheard)
  rw [hreceived, sent_of_none ha] at hreleased
  rw [hvetoed]
  exact ⟨rfl, rfl, rfl, rfl, rfl, rfl, hheard, fun howed => hreleased (heard_owes howed)⟩

theorem countFailure_txq (n : Nat) (s : State) : (countFailure n s).txq = { s.txq with
    entries := s.txq.entries.map fun x => if x.seq = n then { x with fails := x.fails + 1 } else x } := rfl

/-- A vetoed frame at its sender, whose failure is counted (R129). -/
theorem vetoed_own {a : Attempt} {e : TxEntry} {n x y : Nat} (h : slotEnds u level) (hlow : ¬ slotHigh u) (ha : u.line.attempt = some a)
    (hphase : a.phase = .slot n x y) (he : txEntry u a.entry = some e) (hw : e.withdrawn = false) (hfails : e.fails < 7) :
    let t := drive (frameVetoed (sent u.stationClock level u)).1
    t = { u with line := t.line, txq := t.txq } ∧ t.line.rx = .outside ∧ t.line.idleCount = 0 ∧ t.line.assembling = false ∧
      t.line.frame = [] ∧ t.line.slotVeto = false ∧ t.line.attempt = none ∧ (u.line.vetoOwed = none → t.line.driver = .released) ∧
      t.txq = { u.txq with
        entries := u.txq.entries.map fun x => if x.seq = a.entry then { x with fails := x.fails + 1 } else x } := by
  obtain ⟨honly, howes, n', x', y', hslot⟩ := sent_slot (clk := u.stationClock) (level := level) ha hphase
  generalize hwstate : sent u.stationClock level u = w at *
  have htx : txEntry (leaveSlot w) a.entry = some e := by
    rw [txEntry] at he ⊢
    rw [← he, honly]
    rfl
  have hvetoed : (frameVetoed w).1 = countFailure a.entry (endAttempt (leaveSlot w)) := by
    rw [frameVetoed_of_some hslot]
    exact endFailed_counts (a := { a with phase := .slot n' x' y' }) htx hw hfails
  have hreceived : received u.stationClock level u = countFailure a.entry (endAttempt (leaveSlot w)) := by
    rw [received, received_low h hlow, hwstate, hvetoed]
  have hreleased := slotEnd_released (clk := u.stationClock) h (by rw [hreceived]; rfl)
  rw [hreceived, hwstate] at hreleased
  have htxq : w.txq = u.txq := (congrArg State.txq honly :)
  have hsame : drive (countFailure a.entry (endAttempt (leaveSlot w))) = { u with
      line := (drive (countFailure a.entry (endAttempt (leaveSlot w)))).line
      txq := (drive (countFailure a.entry (endAttempt (leaveSlot w)))).txq } := by
    rw [honly]
    rfl
  rw [hvetoed]
  refine ⟨hsame, rfl, rfl, rfl, rfl, rfl, rfl, fun howed => hreleased (howes.trans (heard_owes howed)), ?_⟩
  rw [← htxq]
  exact countFailure_txq a.entry w

end

/-- Settles O11: the end of a slot that reads low, at the sender and at the others, and the samples before it. -/
theorem vetoCountsOneFailure : Obligations.VetoCountsOneFailure := by
  intro before level s
  dsimp only
  generalize hu : playLine before 1 s = u
  refine ⟨fun h hhigh => frameVetoed_stays hu h hhigh, fun h hlow => ⟨fun ha => ?_, fun a e n x y ha hphase he hw hfails => ?_⟩,
    fun hrx hpassed hjam hshort => ?_⟩
  · exact ⟨_, frameVetoed_exec hu h hlow, vetoed_other h hlow ha⟩
  · exact ⟨_, frameVetoed_exec hu h hlow, vetoed_own h hlow ha hphase he hw hfails⟩
  · obtain ⟨hrx', hpassed', hfirst, hsecond⟩ := playLine_slot hrx hpassed hjam hshort
    rw [firstTally_eq] at hfirst
    rw [secondTally_eq] at hsecond
    exact ⟨hrx', hpassed', hfirst, hsecond⟩

end Sys2Proof.Machine
end

