-- ==== Sys2Proof/Proofs/FreedOffers.lean ====
section
/-!
SUPPORT. The offers to a freed entry, and the records that forget one (R129, R149).
-/
namespace Sys2Proof.Machine
open Relation

/-! ## The one frame that is offered to a freed entry (R149) -/

/-- A frame has been placed at the end of the queue. -/
def placesOne (s t : State) (f : LineFrame) : Prop :=
  t.txq.entries.map TxEntry.frame = s.txq.entries.map TxEntry.frame ++ [encodeFrame (ownNumber s) f] ∧
    t.txq.nextSeq = s.txq.nextSeq + 1

section
variable {s : State}

/-- Where a JOIN alone is held, it is placed. -/
theorem offerRound_join {reply : Bool} (hroom : s.txq.entries.length < 4) (hjoin : s.member.heldJoin = some reply)
    (hlockout : holds s .lockoutUnit = false) (hclock : holds s .clockUnit = false) :
    (offerRound s).member.heldJoin = none ∧
      placesOne s (offerRound s) (.join (flagByte reply) s.member.identity s.member.signature) := by
  have hholds : holds s .membership = true := (holds_membership_iff s).mpr (by rw [hjoin]; exact (nomatch ·))
  have hround : offerRound s = offerHeldJoin s := offerRound_of_one hholds fun p hp => by
    cases p with
    | lockoutUnit => exact hlockout
    | clockUnit => exact hclock
    | membership => exact absurd rfl hp
    | panelPort => rfl
  rw [hround, offerHeldJoin_some (decide_eq_true hroom) hjoin]
  exact ⟨rfl, placeFrame_frames .membership (joinFrame s reply) s, rfl⟩

theorem offerRound_lockout (hjoin : s.member.heldJoin = none) (hclock : holds s .clockUnit = false)
    (hlockout : holds s .lockoutUnit = true) : offerRound s = offerHeldLockout s := by
  refine offerRound_of_one hlockout fun p hp => ?_
  cases p with
  | lockoutUnit => exact absurd rfl hp
  | clockUnit => exact hclock
  | membership =>
    rw [holds, hjoin]
    rfl
  | panelPort => rfl

/-- A held CLAIM that is at or before every other is the one that is offered. -/
theorem bestClaim_of_least {r : Round} {i : Fin 8} {fs : Bool} {capture : Nat} (h : r.ownClaim[i] = .held fs capture)
    (hleast : ∀ (j : Fin 8) (fs' : Bool) (capture' : Nat), r.ownClaim[j] = .held fs' capture' →
      capture < capture' ∨ (capture = capture' ∧ i ≤ j)) : bestClaim r = some (i, fs, capture) := by
  cases hbest : bestClaim r with
  | none =>
    have hwaits := (bestClaim_none_iff r).mp hbest i
    rw [h] at hwaits
    exact absurd trivial hwaits
  | some w =>
    obtain ⟨hheld, hall⟩ := bestClaim_spec hbest
    obtain ⟨j, fs', capture'⟩ := w
    have hbefore := hleast j fs' capture' hheld
    have hafter : capture' < capture ∨ (capture' = capture ∧ j ≤ i) := hall i fs capture h
    obtain rfl : j = i := by omega
    obtain ⟨rfl, rfl⟩ : fs' = fs ∧ capture' = capture := by
      have heq : OwnClaim.held fs' capture' = .held fs capture := hheld.symm.trans h
      injection heq with h1 h2
      exact ⟨h1, h2⟩
    rfl

/-- Where the Lockout Unit alone holds frames, its CLAIM of the least capture is placed (R87). -/
theorem offerRound_claim {i : Fin 8} {fs : Bool} {capture : Nat} (hroom : s.txq.entries.length < 4)
    (hjoin : s.member.heldJoin = none) (hclock : holds s .clockUnit = false)
    (h : s.lockout.round.ownClaim[i] = .held fs capture)
    (hleast : ∀ (j : Fin 8) (fs' : Bool) (capture' : Nat), s.lockout.round.ownClaim[j] = .held fs' capture' →
      capture < capture' ∨ (capture = capture' ∧ i ≤ j)) :
    (offerRound s).lockout.round.ownClaim[i] = .queued s.txq.nextSeq ∧
      placesOne s (offerRound s) (claimFrame s.lockout.round i fs capture) := by
  have hlockout : holds s .lockoutUnit = true := (holds_lockout_iff s).mpr (.inl ⟨i, by rw [h]; trivial⟩)
  rw [offerRound_lockout hjoin hclock hlockout, offerHeldLockout_claim (decide_eq_true hroom) (bestClaim_of_least h hleast),
    offerClaim_placed (decide_eq_true hroom)]
  refine ⟨?_, placeFrame_frames _ _ s, rfl⟩
  show (s.lockout.round.ownClaim.set i _)[i] = _
  rw [vector_get_set8, if_pos rfl]

/-- Where its CLOSE is all that is held, it is placed (R85). -/
theorem offerRound_close (hroom : s.txq.entries.length < 4) (hjoin : s.member.heldJoin = none)
    (hclock : holds s .clockUnit = false) (hclaims : ∀ i : Fin 8, ¬ (s.lockout.round.ownClaim[i]).waits)
    (hclose : s.lockout.round.ownClose = .held) : (offerRound s).lockout.round.ownClose = .queued s.txq.nextSeq ∧
      placesOne s (offerRound s) (closeFrame s.lockout.round) := by
  have hlockout : holds s .lockoutUnit = true := (holds_lockout_iff s).mpr (.inr hclose)
  rw [offerRound_lockout hjoin hclock hlockout,
    offerHeldLockout_close (decide_eq_true hroom) ((bestClaim_none_iff _).mpr hclaims) hclose, offerClose_placed hroom]
  exact ⟨rfl, placeFrame_frames _ _ s, rfl⟩

/-- A held copy that is at or before every other is the one that is offered (R108). -/
theorem bestCopy_of_first {c p : Fin 4} {epoch : Byte} {since order : Nat}
    (h : (clockOf s c).copies[p] = .held epoch since order)
    (hfirst : ∀ (c' p' : Fin 4) (epoch' : Byte) (since' order' : Nat), (clockOf s c').copies[p'] = .held epoch' since' order' →
      heldFirst since order since' order' c p c' p') : bestCopy s = some (c, p) := by
  cases hbest : bestCopy s with
  | none =>
    have hwaits := (bestCopy_none_iff s).mp hbest c p
    rw [h] at hwaits
    exact absurd trivial hwaits
  | some w =>
    obtain ⟨d, q⟩ := w
    obtain ⟨k, hkey, hall⟩ := bestCopy_spec hbest
    have hwaits : ((clockOf s d).copies[q]).waits := by
      by_contra hn
      rw [copyKey_of_not_waits hn] at hkey
      exact nomatch hkey
    obtain ⟨epoch', since', order', hheld⟩ := (OwnCopy.waits_iff _).mp hwaits
    obtain rfl := Option.some.inj ((copyKey_of_held hheld).symm.trans hkey)
    have hafter := (keyAtMost_iff _ _).mp (hall c p _ (copyKey_of_held h))
    have hbefore := hfirst d q epoch' since' order' hheld
    unfold heldFirst at hbefore
    dsimp only at hafter
    have hplace : d = c ∧ q = p := by omega
    rw [hplace.1, hplace.2]

/-- Where the Segment Clock Unit alone holds copies, the first in its order is placed (R108). -/
theorem offerRound_copy {c p : Fin 4} {epoch : Byte} {since order : Nat} (hroom : s.txq.entries.length < 4)
    (hjoin : s.member.heldJoin = none) (hlockout : holds s .lockoutUnit = false)
    (h : (clockOf s c).copies[p] = .held epoch since order)
    (hfirst : ∀ (c' p' : Fin 4) (epoch' : Byte) (since' order' : Nat), (clockOf s c').copies[p'] = .held epoch' since' order' →
      heldFirst since order since' order' c p c' p') :
    (clockOf (offerRound s) c).copies[p] = .queued (clockOf s c).epoch s.txq.nextSeq ∧ placesOne s (offerRound s)
      (.fire (comparePoint s c p).cue 2 (BitVec.ofNat 8 (c.val * 16 + p.val) ++ (clockOf s c).epoch) 128) := by
  have hclock : holds s .clockUnit = true := (holds_clock_iff s).mpr ⟨c, p, by rw [h]; trivial⟩
  have hround : offerRound s = placeClockFire c p s := by
    rw [← offerHeldClock_some (decide_eq_true hroom) (bestCopy_of_first h hfirst)]
    refine offerRound_of_one hclock fun q hq => ?_
    cases q with
    | lockoutUnit => exact hlockout
    | clockUnit => exact absurd rfl hq
    | membership =>
      rw [holds, hjoin]
      rfl
    | panelPort => rfl
  rw [hround]
  exact ⟨placeClockFire_copy c p s, placeClockFire_frames c p s, rfl⟩

/-- One producer with a frame finds the last free entry. -/
theorem offerRound_fills (h : s.txq.entries.length = 3) (hsome : ∃ p, holds s p = true) : (offerRound s).txq.entries.length = 4 := by
  obtain ⟨p, hp⟩ := hsome
  have hlonger := offerRound_longer hp (by omega)
  have hbound := (offerRound_turn s).length
  omega

end

/-! ## What names an entry that leaves the queue (R129) -/

theorem OwnClaim.forget_held_iff {n : Nat} {x : OwnClaim} {fs : Bool} {capture : Nat} :
    x.forget n = .held fs capture ↔ x = .held fs capture := by
  cases x with
  | queued m => by_cases h : m = n <;> simp [OwnClaim.forget, h]
  | held fs' capture' => rfl
  | absent => rfl

theorem OwnClaim.forget_unnamed (n : Nat) (x : OwnClaim) : x.forget n ≠ .queued n := by
  cases x with
  | queued m => by_cases h : m = n <;> simp [OwnClaim.forget, h]
  | held fs' capture' => exact (nomatch ·)
  | absent => exact (nomatch ·)

theorem OwnClaim.forget_waits (n : Nat) (x : OwnClaim) : (x.forget n).waits ↔ x.waits := by
  simp only [OwnClaim.waits_iff, OwnClaim.forget_held_iff]

theorem OwnClose.forget_held_iff {n : Nat} {x : OwnClose} : x.forget n = .held ↔ x = .held := by
  cases x with
  | queued m => by_cases h : m = n <;> simp [OwnClose.forget, h]
  | held => rfl
  | absent => rfl

theorem OwnClose.forget_unnamed (n : Nat) (x : OwnClose) : x.forget n ≠ .queued n := by
  cases x with
  | queued m => by_cases h : m = n <;> simp [OwnClose.forget, h]
  | held => exact (nomatch ·)
  | absent => exact (nomatch ·)

theorem OwnCopy.forget_held_iff {n : Nat} {x : OwnCopy} {epoch : Byte} {since order : Nat} :
    x.forget n = .held epoch since order ↔ x = .held epoch since order := by
  cases x with
  | queued e m => by_cases h : m = n <;> simp [OwnCopy.forget, h]
  | held e a b => rfl
  | absent => rfl

theorem OwnCopy.forget_unnamed (n : Nat) (epoch : Byte) (x : OwnCopy) : x.forget n ≠ .queued epoch n := by
  cases x with
  | queued e m => by_cases h : m = n <;> simp [OwnCopy.forget, h]
  | held e a b => exact (nomatch ·)
  | absent => exact (nomatch ·)

theorem OwnCopy.forget_waits (n : Nat) (x : OwnCopy) : (x.forget n).waits ↔ x.waits := by
  simp only [OwnCopy.waits_iff, OwnCopy.forget_held_iff]

/-- An entry has left the queue and what names it: what the offers to the freed entry see. -/
structure Freed (n : Nat) (s t : State) : Prop where
  txq : t.txq = { s.txq with entries := s.txq.entries.filter fun x => x.seq != n } := by rfl
  heldJoin : t.member.heldJoin = s.member.heldJoin := by rfl
  identity : t.member.identity = s.member.identity := by rfl
  signature : t.member.signature = s.member.signature := by rfl
  straps : t.straps = s.straps := by rfl
  tables : t.tables = s.tables := by rfl
  round : t.lockout.round = { s.lockout.round with
    ownClaim := mapVec (OwnClaim.forget n) s.lockout.round.ownClaim, ownClose := s.lockout.round.ownClose.forget n } := by rfl
  records : t.clocks.records = mapVec (fun r => { r with copies := mapVec (OwnCopy.forget n) r.copies }) s.clocks.records := by rfl

namespace Freed
variable {n : Nat} {s t : State}

theorem ownClaim (h : Freed n s t) (i : Fin 8) : t.lockout.round.ownClaim[i] = (s.lockout.round.ownClaim[i]).forget n := by
  rw [h.round]
  exact mapVec_get _ _ i

theorem ownClose (h : Freed n s t) : t.lockout.round.ownClose = s.lockout.round.ownClose.forget n := by rw [h.round]

theorem clock (h : Freed n s t) (c : Fin 4) :
    clockOf t c = { clockOf s c with copies := mapVec (OwnCopy.forget n) (clockOf s c).copies } := by
  rw [clockOf, h.records, mapVec_get, clockOf]

theorem copy (h : Freed n s t) (c p : Fin 4) : (clockOf t c).copies[p] = ((clockOf s c).copies[p]).forget n := by
  rw [h.clock]
  exact mapVec_get _ _ p

theorem epoch (h : Freed n s t) (c : Fin 4) : (clockOf t c).epoch = (clockOf s c).epoch := by rw [h.clock]

theorem ownNumber (h : Freed n s t) : Machine.ownNumber t = Machine.ownNumber s := by
  rw [Machine.ownNumber, h.straps, Machine.ownNumber]

theorem comparePoint (h : Freed n s t) (c p : Fin 4) : Machine.comparePoint t c p = Machine.comparePoint s c p := by
  rw [Machine.comparePoint, h.tables, Machine.comparePoint]

theorem holds (h : Freed n s t) (p : Producer) : Machine.holds t p = Machine.holds s p := by
  rw [Bool.eq_iff_iff]
  cases p with
  | lockoutUnit =>
    rw [holds_lockout_iff, holds_lockout_iff, h.ownClose, OwnClose.forget_held_iff]
    simp only [h.ownClaim, OwnClaim.forget_waits]
  | clockUnit =>
    rw [holds_clock_iff, holds_clock_iff]
    simp only [h.copy, OwnCopy.forget_waits]
  | membership => rw [holds_membership_iff, holds_membership_iff, h.heldJoin]
  | panelPort => rfl

/-- The frame placed at a freed entry, in terms of the queue before the freeing. -/
theorem places {f : LineFrame} {u : State} (h : Freed n s t) (hp : placesOne t u f) :
    u.txq.entries.map TxEntry.frame = (s.txq.entries.filter fun x => x.seq != n).map TxEntry.frame ++
      [encodeFrame (Machine.ownNumber s) f] ∧ u.txq.nextSeq = s.txq.nextSeq + 1 := by
  obtain ⟨hframes, hseq⟩ := hp
  rw [h.txq, h.ownNumber] at hframes
  rw [h.txq] at hseq
  exact ⟨hframes, hseq⟩

end Freed

end Sys2Proof.Machine
end

