-- ==== Sys2Proof/Proofs/AcceptedFrames.lean ====
section
/-!
Accepted frames, at the others and at the sender (O13, O14).
-/
namespace Sys2Proof.Machine
open Relation

/-! ## The accepted frame at a station that sends none (O13) -/

section
variable {before : Samples} {level : Bool} {s u : State}

theorem frameAccepted_other (ha : u.line.attempt = none) : frameAccepted (sent u.stationClock level u) =
    enqueueAccepted u.line.frame u.line.breakEdge (leaveSlot (heard u.stationClock level u)) := by
  have hheard : (heard u.stationClock level u).line.attempt = none := by
    rw [heard_eq]
    exact ha
  rw [sent_of_none ha, frameAccepted_of_none (slotAttempt_none_of hheard), heard_eq]

/-- What the end of a slot leaves of the line and the station at a station that sends none. -/
theorem accepted_other (h : slotEnds u level) (hhigh : slotHigh u) (ha : u.line.attempt = none) :
    let t := drive (frameAccepted (sent u.stationClock level u))
    t.line.rx = .outside ∧ t.line.idleCount = 0 ∧ t.line.assembling = false ∧ t.line.frame = [] ∧
      (u.line.vetoOwed = none → t.line.driver = .released) ∧ t = { u with line := t.line, rxq := t.rxq, panel := t.panel } := by
  have hreceived : received u.stationClock level u = frameAccepted (sent u.stationClock level u) := by
    rw [received, received_high h hhigh]
  have hleft := received_left (clk := u.stationClock) h
  obtain ⟨hattempt, hframe⟩ := received_noAttempt (clk := u.stationClock) (level := level) ha
  have hreleased := slotEnd_released (clk := u.stationClock) h hattempt
  rw [hreceived] at hleft hframe hreleased
  refine ⟨(congrArg LineInterface.rx hleft.receiver :), (congrArg LineInterface.idleCount hleft.receiver :),
    (congrArg LineInterface.assembling hleft.receiver :), (congrArg LineInterface.frame hleft.receiver :),
    fun howed => hreleased ?_, ?_⟩
  · rw [sent_of_none ha]
    exact heard_owes howed
  · rw [hframe]
    rfl

/-- What the accepted frame does to the receive queue and the flags. -/
theorem accepted_queued (v : State) (hrxq : v.rxq = u.rxq) (hpanel : v.panel = u.panel) (hstate : v.member.state = u.member.state)
    (hnow : v.now = u.now) (chars : List ReadChar) (edge : Word) :
    (frameErrors chars = false → u.rxq.entries.length < 8 →
      (enqueueAccepted chars edge v).rxq.entries = u.rxq.entries ++ [{ frame := chars.map ReadChar.value, edge := edge,
                                                                       joining := decide (u.member.state = .joining) }] ∧
        (enqueueAccepted chars edge v).rxq.headSince = (if u.rxq.entries = [] then u.now else u.rxq.headSince) ∧
        (enqueueAccepted chars edge v).panel = u.panel) ∧
    (frameErrors chars = false → 8 ≤ u.rxq.entries.length → (enqueueAccepted chars edge v).rxq = u.rxq ∧
      (u.member.state = .listening → (enqueueAccepted chars edge v).panel.faultSet .rxOverrun = true) ∧
      (u.member.state ≠ .listening → (enqueueAccepted chars edge v).panel = u.panel)) ∧
    (frameErrors chars = true → (enqueueAccepted chars edge v).rxq = u.rxq ∧ (enqueueAccepted chars edge v).panel = u.panel) := by
  refine ⟨fun hgood hroom => ?_, fun hgood hfull => ?_, fun hbad => ?_⟩
  · rw [enqueueAccepted_room hgood (by rw [hrxq]; exact hroom), ← hstate, ← hrxq, ← hnow, ← hpanel]
    refine ⟨rfl, ?_, rfl⟩
    show (if v.rxq.entries.isEmpty = true then v.now else v.rxq.headSince) = _
    exact if_congr List.isEmpty_iff rfl rfl
  · rw [enqueueAccepted_full hgood (by rw [hrxq]; exact hfull), hstate]
    by_cases hlistening : u.member.state = .listening
    · rw [if_pos hlistening]
      exact ⟨hrxq, fun _ => (raise_spec _ _).1, fun hn => absurd hlistening hn⟩
    · rw [if_neg hlistening]
      exact ⟨hrxq, fun hl => absurd hl hlistening, fun _ => hpanel⟩
  · rw [enqueueAccepted_errors hbad]
    exact ⟨hrxq, hpanel⟩

end

/-- Settles O13: at a station that sends none, the end of a slot that reads high queues the frame assembled (R128, R144). -/
theorem acceptedFrameIsQueued : Obligations.AcceptedFrameIsQueued := by
  intro before level s
  dsimp only
  generalize hu : playLine before 1 s = u
  refine ⟨fun h hlow => frameAccepted_stays hu h hlow, fun h hhigh ha => ?_⟩
  obtain ⟨hrx, hidle, hassembling, hframe, hdriver, hsame⟩ := accepted_other h hhigh ha
  have hqueued := accepted_queued (u := u) (leaveSlot (heard u.stationClock level u)) rfl rfl rfl rfl u.line.frame u.line.breakEdge
  rw [← frameAccepted_other ha] at hqueued
  exact ⟨_, frameAccepted_exec hu h hhigh, hrx, hidle, hassembling, hframe, hdriver, hsame, hqueued⟩

/-! ## The accepted frame at its sender (O14) -/

theorem joinAccepted_eq (e : TxEntry) (s : State) :
    joinAccepted e s = { s with member := { s.member with state := (joinAccepted e s).member.state } } := by
  unfold joinAccepted
  split
  · rfl
  · rfl

theorem joinAccepted_state (e : TxEntry) (s : State) : (joinAccepted e s).member.state =
    if s.member.state = .joining ∧ kindOf e.frame = some .join then .active else s.member.state := by
  unfold joinAccepted
  split
  · rfl
  · rfl

/-- The sender's state once its frame has been accepted and its entry has left the queue. -/
def sentAccepted (e : TxEntry) (n : Nat) (s : State) : State :=
  joinAccepted e (forgetEntry n (removeTx n (endAttempt (leaveSlot s))))

/-- That state with the own frame in the receive queue. -/
def ownQueued (e : TxEntry) (n : Nat) (s : State) : State :=
  pushRx { frame := s.line.frame.map (·.value), edge := s.line.breakEdge
           joining := decide ((sentAccepted e n s).member.state = .joining) } (sentAccepted e n s)

section
variable {u w : State} {e : TxEntry} {n : Nat}

theorem sentAccepted_outside (h : lineOnly u w) : (sentAccepted e n w).rxq = u.rxq ∧ (sentAccepted e n w).panel = u.panel ∧
    (sentAccepted e n w).member.state = (if u.member.state = .joining ∧ kindOf e.frame = some .join then .active else u.member.state) := by
  have hstate : (sentAccepted e n w).member.state = _ := joinAccepted_state e _
  rw [h] at hstate ⊢
  refine ⟨?_, ?_, hstate⟩
  · rw [sentAccepted, joinAccepted_eq]
    rfl
  · rw [sentAccepted, joinAccepted_eq]
    rfl

theorem ownQueued_freed (h : lineOnly u w) : Freed n u (ownQueued e n w) := by
  rw [h, ownQueued, sentAccepted, joinAccepted_eq]
  exact {}

theorem ownQueued_line (e : TxEntry) (n : Nat) (w : State) : (ownQueued e n w).line = (leaveSlot w).line.ended :=
  joinAccepted_line e _

theorem ownQueued_rxq (e : TxEntry) (n : Nat) (w : State) : (ownQueued e n w).rxq = {
    entries := (sentAccepted e n w).rxq.entries ++ [{
      frame := w.line.frame.map (·.value), edge := w.line.breakEdge
      joining := decide ((sentAccepted e n w).member.state = .joining) }]
    headSince := if (sentAccepted e n w).rxq.entries.isEmpty then (sentAccepted e n w).now
      else (sentAccepted e n w).rxq.headSince } := rfl

theorem OfferFrame.state {s t : State} (h : OfferFrame s t) : t.member.state = s.member.state := by
  obtain ⟨_, _, _, _, _, _, rfl⟩ := h
  rfl

theorem frameAccepted_own {a : Attempt} (h : lineOnly u w) (hslot : slotAttempt w = some a) (he : txEntry u a.entry = some e)
    (hgood : frameErrors w.line.frame = false) (hroom : u.rxq.entries.length < 8) :
    frameAccepted w = offerRound (ownQueued e a.entry w) := by
  have htx : txEntry (leaveSlot w) a.entry = some e := by
    rw [txEntry] at he ⊢
    rw [← he, h]
    rfl
  have hend : endAccepted a (leaveSlot w) = sentAccepted e a.entry w := by
    simp only [endAccepted, htx]
    rfl
  rw [frameAccepted_of_some hslot, hend, enqueueAccepted_room hgood (by rw [(sentAccepted_outside h).1]; exact hroom)]
  rfl

end

section
variable {n : Nat} {u x : State}

/-- The offers to the freed entry, producer by producer (R149). -/
theorem freed_offers (hx : Freed n u x) :
    let t := offerRound x
    let rest := u.txq.entries.filter fun y => y.seq != n
    let r := u.lockout.round
    let placed := fun f : LineFrame =>
      t.txq.entries.map TxEntry.frame = rest.map TxEntry.frame ++ [encodeFrame (ownNumber u) f] ∧ t.txq.nextSeq = u.txq.nextSeq + 1
    rest.length < 4 →
      (∀ reply, u.member.heldJoin = some reply → holds u .lockoutUnit = false → holds u .clockUnit = false →
        t.member.heldJoin = none ∧ placed (.join (flagByte reply) u.member.identity u.member.signature)) ∧
      (u.member.heldJoin = none → holds u .clockUnit = false →
        (∀ (i : Fin 8) (fs : Bool) (capture : Nat), r.ownClaim[i] = .held fs capture →
          (∀ (j : Fin 8) (fs' : Bool) (capture' : Nat), r.ownClaim[j] = .held fs' capture' →
            capture < capture' ∨ (capture = capture' ∧ i ≤ j)) →
          t.lockout.round.ownClaim[i] = .queued u.txq.nextSeq ∧
            placed (.claim r.carried.1 r.carried.2 (BitVec.ofNat 8 i.val) (flagByte fs) (BitVec.ofNat 24 capture))) ∧
        ((∀ (i : Fin 8) (fs : Bool) (capture : Nat), r.ownClaim[i] ≠ .held fs capture) → r.ownClose = .held →
          t.lockout.round.ownClose = .queued u.txq.nextSeq ∧ placed (closeFrame r))) ∧
      (u.member.heldJoin = none → holds u .lockoutUnit = false →
        ∀ (c p : Fin 4) (epoch : Byte) (since order : Nat), (clockOf u c).copies[p] = .held epoch since order →
          (∀ (c' p' : Fin 4) (epoch' : Byte) (since' order' : Nat), (clockOf u c').copies[p'] = .held epoch' since' order' →
            heldFirst since order since' order' c p c' p') →
          (clockOf t c).copies[p] = .queued (clockOf u c).epoch u.txq.nextSeq ∧
            placed (.fire (comparePoint u c p).cue 2 (BitVec.ofNat 8 (c.val * 16 + p.val) ++ (clockOf u c).epoch) 128)) ∧
      (rest.length = 3 → (∃ p, holds u p = true) → t.txq.entries.length = 4) := by
  intro t rest r placed hroom
  have hroom' : x.txq.entries.length < 4 := by rw [hx.txq]; exact hroom
  have hseq : x.txq.nextSeq = u.txq.nextSeq := by rw [hx.txq]
  refine ⟨fun reply hjoin hlockout hclock => ?_, fun hjoin hclock => ⟨fun i fs capture h hleast => ?_, fun hclaims hclose => ?_⟩,
    fun hjoin hlockout c p epoch since order h hfirst => ?_, fun hlength hsome => ?_⟩
  · obtain ⟨hnone, hplaces⟩ := offerRound_join hroom' (hx.heldJoin.trans hjoin) ((hx.holds _).trans hlockout)
      ((hx.holds _).trans hclock)
    rw [hx.identity, hx.signature] at hplaces
    exact ⟨hnone, hx.places hplaces⟩
  · obtain ⟨hqueued, hplaces⟩ := offerRound_claim (i := i) (fs := fs) (capture := capture) hroom' (hx.heldJoin.trans hjoin)
      ((hx.holds _).trans hclock) ((hx.ownClaim i).trans (OwnClaim.forget_held_iff.mpr h))
      (fun j fs' capture' hj => hleast j fs' capture' (OwnClaim.forget_held_iff.mp ((hx.ownClaim j).symm.trans hj)))
    rw [hx.round] at hplaces
    exact ⟨hqueued.trans (by rw [hseq]), hx.places hplaces⟩
  · obtain ⟨hqueued, hplaces⟩ := offerRound_close hroom' (hx.heldJoin.trans hjoin) ((hx.holds _).trans hclock)
      (fun i hi => by
        rw [hx.ownClaim, OwnClaim.forget_waits, OwnClaim.waits_iff] at hi
        obtain ⟨fs, capture, hheld⟩ := hi
        exact hclaims i fs capture hheld)
      (hx.ownClose.trans (OwnClose.forget_held_iff.mpr hclose))
    rw [hx.round] at hplaces
    exact ⟨hqueued.trans (by rw [hseq]), hx.places hplaces⟩
  · obtain ⟨hqueued, hplaces⟩ := offerRound_copy (c := c) (p := p) (epoch := epoch) (since := since) (order := order) hroom'
      (hx.heldJoin.trans hjoin) ((hx.holds _).trans hlockout) ((hx.copy c p).trans (OwnCopy.forget_held_iff.mpr h))
      (fun c' p' epoch' since' order' hk => hfirst c' p' epoch' since' order'
        (OwnCopy.forget_held_iff.mp ((hx.copy c' p').symm.trans hk)))
    rw [hx.comparePoint, hx.epoch] at hplaces
    exact ⟨hqueued.trans (by rw [hseq, hx.epoch]), hx.places hplaces⟩
  · obtain ⟨p, hp⟩ := hsome
    exact offerRound_fills (by rw [hx.txq]; exact hlength) ⟨p, (hx.holds p).trans hp⟩

/-- With no frame held, the leaving is all. -/
theorem freed_alone (hx : Freed n u x) (hnone : ∀ p, holds u p = false) : offerRound x = x :=
  offerRound_of_none fun p => (hx.holds p).trans (hnone p)

end

/-- Settles O14: the sender's own frame leaves its queue and every record that names it, and what waits is offered. -/
theorem ownFrameAcceptedLeavesQueue : Obligations.OwnFrameAcceptedLeavesQueue := by
  intro before level s
  dsimp only
  generalize hu : playLine before 1 s = u
  intro a e n x y h hhigh ha hphase he hgood hroom
  have hexec := frameAccepted_exec hu h hhigh
  have hframe : (sent u.stationClock level u).line.frame = u.line.frame := sent_frame
  have hedge : (sent u.stationClock level u).line.breakEdge = u.line.breakEdge := sent_breakEdge
  obtain ⟨honly, -, n', x', y', hslot⟩ := sent_slot (clk := u.stationClock) (level := level) ha hphase
  generalize sent u.stationClock level u = w at *
  rw [frameAccepted_own honly hslot he (by rw [hframe]; exact hgood) hroom] at hexec
  have hfreed := ownQueued_freed (e := e) (n := a.entry) honly
  obtain ⟨hrxq, hpanel, hstate⟩ := sentAccepted_outside (e := e) (n := a.entry) honly
  have hoffer := offerRound_frame (ownQueued e a.entry w)
  have hline : (offerRound (ownQueued e a.entry w)).line = (leaveSlot w).line.ended := hoffer.line.trans (ownQueued_line e a.entry w)
  have hstate' : (offerRound (ownQueued e a.entry w)).member.state = (sentAccepted e a.entry w).member.state := hoffer.state
  have hrxq' := hoffer.leavesReceiver.rxq.trans (ownQueued_rxq e a.entry w)
  have hpanel' : (ownQueued e a.entry w).panel = u.panel := hpanel
  generalize hqueued : (ownQueued e a.entry w) = x at *
  refine ⟨_, hexec, ?_, ?_, hstate'.trans hstate, ?_, fun hnone => ?_, hoffer.panel.trans hpanel', freed_offers hfreed⟩
  · show (offerRound x).line.attempt = none
    rw [hline]
    rfl
  · show (offerRound x).line.rx = .outside
    rw [hline]
    rfl
  · show (offerRound x).rxq.entries = u.rxq.entries ++ [{
      frame := u.line.frame.map ReadChar.value, edge := u.line.breakEdge
      joining := decide ((offerRound x).member.state = .joining) }]
    rw [hstate', ← hframe, ← hedge, ← hrxq, hrxq']
  · show (offerRound x).txq.entries = _ ∧ (∀ i : Fin 8, (offerRound x).lockout.round.ownClaim[i] ≠ _) ∧
      (offerRound x).lockout.round.ownClose ≠ _ ∧ ∀ (c p : Fin 4) (epoch : Byte), (clockOf (offerRound x) c).copies[p] ≠ _
    rw [freed_alone hfreed hnone]
    refine ⟨by rw [hfreed.txq], fun i => ?_, ?_, fun c p epoch => ?_⟩
    · rw [hfreed.ownClaim]
      exact OwnClaim.forget_unnamed _ _
    · rw [hfreed.ownClose]
      exact OwnClose.forget_unnamed _ _
    · rw [hfreed.copy]
      exact OwnCopy.forget_unnamed _ _ _

end Sys2Proof.Machine
end

