-- ==== Sys2Proof/Proofs/BitsReadBack.lean ====
section
/-!
Bits read back by the transmitter (O10).
-/
namespace Sys2Proof.Machine
open Relation

/-! ## Bits read back (R124, R125) -/

section
variable {a : Attempt} {e : TxEntry} {frame : List Byte} {char bit highs : Nat} {level : Bool} {s : State}

/-- What sample 9 of a bit does, by what it finds. -/
theorem sendSample_ninth (hbit : bit < 11) : sendSample a frame (176 * char + 16 * bit + 9) highs level s =
    match readBack frame a.clean char bit (decide (2 ≤ highs + Bool.high level)) with
    | .asSent => (goOn (sentLevel frame char bit == decide (2 ≤ highs + Bool.high level)) char
        (nextPhase frame (176 * char + 16 * bit + 9) 0) s, [])
    | .lost => (endUncounted a s, [.arbitrationLost])
    | .error => (failAttempt a frame (176 * char + 16 * bit + 9) s, failureEvents s .bitError) := by
  have hninth : (176 * char + 16 * bit + 9) % bitSamples = 9 := by rw [bitSamples]; omega
  have hchar : (176 * char + 16 * bit + 9) / charSamples = char := by rw [charSamples]; omega
  have hplace : (176 * char + 16 * bit + 9) % charSamples / bitSamples = bit := by rw [charSamples, bitSamples]; omega
  unfold sendSample
  rw [hninth, hchar, hplace, tally_ninth] <;> rfl

theorem sendSample_asSent (hbit : bit < 11)
    (hread : readBack frame a.clean char bit (decide (2 ≤ highs + Bool.high level)) = .asSent) :
    sendSample a frame (176 * char + 16 * bit + 9) highs level s =
      (goOn (sentLevel frame char bit == decide (2 ≤ highs + Bool.high level)) char
        (nextPhase frame (176 * char + 16 * bit + 9) 0) s, []) := by
  rw [sendSample_ninth hbit, hread]

theorem sendSample_lost (hbit : bit < 11)
    (hread : readBack frame a.clean char bit (decide (2 ≤ highs + Bool.high level)) = .lost) :
    sendSample a frame (176 * char + 16 * bit + 9) highs level s = (endUncounted a s, [.arbitrationLost]) := by
  rw [sendSample_ninth hbit, hread]

theorem sendSample_error (hbit : bit < 11)
    (hread : readBack frame a.clean char bit (decide (2 ≤ highs + Bool.high level)) = .error) :
    sendSample a frame (176 * char + 16 * bit + 9) highs level s =
      (failAttempt a frame (176 * char + 16 * bit + 9) s, failureEvents s .bitError) := by
  rw [sendSample_ninth hbit, hread]

theorem readBack_lost {read : Bool} (hsent : sentLevel e.frame char bit = true) (hread : read = false)
    (hfield : char < arbitrationField e a) (hlow : 1 ≤ bit) (hhigh : bit ≤ 9) :
    readBack e.frame a.clean char bit read = .lost := by
  rw [readBack, if_neg (by rw [hsent, hread]; exact (nomatch ·)), if_pos ⟨hsent, hfield⟩, if_pos ⟨hlow, hhigh⟩]

theorem readBack_error {read : Bool} (h : isBitError e a char bit read) : readBack e.frame a.clean char bit read = .error := by
  obtain ⟨hne, hcase⟩ := h
  rw [readBack, if_neg hne, if_neg]
  rintro ⟨hsent, hfield⟩
  rcases hcase with hlow | hafter
  · exact nomatch hsent.symm.trans hlow
  · exact absurd hfield (Nat.not_lt_of_le hafter)

/-- A stop bit is sent high (R115). -/
theorem sentLevel_stop (frame : List Byte) (char : Nat) : sentLevel frame char 10 = true := (lineBits_spec _).2.1

theorem readBack_asSent {read : Bool} (h : sentLevel e.frame char bit = read ∨ (bit = 10 ∧ char < arbitrationField e a)) :
    readBack e.frame a.clean char bit read = .asSent := by
  rcases h with h | ⟨rfl, hfield⟩
  · exact if_pos h
  · rw [readBack]
    split
    · rfl
    · rw [if_pos ⟨sentLevel_stop _ _, hfield⟩, if_neg (by omega)]

end

section
variable {clk : Word} {a : Attempt} {e : TxEntry} {char bit highs : Nat} {level : Bool} {u : State}

/-- The transmitter's part of the sample at which a bit is read back. -/
theorem sendingSample_readsBack (h : readsBack u a e char bit highs) : sendingSample level (heard clk level u) =
    sendSample a e.frame (176 * char + 16 * bit + 9) highs level (heard clk level u) := by
  obtain ⟨-, ha, he, -, hphase⟩ := h
  have hheard : (heard clk level u).line.attempt = some a := by
    rw [heard_eq]
    exact ha
  have htx : txEntry (heard clk level u) a.entry = some e := he
  simp only [sendingSample, hheard, attemptSample, hphase, htx]

theorem holds_heard (p : Producer) : holds (heard clk level u) p = holds u p := by
  cases p <;> rfl

/-! ## A sample at which the attempt ends before the slot -/

/-- Where the transmitter's part ends the attempt, the sample goes on as the receiver's. -/
theorem lineSample_ended (hoff : u.line.rx ≠ .off) (ha : u.line.attempt = some a) (hended : (sent clk level u).line.attempt = none) :
    (lineSample clk level u).1 = drive (received clk level u) ∧ NoAttempt (sent clk level u) (received clk level u) := by
  have hreceived : NoAttempt (sent clk level u) (received clk level u) := receiverSample_noAttempt hended
  have hconcluded : concluded clk level u = received clk level u := by
    rw [concluded, ownSlotEnd_of_none (slotAttempt_none_of hreceived.attempt)]
  exact ⟨by rw [lineSample_of_attempt hoff ha, followSample_eq, hconcluded], hreceived⟩

theorem drive_noAttempt {s t : State} (h : NoAttempt s t) : (drive t).line.attempt = none ∧ (drive t).line.driver ≠ .attempt ∧
    (drive t).txq = s.txq := by
  refine ⟨h.attempt, drive_not_attempt h.attempt, ?_⟩
  rw [h.frame]
  rfl

/-- Where no low is stuck, the receiver leaves the veto owed. -/
theorem receiverSample_vetoOwed {s : State} (h : s.line.lows ≤ 1024) : (receiverSample level s).1.line.vetoOwed = s.line.vetoOwed := by
  unfold receiverSample
  rw [if_neg fun hc => Nat.not_lt_of_le h hc.1]
  split
  · rfl
  · split
    · exact (jamSample_kept s).vetoOwed
    · by_cases hslot : s.line.rx = .slot
      · rw [stateSample_slot hslot, slotSample_eq]
        split
        · rfl
        · split
          · exact (frameAccepted_left s).vetoOwed
          · exact (frameVetoed_left s).vetoOwed
      · exact (stateSample_kept hslot).vetoOwed

/-- Where no low is stuck, an attempt that is not in its slot goes through the receiver's part, stamped at a break. -/
theorem receiverSample_attempt {s : State} (h : s.line.lows ≤ 1024) (hslot : slotAttempt s = none) :
    (receiverSample level s).1.line.attempt = s.line.attempt ∨
      (receiverSample level s).1.line.attempt = s.line.attempt.map (Attempt.stamp s.line.lowEdge) := by
  unfold receiverSample
  rw [if_neg fun hc => Nat.not_lt_of_le h hc.1]
  split
  · exact .inr rfl
  · split
    · exact .inl (jamSample_kept s).attempt
    · refine .inl ?_
      by_cases hrx : s.line.rx = .slot
      · rw [stateSample_slot hrx, slotSample_eq]
        split
        · rfl
        · split
          · show (frameAccepted s).line.attempt = _
            rw [frameAccepted_of_none hslot, enqueueAccepted_line]
            rfl
          · rw [frameVetoed_of_none hslot]
            rfl
      · exact (stateSample_kept hrx).attempt

/-- The search for characters completes none before the stop bit (R116). -/
theorem huntSample_unfinished {k x : Nat} {b : BitVec 11} (hk : k < 160) (c : ReadChar) :
    (huntSample level (.reading k x b)).2 ≠ .character c := by
  rw [huntSample]
  split
  · unfold huntBit
    dsimp only
    split
    · split
      · exact (nomatch ·)
      · exact (nomatch ·)
    · rw [if_pos (by rw [bitSamples]; omega)]
      exact (nomatch ·)
  · exact (nomatch ·)

/-- A receiver in the midst of a character of the frame reads on. -/
theorem frameSample_reads_on {w : State} {k x : Nat} {b : BitVec 11} (hrx : w.line.rx = .character) (hhunt : w.line.hunt = .reading k x b)
    (hk : k < 160) : lineOnly w (frameSample level w).1 ∧ (frameSample level w).1.line.rx = .character ∧
      (frameSample level w).1.line.frame = w.line.frame ∧ (frameSample level w).1.line.assembling = w.line.assembling := by
  have hjam : jamStarts level w = false := jamStarts_of_hunt (by rw [hhunt]; exact (nomatch ·))
  refine ⟨frameSample_lineOnly level w, ?_⟩
  rw [frameSample, hjam, if_neg Bool.false_ne_true]
  dsimp only
  split
  · exact ⟨rfl, rfl, rfl⟩
  · next c hc =>
    rw [hhunt] at hc
    exact absurd hc (huntSample_unfinished hk c)
  · rw [if_pos hrx]
    exact ⟨hrx, rfl, rfl⟩

end

section
variable {before : Samples} {a : Attempt} {e : TxEntry} {char bit highs : Nat} {level : Bool} {s u : State}

/-- An event of the transmitter's part happens at its sample. -/
theorem mem_lineSample_of_sending {clk : Word} {ev : LineEvent} (hoff : u.line.rx ≠ .off)
    (h : ev ∈ (sendingSample level (heard clk level u)).2) : ev ∈ (lineSample clk level u).2 :=
  (mem_lineSample hoff).mpr (.inl (.inl h))

/-- ARBITRATION_LOST (R124). -/
theorem arbitrationLost_ends (hu : playLine before 1 s = u) (h : readsBack u a e char bit highs)
    (hread : readBack e.frame a.clean char bit (decide (2 ≤ highs + Bool.high level)) = .lost) :
    ∃ t, exec (.arbitrationLost (before ++ [level])) s = .next t ∧ t.line.attempt = none ∧ t.line.driver ≠ .attempt ∧
      (e.withdrawn = false → t.txq = u.txq) ∧
      (e.withdrawn = true → (∀ p, holds u p = false) → t.txq.entries = u.txq.entries.filter fun x => x.seq != a.entry) ∧
      ((∃ k h b, u.line.rx = .character ∧ u.line.hunt = .reading k h b ∧ k < 160) → u.line.jamLeft = 0 →
        shortLow u level → e.withdrawn = false → t = { u with line := t.line } ∧ t.line.rx = .character ∧
          t.line.frame = u.line.frame ∧ t.line.assembling = u.line.assembling) := by
  have hsending := (sendingSample_readsBack (clk := u.stationClock) (level := level) h).trans (sendSample_lost h.2.2.2.1 hread)
  obtain ⟨hoff, ha, he, -, -⟩ := h
  have hheard : txEntry (heard u.stationClock level u) a.entry = some e := he
  have hsent : sent u.stationClock level u = endUncounted a (heard u.stationClock level u) := by rw [sent, hsending]
  have hended : (sent u.stationClock level u).line.attempt = none := by
    rw [hsent, endUncounted_line]
    rfl
  obtain ⟨hsample, hreceived⟩ := lineSample_ended hoff ha hended
  obtain ⟨hattempt, hdriver, htxq⟩ := drive_noAttempt hreceived
  have hexec : exec (.arbitrationLost (before ++ [level])) s = .next (drive (received u.stationClock level u)) := by
    show Host.Outcome.next (lineCommand .arbitrationLost (before ++ [level]) s) = _
    rw [lineCommand_happens, hu, hsample]
    rw [hu]
    refine mem_lineSample_of_sending hoff ?_
    rw [hsending]
    exact List.mem_singleton_self _
  refine ⟨_, hexec, hattempt, hdriver, fun hw => ?_, fun hw hnone => ?_, ?_⟩
  · rw [htxq, hsent, endUncounted_kept hheard hw]
    rfl
  · rw [htxq, hsent, endUncounted_withdrawn hheard hw fun p => (holds_heard p).trans (hnone p)]
    rfl
  · rintro ⟨k, x, b, hrx, hhunt, hk⟩ hjam hshort hw
    have hstate : received u.stationClock level u = (frameSample level (sent u.stationClock level u)).1 := by
      rw [received, received_state hjam hshort, stateSample_frame_of (.inr (.inl (sent_rx.trans hrx)))]
    obtain ⟨honly, hrx', hframe, hassembling⟩ := frameSample_reads_on (level := level) (sent_rx.trans hrx)
      ((sent_hunt (clk := u.stationClock)).trans hhunt) hk
    have hsentOnly : lineOnly u (sent u.stationClock level u) := by
      rw [hsent, endUncounted_kept hheard hw]
      rfl
    rw [hstate]
    exact ⟨hsentOnly.trans (honly.trans (withLine_lineOnly _ _)), hrx', hframe.trans sent_frame, hassembling.trans sent_assembling⟩

/-- The state in which a bit error ends the attempt: the veto owed is known (R125). -/
def owing (e : TxEntry) (char bit : Nat) (s : State) : State :=
  if char + 1 = e.frame.length then withLine (fun l => { l with vetoOwed := some (16 * bit + 9) }) s else s

theorem owing_lineOnly (e : TxEntry) (char bit : Nat) (s : State) : lineOnly s (owing e char bit s) := by
  unfold owing
  split
  · rfl
  · rfl

theorem failAttempt_eq (hbit : bit < 11) (w : State) :
    failAttempt a e.frame (176 * char + 16 * bit + 9) w = endFailed a (owing e char bit w) := by
  have hchar : (176 * char + 16 * bit + 9) / charSamples = char := by rw [charSamples]; omega
  have hplace : (176 * char + 16 * bit + 9) % charSamples = 16 * bit + 9 := by rw [charSamples]; omega
  rw [failAttempt, hchar, hplace, owing]

theorem txEntry_owing (n : Nat) : txEntry (owing e char bit s) n = txEntry s n := by
  rw [txEntry, owing_lineOnly e char bit s, txEntry]

theorem holds_owing (p : Producer) : holds (owing e char bit s) p = holds s p := by
  rw [owing_lineOnly e char bit s]
  cases p <;> rfl

/-- BIT_ERROR (R125): the sample at which a bit is in error is the end of the attempt, and then the receiver's. -/
theorem bitError_sent {clk : Word} (h : readsBack u a e char bit highs)
    (herror : isBitError e a char bit (decide (2 ≤ highs + Bool.high level))) :
    sendingSample level (heard clk level u) =
      (endFailed a (owing e char bit (heard clk level u)), failureEvents (heard clk level u) .bitError) := by
  rw [sendingSample_readsBack h, sendSample_error h.2.2.2.1 (readBack_error herror), failAttempt_eq h.2.2.2.1]

theorem bitError_ends (hu : playLine before 1 s = u) (h : readsBack u a e char bit highs)
    (herror : isBitError e a char bit (decide (2 ≤ highs + Bool.high level))) :
    sent u.stationClock level u = endFailed a (owing e char bit (heard u.stationClock level u)) ∧
      exec (.bitError (before ++ [level])) s = .next (drive (received u.stationClock level u)) ∧
      NoAttempt (sent u.stationClock level u) (received u.stationClock level u) := by
  have hsending := bitError_sent (clk := u.stationClock) h herror
  obtain ⟨hoff, ha, he, -, -⟩ := h
  have hsent : sent u.stationClock level u = endFailed a (owing e char bit (heard u.stationClock level u)) := by rw [sent, hsending]
  have hended : (sent u.stationClock level u).line.attempt = none := by
    rw [hsent, endFailed_line]
    rfl
  obtain ⟨hsample, hreceived⟩ := lineSample_ended hoff ha hended
  refine ⟨hsent, ?_, hreceived⟩
  show Host.Outcome.next (lineCommand .bitError (before ++ [level]) s) = _
  rw [lineCommand_happens, hu, hsample]
  rw [hu]
  refine mem_lineSample_of_sending hoff ?_
  rw [hsending]
  exact failureEvents_head _ _

theorem bitError_counts (hu : playLine before 1 s = u) (h : readsBack u a e char bit highs)
    (herror : isBitError e a char bit (decide (2 ≤ highs + Bool.high level))) (hw : e.withdrawn = false) (hfails : e.fails < 7) :
    ∃ t, exec (.bitError (before ++ [level])) s = .next t ∧ t.line.attempt = none ∧ t.line.driver ≠ .attempt ∧
      t.txq = { u.txq with
        entries := u.txq.entries.map fun x => if x.seq = a.entry then { x with fails := x.fails + 1 } else x } ∧
      (u.line.vetoOwed = none → u.line.lows < 1024 →
        t.line.vetoOwed = if char + 1 = e.frame.length then some (16 * bit + 9) else none) := by
  obtain ⟨hsent, hexec, hreceived⟩ := bitError_ends hu h herror
  obtain ⟨hoff, ha, he, -, -⟩ := h
  obtain ⟨hattempt, hdriver, htxq⟩ := drive_noAttempt hreceived
  have hcount : sent u.stationClock level u = countFailure a.entry (endAttempt (owing e char bit (heard u.stationClock level u))) :=
    hsent.trans (endFailed_counts ((txEntry_owing _).trans he) hw hfails)
  refine ⟨_, hexec, hattempt, hdriver, ?_, fun howed hlows => ?_⟩
  · rw [htxq, hcount, owing_lineOnly e char bit (heard u.stationClock level u)]
    exact countFailure_txq a.entry u
  · show (received u.stationClock level u).line.vetoOwed = _
    rw [received, receiverSample_vetoOwed, hcount]
    · show (owing e char bit (heard u.stationClock level u)).line.vetoOwed = _
      rw [owing]
      split
      · rfl
      · exact heard_owes howed
    · rw [sent_lows]
      split
      · exact Nat.zero_le _
      · exact hlows

theorem bitError_withdrawn (hu : playLine before 1 s = u) (h : readsBack u a e char bit highs)
    (herror : isBitError e a char bit (decide (2 ≤ highs + Bool.high level))) (hw : e.withdrawn = true)
    (hnone : ∀ p, holds u p = false) : ∃ t, exec (.bitError (before ++ [level])) s = .next t ∧ t.line.attempt = none ∧
      t.txq.entries = u.txq.entries.filter fun x => x.seq != a.entry := by
  obtain ⟨hsent, hexec, hreceived⟩ := bitError_ends hu h herror
  obtain ⟨hoff, ha, he, -, -⟩ := h
  obtain ⟨hattempt, -, htxq⟩ := drive_noAttempt hreceived
  have hremoved := hsent.trans (endFailed_withdrawn ((txEntry_owing _).trans he) hw
    fun p => (holds_owing p).trans ((holds_heard p).trans (hnone p)))
  refine ⟨_, hexec, hattempt, ?_⟩
  rw [htxq, hremoved, owing_lineOnly e char bit (heard u.stationClock level u)]
  rfl

/-- An event of the transmitter's ends does not happen at a bit that is read back as sent. -/
theorem readBack_asSent_stays {clk : Word} {ev : LineEvent} (h : readsBack u a e char bit highs)
    (hread : readBack e.frame a.clean char bit (decide (2 ≤ highs + Bool.high level)) = .asSent)
    (hev : ev = .arbitrationLost ∨ ev = .bitError) : ev ∉ (lineSample clk level u).2 := by
  have hsending := (sendingSample_readsBack (clk := clk) (level := level) h).trans (sendSample_asSent h.2.2.2.1 hread)
  rw [mem_lineSample h.1, hsending]
  rintro ((hmem | hmem | hmem) | ⟨-, hmem⟩)
  · exact absurd hmem List.not_mem_nil
  · unfold receiverSample at hmem
    split at hmem
    · rcases hev with rfl | rfl <;> exact nomatch List.mem_singleton.mp hmem
    · split at hmem
      · rcases hev with rfl | rfl <;> exact nomatch List.mem_singleton.mp hmem
      · split at hmem
        · exact absurd hmem List.not_mem_nil
        · rcases stateSample_events hmem with hk | ⟨hk, -⟩
          · rcases hev with rfl | rfl <;> simp at hk
          · rcases hev with rfl | rfl <;> exact nomatch hk
  · rcases ownSlotEnd_events hmem with rfl | rfl | rfl <;> simp at hev
  · rw [beginSample_events hmem] at hev
    simp at hev

/-- In the first two characters a bit read back leaves the mark of a clean field as it was, or clears it (R124). -/
theorem clean_after (h : readsBack u a e char bit highs)
    (hread : readBack e.frame a.clean char bit (decide (2 ≤ highs + Bool.high level)) = .asSent) (hchar : char < 2)
    (hlength : char < e.frame.length) (hlows : u.line.lows < 1024) : (playLine [level] 0 u).line.attempt.map Attempt.clean =
      some (a.clean && (sentLevel e.frame char bit == decide (2 ≤ highs + Bool.high level))) := by
  have hsending := (sendingSample_readsBack (clk := u.stationClock) (level := level) h).trans (sendSample_asSent h.2.2.2.1 hread)
  obtain ⟨hoff, ha, -, hbit, -⟩ := h
  have hphase : nextPhase e.frame (176 * char + 16 * bit + 9) 0 = .sending (176 * char + 16 * bit + 10) 0 :=
    if_pos (by rw [charSamples]; omega)
  have hlate : decide (2 ≤ char) = false := decide_eq_false (by omega)
  have hheard : (heard u.stationClock level u).line.attempt = some a := by
    rw [heard_eq]
    exact ha
  generalize hsame : (sentLevel e.frame char bit == decide (2 ≤ highs + Bool.high level)) = asSent at *
  have hsent : (sent u.stationClock level u).line.attempt =
      some { a with phase := .sending (176 * char + 16 * bit + 10) 0, clean := a.clean && asSent } := by
    rw [sent, hsending]
    show (heard u.stationClock level u).line.attempt.map _ = _
    rw [hheard, hphase, hlate, Option.map_some, Bool.or_false]
  have hslot : slotAttempt (sent u.stationClock level u) = none := slotAttempt_none_of_phase hsent fun _ _ _ => (nomatch ·)
  have hloose : (sent u.stationClock level u).line.lows ≤ 1024 := by
    rw [sent_lows]
    split
    · exact Nat.zero_le _
    · exact hlows
  obtain ⟨b, hb, hclean, hsending'⟩ : ∃ b, (received u.stationClock level u).line.attempt = some b ∧ b.clean = (a.clean && asSent) ∧
      b.phase = .sending (176 * char + 16 * bit + 10) 0 := by
    rw [received]
    rcases receiverSample_attempt (level := level) hloose hslot with heq | heq
    · exact ⟨_, heq.trans hsent, rfl, rfl⟩
    · rw [hsent, Option.map_some, Attempt.stamp_eq] at heq
      exact ⟨_, heq, rfl, rfl⟩
  have hconcluded : concluded u.stationClock level u = received u.stationClock level u := by
    rw [concluded, ownSlotEnd_of_none (slotAttempt_none_of_phase hb fun n x y hk => nomatch hsending'.symm.trans hk)]
  rw [playLine_single, lineSample_of_attempt hoff ha, followSample_eq, hconcluded]
  show (received u.stationClock level u).line.attempt.map Attempt.clean = _
  rw [hb, Option.map_some, hclean]

end

/-- Settles O10, by what sample 9 of a bit finds. -/
theorem lostBitsEndTheAttempt : Obligations.LostBitsEndTheAttempt := by
  intro before level s
  dsimp only
  generalize hu : playLine before 1 s = u
  intro a e char bit highs h
  refine ⟨fun hsent hread hfield hlow hhigh => arbitrationLost_ends hu h (readBack_lost hsent hread hfield hlow hhigh),
    fun herror _ => ⟨fun hw hfails => bitError_counts hu h herror hw hfails,
      fun hw hnone => bitError_withdrawn hu h herror hw hnone⟩, fun hsame => ?_⟩
  have hread := readBack_asSent hsame
  refine ⟨congrArg Host.Outcome.next (lineCommand_not ?_), congrArg Host.Outcome.next (lineCommand_not ?_),
    fun hchar hlength hlows => clean_after h hread hchar hlength hlows⟩
  · rw [hu]
    exact readBack_asSent_stays h hread (.inl rfl)
  · rw [hu]
    exact readBack_asSent_stays h hread (.inr rfl)

end Sys2Proof.Machine
end

