-- ==== Sys2Proof/Proofs/DroppedFrames.lean ====
section
/-!
The drop of a frame at its eighth failure (O12).
-/
namespace Sys2Proof.Machine
open Relation

/-! ## What the drop of a frame reports (R25, R130) -/

/-- The Panel Port tells of the drop of a frame: its flag, and of a panel command's frame its record. -/
def dropReported (u : State) (e : TxEntry) (edge : Word) (p : PanelPort) : Prop :=
  p.faultSet .txDropped = true ∧ (u.panel.faultSet .txDropped = false → p.faultPending = true) ∧
    ∀ f, parseFrame e.frame = some f → (e.producer = .panelPort ∨ f.kind = .arm ∨ f.kind = .clock) →
      p.outcomes.getLast? = some
        { tag := (recordFields f).1, cue := (recordFields f).2, kind := f.kind, outcome := .dropped, edge := edge }

theorem raise_outcomes (p : PanelPort) (f : FaultFlag) : (p.raise f).outcomes = p.outcomes := by
  unfold PanelPort.raise
  split
  · rfl
  · rfl

theorem raise_pending {p : PanelPort} (h : p.faultPending = true) (f : FaultFlag) : (p.raise f).faultPending = true := by
  unfold PanelPort.raise
  split
  · exact h
  · rfl

theorem dropReported.raise {u : State} {e : TxEntry} {edge : Word} {p : PanelPort} (h : dropReported u e edge p) (f : FaultFlag) :
    dropReported u e edge (p.raise f) := by
  obtain ⟨hset, hpending, hrecord⟩ := h
  refine ⟨raise_keeps hset f, fun hclear => raise_pending (hpending hclear) f, ?_⟩
  rw [raise_outcomes]
  exact hrecord

theorem postDropped_posts {e : TxEntry} {edge : Word} {f : LineFrame} {s : State} (hf : parseFrame e.frame = some f)
    (hpanel : panelFrame e = true) : postDropped e edge s = postOutcome (droppedRecord f edge) s := by
  unfold postDropped
  rw [hf]
  exact if_pos hpanel

theorem postDropped_faults (e : TxEntry) (edge : Word) (s : State) : (postDropped e edge s).panel.faults = s.panel.faults ∧
    (postDropped e edge s).panel.faultPending = s.panel.faultPending := by
  unfold postDropped
  split
  · split
    · exact ⟨rfl, rfl⟩
    · exact ⟨rfl, rfl⟩
  · exact ⟨rfl, rfl⟩

theorem panelFrame_of {e : TxEntry} {f : LineFrame} (hf : parseFrame e.frame = some f)
    (h : e.producer = .panelPort ∨ f.kind = .arm ∨ f.kind = .clock) : panelFrame e = true := by
  simp only [panelFrame, kindOf_of_parse hf, Bool.or_eq_true, decide_eq_true_eq, Option.some.injEq]
  rcases h with h | h | h
  · exact .inl (.inl h)
  · exact .inl (.inr h)
  · exact .inr h

theorem postOutcome_last (r : OutcomeRecord) (s : State) : (postOutcome r s).panel.outcomes.getLast? = some r := by
  rw [postOutcome]
  exact List.getLast?_concat

/-- A raised flag, then the record of the drop, is the report. -/
theorem postDropped_reports {u s : State} (hs : s.panel = u.panel.raise .txDropped) (e : TxEntry) (edge : Word) :
    dropReported u e edge (postDropped e edge s).panel := by
  obtain ⟨hset, hpending⟩ := raise_spec u.panel .txDropped
  obtain ⟨hfaults, hpend⟩ := postDropped_faults e edge s
  refine ⟨?_, fun hclear => ?_, fun f hf hkind => ?_⟩
  · rw [PanelPort.faultSet, hfaults, hs]
    exact hset
  · rw [hpend, hs]
    exact hpending hclear
  · rw [postDropped_posts hf (panelFrame_of hf hkind)]
    exact postOutcome_last _ s

/-! ## What the drop of a frame leaves (R130, R157) -/

/-- A frame at its eighth failure, out of the queue and reported. -/
def reported (n : Nat) (e : TxEntry) (edge : Word) (s : State) : State :=
  postDropped e edge (setFault .txDropped (forgetEntry n (removeTx n (endAttempt s))))

section
variable {a : Attempt} {e : TxEntry} {edge : Word} {n : Nat} {s u : State}

theorem dropFrame_eq (h : a.edge = some edge) : dropFrame a e s = offerRound (rejoin e (reported a.entry e edge s)) := by
  rw [dropFrame, h]
  rfl

theorem postDropped_eq (e : TxEntry) (edge : Word) (s : State) :
    postDropped e edge s = { s with panel := (postDropped e edge s).panel } := by
  unfold postDropped
  split
  · split
    · rfl
    · rfl
  · rfl

theorem reported_freed (h : lineOnly u s) : Freed n u (reported n e edge s) := by
  rw [h, reported, postDropped_eq]
  exact {}

theorem reported_state (h : lineOnly u s) : (reported n e edge s).member.state = u.member.state := by
  rw [h, reported, postDropped_eq]
  rfl

theorem rejoin_panel (e : TxEntry) (s : State) : (rejoin e s).panel = s.panel := by
  unfold rejoin
  split
  · exact (offerJoin_frame false s).panel
  · rfl

theorem dropFrame_reports (h : lineOnly u s) (hedge : a.edge = some edge) : dropReported u e edge (dropFrame a e s).panel := by
  have hraised : (setFault .txDropped (forgetEntry a.entry (removeTx a.entry (endAttempt s)))).panel =
      u.panel.raise .txDropped := by
    rw [h]
    rfl
  rw [dropFrame_eq hedge, (offerRound_frame _).panel, rejoin_panel]
  exact postDropped_reports hraised e edge

/-- The queue after a drop, where no producer holds a frame: the entry has left, and a JOINING station's JOIN is offered anew. -/
def dropLeaves (u : State) (e : TxEntry) (n : Nat) (q : TxQueue) : Prop :=
  (∀ p, holds u p = false) →
    (¬ (u.member.state = .joining ∧ kindOf e.frame = some .join) → q.entries = u.txq.entries.filter fun x => x.seq != n) ∧
    (u.member.state = .joining → kindOf e.frame = some .join → u.txq.entries.length ≤ 4 →
      q.entries.map TxEntry.frame = (u.txq.entries.filter fun x => x.seq != n).map TxEntry.frame ++
        [encodeFrame (ownNumber u) (.join 0 u.member.identity u.member.signature)])

theorem length_left {l : List TxEntry} (h : l.find? (fun x => x.seq == n) = some e) (hl : l.length ≤ 4) :
    (l.filter fun x => x.seq != n).length < 4 := by
  have hless : (l.filter fun x => x.seq != n).length < l.length := by
    refine List.length_filter_lt_length_iff_exists.mpr ⟨e, List.mem_of_find?_eq_some h, ?_⟩
    have hseq := List.find?_some h
    simpa using hseq
  omega

theorem dropFrame_leaves (h : lineOnly u s) (hedge : a.edge = some edge) (he : txEntry u a.entry = some e) :
    dropLeaves u e a.entry (dropFrame a e s).txq := by
  intro hnone
  have hfreed := reported_freed (n := a.entry) (e := e) (edge := edge) h
  have hstate := reported_state (n := a.entry) (e := e) (edge := edge) h
  rw [dropFrame_eq hedge]
  generalize reported a.entry e edge s = x at *
  refine ⟨fun hother => ?_, fun hjoining hkind hlength => ?_⟩
  · have hsame : rejoin e x = x := if_neg (by rw [hstate]; exact hother)
    rw [hsame, freed_alone hfreed hnone, hfreed.txq]
  · have hroom : x.txq.entries.length < 4 := by
      rw [hfreed.txq]
      exact length_left he hlength
    have hjoin : rejoin e x = { placeFrame .membership (joinFrame x false) x with member := { x.member with heldJoin := none } } := by
      rw [← offerJoin_placed hroom false]
      exact if_pos ⟨hstate.trans hjoining, hkind⟩
    have hround : offerRound (rejoin e x) = rejoin e x := by
      refine offerRound_of_none fun p => ?_
      rw [hjoin]
      have hx := (hfreed.holds p).trans (hnone p)
      cases p with
      | lockoutUnit => exact hx
      | clockUnit => exact hx
      | membership => rfl
      | panelPort => rfl
    have hframe : joinFrame x false = .join 0 u.member.identity u.member.signature := by
      rw [joinFrame, hfreed.identity, hfreed.signature]
      rfl
    have hplaces := (hfreed.places (f := joinFrame x false) (u := placeFrame .membership (joinFrame x false) x)
      ⟨placeFrame_frames _ _ x, rfl⟩).1
    rw [hround, hjoin, ← hframe]
    exact hplaces

/-! ## The receiver's part after a drop -/

/-- Outside the slot, with no attempt in progress, the receiver's part reports a stuck line at the most. -/
theorem receiverSample_reports {level : Bool} (hrx : s.line.rx ≠ .slot) (ha : s.line.attempt = none) :
    (receiverSample level s).1.rxq = s.rxq ∧ ((receiverSample level s).1.panel = s.panel ∨
      (receiverSample level s).1.panel = s.panel.raise .lineStuck) := by
  by_cases hloose : s.line.lows ≤ 1024
  · have honly := receiverSample_lineOnly (level := level) hrx hloose
    rw [honly]
    exact ⟨rfl, .inl rfl⟩
  · unfold receiverSample
    split
    · rw [lineStuck_none ha]
      exact ⟨rfl, .inr rfl⟩
    · next hnot =>
      have hstuck : s.line.rx = .stuck := by
        by_contra hn
        exact hnot ⟨Nat.lt_of_not_le hloose, hn⟩
      rw [if_neg (by rw [charSamples]; omega)]
      split
      · have honly := jamSample_lineOnly s
        rw [honly]
        exact ⟨rfl, .inl rfl⟩
      · have honly := stateSample_lineOnly (level := level) hrx
        rw [honly]
        exact ⟨rfl, .inl rfl⟩

theorem failureEvents_drops {ev : LineEvent} (ha : s.line.attempt = some a) (he : txEntry s a.entry = some e)
    (hw : e.withdrawn = false) (hfails : e.fails = 7) : LineEvent.frameDropped ∈ failureEvents s ev := by
  have hdrops : failureDrops s = true := by
    rw [failureDrops_of ha he, hw, hfails]
    rfl
  rw [failureEvents, hdrops]
  exact List.mem_cons_of_mem _ (List.mem_singleton_self _)

end

section
variable {level : Bool} {a : Attempt} {e : TxEntry} {edge : Word} {u : State}

/-- What a sample that drops a frame leaves. -/
def dropsFrame (u : State) (a : Attempt) (e : TxEntry) (edge : Word) (t : State) : Prop :=
  t.line.attempt = none ∧ t.line.driver ≠ .attempt ∧ dropReported u e edge t.panel ∧ dropLeaves u e a.entry t.txq ∧ t.rxq = u.rxq

/-- A veto at the eighth failure. -/
theorem veto_drops (h : slotEnds u level) (hlow : ¬ slotHigh u) (ha : u.line.attempt = some a)
    {n x y : Nat} (hphase : a.phase = .slot n x y) (hedge : a.edge = some edge) (he : txEntry u a.entry = some e)
    (hw : e.withdrawn = false) (hfails : e.fails = 7) :
    LineEvent.frameDropped ∈ (lineSample u.stationClock level u).2 ∧ dropsFrame u a e edge (lineSample u.stationClock level u).1 := by
  have hreceived := received_low (clk := u.stationClock) h hlow
  have hsample := lineSample_slotEnd (clk := u.stationClock) h
  rw [received, hreceived] at hsample
  obtain ⟨honly, -, n', x', y', hslot⟩ := sent_slot (clk := u.stationClock) (level := level) ha hphase
  have hmem : (frameVetoed (sent u.stationClock level u)).2 ⊆ (lineSample u.stationClock level u).2 := fun ev hev =>
    mem_lineSample_of_received h.hears (by rw [hreceived]; exact hev)
  generalize sent u.stationClock level u = w at *
  have honly' : lineOnly u (leaveSlot w) := honly.trans (withLine_lineOnly _ w)
  have htx : ∀ v, lineOnly u v → txEntry v a.entry = some e := by
    intro v hv
    rw [hv]
    exact he
  have hattempt : w.line.attempt = some { a with phase := .slot n' x' y' } := by
    unfold slotAttempt at hslot
    split at hslot
    · exact nomatch hslot
    · next b hb =>
      split at hslot
      · exact hb.trans hslot
      all_goals exact nomatch hslot
  have hdrop : (frameVetoed w).1 = dropFrame { a with phase := .slot n' x' y' } e (leaveSlot w) := by
    rw [frameVetoed_of_some hslot]
    exact endFailed_drops (a := { a with phase := .slot n' x' y' }) (htx _ honly') hw hfails
  constructor
  · refine hmem ?_
    rw [frameVetoed_of_some hslot]
    exact failureEvents_drops hattempt (htx _ honly) hw hfails
  · have hattempt' : (dropFrame { a with phase := .slot n' x' y' } e (leaveSlot w)).line.attempt = none := by
      rw [dropFrame_line]
      rfl
    have hreports := dropFrame_reports (e := e) honly' (a := { a with phase := .slot n' x' y' }) hedge
    have hleaves := dropFrame_leaves honly' (a := { a with phase := .slot n' x' y' }) hedge he
    have hrxq := (dropFrame_leavesReceiver { a with phase := .slot n' x' y' } e (leaveSlot w)).rxq.trans
      (congrArg State.rxq honly' :)
    rw [hsample, hdrop]
    generalize dropFrame { a with phase := .slot n' x' y' } e (leaveSlot w) = t at *
    exact ⟨hattempt', drive_not_attempt hattempt', hreports, hleaves, hrxq⟩

/-- A bit error at the eighth failure. -/
theorem bitError_drops {char bit highs : Nat} (hrx : u.line.rx ≠ .slot) (h : readsBack u a e char bit highs)
    (herror : isBitError e a char bit (decide (2 ≤ highs + Bool.high level))) (hedge : a.edge = some edge)
    (hw : e.withdrawn = false) (hfails : e.fails = 7) :
    LineEvent.frameDropped ∈ (lineSample u.stationClock level u).2 ∧ dropsFrame u a e edge (lineSample u.stationClock level u).1 := by
  have hsending := bitError_sent (clk := u.stationClock) h herror
  obtain ⟨hoff, ha, he, -, -⟩ := h
  have honly : lineOnly u (owing e char bit (heard u.stationClock level u)) := (withLine_lineOnly _ u).trans (owing_lineOnly e char bit _)
  have hsent : sent u.stationClock level u = dropFrame a e (owing e char bit (heard u.stationClock level u)) := by
    rw [sent, hsending]
    exact endFailed_drops ((txEntry_owing _).trans he) hw hfails
  have hended : (sent u.stationClock level u).line.attempt = none := by
    rw [hsent, dropFrame_line]
    rfl
  obtain ⟨hsample, hreceived⟩ := lineSample_ended hoff ha hended
  obtain ⟨hattempt, hdriver, htxq⟩ := drive_noAttempt hreceived
  have hreports := dropFrame_reports (e := e) honly hedge
  have hleaves := dropFrame_leaves honly hedge he
  rw [← hsent] at hreports hleaves
  obtain ⟨hrxq, hpanel⟩ := receiverSample_reports (level := level) (s := sent u.stationClock level u) (by rw [sent_rx]; exact hrx) hended
  have hheard : (heard u.stationClock level u).line.attempt = some a := by
    rw [heard_eq]
    exact ha
  constructor
  · refine mem_lineSample_of_sending hoff ?_
    rw [hsending]
    exact failureEvents_drops hheard he hw hfails
  · rw [hsample]
    refine ⟨hattempt, hdriver, ?_, ?_, hrxq.trans sent_rxq⟩
    · rcases hpanel with hp | hp
      · exact hp ▸ hreports
      · exact hp ▸ hreports.raise .lineStuck
    · rw [htxq]
      exact hleaves

end

/-- Settles O12: the eighth failure drops the frame, by a veto or by a bit error. -/
theorem eighthFailureDropsFrame : Obligations.EighthFailureDropsFrame := by
  intro before level s
  dsimp only
  generalize hu : playLine before 1 s = u
  intro a e edge ha hedge he hw hfails hcause
  have hdrop : LineEvent.frameDropped ∈ (lineSample u.stationClock level u).2 ∧
      dropsFrame u a e edge (lineSample u.stationClock level u).1 := by
    rcases hcause with ⟨h, hlow, n, x, y, hphase⟩ | ⟨hrx, char, bit, highs, h, -, herror⟩
    · exact veto_drops h hlow ha hphase hedge he hw hfails
    · exact bitError_drops hrx h herror hedge hw hfails
  obtain ⟨hmem, hattempt, hdriver, ⟨hset, hpending, hrecord⟩, hleaves, hrxq⟩ := hdrop
  have hexec : exec (.frameDropped (before ++ [level])) s = .next (lineSample u.stationClock level u).1 := by
    show Host.Outcome.next (lineCommand .frameDropped (before ++ [level]) s) = _
    rw [lineCommand_happens, hu]
    rw [hu]
    exact hmem
  have hframe := lineSample_frame u.stationClock level u
  refine ⟨_, hexec, hattempt, hdriver, hset, hpending, hrecord, hleaves, hrxq, ?_⟩
  obtain ⟨_, _, _, _, _, _, _, _, _, _, _, _, heq⟩ := hframe
  rw [heq]
  exact ⟨rfl, rfl, rfl, rfl, rfl⟩

end Sys2Proof.Machine
end

