-- ==== Sys2Proof/Proofs/Attempts.lean ====
section
/-!
The head of the queue, the beginning of its attempt, and the phases of an attempt (O9).
-/
namespace Sys2Proof.Machine
open Relation

/-! ## The head of the transmit queue (R147) -/

/-- An entry is sent before another, or is as urgent. -/
def TxEntry.atMost (a b : TxEntry) : Prop := a.cls < b.cls ∨ (a.cls = b.cls ∧ a.seq ≤ b.seq)

theorem TxEntry.atMost_trans {a b c : TxEntry} (h : a.atMost b) (k : b.atMost c) : a.atMost c := by
  unfold TxEntry.atMost at *
  omega

theorem TxEntry.atMost_refl (a : TxEntry) : a.atMost a := .inr ⟨rfl, Nat.le_refl _⟩

/-- The more urgent of the best entry so far and another. -/
def betterEntry (best : Option TxEntry) (e : TxEntry) : Option TxEntry :=
  match best with
  | none => some e
  | some b => if e.cls < b.cls || (decide (e.cls = b.cls) && decide (e.seq < b.seq)) then some e else some b

theorem txHead_eq (q : List TxEntry) : txHead q = q.foldl betterEntry none := rfl

theorem betterEntry_some (b e : TxEntry) : ∃ w, betterEntry (some b) e = some w ∧ (w = b ∨ w = e) ∧ w.atMost b ∧ w.atMost e := by
  by_cases h : (decide (e.cls < b.cls) || (decide (e.cls = b.cls) && decide (e.seq < b.seq))) = true
  · refine ⟨e, if_pos h, .inr rfl, ?_, e.atMost_refl⟩
    simp only [Bool.or_eq_true, Bool.and_eq_true, decide_eq_true_eq] at h
    unfold TxEntry.atMost
    omega
  · refine ⟨b, if_neg h, .inl rfl, b.atMost_refl, ?_⟩
    simp only [Bool.or_eq_true, Bool.and_eq_true, decide_eq_true_eq] at h
    unfold TxEntry.atMost
    omega

theorem foldl_betterEntry : ∀ (q : List TxEntry) (b : TxEntry), ∃ w, q.foldl betterEntry (some b) = some w ∧
    (w = b ∨ w ∈ q) ∧ w.atMost b ∧ ∀ x ∈ q, w.atMost x
  | [], b => ⟨b, rfl, .inl rfl, b.atMost_refl, fun _ h => nomatch h⟩
  | e :: q, b => by
    obtain ⟨c, hc, hfrom, hcb, hce⟩ := betterEntry_some b e
    obtain ⟨w, hw, hmem, hwc, hall⟩ := foldl_betterEntry q c
    refine ⟨w, by rw [List.foldl_cons, hc, hw], ?_, TxEntry.atMost_trans hwc hcb, fun x hx => ?_⟩
    · rcases hmem with rfl | hmem
      · exact hfrom.imp_right fun h : w = e => h ▸ List.mem_cons_self
      · exact .inr (List.mem_cons_of_mem _ hmem)
    · rcases List.mem_cons.mp hx with rfl | hx
      · exact TxEntry.atMost_trans hwc hce
      · exact hall x hx

/-- The head is of the lowest class, and of those the earliest. -/
theorem txHead_spec {q : List TxEntry} (h : q ≠ []) : ∃ e, txHead q = some e ∧ e ∈ q ∧ ∀ x ∈ q, e.atMost x := by
  cases q with
  | nil => exact absurd rfl h
  | cons b q =>
    obtain ⟨w, hw, hmem, hwb, hall⟩ := foldl_betterEntry q b
    refine ⟨w, (txHead_eq (b :: q)).trans hw, ?_, fun x hx => ?_⟩
    · rcases hmem with rfl | hmem
      · exact List.mem_cons_self
      · exact List.mem_cons_of_mem _ hmem
    · rcases List.mem_cons.mp hx with rfl | hx
      · exact hwb
      · exact hall x hx

/-! ## The beginning of an attempt (R122) -/

theorem mayAttempt_congr {s t : State} {e : TxEntry} (htxq : t.txq = s.txq) (hnow : t.now = s.now)
    (hstate : t.member.state = s.member.state) : mayAttempt t e ↔ mayAttempt s e := by
  rw [mayAttempt, mayAttempt, htxq, hnow, hstate]

theorem NoAttempt.mayAttempt {s t : State} (h : NoAttempt s t) (e : TxEntry) : Machine.mayAttempt t e ↔ Machine.mayAttempt s e :=
  mayAttempt_congr (congrArg State.txq h.frame :) (congrArg State.now h.frame :) (congrArg (fun x => x.member.state) h.frame :)

/-- The line after samples that read high while idle may hold: it counts them (R119). -/
def LineInterface.waited (k : Nat) (l : LineInterface) : LineInterface :=
  { l with
    idleCount := l.idleCount + k, hunt := .hunting, highs := l.highs + k, lows := 0, driver := .released }

/-- A station that waits with a quiet receiver: nothing is in progress, driven or owed. -/
structure Waits (l : LineInterface) : Prop where
  attempt : l.attempt = none
  rx : l.rx = .outside
  hunt : l.hunt = .hunting ∨ l.hunt = .waitHigh
  vetoOwed : l.vetoOwed = none
  jamLeft : l.jamLeft = 0

theorem Waits.waited {l : LineInterface} (h : Waits l) (k : Nat) : Waits (l.waited k) :=
  ⟨h.attempt, h.rx, .inl rfl, h.vetoOwed, h.jamLeft⟩

section
variable {clk : Word} {s u : State}

theorem drive_waited (h : Waits u.line) : drive (concluded clk true u) = { u with line := u.line.waited 1 } := by
  obtain ⟨hattempt, hrx, hhunt, howed, hjam⟩ := h
  have hfound : huntSample true (sent clk true u).line.hunt = (.hunting, .nothing) := by
    rw [sent_hunt]
    rcases hhunt with h | h
    · rw [h]
      rfl
    · rw [h]
      rfl
  have hpending : u.line.hunt.pending = false := (huntSample_waits (level := true) hhunt).2
  have hreceived : received clk true u = withLine (fun l => { l with hunt := .hunting, idleCount := u.line.idleCount + 1 })
      (withLine (LineInterface.pulse clk true) u) := by
    rw [received, received_state hjam (.inl rfl), stateSample_outside (sent_rx.trans hrx),
      outsideSample_other hfound (nomatch ·), sent_of_none hattempt, heard_pulse howed]
    show withLine (fun l => { l with
      hunt := .hunting, idleCount := if true && !l.hunt.pending then l.idleCount + 1 else l.idleCount }) _ = _
    rw [withLine, withLine]
    have hpulse : (LineInterface.pulse clk true u.line).hunt.pending = false := hpending
    show { u with line := { LineInterface.pulse clk true u.line with
      hunt := .hunting
      idleCount := if true && !(LineInterface.pulse clk true u.line).hunt.pending then u.line.idleCount + 1 else u.line.idleCount } } = _
    rw [hpulse]
    rfl
  have hreleased := drive_eq_released (s := withLine (fun l => { l with hunt := .hunting, idleCount := u.line.idleCount + 1 })
    (withLine (LineInterface.pulse clk true) u)) hjam (by show u.line.rx ≠ .slot; rw [hrx]; exact (nomatch ·)) howed hattempt
  rw [concluded_of_none hattempt, hreceived, hreleased]
  rfl

theorem lineSample_waited (h : Waits u.line) :
    (lineSample clk true u).1 = (beginSample { u with line := u.line.waited 1 }).1 := by
  rw [lineSample_begins (by rw [h.rx]; exact (nomatch ·)) h.attempt, drive_waited h]

theorem idleHolds_waited {k : Nat} (h : Waits u.line) (hk : 224 ≤ u.line.idleCount + k) :
    idleHolds { u with line := u.line.waited k } = true :=
  idleHolds_iff.mpr ⟨h.rx, hk, rfl, rfl⟩

theorem attemptStart_begins {level : Bool} (hoff : u.line.rx ≠ .off) (ha : u.line.attempt = none)
    (hbegin : LineEvent.attemptStart ∈ (beginSample (drive (concluded clk level u))).2) :
    LineEvent.attemptStart ∈ (lineSample clk level u).2 := (mem_lineSample hoff).mpr (.inr ⟨ha, hbegin⟩)

theorem receiverSample_events {level : Bool} {w : State} {e : LineEvent} (h : e ∈ (receiverSample level w).2) :
    e ≠ .attemptStart := by
  rintro rfl
  unfold receiverSample at h
  split at h
  · exact nomatch List.mem_singleton.mp h
  · split at h
    · exact nomatch List.mem_singleton.mp h
    · split at h
      · exact absurd h List.not_mem_nil
      · rcases stateSample_events h with h | ⟨h, -⟩
        · simp at h
        · exact nomatch h

/-- An attempt starts only where its beginning is found, none being in progress before the sample. -/
theorem attemptStart_only {level : Bool} (h : LineEvent.attemptStart ∈ (lineSample clk level u).2) : u.line.rx ≠ .off ∧
    u.line.attempt = none ∧ ∃ e, nextAttempt (drive (concluded clk level u)) = some e := by
  have hoff : u.line.rx ≠ .off := by
    intro hoff
    rw [lineSample_off hoff] at h
    exact absurd h List.not_mem_nil
  rw [mem_lineSample hoff] at h
  rcases h with (h | h | h) | ⟨ha, h⟩
  · rcases sendingSample_events h with h | h | h
    · exact nomatch h
    · exact nomatch h
    · exact nomatch h
  · exact absurd rfl (receiverSample_events h)
  · rcases ownSlotEnd_events h with h | h | h
    · exact nomatch h
    · exact nomatch h
    · exact nomatch h
  · refine ⟨hoff, ha, ?_⟩
    cases hnext : nextAttempt (drive (concluded clk level u)) with
    | some e => exact ⟨e, rfl⟩
    | none =>
      simp only [beginSample, hnext] at h
      exact absurd h List.not_mem_nil

theorem concluded_mayAttempt {level : Bool} (ha : u.line.attempt = none) (e : TxEntry) :
    mayAttempt (drive (concluded clk level u)) e ↔ mayAttempt u e := by
  rw [concluded_of_none ha, ← (received_noAttempt (clk := clk) (level := level) ha).mayAttempt e]
  exact Iff.rfl

/-- The line after a sample, where no attempt was in progress: the beginning changes the driver and the attempt alone. -/
theorem lineSample_begun {level : Bool} (hoff : u.line.rx ≠ .off) (ha : u.line.attempt = none) :
    let l := (lineSample clk level u).1.line
    let l' := (drive (concluded clk level u)).line
    l.rx = l'.rx ∧ l.idleCount = l'.idleCount ∧ l.lows = l'.lows ∧ l.hunt = l'.hunt ∧ l.jamLeft = l'.jamLeft ∧
      l.vetoOwed = l'.vetoOwed := by
  rw [lineSample_begins hoff ha]
  dsimp only
  rw [beginSample_eq]
  exact ⟨rfl, rfl, rfl, rfl, rfl, rfl⟩

/-- A sample at which nothing that a station waits for is missing begins its attempt. -/
theorem attempt_begins {e : TxEntry} (hmay : mayAttempt u e) (ha : u.line.attempt = none)
    (hrx : (lineSample clk true u).1.line.rx = .outside) (hcount : 224 ≤ (lineSample clk true u).1.line.idleCount)
    (hpending : (lineSample clk true u).1.line.hunt.pending = false) (howed : (lineSample clk true u).1.line.vetoOwed = none)
    (hjam : (lineSample clk true u).1.line.jamLeft = 0) :
    LineEvent.attemptStart ∈ (lineSample clk true u).2 ∧ (lineSample clk true u).1.line.driver = .attempt ∧
      (lineSample clk true u).1.line.attempt = some (Attempt.start e) := by
  have hoff : u.line.rx ≠ .off := by
    intro hoff
    rw [lineSample_off hoff] at hrx
    exact nomatch hoff.symm.trans hrx
  have hlows := lineSample_lows (clk := clk) (level := true) hoff
  obtain ⟨hrx', hcount', hlows', hpending', hjam', howed'⟩ := lineSample_begun (clk := clk) (level := true) hoff ha
  have hnone : (concluded clk true u).line.attempt = none := by
    rw [concluded_of_none ha]
    exact (received_noAttempt ha).attempt
  rw [hrx'] at hrx
  rw [hcount'] at hcount
  rw [hpending'] at hpending
  rw [hjam'] at hjam
  rw [hlows'] at hlows
  rw [howed'] at howed
  have hdriver : (drive (concluded clk true u)).line.driver = .released := by
    refine drive_released hjam ?_ (drivesOwed_none howed) (drivesAttempt_none hnone)
    have houtside : (concluded clk true u).line.rx = .outside := hrx
    rw [houtside]
    rfl
  have hbegin := beginSample_starts ((concluded_mayAttempt (clk := clk) (level := true) ha e).mpr hmay)
    (idleHolds_iff.mpr ⟨hrx, hcount, hlows, hpending⟩) hnone howed hdriver
  refine ⟨attemptStart_begins hoff ha ?_, ?_⟩
  · rw [hbegin]
    exact List.mem_singleton_self _
  · rw [lineSample_begins hoff ha, hbegin]
    exact ⟨rfl, rfl⟩

end

/-! ## Idle samples before an attempt (entry 4) -/

theorem momentBefore_le {n : Nat} (s : State) (hn : 1 ≤ n) : momentBefore s n ≤ s.now - sampleTicks s.straps.lrate := by
  have hticks : 1 * sampleTicks s.straps.lrate ≤ n * sampleTicks s.straps.lrate := Nat.mul_le_mul_right _ hn
  rw [momentBefore]
  omega

/-- Samples before the last find none of the entries placed after them. -/
theorem beginSample_unplaced {s : State} (h : ∀ x ∈ s.txq.entries, s.now < x.placedAt) : beginSample s = (s, []) := by
  have hnone : placedEntries s = [] := List.filter_eq_nil_iff.mpr fun x hx hle =>
    Nat.not_le_of_lt (h x hx) (of_decide_eq_true hle)
  refine beginSample_stays fun e he => ?_
  have hhead : txHead (placedEntries s) = some e := he.1
  rw [hnone] at hhead
  exact nomatch hhead

theorem sampleAt_waited {n : Nat} {s : State} (h : Waits s.line) (hn : 1 ≤ n)
    (hplaced : ∀ x ∈ s.txq.entries, s.now - sampleTicks s.straps.lrate < x.placedAt) :
    (sampleAt n true s).1 = { s with line := s.line.waited 1 } := by
  have hsample := lineSample_waited (clk := clockBefore s n) (u := { s with now := momentBefore s n }) h
  have hbegin := beginSample_unplaced (s := { s with now := momentBefore s n, line := s.line.waited 1 })
    fun x hx => Nat.lt_of_le_of_lt (momentBefore_le s hn) (hplaced x hx)
  have hboth := hsample.trans (congrArg Prod.fst hbegin)
  exact congrArg (fun t : State => { t with now := s.now }) hboth

theorem LineInterface.waited_waited (l : LineInterface) (j k : Nat) : (l.waited j).waited k = l.waited (j + k) := by
  simp only [LineInterface.waited, Nat.add_assoc]

theorem playLine_waited : ∀ (k n : Nat) (s : State), Waits s.line → 1 ≤ n →
    (∀ x ∈ s.txq.entries, s.now - sampleTicks s.straps.lrate < x.placedAt) →
    playLine (List.replicate (k + 1) true) n s = { s with line := s.line.waited (k + 1) }
  | 0, n, s, h, hn, hplaced => by
    show (sampleAt (0 + n) true s).1 = _
    rw [Nat.zero_add, sampleAt_waited h hn hplaced]
  | k + 1, n, s, h, hn, hplaced => by
    show playLine (List.replicate (k + 1) true) n (sampleAt ((List.replicate (k + 1) true).length + n) true s).1 = _
    rw [sampleAt_waited h (by omega) hplaced, playLine_waited k n { s with line := s.line.waited 1 } (h.waited 1) hn hplaced]
    show { s with line := (s.line.waited 1).waited (k + 1) } = _
    rw [LineInterface.waited_waited, Nat.add_comm 1 (k + 1)]

/-- The line once the attempt of an entry has begun. -/
def LineInterface.begun (e : TxEntry) (l : LineInterface) : LineInterface :=
  { l with driver := .attempt, attempt := some (Attempt.start e) }

theorem attemptStart_waited {before : Samples} {e : TxEntry} {s u : State} (hu : playLine before 1 s = u) (h : Waits u.line)
    (hmay : mayAttempt u e) (hcount : 223 ≤ u.line.idleCount) :
    exec (.attemptStart (before ++ [true])) s = .next { u with line := (u.line.waited 1).begun e } := by
  have hbegin := beginSample_starts (s := { u with line := u.line.waited 1 }) (e := e) hmay (idleHolds_waited h (by omega))
    h.attempt h.vetoOwed rfl
  have hmem : LineEvent.attemptStart ∈ (lineSample u.stationClock true u).2 := by
    refine attemptStart_begins (by rw [h.rx]; exact (nomatch ·)) h.attempt ?_
    rw [drive_waited h, hbegin]
    exact List.mem_singleton_self _
  show Host.Outcome.next (lineCommand .attemptStart (before ++ [true]) s) = _
  rw [lineCommand_happens (by rw [hu]; exact hmem), hu, lineSample_waited h, hbegin]
  rfl

/-! ## The phases of an attempt (R122, R123) -/

section
variable {a : Attempt} {s : State} {level : Bool}

theorem attemptSample_breaking {n : Nat} (h : a.phase = .breaking n) :
    attemptSample a level s = (setPhase (if n < 191 then .breaking (n + 1) else .waiting) s, []) := by
  have hless : (if n + 1 < breakSamples then AttemptPhase.breaking (n + 1) else .waiting) =
      if n < 191 then .breaking (n + 1) else .waiting := if_congr (by rw [breakSamples]; omega) rfl rfl
  simp only [attemptSample, h, hless]

theorem attemptSample_waiting_low (h : a.phase = .waiting) : attemptSample a false s = (s, []) := by
  simp only [attemptSample, h]
  rfl

theorem attemptSample_waiting_high (h : a.phase = .waiting) : attemptSample a true s = (setPhase (.mark 1) s, []) := by
  simp only [attemptSample, h]
  rfl

theorem attemptSample_mark_low {n : Nat} (h : a.phase = .mark n) : attemptSample a false s = (setPhase (.sending 1 0) s, []) := by
  simp only [attemptSample, h]
  rfl

theorem attemptSample_mark_high {n : Nat} (h : a.phase = .mark n) :
    attemptSample a true s = (setPhase (if n < 31 then .mark (n + 1) else .sending 0 0) s, []) := by
  have hless : (if n + 1 < markSamples then AttemptPhase.mark (n + 1) else .sending 0 0) =
      if n < 31 then .mark (n + 1) else .sending 0 0 := if_congr (by rw [markSamples]; omega) rfl rfl
  simp only [attemptSample, h, if_true, hless]

theorem drivesAttempt_breaking {n : Nat} (ha : s.line.attempt = some a) (h : a.phase = .breaking n) : drivesAttempt s = true := by
  simp only [drivesAttempt, ha, h]

theorem drivesAttempt_silent (ha : s.line.attempt = some a)
    (h : a.phase = .waiting ∨ (∃ n, a.phase = .mark n) ∨ ∃ n x y, a.phase = .slot n x y) : drivesAttempt s = false := by
  rcases h with h | ⟨n, h⟩ | ⟨n, x, y, h⟩
  · simp only [drivesAttempt, ha, h]
  · simp only [drivesAttempt, ha, h]
  · simp only [drivesAttempt, ha, h]

theorem drivesAttempt_sending {k x : Nat} {e : TxEntry} (ha : s.line.attempt = some a) (h : a.phase = .sending k x)
    (he : txEntry s a.entry = some e) : drivesAttempt s = !sentLevel e.frame (k / 176) (k % 176 / 16) := by
  simp only [drivesAttempt, ha, h, he]
  rfl

end

/-- Settles O9: the head of the queue, the beginning of its attempt, and the phases of an attempt. -/
theorem attemptSendsMostUrgentFrame : Obligations.AttemptSendsMostUrgentFrame := by
  refine ⟨fun q => ⟨fun h => h ▸ rfl, fun h => txHead_spec h⟩, ?begins, ?waits, ?phases⟩
  case begins =>
    intro before level s
    dsimp only
    generalize hu : playLine before 1 s = u
    rw [playLine_single]
    refine ⟨fun e hlevel hmay ha => ⟨fun hrx hhunt hcount howed hjam => ?_, fun hrx hcount hpending howed hjam => ?_⟩, fun hnot => ?_⟩
    · rw [hlevel]
      exact attemptStart_waited hu ⟨ha, hrx, hhunt, howed, hjam⟩ hmay hcount
    · subst hlevel
      obtain ⟨hmem, hdriver, hattempt⟩ := attempt_begins hmay ha hrx hcount hpending howed hjam
      refine ⟨?_, hdriver, hattempt⟩
      show Host.Outcome.next (lineCommand .attemptStart (before ++ [true]) s) = _
      rw [lineCommand_happens (by rw [hu]; exact hmem), hu]
    · refine congrArg Host.Outcome.next (lineCommand_not ?_)
      rw [hu]
      intro hmem
      obtain ⟨hoff, ha, e, hnext⟩ := attemptStart_only hmem
      obtain ⟨hhead, hmay, hidle, -⟩ := nextAttempt_some hnext
      obtain ⟨hrx, hcount, hlows, -⟩ := idleHolds_iff.mp hidle
      obtain ⟨hrx', hcount', hlows', -⟩ := lineSample_begun (clk := u.stationClock) (level := level) hoff ha
      rcases hnot with hn | hn | hn | hn | hn
      · exact hn ha
      · have hlow := lineSample_lows (clk := u.stationClock) (level := level) hoff
        rw [hlows', hlows, hn] at hlow
        exact Nat.succ_ne_zero _ hlow.symm
      · exact hn e ((concluded_mayAttempt ha e).mp ⟨hhead, maySend_iff.mp hmay⟩)
      · exact hn (hrx'.trans hrx)
      · rw [hcount'] at hn
        exact Nat.not_le_of_lt hn hcount
  case waits =>
    intro k e s hmay ha hrx hhunt hcount howed hjam hplaced
    have hwaits : Waits s.line := ⟨ha, hrx, hhunt, howed, hjam⟩
    rw [List.replicate_succ']
    cases k with
    | zero => exact attemptStart_waited rfl hwaits hmay hcount
    | succ k =>
      have hbegin := attemptStart_waited (e := e) (playLine_waited k 1 s hwaits (Nat.le_refl 1) hplaced) (hwaits.waited (k + 1)) hmay
        hcount
      exact hbegin
  case phases =>
    intro a s
    exact ⟨fun n level h => attemptSample_breaking h, fun h => ⟨attemptSample_waiting_low h, attemptSample_waiting_high h⟩,
      fun n h => ⟨attemptSample_mark_low h, attemptSample_mark_high h⟩, fun frame k h => rfl,
      fun ha => ⟨fun n h => drivesAttempt_breaking ha h, fun h => drivesAttempt_silent ha h,
        fun k h e hphase he => drivesAttempt_sending ha hphase he⟩⟩

end Sys2Proof.Machine
end

