-- ==== Sys2Proof/Proofs/VetoSlots.lean ====
section
/-!
Characters of a frame, the decision to veto, and the veto owed (O15).
-/
namespace Sys2Proof.Machine
open Relation

/-! ## A character's end (R116, R126) -/

/-- The character that the stop bit completes. -/
def readAt (highs : Nat) (bits : BitVec 11) (level : Bool) : ReadChar :=
  readLineBits (if 2 ≤ highs + Bool.high level then bits ||| (1 <<< 10) else bits)

theorem huntSample_stop (level : Bool) (highs : Nat) (bits : BitVec 11) :
    ∃ h, huntSample level (.reading 169 highs bits) = (h, .character (readAt highs bits level)) := by
  rw [huntSample_ninth 10 level highs bits]
  by_cases hhigh : 2 ≤ highs + Bool.high level
  · have hmajority : majorityHigh (highs + Bool.high level) = true := decide_eq_true hhigh
    rw [hmajority, readAt, if_pos hhigh]
    exact ⟨_, rfl⟩
  · have hmajority : majorityHigh (highs + Bool.high level) = false := decide_eq_false hhigh
    rw [hmajority, readAt, if_neg hhigh]
    exact ⟨_, rfl⟩

section
variable {level : Bool} {highs : Nat} {bits : BitVec 11} {u : State}

/-- The sample of a stop bit's end is the end of its character, at a receiver as it was but for its search. -/
theorem stateSample_stop (hrx : u.line.rx = .character) (hhunt : u.line.hunt = .reading 169 highs bits) :
    ∃ w, stateSample level (sent u.stationClock level u) = charDone (readAt highs bits level) w ∧ w.line.frame = u.line.frame ∧
      w.line.assembling = u.line.assembling ∧ w.line.jamWait = u.line.jamWait ∧
      w.line.highs = (if level then u.line.highs + 1 else 0) ∧ w.member.state = u.member.state := by
  obtain ⟨h, hfound⟩ := huntSample_stop level highs bits
  refine ⟨withLine (fun l => { l with hunt := h }) (sent u.stationClock level u), ?_, sent_frame, sent_assembling, sent_jamWait,
    sent_highs, sent_state⟩
  rw [stateSample_frame_of (.inr (.inl (sent_rx.trans hrx))), frameSample_character (h := h) (c := readAt highs bits level)]
  · refine jamStarts_of_hunt ?_
    rw [sent_hunt, hhunt]
    exact (nomatch ·)
  · rw [sent_hunt, hhunt]
    exact hfound

variable {c : ReadChar} {w : State}

theorem lengthOf_eq (frame : List ReadChar) : lengthOf frame = (frame.head?.bind usableHeader).map FrameKind.length := by
  cases frame with
  | nil => rfl
  | cons x l => rfl

theorem charDone_more {n : Nat} (ha : w.line.assembling = true) (hn : lengthOf (w.line.frame ++ [c]) = some n)
    (hless : (w.line.frame ++ [c]).length < n) :
    charDone c w = (toBetween (withLine (fun l => { l with frame := w.line.frame ++ [c] }) w), []) := by
  rw [charDone, if_pos ha, frameChar]
  simp only [hn, if_pos hless]

theorem charDone_last {n : Nat} (ha : w.line.assembling = true) (hn : lengthOf (w.line.frame ++ [c]) = some n)
    (hlast : n ≤ (w.line.frame ++ [c]).length) :
    charDone c w = (withLine (fun l => { l with frame := w.line.frame ++ [c], rx := .endMark, passed := 0 }) w, []) := by
  rw [charDone, if_pos ha, frameChar]
  simp only [hn, if_neg (Nat.not_lt_of_le hlast)]

theorem charDone_unusable (ha : w.line.assembling = true) (hn : lengthOf (w.line.frame ++ [c]) = none) :
    charDone c w = (headerUnusable w, [.headerUnusable]) := by
  rw [charDone, if_pos ha, frameChar]
  simp only [hn]

theorem charDone_waiting (ha : w.line.assembling = false) :
    charDone c w = (toBetween (withLine (fun l => { l with jamReady := l.jamWait }) w), []) := by
  rw [charDone, if_neg (by rw [ha]; exact Bool.false_ne_true)]

end

/-! ## The mark and the decision to veto (R127) -/

section
variable {level : Bool} {w : State}

theorem endMarkSample_runs (h : w.line.passed < 21) :
    endMarkSample w = (withLine (fun l => { l with passed := l.passed + 1 }) w, []) := if_pos (by rw [endMarkSamples]; omega)

theorem endMarkSample_ends (h : w.line.passed = 21) : endMarkSample w = (vetoSlotStart w, [.vetoSlotStart]) :=
  if_neg (by rw [endMarkSamples]; omega)

/-- An ACTIVE station's reasons to veto, in the manual's words (R127). -/
def vetoReasons (s : State) : Prop :=
  (∃ c ∈ s.line.frame, c.parityError = true ∨ c.framingError = true) ∨ charSum (s.line.frame.map ReadChar.value) ≠ 0x5A ∨
    31 < (senderOf (s.line.frame.map ReadChar.value)).toNat ∨ 8 ≤ s.rxq.entries.length

theorem vetoes_iff (s : State) : vetoes s = true ↔ s.member.state = .active ∧ vetoReasons s := by
  rw [vetoes, frameErrors, rxFull, vetoReasons]
  simp only [Bool.and_eq_true, Bool.or_eq_true, decide_eq_true_eq, List.any_eq_true, ReadChar.bad, or_assoc]
  exact Iff.rfl

end

section
variable {before : Samples} {level : Bool} {s u : State}

theorem vetoSlotStart_stays (hu : playLine before 1 s = u) (hrx : u.line.rx = .endMark) (hjam : u.line.jamLeft = 0)
    (hshort : shortLow u level) (hpassed : u.line.passed < 21) : exec (.vetoSlotStart (before ++ [level])) s = .next s ∧
      (playLine [level] 0 u).line.rx = .endMark ∧ (playLine [level] 0 u).line.passed = u.line.passed + 1 := by
  have hoff : u.line.rx ≠ .off := by
    rw [hrx]
    exact (nomatch ·)
  have hstate := (stateSample_endMark (level := level) ((sent_rx (clk := u.stationClock) (level := level)).trans hrx)).trans
    (endMarkSample_runs (by rw [sent_passed]; exact hpassed))
  have hsample := playLine_receiver_state hoff hjam hshort
  rw [hstate] at hsample
  refine ⟨congrArg Host.Outcome.next (lineCommand_not ?_), (congrArg LineInterface.rx hsample :).trans (sent_rx.trans hrx),
    (congrArg LineInterface.passed hsample :).trans ?_⟩
  · rw [hu, mem_lineSample_state hoff hjam hshort (by simp [LineEvent.ofReceiver]), hstate]
    exact List.not_mem_nil
  · show (sent u.stationClock level u).line.passed + 1 = _
    rw [sent_passed]

/-- The transmitter's part where no attempt is in progress, or one is in its slot. -/
theorem sent_silent (ha : u.line.attempt = none ∨ ∃ a n x y, u.line.attempt = some a ∧ a.phase = .slot n x y) :
    lineOnly u (sent u.stationClock level u) ∧
      (sent u.stationClock level u).line.vetoOwed = (heard u.stationClock level u).line.vetoOwed ∧
      (sent u.stationClock level u).line.attempt.map Attempt.entry = u.line.attempt.map Attempt.entry ∧
      ((sent u.stationClock level u).line.attempt = none ∨
        ∃ a n x y, (sent u.stationClock level u).line.attempt = some a ∧ a.phase = .slot n x y) := by
  rcases ha with ha | ⟨a, n, x, y, ha, hphase⟩
  · rw [sent_of_none ha, heard_eq]
    exact ⟨rfl, rfl, rfl, .inl ha⟩
  · have hheard : (heard u.stationClock level u).line.attempt = some a := by
      rw [heard_eq]
      exact ha
    obtain ⟨n', x', y', hsent⟩ : ∃ n x y, sent u.stationClock level u = setPhase (.slot n x y) (heard u.stationClock level u) := by
      rw [sent]
      simp only [sendingSample, hheard, attemptSample, hphase]
      exact ⟨_, _, _, rfl⟩
    have hattempt : (sent u.stationClock level u).line.attempt = some { a with phase := .slot n' x' y' } := by
      rw [hsent]
      show (heard u.stationClock level u).line.attempt.map _ = _
      rw [hheard]
      rfl
    refine ⟨by rw [hsent]; rfl, by rw [hsent]; rfl, ?_, .inr ⟨_, n', x', y', hattempt, rfl⟩⟩
    rw [hattempt, ha]
    rfl

theorem lineSample_slotStart (hrx : u.line.rx = .endMark) (hjam : u.line.jamLeft = 0)
    (hshort : shortLow u level) (hpassed : u.line.passed = 21)
    (ha : u.line.attempt = none ∨ ∃ a n x y, u.line.attempt = some a ∧ a.phase = .slot n x y) :
    (lineSample u.stationClock level u).1 = drive (vetoSlotStart (sent u.stationClock level u)) ∧
      LineEvent.vetoSlotStart ∈ (lineSample u.stationClock level u).2 := by
  have hoff : u.line.rx ≠ .off := by
    rw [hrx]
    exact (nomatch ·)
  have hstate := (stateSample_endMark (level := level) ((sent_rx (clk := u.stationClock) (level := level)).trans hrx)).trans
    (endMarkSample_ends (by rw [sent_passed]; exact hpassed))
  have hreceived : received u.stationClock level u = vetoSlotStart (sent u.stationClock level u) := by
    rw [received, received_state hjam hshort, hstate]
  obtain ⟨-, -, -, hsilent⟩ := sent_silent (level := level) ha
  have hconcluded : concluded u.stationClock level u = vetoSlotStart (sent u.stationClock level u) := by
    rw [concluded, hreceived]
    rcases hsilent with hnone | ⟨a, n, x, y, hsome, hphase⟩
    · rw [ownSlotEnd_of_none (s := vetoSlotStart (sent u.stationClock level u)) (slotAttempt_none_of hnone)]
    · have hslot : slotAttempt (vetoSlotStart (sent u.stationClock level u)) = some a :=
        slotAttempt_some_of (n := n) (x := x) (y := y) hsome hphase
      simp only [ownSlotEnd, hslot, hphase]
      rw [if_pos (.inr (.inr rfl))]
  constructor
  · cases hattempt : u.line.attempt with
    | none =>
      have hbegin := beginSample_of_rx (s := drive (vetoSlotStart (sent u.stationClock level u)))
        (fun h : RxState.slot = .outside => nomatch h)
      rw [lineSample_begins hoff hattempt, hconcluded, hbegin]
    | some a => rw [lineSample_of_attempt hoff hattempt, followSample_eq, hconcluded]
  · rw [mem_lineSample_state hoff hjam hshort (by simp [LineEvent.ofReceiver]), hstate]
    exact List.mem_singleton_self _

/-- VETO_SLOT_START: the slot begins, and an ACTIVE station with a reason drives it low (R127). -/
theorem vetoSlotStart_begins (hu : playLine before 1 s = u) (hrx : u.line.rx = .endMark) (hjam : u.line.jamLeft = 0)
    (hshort : shortLow u level) (hpassed : u.line.passed = 21)
    (ha : u.line.attempt = none ∨ ∃ a n x y, u.line.attempt = some a ∧ a.phase = .slot n x y) :
    ∃ t, exec (.vetoSlotStart (before ++ [level])) s = .next t ∧ t = { u with line := t.line } ∧ t.line.rx = .slot ∧
      t.line.passed = 0 ∧ t.line.frame = u.line.frame ∧ t.line.attempt.map Attempt.entry = u.line.attempt.map Attempt.entry ∧
      (u.member.state = .active ∧ vetoReasons u → t.line.slotVeto = true ∧ t.line.driver = .veto) ∧
      (¬ (u.member.state = .active ∧ vetoReasons u) → t.line.slotVeto = false ∧
        (u.line.vetoOwed = none → t.line.driver = .released)) := by
  obtain ⟨hsample, hmem⟩ := lineSample_slotStart hrx hjam hshort hpassed ha
  obtain ⟨honly, howes, hentry, hsilent⟩ := sent_silent (level := level) ha
  have hexec : exec (.vetoSlotStart (before ++ [level])) s = .next (drive (vetoSlotStart (sent u.stationClock level u))) := by
    show Host.Outcome.next (lineCommand .vetoSlotStart (before ++ [level]) s) = _
    rw [lineCommand_happens (by rw [hu]; exact hmem), hu, hsample]
  have hframe : (sent u.stationClock level u).line.frame = u.line.frame := sent_frame
  have hjam' : (sent u.stationClock level u).line.jamLeft = 0 := sent_jamLeft.trans hjam
  have hreasons : vetoes (sent u.stationClock level u) = true ↔ u.member.state = .active ∧ vetoReasons u := by
    rw [vetoes_iff, vetoReasons, vetoReasons, hframe, sent_rxq, sent_state]
  generalize sent u.stationClock level u = w at *
  have hdriver := drive_driver (vetoSlotStart w)
  have hslot : (decide ((vetoSlotStart w).line.rx = .slot) && (vetoSlotStart w).line.slotVeto) = vetoes w := rfl
  rw [hslot, if_neg (by show ¬ 0 < w.line.jamLeft; omega)] at hdriver
  refine ⟨_, hexec, honly.trans rfl, rfl, rfl, hframe, hentry, fun hwhy => ?_, fun hwhy => ?_⟩
  · have hvetoes := hreasons.mpr hwhy
    rw [hvetoes] at hdriver
    exact ⟨hvetoes, hdriver⟩
  · have hvetoes : vetoes w = false := Bool.eq_false_iff.mpr fun h => hwhy (hreasons.mp h)
    refine ⟨hvetoes, fun howed => ?_⟩
    have hquiet : drivesAttempt (vetoSlotStart w) = false := by
      rcases hsilent with hnone | ⟨a, n, x, y, hsome, hphase⟩
      · exact drivesAttempt_none hnone
      · exact drivesAttempt_silent (a := a) hsome (.inr (.inr ⟨n, x, y, hphase⟩))
    refine drive_released hjam' (hslot.trans hvetoes) (drivesOwed_none ?_) hquiet
    exact howes.trans (heard_owes howed)

end

/-! ## The veto owed (R125) -/

/-- What the receiver's part leaves where no jam is awaited: the jam, and no slot but after a mark. -/
structure Calm (s t : State) : Prop where
  jamLeft : t.line.jamLeft = s.line.jamLeft := by rfl
  slot : t.line.rx = .slot → s.line.rx = .slot ∨ s.line.rx = .endMark := by exact (nomatch ·)

theorem headerUnusable_calm (s : State) : Calm s (headerUnusable s) := by
  unfold headerUnusable
  split
  · exact {}
  · exact {}

theorem charDone_calm (c : ReadChar) (s : State) : Calm s (charDone c s).1 := by
  unfold charDone frameChar
  dsimp only
  split
  · split
    · exact headerUnusable_calm s
    · split
      · exact {}
      · exact {}
  · exact {}

theorem frameSample_calm {level : Bool} {s : State} (h : s.line.jamWait = false)
    (hrx : s.line.rx = .headerWait ∨ s.line.rx = .character ∨ s.line.rx = .between) : Calm s (frameSample level s).1 := by
  have hjam : jamStarts level s = false := by simp [jamStarts, h]
  have hno : s.line.rx ≠ .slot := by
    intro hslot
    rw [hslot] at hrx
    rcases hrx with h | h | h <;> exact nomatch h
  have hdone : ∀ c k, Calm s (charDone c (withLine (fun l => { l with hunt := k }) s)).1 := fun c k =>
    have hcalm := charDone_calm c (withLine (fun l => { l with hunt := k }) s)
    ⟨hcalm.jamLeft, fun h => hcalm.slot h⟩
  unfold frameSample
  rw [hjam, if_neg Bool.false_ne_true]
  dsimp only
  split
  · exact {}
  · exact hdone _ _
  · split
    · exact { slot := fun h => absurd h hno }
    · unfold gapSample
      dsimp only
      split
      · exact {}
      · exact { slot := fun h => absurd h hno }

theorem receiverSample_calm {level : Bool} {s : State} (hlows : s.line.lows ≤ 1024) (hjam : s.line.jamLeft = 0)
    (hwait : s.line.jamWait = false) : Calm s (receiverSample level s).1 := by
  unfold receiverSample
  rw [if_neg fun hc => Nat.not_lt_of_le hlows hc.1]
  split
  · exact {}
  · rw [if_neg (by omega)]
    cases hrx : s.line.rx with
    | off =>
      have hstate : stateSample level s = (s, []) := by simp only [stateSample, hrx]
      rw [hstate]
      exact { slot := fun h => .inl h }
    | sync =>
      simp only [stateSample, hrx]
      split
      · exact {}
      · exact { slot := fun h => .inl h }
    | stuck =>
      simp only [stateSample, hrx]
      split
      · exact {}
      · exact { slot := fun h => .inl h }
    | outside =>
      rw [stateSample_outside hrx]
      unfold outsideSample
      split
      · exact { slot := fun h => .inl h }
      · exact { slot := fun h => .inl h }
    | inBreak =>
      rw [stateSample_inBreak hrx]
      dsimp only
      split
      · exact {}
      · exact { slot := fun h => .inl h }
    | headerWait =>
      rw [stateSample_frame_of (.inl hrx)]
      exact frameSample_calm hwait (.inl hrx)
    | character =>
      rw [stateSample_frame_of (.inr (.inl hrx))]
      exact frameSample_calm hwait (.inr (.inl hrx))
    | between =>
      rw [stateSample_frame_of (.inr (.inr hrx))]
      exact frameSample_calm hwait (.inr (.inr hrx))
    | endMark =>
      rw [stateSample_endMark hrx]
      unfold endMarkSample
      split
      · exact { slot := fun h => .inl h }
      · exact { slot := fun _ => .inr hrx }
    | slot =>
      refine ⟨?_, fun _ => .inl hrx⟩
      rw [stateSample_slot hrx, slotSample_eq]
      split
      · rfl
      · split
        · exact (congrArg LineInterface.jamLeft (frameAccepted_left s).receiver :)
        · exact (congrArg LineInterface.jamLeft (frameVetoed_left s).receiver :)

section
variable {level : Bool} {n : Nat} {u : State}

/-- A station that owes a veto, at a sample at which it sends nothing. -/
theorem lineSample_owes (h : u.line.vetoOwed = some n) (ha : u.line.attempt = none) (hjam : u.line.jamLeft = 0)
    (hwait : u.line.jamWait = false) (hlows : u.line.lows < 1024) :
    (received u.stationClock level u).line.vetoOwed = (if n < 222 then some (n + 1) else none) ∧
      (received u.stationClock level u).line.jamLeft = 0 ∧
      (u.line.rx ≠ .slot → u.line.rx ≠ .endMark → (received u.stationClock level u).line.rx ≠ .slot) := by
  have hloose : (sent u.stationClock level u).line.lows ≤ 1024 := by
    rw [sent_lows]
    split
    · exact Nat.zero_le _
    · exact hlows
  have hcalm := receiverSample_calm (level := level) hloose (sent_jamLeft.trans hjam) (sent_jamWait.trans hwait)
  refine ⟨?_, hcalm.jamLeft.trans (sent_jamLeft.trans hjam), fun hslot hmark hnow => ?_⟩
  · rw [received, receiverSample_vetoOwed hloose, sent_of_none ha, heard_owed h]
  · rcases hcalm.slot hnow with hk | hk
    · exact hslot (sent_rx.symm.trans hk)
    · exact hmark (sent_rx.symm.trans hk)

theorem owed_veto (h : u.line.vetoOwed = some n) (ha : u.line.attempt = none) (hjam : u.line.jamLeft = 0)
    (hwait : u.line.jamWait = false) (hlows : u.line.lows < 1024) (hoff : u.line.rx ≠ .off) :
    let v := (playLine [level] 0 u).line
    v.vetoOwed = (if n < 222 then some (n + 1) else none) ∧ (190 ≤ n → n < 222 → v.driver = .veto) ∧
      (n < 190 → u.line.rx ≠ .slot → u.line.rx ≠ .endMark → v.driver = .released) ∧
      (222 ≤ n → u.line.rx ≠ .slot → u.line.rx ≠ .endMark → v.driver ≠ .veto ∧ (v.attempt = none → v.driver = .released)) := by
  obtain ⟨howed, hjam', hslot⟩ := lineSample_owes (level := level) h ha hjam hwait hlows
  have hnone := (received_noAttempt (clk := u.stationClock) (level := level) ha).attempt
  rw [playLine_single, lineSample_begins hoff ha, concluded_of_none ha]
  generalize received u.stationClock level u = r at *
  have hlate : n < 222 → beginSample (drive r) = (drive r, []) := fun hn => by
    refine beginSample_of_not (.inr (.inr ?_))
    show r.line.vetoOwed ≠ none
    rw [howed, if_pos hn]
    exact (nomatch ·)
  refine ⟨?_, fun hfirst hlast => ?_, fun hfirst hs hm => ?_, fun hlast hs hm => ?_⟩
  · show (beginSample (drive r)).1.line.vetoOwed = _
    rw [beginSample_eq]
    exact howed
  · rw [hlate hlast]
    rw [if_pos hlast] at howed
    show (drive r).line.driver = .veto
    have hdrives : r.line.drivesOwed = true := (drivesOwed_some howed).trans (decide_eq_true (by omega))
    rw [drive_driver, if_neg (by omega), hdrives, Bool.or_true]
    rfl
  · rw [hlate (by omega)]
    rw [if_pos (by omega)] at howed
    refine drive_released hjam' ?_ ?_ (drivesAttempt_none hnone)
    · rw [decide_eq_false (hslot hs hm)]
      rfl
    · rw [drivesOwed_some howed]
      exact decide_eq_false (by omega)
  · rw [if_neg (by omega)] at howed
    have hreleased : (drive r).line.driver = .released :=
      drive_released hjam' (by rw [decide_eq_false (hslot hs hm)]; rfl) (drivesOwed_none howed) (drivesAttempt_none hnone)
    cases hnext : nextAttempt (drive r) with
    | none =>
      have hstay : beginSample (drive r) = (drive r, []) := by simp only [beginSample, hnext]
      rw [hstay]
      refine ⟨?_, fun _ => hreleased⟩
      rw [hreleased]
      exact (nomatch ·)
    | some e =>
      have hstart : beginSample (drive r) =
          (withLine (fun l => { l with driver := .attempt, attempt := some (Attempt.start e) }) (drive r), [.attemptStart]) := by
        simp only [beginSample, hnext]
      rw [hstart]
      exact ⟨(nomatch ·), (nomatch ·)⟩

end

/-- Settles O15: the end of a character of a frame, the decision at the end of the mark, and the veto owed. -/
theorem vetoSlotDecision : Obligations.VetoSlotDecision := by
  refine ⟨?character, ?mark, fun level n u h ha hjam hwait hlows hoff => owed_veto h ha hjam hwait hlows hoff⟩
  case character =>
    intro level highs bits u
    dsimp only
    intro hrx hhunt hassembling hjam hshort k hk
    obtain ⟨w, hstate, hframe, hassembling', -⟩ := stateSample_stop (level := level) hrx hhunt
    rw [hassembling] at hassembling'
    have hsample := playLine_receiver_state (by rw [hrx]; exact (nomatch ·)) hjam hshort
    rw [hstate] at hsample
    have hlength : lengthOf (w.line.frame ++ [readAt highs bits level]) = some k.length := by
      rw [hframe, lengthOf_eq]
      exact congrArg (Option.map FrameKind.length) hk
    show _ = u.line.frame ++ [readAt highs bits level] ∧ _ ∧ ((u.line.frame ++ [readAt highs bits level]).length < _ → _) ∧
      (_ ≤ (u.line.frame ++ [readAt highs bits level]).length → _)
    rw [← hframe]
    by_cases hless : (w.line.frame ++ [readAt highs bits level]).length < k.length
    · rw [charDone_more hassembling' hlength hless] at hsample
      exact ⟨(congrArg LineInterface.frame hsample :), (congrArg LineInterface.assembling hsample :).trans hassembling',
        fun _ => ⟨(congrArg LineInterface.rx hsample :), (congrArg LineInterface.gapLeft hsample :)⟩,
        fun hlast => absurd hless (Nat.not_lt_of_le hlast)⟩
    · rw [charDone_last hassembling' hlength (Nat.le_of_not_lt hless)] at hsample
      exact ⟨(congrArg LineInterface.frame hsample :), (congrArg LineInterface.assembling hsample :).trans hassembling',
        fun hmore => absurd hmore hless, fun _ => ⟨(congrArg LineInterface.rx hsample :), (congrArg LineInterface.passed hsample :)⟩⟩
  case mark =>
    intro before level s
    dsimp only
    generalize hu : playLine before 1 s = u
    exact fun hrx hjam hshort => ⟨fun hpassed => vetoSlotStart_stays hu hrx hjam hshort hpassed,
      fun hpassed ha => vetoSlotStart_begins hu hrx hjam hshort hpassed ha⟩

end Sys2Proof.Machine
end

