-- ==== Sys2Proof/Proofs/Jams.lean ====
section
/-!
The unusable header and the jam (O16).
-/
namespace Sys2Proof.Machine
open Relation

/-! ## The header that is not usable (R126) -/

theorem headerUnusable_active {s : State} (h : s.member.state = .active) : headerUnusable s =
    toBetween (withLine (fun l => { l with assembling := false, frame := [], jamWait := true, jamReady := false }) s) := if_pos h

theorem headerUnusable_other {s : State} (h : s.member.state ≠ .active) :
    headerUnusable s = withLine (fun l => LineInterface.toOutside l.highs l) s := if_neg h

section
variable {before : Samples} {level : Bool} {highs : Nat} {bits : BitVec 11} {s u : State}

theorem headerUnusable_happens (hu : playLine before 1 s = u) (hrx : u.line.rx = .character)
    (hhunt : u.line.hunt = .reading 169 highs bits) (hjam : u.line.jamLeft = 0) (hshort : shortLow u level)
    (hassembling : u.line.assembling = true) (hframe : u.line.frame = [])
    (husable : usableHeader (readAt highs bits level) = none) :
    ∃ t, exec (.headerUnusable (before ++ [level])) s = .next t ∧ t.line.assembling = false ∧ t.line.frame = [] ∧
      (u.line.attempt = none → t = { u with line := t.line }) ∧
      (u.member.state = .active → t.line.rx = .between ∧ t.line.jamWait = true ∧ t.line.jamReady = false) ∧
      (u.member.state ≠ .active → u.line.attempt = none → t.line.rx = .outside ∧ t.line.jamWait = false ∧
        t.line.idleCount = if level then u.line.highs + 1 else 0) := by
  have hoff : u.line.rx ≠ .off := by
    rw [hrx]
    exact (nomatch ·)
  obtain ⟨w, hstate, hframe', hassembling', -, hhighs, hmember⟩ := stateSample_stop (level := level) hrx hhunt
  have hlength : lengthOf (w.line.frame ++ [readAt highs bits level]) = none := by
    rw [hframe', hframe, lengthOf_eq]
    exact congrArg (Option.map FrameKind.length) husable
  rw [charDone_unusable (hassembling'.trans hassembling) hlength] at hstate
  have hsample := playLine_receiver_state hoff hjam hshort
  rw [hstate, playLine_single] at hsample
  have hmem : LineEvent.headerUnusable ∈ (lineSample u.stationClock level u).2 := by
    rw [mem_lineSample_state hoff hjam hshort (by simp [LineEvent.ofReceiver]), hstate]
    exact List.mem_singleton_self _
  have hexec : exec (.headerUnusable (before ++ [level])) s = .next (lineSample u.stationClock level u).1 := by
    show Host.Outcome.next (lineCommand .headerUnusable (before ++ [level]) s) = _
    rw [lineCommand_happens (by rw [hu]; exact hmem), hu]
  have honly : u.line.attempt = none → lineOnly u (lineSample u.stationClock level u).1 := fun hattempt =>
    lineSample_lineOnly hattempt (by rw [hrx]; exact (nomatch ·)) hshort.loose
  by_cases hactive : u.member.state = .active
  · rw [headerUnusable_active (hmember.trans hactive)] at hsample
    exact ⟨_, hexec, (congrArg LineInterface.assembling hsample :), (congrArg LineInterface.frame hsample :), honly,
      fun _ => ⟨(congrArg LineInterface.rx hsample :), (congrArg LineInterface.jamWait hsample :),
        (congrArg LineInterface.jamReady hsample :)⟩, fun hn => absurd hactive hn⟩
  · rw [headerUnusable_other (by rw [hmember]; exact hactive)] at hsample
    exact ⟨_, hexec, (congrArg LineInterface.assembling hsample :), (congrArg LineInterface.frame hsample :), honly,
      fun hn => absurd hn hactive, fun _ _ => ⟨(congrArg LineInterface.rx hsample :), (congrArg LineInterface.jamWait hsample :),
        (congrArg LineInterface.idleCount hsample :).trans hhighs⟩⟩

/-- The station character of a frame that waits to be jammed (R126). -/
theorem playLine_station (hrx : u.line.rx = .character) (hhunt : u.line.hunt = .reading 169 highs bits) (hjam : u.line.jamLeft = 0)
    (hshort : shortLow u level) (hassembling : u.line.assembling = false) :
    (playLine [level] 0 u).line.rx = .between ∧ (playLine [level] 0 u).line.jamReady = u.line.jamWait := by
  obtain ⟨w, hstate, -, hassembling', hwait, -⟩ := stateSample_stop (level := level) hrx hhunt
  have hsample := playLine_receiver_state (by rw [hrx]; exact (nomatch ·)) hjam hshort
  rw [hstate, charDone_waiting (hassembling'.trans hassembling)] at hsample
  exact ⟨(congrArg LineInterface.rx hsample :), (congrArg LineInterface.jamReady hsample :).trans hwait⟩

/-! ## The jam (R126) -/

theorem jam_happens (hu : playLine before 1 s = u) (hwait : u.line.jamWait = true) (hready : u.line.jamReady = true)
    (hactive : u.member.state = .active) (hrx : u.line.rx = .between) (hhunt : u.line.hunt = .hunting) (hjam : u.line.jamLeft = 0)
    (hlows : u.line.lows = 0) (ha : u.line.attempt = none) :
    ∃ t, exec (.jam (before ++ [false])) s = .next t ∧ t = { u with line := t.line } ∧ t.line.rx = .character ∧
      t.line.jamWait = false ∧ t.line.jamReady = false ∧ t.line.jamLeft = 175 ∧ t.line.driver = .jam := by
  have hoff : u.line.rx ≠ .off := by
    rw [hrx]
    exact (nomatch ·)
  have hshort : shortLow u false := .inr (by omega)
  have hstarts : jamStarts false (sent u.stationClock false u) = true := by
    rw [jamStarts, sent_jamWait, sent_jamReady, sent_hunt, sent_state, hwait, hready, hhunt, hactive]
    rfl
  have hstate : stateSample false (sent u.stationClock false u) = (jam (sent u.stationClock false u), [.jam]) := by
    rw [stateSample_frame_of (.inr (.inr (sent_rx.trans hrx)))]
    exact if_pos hstarts
  have hreceived : received u.stationClock false u = jam (sent u.stationClock false u) := by
    rw [received, received_state hjam hshort, hstate]
  have hbegin := beginSample_of_rx (s := drive (jam (sent u.stationClock false u))) (fun h : RxState.character = .outside => nomatch h)
  have hsample : (lineSample u.stationClock false u).1 = drive (jam (sent u.stationClock false u)) := by
    rw [lineSample_begins hoff ha, concluded_of_none ha, hreceived, hbegin]
  have hmem : LineEvent.jam ∈ (lineSample u.stationClock false u).2 := by
    rw [mem_lineSample_state hoff hjam hshort (by simp [LineEvent.ofReceiver]), hstate]
    exact List.mem_singleton_self _
  have hexec : exec (.jam (before ++ [false])) s = .next (drive (jam (sent u.stationClock false u))) := by
    show Host.Outcome.next (lineCommand .jam (before ++ [false]) s) = _
    rw [lineCommand_happens (by rw [hu]; exact hmem), hu, hsample]
  have honly : lineOnly u (drive (jam (sent u.stationClock false u))) := by
    rw [sent_of_none ha]
    exact (withLine_lineOnly _ u).trans ((withLine_lineOnly _ _).trans (withLine_lineOnly _ _))
  exact ⟨_, hexec, honly, rfl, rfl, rfl, rfl, rfl⟩

end

section
variable {level : Bool} {u : State}

/-- While a jam runs, the receiver counts it down and hears nothing (entry 7). -/
theorem received_jams (hjam : 0 < u.line.jamLeft) (hlows : u.line.lows < 1024) :
    receiverSample level (sent u.stationClock level u) = (jamSample (sent u.stationClock level u), []) := by
  have hloose : (sent u.stationClock level u).line.lows ≤ 1024 := by
    rw [sent_lows]
    split
    · exact Nat.zero_le _
    · exact hlows
  have hdeaf : hearsBreaks (sent u.stationClock level u) = false := by
    rw [hearsBreaks, sent_jamLeft, decide_eq_false (by omega), Bool.false_and]
  rw [receiverSample, if_neg fun hc => Nat.not_lt_of_le hloose hc.1, if_neg fun hc => Bool.false_ne_true (hdeaf.symm.trans hc.2),
    if_pos (by rw [sent_jamLeft]; exact hjam)]

theorem jamSample_runs {s : State} (h : s.line.jamLeft ≠ 1) :
    jamSample s = withLine (fun l => { l with jamLeft := l.jamLeft - 1 }) s := if_neg h

theorem jamSample_ends {s : State} (h : s.line.jamLeft = 1) :
    jamSample s = withLine (fun l => { LineInterface.toOutside l.highs l with jamLeft := 0, hunt := .hunting }) s := if_pos h

theorem playLine_jams (hjam : 1 < u.line.jamLeft) (hlows : u.line.lows < 1024) (ha : u.line.attempt = none)
    (hrx : u.line.rx = .character) : (playLine [level] 0 u).line.rx = .character ∧
      (playLine [level] 0 u).line.jamLeft = u.line.jamLeft - 1 ∧ (playLine [level] 0 u).line.driver = .jam := by
  have hsent : (sent u.stationClock level u).line.jamLeft = u.line.jamLeft := sent_jamLeft
  have hrx' : (sent u.stationClock level u).line.rx = .character := sent_rx.trans hrx
  have hreceived : received u.stationClock level u =
      withLine (fun l => { l with jamLeft := l.jamLeft - 1 }) (sent u.stationClock level u) := by
    rw [received, received_jams (by omega) hlows, jamSample_runs (by omega)]
  rw [playLine_single, lineSample_begins (by rw [hrx]; exact (nomatch ·)) ha, concluded_of_none ha, hreceived]
  generalize sent u.stationClock level u = w at *
  have hbegin := beginSample_of_rx (s := drive (withLine (fun l => { l with jamLeft := l.jamLeft - 1 }) w))
    (by show w.line.rx ≠ .outside; rw [hrx']; exact (nomatch ·))
  rw [hbegin]
  refine ⟨hrx', by show w.line.jamLeft - 1 = _; rw [hsent], ?_⟩
  show (drive _).line.driver = _
  rw [drive_driver, if_pos]
  show 0 < w.line.jamLeft - 1
  omega

theorem playLine_jam_ends (hjam : u.line.jamLeft = 1) (hlows : u.line.lows < 1024) (ha : u.line.attempt = none)
    (howed : u.line.vetoOwed = none) (hrx : u.line.rx = .character) :
    (playLine [level] 0 u).line.rx = .outside ∧ (playLine [level] 0 u).line.jamLeft = 0 ∧ (playLine [level] 0 u).line.driver ≠ .jam ∧
      (level = false ∨ u.line.highs < 223 → (playLine [level] 0 u).line.driver = .released) ∧
      (playLine [level] 0 u).line.idleCount = if level then u.line.highs + 1 else 0 := by
  have hhighs : (sent u.stationClock level u).line.highs = if level then u.line.highs + 1 else 0 := sent_highs
  have hlows' : (sent u.stationClock level u).line.lows = if level then 0 else u.line.lows + 1 := sent_lows
  have hnone := (received_noAttempt (clk := u.stationClock) (level := level) ha).attempt
  have howed' : (sent u.stationClock level u).line.vetoOwed = none := by
    rw [sent_of_none ha]
    exact heard_owes howed
  have hreceived : received u.stationClock level u =
      withLine (fun l => { LineInterface.toOutside l.highs l with jamLeft := 0, hunt := .hunting }) (sent u.stationClock level u) := by
    rw [received, received_jams (by omega) hlows, jamSample_ends (sent_jamLeft.trans hjam)]
  rw [playLine_single, lineSample_begins (by rw [hrx]; exact (nomatch ·)) ha, concluded_of_none ha, hreceived]
  rw [hreceived] at hnone
  generalize sent u.stationClock level u = w at *
  have hreleased := drive_released
    (s := withLine (fun l => { LineInterface.toOutside l.highs l with jamLeft := 0, hunt := .hunting }) w) rfl rfl
    (drivesOwed_none howed') (drivesAttempt_none hnone)
  generalize hd : drive (withLine (fun l => { LineInterface.toOutside l.highs l with jamLeft := 0, hunt := .hunting }) w) = d at *
  have hrx' : d.line.rx = .outside := hd ▸ rfl
  have hjam' : d.line.jamLeft = 0 := hd ▸ rfl
  have hidle : d.line.idleCount = if level then u.line.highs + 1 else 0 := hd ▸ hhighs
  have hlow : d.line.lows = if level then 0 else u.line.lows + 1 := hd ▸ hlows'
  have hsame := beginSample_eq d
  refine ⟨?_, ?_, ?_, fun hquiet => ?_, ?_⟩
  · rw [hsame]
    exact hrx'
  · rw [hsame]
    exact hjam'
  · show (beginSample d).1.line.driver ≠ .jam
    unfold beginSample
    split
    · show d.line.driver ≠ .jam
      rw [hreleased]
      exact (nomatch ·)
    · exact (nomatch ·)
  · have hstay : beginSample d = (d, []) := by
      rcases hquiet with rfl | hless
      · refine beginSample_of_low ?_
        rw [hlow]
        exact Nat.succ_ne_zero _
      · refine beginSample_of_count ?_
        rw [hidle]
        split
        · omega
        · omega
    rw [hstay]
    exact hreleased
  · rw [hsame]
    exact hidle

end

/-- Settles O16: the unusable header, the station character after it, the beginning of the jam, and the jam itself. -/
theorem unusableHeaderIsJammed : Obligations.UnusableHeaderIsJammed := by
  intro before s
  dsimp only
  generalize hu : playLine before 1 s = u
  refine ⟨fun level highs bits hrx hhunt hjam hshort => ⟨fun hassembling hframe husable =>
    headerUnusable_happens hu hrx hhunt hjam hshort hassembling hframe husable,
    fun hassembling => playLine_station hrx hhunt hjam hshort hassembling⟩,
    fun hwait hready hactive hrx hhunt hjam hlows ha => jam_happens hu hwait hready hactive hrx hhunt hjam hlows ha,
    fun level hjam hlows ha howed hrx => ⟨congrArg Host.Outcome.next (lineCommand_not ?_),
      fun hmore => playLine_jams hmore hlows ha hrx, fun hlast => playLine_jam_ends hlast hlows ha howed hrx⟩⟩
  rw [hu, mem_lineSample_receiver (by rw [hrx]; exact (nomatch ·)) (by simp [LineEvent.ofReceiver]), received_jams hjam hlows]
  exact List.not_mem_nil

end Sys2Proof.Machine
end
